-- ==== Sys2Proof/Word.lean ====
section
/-!
DEFINITION. The word types of the LIA-DSP block (spec/00_scope.md R10): a word is 64 bits,
`f64` and `f32` values are their IEEE 754 bit patterns.
-/

namespace Sys2Proof

/-- A message word: 64 bits (R10, R91). -/
abbrev Word := BitVec 64

/-- One byte of the shared region (R60). -/
abbrev Byte := BitVec 8

/-- The pattern of an IEEE 754 binary64 value (`f64bits`, R10).  Equality of `F64` is equality of
patterns; the IEEE comparisons are `feq`, `flt`, `fle` of Machine/Float.lean. -/
abbrev F64 := BitVec 64

/-- The pattern of an IEEE 754 binary32 value (`f32bits`, R10). -/
abbrev F32 := BitVec 32

end Sys2Proof
end

