-- ==== Sys2Proof/Syntax.lean ====
section
/-!
DEFINITION. The operations of the block (30_encoding.md R95, spec/opcode_table.json): one constructor
of `Instr` per row of the table, with its operands as R91 to R96 give them.
-/

namespace Sys2Proof

/-- The two command ports (R90). -/
inductive Port where
  | producer
  | consumer
  deriving DecidableEq, Repr

/-- Selector `osc` (R96). -/
inductive OscSel where
  | ref
  | mod
  deriving DecidableEq, Repr

/-- Selector `bq` (R96). -/
inductive BqSel where
  | bpf
  | lpfI
  | lpfQ
  deriving DecidableEq, Repr

/-- Selector `mode` (R96) and the register `mixerMode` (R33). -/
inductive MixMode where
  | analog
  | digital
  deriving DecidableEq, Repr

/-- Selector `ch` (R96): the thirteen channels in the order of 10_state.md R22. -/
inductive Chan where
  | reference
  | modulating
  | modulatingPlusNoise
  | sensorClean
  | noise
  | sensor
  | afterBpf
  | mixerI
  | mixerQ
  | iOutput
  | qOutput
  | signedOutput
  | time
  deriving DecidableEq, Repr

/-- The scalar parameter ids of R94 (every `pid` but 0x17). -/
inductive Pid where
  | sampleRate
  | ringCapacity
  | snapshotRate
  | referenceFrequency
  | referenceAmplitude
  | modulatingFrequency
  | modulationIndex
  | phaseShift
  | sensorOutputAmplitude
  | whiteNoiseAmplitude
  | bpfEnabled
  | bpfCenterFrequency
  | bpfBandwidth
  | bpfOrder
  | lpfCutoffFrequency
  | lpfOrder
  | mixerMode
  deriving DecidableEq, Repr

/-- One interferer of a list: id, frequency in Hz, amplitude in V (R93 format LI). -/
structure Interferer where
  id : Word
  frequency : F64
  amplitude : F64
  deriving DecidableEq, Repr

/-- The coefficients of one biquad section (R93 format LB, R161). -/
structure Coeffs where
  b0 : F64
  b1 : F64
  b2 : F64
  a1 : F64
  a2 : F64
  deriving DecidableEq, Repr

/-- A parameter record of START and UPDATE (R94). -/
inductive ParamRecord where
  /-- A scalar field and its value word. -/
  | scalar (pid : Pid) (value : Word)
  /-- `pid` 0x17: the whole interferer list. -/
  | interferers (list : List Interferer)
  deriving DecidableEq, Repr

/-- A message (R91): a header word and the payload words.  The transport preserves boundaries, so a
message always has a header. -/
structure Message where
  header : Word
  payload : List Word
  deriving DecidableEq, Repr

/-- The operations of R95, in the order of spec/opcode_table.json. -/
inductive Instr where
  /-- INIT `bufferBytes`, `snapshotPoints` -/
  | init (bufferBytes snapshotPoints : Word)
  /-- START `now`, `records` -/
  | start (now : F64) (records : List ParamRecord)
  /-- STOP -/
  | stop
  /-- UPDATE `records` -/
  | update (records : List ParamRecord)
  /-- TICK `now` -/
  | tick (now : F64)
  /-- SAMPLE -/
  | sample
  /-- SNAP -/
  | snap
  /-- OSC.PHASE `osc` -/
  | oscPhase (osc : OscSel)
  /-- OSC.PHASEOF `osc`, `offset` -/
  | oscPhaseof (osc : OscSel) (offset : F64)
  /-- OSC.SINE `osc`, `f`, `A` -/
  | oscSine (osc : OscSel) (f a : F64)
  /-- OSC.SQUARE `osc`, `f`, `A` -/
  | oscSquare (osc : OscSel) (f a : F64)
  /-- OSC.ADVANCE `osc`, `f` -/
  | oscAdvance (osc : OscSel) (f : F64)
  /-- OSC.RESET `osc` -/
  | oscReset (osc : OscSel)
  /-- NOISE.GAUSS `σ` -/
  | noiseGauss (sigma : F64)
  /-- NOISE.UNIFORM -/
  | noiseUniform
  /-- INTF.INSTALL `list` -/
  | intfInstall (list : List Interferer)
  /-- INTF.GEN -/
  | intfGen
  /-- BQ.PROC `bq`, `x` -/
  | bqProc (bq : BqSel) (x : F64)
  /-- BQ.RESET `bq` -/
  | bqReset (bq : BqSel)
  /-- BQ.REPL `bq`, `sections` -/
  | bqRepl (bq : BqSel) (sections : List Coeffs)
  /-- MIX `mode`, `s`, `θ_ref`, `A_ref` -/
  | mix (mode : MixMode) (s theta aRef : F64)
  /-- DUT.GEN -/
  | dutGen
  /-- RING.PUSH `ch`, `v` -/
  | ringPush (ch : Chan) (v : F64)
  /-- RING.SNAP `ch`, `maxPoints` -/
  | ringSnap (ch : Chan) (maxPoints : Word)
  /-- RING.CLEAR `ch` -/
  | ringClear (ch : Chan)
  /-- DB.ACQW -/
  | dbAcqw
  /-- DB.PUB -/
  | dbPub
  /-- DB.ACQR (C-port) -/
  | dbAcqr
  /-- FFT.RUN `fs`, `x` (C-port) -/
  | fftRun (fs : F64) (x : List F64)
  /-- FFT.CHAN `ch` (C-port) -/
  | fftChan (ch : Chan)
  deriving DecidableEq, Repr

end Sys2Proof
end

