-- ==== Sys2Proof/WellFormed.lean ====
section
/-!
DEFINITION. Which instructions a message can carry: every list must fit its 32-bit count field
(30_encoding.md R91 field `n`, R94 field `m`).  The structural limits of a build and the operand
checks of R97 depend on the state and are made by the operations themselves (log 24).
-/

namespace Sys2Proof

/-- A list whose length fits a 32-bit count field. -/
abbrev fits32 {α : Type} (l : List α) : Prop := l.length < 2 ^ 32

/-- A parameter record whose list fits its count field `m` (R94). -/
def ParamRecord.WellFormed : ParamRecord → Bool
  | .scalar _ _ => true
  | .interferers l => decide (fits32 l)

/-- The instruction has an encoding (R91 to R94). -/
def Instr.WellFormed : Instr → Bool
  | .init _ _ => true
  | .start _ rs => decide (fits32 rs) && rs.all ParamRecord.WellFormed
  | .stop => true
  | .update rs => decide (fits32 rs) && rs.all ParamRecord.WellFormed
  | .tick _ => true
  | .sample => true
  | .snap => true
  | .oscPhase _ => true
  | .oscPhaseof _ _ => true
  | .oscSine _ _ _ => true
  | .oscSquare _ _ _ => true
  | .oscAdvance _ _ => true
  | .oscReset _ => true
  | .noiseGauss _ => true
  | .noiseUniform => true
  | .intfInstall l => decide (fits32 l)
  | .intfGen => true
  | .bqProc _ _ => true
  | .bqReset _ => true
  | .bqRepl _ l => decide (fits32 l)
  | .mix _ _ _ _ => true
  | .dutGen => true
  | .ringPush _ _ => true
  | .ringSnap _ _ => true
  | .ringClear _ => true
  | .dbAcqw => true
  | .dbPub => true
  | .dbAcqr => true
  | .fftRun _ xs => decide (fits32 xs)
  | .fftChan _ => true

end Sys2Proof
end

