-- ==== Sys2Proof/Decode.lean ====
section
/-!
DEFINITION. The bit-level encoding of messages (30_encoding.md R91 to R97, R104): a decoder that is
total on messages and rejects by name, and the encoder written from the same tables.
A rejected message is the illegal message of R97; what becomes of it is `runMessage` of
Machine/Ports.lean (R385).
-/

namespace Sys2Proof

/-! ## Header fields (R91) -/

/-- `H[7:0]`: the operation code. -/
def opField (h : Word) : BitVec 8 := h.extractLsb' 0 8

/-- `H[15:8]`: the selector. -/
def selField (h : Word) : BitVec 8 := h.extractLsb' 8 8

/-- `H[31:16]`: reserved, must be 0. -/
def rsvField (h : Word) : BitVec 16 := h.extractLsb' 16 16

/-- `H[63:32]`: the count of list items. -/
def countField (h : Word) : Nat := (h.extractLsb' 32 32).toNat

/-- A header with reserved bits 0 (R91; R98 uses the same layout for responses and events). -/
def mkHeader (op sel : BitVec 8) (n : Nat) : Word := BitVec.ofNat 32 n ++ 0#16 ++ sel ++ op

/-! ## Operation codes (R95) -/

/-- The operations of R95 without their operands. -/
inductive Opcode where
  | init | start | stop | update | tick | sample | snap | oscPhase
  | oscPhaseof | oscSine | oscSquare | oscAdvance | oscReset | noiseGauss | noiseUniform | intfInstall
  | intfGen | bqProc | bqReset | bqRepl | mix | dutGen | ringPush | ringSnap
  | ringClear | dbAcqw | dbPub | dbAcqr | fftRun | fftChan
  deriving DecidableEq, Repr

/-- The operation code of R95. -/
def Opcode.code : Opcode → BitVec 8
  | .init => 0x01#8
  | .start => 0x02#8
  | .stop => 0x03#8
  | .update => 0x04#8
  | .tick => 0x05#8
  | .sample => 0x06#8
  | .snap => 0x07#8
  | .oscPhase => 0x10#8
  | .oscPhaseof => 0x11#8
  | .oscSine => 0x12#8
  | .oscSquare => 0x13#8
  | .oscAdvance => 0x14#8
  | .oscReset => 0x15#8
  | .noiseGauss => 0x18#8
  | .noiseUniform => 0x19#8
  | .intfInstall => 0x1A#8
  | .intfGen => 0x1B#8
  | .bqProc => 0x20#8
  | .bqReset => 0x21#8
  | .bqRepl => 0x22#8
  | .mix => 0x28#8
  | .dutGen => 0x29#8
  | .ringPush => 0x30#8
  | .ringSnap => 0x31#8
  | .ringClear => 0x32#8
  | .dbAcqw => 0x38#8
  | .dbPub => 0x39#8
  | .dbAcqr => 0x3A#8
  | .fftRun => 0x40#8
  | .fftChan => 0x41#8

/-- Every operation, in the order of R95. -/
def Opcode.all : List Opcode :=
  [.init, .start, .stop, .update, .tick, .sample, .snap, .oscPhase,
   .oscPhaseof, .oscSine, .oscSquare, .oscAdvance, .oscReset, .noiseGauss, .noiseUniform, .intfInstall,
   .intfGen, .bqProc, .bqReset, .bqRepl, .mix, .dutGen, .ringPush, .ringSnap,
   .ringClear, .dbAcqw, .dbPub, .dbAcqr, .fftRun, .fftChan]

/-- The operation of a code; every code not listed is reserved (R97). -/
def Opcode.ofCode (b : BitVec 8) : Option Opcode := Opcode.all.find? (fun o => o.code == b)

/-- The port that accepts the operation (R90, R95). -/
def Opcode.port : Opcode → Port
  | .dbAcqr => .consumer
  | .fftRun => .consumer
  | .fftChan => .consumer
  | .init => .producer
  | .start => .producer
  | .stop => .producer
  | .update => .producer
  | .tick => .producer
  | .sample => .producer
  | .snap => .producer
  | .oscPhase => .producer
  | .oscPhaseof => .producer
  | .oscSine => .producer
  | .oscSquare => .producer
  | .oscAdvance => .producer
  | .oscReset => .producer
  | .noiseGauss => .producer
  | .noiseUniform => .producer
  | .intfInstall => .producer
  | .intfGen => .producer
  | .bqProc => .producer
  | .bqReset => .producer
  | .bqRepl => .producer
  | .mix => .producer
  | .dutGen => .producer
  | .ringPush => .producer
  | .ringSnap => .producer
  | .ringClear => .producer
  | .dbAcqw => .producer
  | .dbPub => .producer

/-! ## Selectors (R96) -/

/-- Selector `osc`: 0 = ref, 1 = mod. -/
def OscSel.code : OscSel → BitVec 8
  | .ref => 0#8
  | .mod => 1#8

/-- The reading of selector `osc`. -/
def OscSel.ofCode (b : BitVec 8) : Option OscSel := [OscSel.ref, .mod].find? (fun o => o.code == b)

/-- Selector `bq`: 0 = bpf, 1 = lpfI, 2 = lpfQ. -/
def BqSel.code : BqSel → BitVec 8
  | .bpf => 0#8
  | .lpfI => 1#8
  | .lpfQ => 2#8

/-- The reading of selector `bq`. -/
def BqSel.ofCode (b : BitVec 8) : Option BqSel :=
  [BqSel.bpf, .lpfI, .lpfQ].find? (fun o => o.code == b)

/-- Selector `mode` and the values of `mixerMode`: 0 = Analog, 1 = Digital. -/
def MixMode.code : MixMode → BitVec 8
  | .analog => 0#8
  | .digital => 1#8

/-- The reading of selector `mode`. -/
def MixMode.ofCode (b : BitVec 8) : Option MixMode :=
  [MixMode.analog, .digital].find? (fun o => o.code == b)

/-- The channel number of 10_state.md R22. -/
def Chan.index : Chan → Nat
  | .reference => 0
  | .modulating => 1
  | .modulatingPlusNoise => 2
  | .sensorClean => 3
  | .noise => 4
  | .sensor => 5
  | .afterBpf => 6
  | .mixerI => 7
  | .mixerQ => 8
  | .iOutput => 9
  | .qOutput => 10
  | .signedOutput => 11
  | .time => 12

/-- The thirteen channels in channel order (R22, R65). -/
def Chan.all : List Chan :=
  [.reference, .modulating, .modulatingPlusNoise, .sensorClean, .noise, .sensor, .afterBpf,
   .mixerI, .mixerQ, .iOutput, .qOutput, .signedOutput, .time]

/-- Selector `ch`: 0 to 12. -/
def Chan.code (c : Chan) : BitVec 8 := BitVec.ofNat 8 c.index

/-- The reading of selector `ch`. -/
def Chan.ofCode (b : BitVec 8) : Option Chan := Chan.all.find? (fun c => c.code == b)

/-! ## Parameter ids (R94) -/

/-- The `pid` of a scalar field. -/
def Pid.code : Pid → BitVec 8
  | .sampleRate => 0x00#8
  | .ringCapacity => 0x01#8
  | .snapshotRate => 0x02#8
  | .referenceFrequency => 0x10#8
  | .referenceAmplitude => 0x11#8
  | .modulatingFrequency => 0x12#8
  | .modulationIndex => 0x13#8
  | .phaseShift => 0x14#8
  | .sensorOutputAmplitude => 0x15#8
  | .whiteNoiseAmplitude => 0x16#8
  | .bpfEnabled => 0x20#8
  | .bpfCenterFrequency => 0x21#8
  | .bpfBandwidth => 0x22#8
  | .bpfOrder => 0x23#8
  | .lpfCutoffFrequency => 0x30#8
  | .lpfOrder => 0x31#8
  | .mixerMode => 0x40#8

/-- Every scalar `pid`. -/
def Pid.all : List Pid :=
  [.sampleRate, .ringCapacity, .snapshotRate, .referenceFrequency, .referenceAmplitude,
   .modulatingFrequency, .modulationIndex, .phaseShift, .sensorOutputAmplitude,
   .whiteNoiseAmplitude, .bpfEnabled, .bpfCenterFrequency, .bpfBandwidth, .bpfOrder,
   .lpfCutoffFrequency, .lpfOrder, .mixerMode]

/-- The scalar field of a `pid`. -/
def Pid.ofCode (b : BitVec 8) : Option Pid := Pid.all.find? (fun p => p.code == b)

/-- The `pid` of the interferer list. -/
def pidInterferers : BitVec 8 := 0x17#8

/-- A tag word `T`: `pid` in 7:0, zero in 31:8, `m` in 63:32. -/
def mkTag (pid : BitVec 8) (m : Nat) : Word := BitVec.ofNat 32 m ++ 0#24 ++ pid

/-- `T[7:0]`. -/
def tagPid (t : Word) : BitVec 8 := t.extractLsb' 0 8

/-- `T[31:8]`, which must be 0. -/
def tagZero (t : Word) : BitVec 24 := t.extractLsb' 8 24

/-- `T[63:32]`. -/
def tagCount (t : Word) : Nat := (t.extractLsb' 32 32).toNat

/-! ## Decoding -/

/-- Why a message is illegal (R97). -/
inductive Reject where
  /-- `op` is not in the table of R95. -/
  | unknownOp
  /-- `rsv ≠ 0`. -/
  | reservedBits
  /-- `sel` outside the range of R96. -/
  | badSelector
  /-- `n ≠ 0` in a format without a list. -/
  | unexpectedCount
  /-- The number of words is not the number R93 gives. -/
  | badLength
  /-- A parameter record breaks R94. -/
  | malformedRecord
  /-- The port does not accept this `op`. -/
  | wrongPort
  deriving DecidableEq, Repr

/-- Formats whose `sel` is 0. -/
def noSel (sel : BitVec 8) (r : Except Reject Instr) : Except Reject Instr :=
  if sel = 0#8 then r else .error .badSelector

/-- Formats without a list. -/
def noList (n : Nat) (r : Except Reject Instr) : Except Reject Instr :=
  if n = 0 then r else .error .unexpectedCount

/-- A selector that must be in range. -/
def withSel {α : Type} (o : Option α) (k : α → Except Reject Instr) : Except Reject Instr :=
  match o with
  | some a => k a
  | none => .error .badSelector

/-- Format Z: no payload. -/
def formZ (ws : List Word) (i : Instr) : Except Reject Instr :=
  match ws with
  | [] => .ok i
  | _ => .error .badLength

/-- Format F1: one operand word. -/
def formF1 (ws : List Word) (k : Word → Instr) : Except Reject Instr :=
  match ws with
  | [a] => .ok (k a)
  | _ => .error .badLength

/-- Format F2: two operand words. -/
def formF2 (ws : List Word) (k : Word → Word → Instr) : Except Reject Instr :=
  match ws with
  | [a, b] => .ok (k a b)
  | _ => .error .badLength

/-- Format F3: three operand words. -/
def formF3 (ws : List Word) (k : Word → Word → Word → Instr) : Except Reject Instr :=
  match ws with
  | [a, b, c] => .ok (k a b c)
  | _ => .error .badLength

/-- Triples `id, frequency, amplitude` (format LI, and the value of `pid` 0x17). -/
def decodeTriples : List Word → Option (List Interferer)
  | [] => some []
  | a :: b :: c :: ws => (decodeTriples ws).map (fun l => ⟨a, b, c⟩ :: l)
  | _ => none

/-- Groups of five coefficient words (format LB). -/
def decodeSections : List Word → Option (List Coeffs)
  | [] => some []
  | a :: b :: c :: d :: e :: ws => (decodeSections ws).map (fun l => ⟨a, b, c, d, e⟩ :: l)
  | _ => none

/-- A list whose length must be the count field `n`. -/
def formList {α : Type} (n : Nat) (o : Option (List α)) (k : List α → Instr) :
    Except Reject Instr :=
  match o with
  | some l => if l.length = n then .ok (k l) else .error .badLength
  | none => .error .badLength

/-- One parameter record off the front of the payload (R94).  R34 of 10_state.md lists an unknown `pid`
among the dropped fields; R94 and R97 make the whole message illegal, "because its length cannot be
trusted", and are followed (DESIGN CHOICE, log 37). -/
def decodeRecord : List Word → Except Reject (ParamRecord × List Word)
  | [] => .error .badLength
  | t :: ws =>
    if tagZero t ≠ 0#24 then .error .malformedRecord
    else if tagPid t = pidInterferers then
      if ws.length < 3 * tagCount t then .error .badLength
      else match decodeTriples (ws.take (3 * tagCount t)) with
        | some l => .ok (.interferers l, ws.drop (3 * tagCount t))
        | none => .error .badLength
    else match Pid.ofCode (tagPid t) with
      | none => .error .malformedRecord
      | some p =>
        if tagCount t ≠ 0 then .error .malformedRecord
        else match ws with
          | [] => .error .badLength
          | v :: ws' => .ok (.scalar p v, ws')

/-- Exactly `n` parameter records (formats LP, LPT). -/
def decodeRecords : Nat → List Word → Except Reject (List ParamRecord)
  | 0, [] => .ok []
  | 0, _ :: _ => .error .badLength
  | n + 1, ws =>
    match decodeRecord ws with
    | .error e => .error e
    | .ok (r, ws') =>
      match decodeRecords n ws' with
      | .error e => .error e
      | .ok rs => .ok (r :: rs)

/-- Formats LP and LPT after the `now` word. -/
def formRecords (n : Nat) (ws : List Word) (k : List ParamRecord → Instr) : Except Reject Instr :=
  match decodeRecords n ws with
  | .ok rs => .ok (k rs)
  | .error e => .error e

/-- The instruction of an operation with selector, count and payload (R93, R95, R96). -/
def decodeBody (op : Opcode) (sel : BitVec 8) (n : Nat) (ws : List Word) : Except Reject Instr :=
  match op with
  | .init => noSel sel (noList n (formF2 ws .init))
  | .start =>
    noSel sel (match ws with
      | [] => .error .badLength
      | now :: ws' => formRecords n ws' (.start now))
  | .stop => noSel sel (noList n (formZ ws .stop))
  | .update => noSel sel (formRecords n ws .update)
  | .tick => noSel sel (noList n (formF1 ws .tick))
  | .sample => noSel sel (noList n (formZ ws .sample))
  | .snap => noSel sel (noList n (formZ ws .snap))
  | .oscPhase => noList n (withSel (OscSel.ofCode sel) fun o => formZ ws (.oscPhase o))
  | .oscPhaseof => noList n (withSel (OscSel.ofCode sel) fun o => formF1 ws (.oscPhaseof o))
  | .oscSine => noList n (withSel (OscSel.ofCode sel) fun o => formF2 ws (.oscSine o))
  | .oscSquare => noList n (withSel (OscSel.ofCode sel) fun o => formF2 ws (.oscSquare o))
  | .oscAdvance => noList n (withSel (OscSel.ofCode sel) fun o => formF1 ws (.oscAdvance o))
  | .oscReset => noList n (withSel (OscSel.ofCode sel) fun o => formZ ws (.oscReset o))
  | .noiseGauss => noSel sel (noList n (formF1 ws .noiseGauss))
  | .noiseUniform => noSel sel (noList n (formZ ws .noiseUniform))
  | .intfInstall => noSel sel (formList n (decodeTriples ws) .intfInstall)
  | .intfGen => noSel sel (noList n (formZ ws .intfGen))
  | .bqProc => noList n (withSel (BqSel.ofCode sel) fun b => formF1 ws (.bqProc b))
  | .bqReset => noList n (withSel (BqSel.ofCode sel) fun b => formZ ws (.bqReset b))
  | .bqRepl => withSel (BqSel.ofCode sel) fun b => formList n (decodeSections ws) (.bqRepl b)
  | .mix => noList n (withSel (MixMode.ofCode sel) fun m => formF3 ws (.mix m))
  | .dutGen => noSel sel (noList n (formZ ws .dutGen))
  | .ringPush => noList n (withSel (Chan.ofCode sel) fun c => formF1 ws (.ringPush c))
  | .ringSnap => noList n (withSel (Chan.ofCode sel) fun c => formF1 ws (.ringSnap c))
  | .ringClear => noList n (withSel (Chan.ofCode sel) fun c => formZ ws (.ringClear c))
  | .dbAcqw => noSel sel (noList n (formZ ws .dbAcqw))
  | .dbPub => noSel sel (noList n (formZ ws .dbPub))
  | .dbAcqr => noSel sel (noList n (formZ ws .dbAcqr))
  | .fftRun =>
    noSel sel (match ws with
      | [] => .error .badLength
      | fs :: xs => formList n (some xs) (.fftRun fs))
  | .fftChan => noList n (withSel (Chan.ofCode sel) fun c => formZ ws (.fftChan c))

/-- The instruction a message encodes, whatever port it came on (R91 to R96, R104). -/
def decodeMessage (m : Message) : Except Reject Instr :=
  match Opcode.ofCode (opField m.header) with
  | none => .error .unknownOp
  | some op =>
    if rsvField m.header ≠ 0#16 then .error .reservedBits
    else decodeBody op (selField m.header) (countField m.header) m.payload

/-! ## Encoding -/

/-- The operation of an instruction. -/
def Instr.opcode : Instr → Opcode
  | .init _ _ => .init
  | .start _ _ => .start
  | .stop => .stop
  | .update _ => .update
  | .tick _ => .tick
  | .sample => .sample
  | .snap => .snap
  | .oscPhase _ => .oscPhase
  | .oscPhaseof _ _ => .oscPhaseof
  | .oscSine _ _ _ => .oscSine
  | .oscSquare _ _ _ => .oscSquare
  | .oscAdvance _ _ => .oscAdvance
  | .oscReset _ => .oscReset
  | .noiseGauss _ => .noiseGauss
  | .noiseUniform => .noiseUniform
  | .intfInstall _ => .intfInstall
  | .intfGen => .intfGen
  | .bqProc _ _ => .bqProc
  | .bqReset _ => .bqReset
  | .bqRepl _ _ => .bqRepl
  | .mix _ _ _ _ => .mix
  | .dutGen => .dutGen
  | .ringPush _ _ => .ringPush
  | .ringSnap _ _ => .ringSnap
  | .ringClear _ => .ringClear
  | .dbAcqw => .dbAcqw
  | .dbPub => .dbPub
  | .dbAcqr => .dbAcqr
  | .fftRun _ _ => .fftRun
  | .fftChan _ => .fftChan

/-- The selector of an instruction (R96; 0 where it has none). -/
def Instr.selector : Instr → BitVec 8
  | .oscPhase o => o.code
  | .oscPhaseof o _ => o.code
  | .oscSine o _ _ => o.code
  | .oscSquare o _ _ => o.code
  | .oscAdvance o _ => o.code
  | .oscReset o => o.code
  | .bqProc b _ => b.code
  | .bqReset b => b.code
  | .bqRepl b _ => b.code
  | .mix m _ _ _ => m.code
  | .ringPush c _ => c.code
  | .ringSnap c _ => c.code
  | .ringClear c => c.code
  | .fftChan c => c.code
  | .init _ _ => 0#8
  | .start _ _ => 0#8
  | .stop => 0#8
  | .update _ => 0#8
  | .tick _ => 0#8
  | .sample => 0#8
  | .snap => 0#8
  | .noiseGauss _ => 0#8
  | .noiseUniform => 0#8
  | .intfInstall _ => 0#8
  | .intfGen => 0#8
  | .dutGen => 0#8
  | .dbAcqw => 0#8
  | .dbPub => 0#8
  | .dbAcqr => 0#8
  | .fftRun _ _ => 0#8

/-- The count field of an instruction (R91; 0 in a format without a list). -/
def Instr.count : Instr → Nat
  | .start _ rs => rs.length
  | .update rs => rs.length
  | .intfInstall l => l.length
  | .bqRepl _ l => l.length
  | .fftRun _ xs => xs.length
  | .init _ _ => 0
  | .stop => 0
  | .tick _ => 0
  | .sample => 0
  | .snap => 0
  | .oscPhase _ => 0
  | .oscPhaseof _ _ => 0
  | .oscSine _ _ _ => 0
  | .oscSquare _ _ _ => 0
  | .oscAdvance _ _ => 0
  | .oscReset _ => 0
  | .noiseGauss _ => 0
  | .noiseUniform => 0
  | .intfGen => 0
  | .bqProc _ _ => 0
  | .bqReset _ => 0
  | .mix _ _ _ _ => 0
  | .dutGen => 0
  | .ringPush _ _ => 0
  | .ringSnap _ _ => 0
  | .ringClear _ => 0
  | .dbAcqw => 0
  | .dbPub => 0
  | .dbAcqr => 0
  | .fftChan _ => 0

/-- The three words of an interferer. -/
def Interferer.words (i : Interferer) : List Word := [i.id, i.frequency, i.amplitude]

/-- The five words of a section. -/
def Coeffs.words (c : Coeffs) : List Word := [c.b0, c.b1, c.b2, c.a1, c.a2]

/-- The words of a parameter record (R94). -/
def ParamRecord.words : ParamRecord → List Word
  | .scalar p v => [mkTag p.code 0, v]
  | .interferers l => mkTag pidInterferers l.length :: l.flatMap Interferer.words

/-- The payload of an instruction (R93). -/
def Instr.payload : Instr → List Word
  | .init a b => [a, b]
  | .start now rs => now :: rs.flatMap ParamRecord.words
  | .stop => []
  | .update rs => rs.flatMap ParamRecord.words
  | .tick now => [now]
  | .sample => []
  | .snap => []
  | .oscPhase _ => []
  | .oscPhaseof _ off => [off]
  | .oscSine _ f a => [f, a]
  | .oscSquare _ f a => [f, a]
  | .oscAdvance _ f => [f]
  | .oscReset _ => []
  | .noiseGauss s => [s]
  | .noiseUniform => []
  | .intfInstall l => l.flatMap Interferer.words
  | .intfGen => []
  | .bqProc _ x => [x]
  | .bqReset _ => []
  | .bqRepl _ l => l.flatMap Coeffs.words
  | .mix _ s th a => [s, th, a]
  | .dutGen => []
  | .ringPush _ v => [v]
  | .ringSnap _ k => [k]
  | .ringClear _ => []
  | .dbAcqw => []
  | .dbPub => []
  | .dbAcqr => []
  | .fftRun fs xs => fs :: xs
  | .fftChan _ => []

/-- The message of a well-formed instruction (R91 to R96). -/
def encode (i : Instr) : Message :=
  ⟨mkHeader i.opcode.code i.selector i.count, i.payload⟩

/-- The port an instruction is sent on (R95). -/
def Instr.port (i : Instr) : Port := i.opcode.port

/-- The decoder of a port: a message that arrives on the port that does not accept its `op` is
illegal (R97). -/
def decode (p : Port) (m : Message) : Except Reject Instr :=
  match decodeMessage m with
  | .error e => .error e
  | .ok i => if i.port = p then .ok i else .error .wrongPort

/-! ## Pseudo-operations (R101) -/

/-- RING.CLEARALL: thirteen RING.CLEAR in channel order. -/
def ringClearAll : List Instr := Chan.all.map .ringClear

/-- RING.PUSHALL: thirteen RING.PUSH in channel order. -/
def ringPushAll (vs : List F64) : List Instr := List.zipWith .ringPush Chan.all vs

/-- BQ.BYPASS: BQ.REPL with an empty list. -/
def bqBypass (b : BqSel) : Instr := .bqRepl b []

/-- OSC.RESETALL. -/
def oscResetAll : List Instr := [.oscReset .ref, .oscReset .mod]

/-! ## Words of the opcode table -/

/-- Word `k` of a message whose bits are `w`, the first word least significant. -/
def tableWordAt (w k : Nat) : Word := BitVec.ofNat 64 (w >>> (64 * k))

/-- The words that `n` parameter records starting at word `k` span, added to `k`. -/
def tableRecordsEnd (w : Nat) : Nat → Nat → Nat
  | 0, k => k
  | n + 1, k =>
    if tagPid (tableWordAt w k) = pidInterferers then
      tableRecordsEnd w n (k + 1 + 3 * tagCount (tableWordAt w k))
    else tableRecordsEnd w n (k + 2)

/-- How many words (header included) the message has whose header is word 0 of `w` (R93). -/
def tableMessageLength (w : Nat) : Nat :=
  let n := countField (tableWordAt w 0)
  match Opcode.ofCode (opField (tableWordAt w 0)) with
  | none => 1
  | some op =>
    match op with
    | .init | .oscSine | .oscSquare => 3
    | .tick | .oscPhaseof | .oscAdvance | .noiseGauss | .bqProc | .ringPush | .ringSnap => 2
    | .mix => 4
    | .start => tableRecordsEnd w n 2
    | .update => tableRecordsEnd w n 1
    | .intfInstall => 1 + 3 * n
    | .bqRepl => 1 + 5 * n
    | .fftRun => 2 + n
    | _ => 1

/-- The message of the table word `w` of `nbits` bits: its own words, then operand words of zeros up
to the length its format gives. -/
def tableMessage (nbits w : Nat) : Message :=
  let v := w % 2 ^ nbits
  let len := max ((nbits + 63) / 64) (tableMessageLength v)
  ⟨tableWordAt v 0, (List.range (len - 1)).map (fun k => tableWordAt v (k + 1))⟩

/-- The instruction the decoder reads from a word of spec/opcode_table.json (bit 0 the least
significant bit of the first word; every bit above `nbits` is 0). -/
def decodeTableWord (nbits w : Nat) : Option Instr :=
  match decodeMessage (tableMessage nbits w) with
  | .ok i => some i
  | .error _ => none

end Sys2Proof
end

