-- ==== Sys2Proof/Config.lean ====
section
/-!
DEFINITION. What an implementation of the block fixes, and the values the spec leaves open.
Every `opaque` constant below has no body: nothing can be proved of the value it gives.
-/

namespace Sys2Proof.Config

/-- The structural sizes of 00_scope.md R9 (D26: "left as a named parameter of the model").  They are
carried in `State`, so that a statement about every state holds for every build; no step writes
them (DESIGN CHOICE, log 1). -/
structure Build where
  /-- `RING_CAP_MAX`: largest ring capacity. -/
  ringCapMax : Nat
  /-- `SNAP_MAX`: largest `snapshotPoints`. -/
  snapMax : Nat
  /-- `SHM_BYTES`: bytes of the shared region. -/
  shmBytes : Nat
  /-- `MAX_SECTIONS`: most sections of one cascade. -/
  maxSections : Nat
  /-- `MAX_INTERFERERS`: most interferers of the bank. -/
  maxInterferers : Nat
  deriving DecidableEq, Repr

/-- The constraints of R9 and D26 on the structural sizes. -/
abbrev Build.wf (b : Build) : Prop :=
  1 ≤ b.snapMax ∧ b.snapMax ≤ b.ringCapMax ∧ 2 ≤ b.maxSections

/-- The floating-point operation that delivers a NaN (names the free pattern of the result). -/
inductive FOp where
  | add | sub | mul | div | sqrt | fmod | floor | ceil
  | sin | cos | tan | atan2 | ln | log10 | sign | wrap
  deriving DecidableEq, Repr

/-- Sign and payload of the quiet NaN that an operation delivers for these operands: R11 says only
that a NaN results (log 4). -/
opaque nanBits : FOp → F64 → F64 → BitVec 52

/-- Sign and payload of the binary32 NaN that rounding this NaN to f32 gives (log 4). -/
opaque nanNarrow : F64 → BitVec 23

/-- Sign and payload of the binary64 NaN that widening this binary32 NaN gives (log 4). -/
opaque nanWiden : F32 → BitVec 52

/-- The record `Num` of R12: the elementary functions before the bounds of Machine/Num.lean (log 2). -/
opaque sin : F64 → F64
/-- See `sin`. -/
opaque cos : F64 → F64
/-- See `sin`. -/
opaque tan : F64 → F64
/-- See `sin`. -/
opaque atan2 : F64 → F64 → F64
/-- See `sin`. -/
opaque ln : F64 → F64
/-- See `sin`. -/
opaque log10 : F64 → F64

/-- The uniform source of R140 before its range is enforced: the k-th draw (log 5). -/
opaque uniform : Nat → F64

/-- A free f64 output of a FrameReady with an empty average (U2, log 6). -/
opaque freeOutput : Nat → F64

/-- A free element of a block read through FFT.CHAN where the spec gives it no value (U4, log 14). -/
opaque freeElement : Nat → F32

/-- What element `k` of ring `c` holds before anything is pushed there (R35, U5, log 20). -/
opaque ringPowerOn : Nat → Nat → F32

/-- `Wrap180` of a finite phase whose formula, evaluated step by step, leaves `(−180, 180]` (log 9). -/
opaque wrapOutside : F64 → F64

/-- The normal form of a finite `phaseShift` whose formula, evaluated step by step, leaves `[0, 360)`
(log 9). -/
opaque phaseOutside : F64 → F64

/-- What the clamp of a `timeScale` makes of a NaN (R312, log 40). -/
opaque nanTimeScale : F64 → F64

/-- The count field of a response whose payload has 2^32 words or more (R98, log 38). -/
opaque longCount : Nat → BitVec 32

/-- What `sampleCount` holds after the increment of 2^64 − 1 (U9, log 7). -/
opaque sampleCountAfterMax : BitVec 64

/-- What `avgCount` holds after the increment of 2^64 − 1 (U9, log 7). -/
opaque avgCountAfterMax : BitVec 64

/-- Which of the contents that a consumer's read can still see it sees (R72, R74, U3, log 16). -/
opaque readVersion : Nat → Nat → Nat

/-- Which of the moves that are possible is made next: the two ports run concurrently and the
order of their steps is free (D20, U10). -/
inductive Turn where
  /-- The producer takes the next message of the P-port. -/
  | producer
  /-- The consumer takes the next message of the C-port, or finishes the one in progress. -/
  | consumer
  /-- The consumer receives the oldest record of the event port. -/
  | receive
  deriving DecidableEq, Repr, Inhabited

/-- The concurrency choices for one step (log 15, 16, 17). -/
structure Choice where
  /-- Who moves, where more than one can. -/
  turn : Turn
  /-- An FFT.CHAN that starts in this step overlaps later steps of the producer. -/
  overlap : Bool
  /-- A STOP waiting behind a TICK takes effect between the two phases of the TICK (R283). -/
  stopCut : Bool
  deriving DecidableEq, Repr, Inhabited

/-- The k-th set of concurrency choices: nothing is known of it (log 15). -/
opaque choiceAt : Nat → Choice

/-- `SIGN_AT_ZERO` of R14 and D11: the named parameter, with the value 0 the spec gives it. -/
def signAtZero : F64 := 0#64

end Sys2Proof.Config
end

