-- ==== Sys2Proof/Machine/State.lean ====
section
/-!
DEFINITION. The architectural state of the block (10_state.md R20 to R43) as plain data, grouped by
the unit that owns it, and its reset value (R42).  Operations over it are in Machine/Ops.lean.
-/

namespace Sys2Proof.Machine

/-- One value per channel, in the order of R22. -/
structure PerChan (α : Type) where
  reference : α
  modulating : α
  modulatingPlusNoise : α
  sensorClean : α
  noise : α
  sensor : α
  afterBpf : α
  mixerI : α
  mixerQ : α
  iOutput : α
  qOutput : α
  signedOutput : α
  time : α
  deriving DecidableEq, Repr

/-- The same value in every channel. -/
def PerChan.const {α : Type} (a : α) : PerChan α := ⟨a, a, a, a, a, a, a, a, a, a, a, a, a⟩

/-- The value of one channel. -/
def PerChan.get {α : Type} (p : PerChan α) : Chan → α
  | .reference => p.reference
  | .modulating => p.modulating
  | .modulatingPlusNoise => p.modulatingPlusNoise
  | .sensorClean => p.sensorClean
  | .noise => p.noise
  | .sensor => p.sensor
  | .afterBpf => p.afterBpf
  | .mixerI => p.mixerI
  | .mixerQ => p.mixerQ
  | .iOutput => p.iOutput
  | .qOutput => p.qOutput
  | .signedOutput => p.signedOutput
  | .time => p.time

/-- One channel replaced, the other twelve kept. -/
def PerChan.set {α : Type} (p : PerChan α) (c : Chan) (a : α) : PerChan α :=
  match c with
  | .reference => { p with reference := a }
  | .modulating => { p with modulating := a }
  | .modulatingPlusNoise => { p with modulatingPlusNoise := a }
  | .sensorClean => { p with sensorClean := a }
  | .noise => { p with noise := a }
  | .sensor => { p with sensor := a }
  | .afterBpf => { p with afterBpf := a }
  | .mixerI => { p with mixerI := a }
  | .mixerQ => { p with mixerQ := a }
  | .iOutput => { p with iOutput := a }
  | .qOutput => { p with qOutput := a }
  | .signedOutput => { p with signedOutput := a }
  | .time => { p with time := a }

/-- A value per channel, from the channel. -/
def PerChan.ofFn {α : Type} (f : Chan → α) : PerChan α :=
  ⟨f .reference, f .modulating, f .modulatingPlusNoise, f .sensorClean, f .noise, f .sensor,
   f .afterBpf, f .mixerI, f .mixerQ, f .iOutput, f .qOutput, f .signedOutput, f .time⟩

/-- The lifecycle flags and the view registers (R21, R30, R36). -/
structure Control where
  /-- Set by a successful INIT, cleared only by reset. -/
  initialised : Bool
  /-- The source's `isRunning`. -/
  running : Bool
  /-- Byte length of the region the host declared. -/
  shmSize : Nat
  /-- `P`. -/
  snapshotPoints : Nat
  deriving DecidableEq, Repr

/-- The legal values of `bpfOrder` and `lpfOrder` (R32, R33): 1, 2, 4. -/
inductive FilterOrder where
  | one
  | two
  | four
  deriving DecidableEq, Repr

/-- The parameter registers (R30 to R33). -/
structure Params where
  /-- `fs`, Hz. -/
  sampleRate : F64
  /-- `C`, samples. -/
  ringCapacity : Nat
  snapshotRate : F64
  referenceFrequency : F64
  referenceAmplitude : F64
  modulatingFrequency : F64
  modulationIndex : F64
  /-- Degrees. -/
  phaseShift : F64
  sensorOutputAmplitude : F64
  whiteNoiseAmplitude : F64
  interferers : List Interferer
  bpfEnabled : Bool
  bpfCenterFrequency : F64
  bpfBandwidth : F64
  bpfOrder : FilterOrder
  lpfCutoffFrequency : F64
  lpfOrder : FilterOrder
  mixerMode : MixMode
  deriving DecidableEq, Repr

/-- The defaults of R7, R30 to R33 and R344. -/
def Params.default : Params :=
  { sampleRate := 0x40E86A0000000000#64           -- 50 000
    ringCapacity := 100000
    snapshotRate := 0x403E000000000000#64         -- 30
    referenceFrequency := 0x4059000000000000#64   -- 100
    referenceAmplitude := 0x3FF0000000000000#64   -- 1
    modulatingFrequency := 0x4024000000000000#64  -- 10
    modulationIndex := 0x3FE0000000000000#64      -- 0.5
    phaseShift := 0#64
    sensorOutputAmplitude := 0x3FF0000000000000#64 -- 1
    whiteNoiseAmplitude := 0x3FB999999999999A#64  -- 0.1
    interferers := []
    bpfEnabled := true
    bpfCenterFrequency := 0x4059000000000000#64   -- 100
    bpfBandwidth := 0x4049000000000000#64         -- 50
    bpfOrder := .two
    lpfCutoffFrequency := 0x4024000000000000#64   -- 10
    lpfOrder := .two
    mixerMode := .analog }

/-- One biquad section: coefficients and the two past inputs and outputs (R25). -/
structure Section where
  c : Coeffs
  x1 : F64
  x2 : F64
  y1 : F64
  y2 : F64
  deriving DecidableEq, Repr

/-- One sinusoid of the interferer bank (R28). -/
structure BankEntry where
  freq : F64
  amp : F64
  phase : F64
  deriving DecidableEq, Repr

/-- The units of the signal chain and the sequencer's registers (R22 to R29). -/
structure Chain where
  /-- The channel vector V[0..12]. -/
  v : PerChan F64
  sampleCount : BitVec 64
  /-- Phase of `osc[0]`. -/
  oscRef : F64
  /-- Phase of `osc[1]`. -/
  oscMod : F64
  /-- `bq[0]`. -/
  bpf : List Section
  /-- `bq[1]`. -/
  lpfI : List Section
  /-- `bq[2]`. -/
  lpfQ : List Section
  iSum : F64
  qSum : F64
  avgCount : BitVec 64
  hasSpare : Bool
  spare : F64
  bank : List BankEntry
  /-- Radians. -/
  bpfPhaseOffset : F64
  /-- Milliseconds. -/
  lastSampleTime : F64
  /-- Milliseconds. -/
  lastPublishTime : F64
  deriving DecidableEq, Repr

/-- One ring (R35): write index, count, and the elements that have been written, in rising order of
index; every other element holds `Config.ringPowerOn` (log 20). -/
structure Ring where
  w : Nat
  n : Nat
  cells : List (Nat × F32)
  deriving DecidableEq, Repr

/-- The shared region as (address, byte) pairs in rising order of address; an address that is not
listed reads as 0, which is its reset value (R36), and no entry holds 0. -/
abbrev Memory := List Host.Cell

/-- The consumer's registers (R37 to R39). -/
structure Consumer where
  fftRe : List F64
  fftIm : List F64
  fftN : Nat
  /-- `DATALEN`. -/
  dataLen : Nat
  /-- `EFFRATE`. -/
  effRate : F64
  outI : F64
  outQ : F64
  outSigned : F64
  outPhase : F64
  trigValid : Bool
  trigTime : F64
  trigIndex : Nat
  trigPrevLatest : F64
  deriving DecidableEq, Repr

/-- A response or event record (R98, R99): the header fields `op` and `sel`, and the payload, whose
length is the header's `n`. -/
structure Record where
  op : BitVec 8
  sel : BitVec 8
  payload : List Word
  deriving DecidableEq, Repr

/-- The message streams (R90). -/
structure Ports where
  /-- Messages waiting on the P-port, oldest first. -/
  pPort : List Message
  /-- Messages waiting on the C-port, oldest first. -/
  cPort : List Message
  /-- Responses of P-port operations, oldest first. -/
  pResp : List Record
  /-- Responses of C-port operations, oldest first. -/
  cResp : List Record
  /-- Records of the event port that the consumer has not received, oldest first. -/
  events : List Record
  deriving DecidableEq, Repr

/-- The block that the consumer's last DB.ACQR acquired, and what its plain reads may still see (R70,
R72, R74, log 16, 42). -/
structure View where
  /-- Byte offset of the block. -/
  base : Nat
  /-- `P` of the layout in which it was acquired. -/
  points : Nat
  /-- The layout has moved (U4). -/
  relaid : Bool
  /-- The contents the region had since the consumer's last acquire load, before its present one, oldest
  first: version `v` is the `v`-th of them, and the version after the last is the region itself. -/
  past : List Memory
  /-- By offset, the version of a word that the consumer has read since: a later read of that word sees
  no earlier one (R72 (a), (d)). -/
  seen : List (Nat × Nat)
  deriving DecidableEq, Repr

/-- An FFT.CHAN that has acquired its block and not yet read it (log 16). -/
structure ChanTask where
  ch : Chan
  /-- Byte offset of element 0 of the channel in the acquired block. -/
  addr : Nat
  /-- `DATALEN` when the operation began. -/
  len : Nat
  /-- `EFFRATE` when the operation began. -/
  rate : F64
  /-- The layout had moved since the last publish (U4). -/
  relaid : Bool
  deriving DecidableEq, Repr

/-- Read positions of the free sequences and the choices that concurrency leaves open: the model's
own fields, not the spec's (log 5, 6, 14 to 17, 22, 42). -/
structure Free where
  /-- Draws taken from the uniform source (R140). -/
  drawPos : Nat
  /-- Free values used. -/
  freeCount : Nat
  /-- The choices for the next step. -/
  choice : Config.Choice
  /-- Choices taken. -/
  choiceCount : Nat
  /-- The FFT.CHAN in progress. -/
  task : Option ChanTask
  /-- The layout of the shared region has moved since the last publish (U4). -/
  relaid : Bool
  /-- The view the consumer holds. -/
  view : View
  deriving DecidableEq, Repr

/-- The state of the block. -/
structure State where
  /-- The structural sizes of this build (R9): a parameter, written by no step (log 1). -/
  build : Config.Build
  ctl : Control
  params : Params
  chain : Chain
  rings : PerChan Ring
  /-- The shared region `Shm`. -/
  shm : Memory
  cons : Consumer
  ports : Ports
  free : Free
  deriving DecidableEq, Repr

/-- Why a step stops with a fault. -/
inductive Fault where
  /-- Raised by an access to a byte of the shared region at or beyond SHM_BYTES, which does not exist
  (R69).  SAFE: R387 says no rule forms such an address; it is reached only from states that no
  run reaches (log 13). -/
  | shmOutOfRegion
  deriving DecidableEq, Repr

/-- Why a step gives an instruction no meaning. -/
inductive Refusal where
  /-- Raised by `exec` for an instruction the model gives no meaning.  SAFE. -/
  | notModelled (mnemonic : String)
  /-- Raised where the flag word of the shared region is neither 0 nor 1: U6 puts it outside the spec,
  treatment "refuse"; only a host that supplies such a word reaches it (R412).  SAFE (log 12). -/
  | flagWordOutsideSpec
  deriving DecidableEq, Repr

/-- The outcome of an operation. -/
abbrev Result := Host.Outcome State Fault Refusal

/-- The build of `State.reset`: the unbounded one that R9 and D26 allow; every size is the largest
value the 64-bit and 32-bit fields of a message can name (DESIGN CHOICE, log 1). -/
def resetBuild : Config.Build :=
  { ringCapMax := 2 ^ 64 - 1
    snapMax := 2 ^ 64 - 1
    shmBytes := 2 ^ 64 - 1
    maxSections := 2 ^ 32 - 1
    maxInterferers := 2 ^ 32 - 1 }

/-- The state after power-on reset (R42, R410). -/
def State.reset : State :=
  { build := resetBuild
    ctl := { initialised := false, running := false, shmSize := 0, snapshotPoints := 10000 }
    params := Params.default
    chain :=
      { v := PerChan.const 0#64
        sampleCount := 0#64
        oscRef := 0#64
        oscMod := 0#64
        bpf := []
        lpfI := []
        lpfQ := []
        iSum := 0#64
        qSum := 0#64
        avgCount := 0#64
        hasSpare := false
        spare := 0#64           -- the spec gives none: DESIGN CHOICE (log 21)
        bank := []
        bpfPhaseOffset := 0#64
        lastSampleTime := 0#64
        lastPublishTime := 0#64 }
    rings := PerChan.const { w := 0, n := 0, cells := [] }
    shm := []
    cons :=
      { fftRe := List.replicate 1024 0#64   -- the spec gives none: DESIGN CHOICE (log 21)
        fftIm := List.replicate 1024 0#64   -- DESIGN CHOICE (log 21)
        fftN := 0                           -- DESIGN CHOICE (log 21)
        dataLen := 0
        effRate := 0#64
        outI := 0#64
        outQ := 0#64
        outSigned := 0#64
        outPhase := 0#64
        trigValid := false
        trigTime := 0#64                    -- DESIGN CHOICE (log 21)
        trigIndex := 0                      -- DESIGN CHOICE (log 21)
        trigPrevLatest := 0xFFF0000000000000#64 }  -- −∞
    ports := { pPort := [], cPort := [], pResp := [], cResp := [], events := [] }
    free :=
      { drawPos := 0
        freeCount := 0
        choice := { turn := .producer, overlap := false, stopCut := false }  -- log 22
        choiceCount := 0
        task := none
        relaid := false
        view := { base := 4, points := 10000, relaid := false, past := [], seen := [] } } }  -- log 22

end Sys2Proof.Machine
end

