-- ==== Sys2Proof/Machine/Flags.lean ====
section
/-!
DEFINITION. The status flags of 10_state.md R21 and what they gate: the block has no condition
codes, so its flags are the lifecycle flags (R340), the error kinds that test them (R380 to R389)
and the flag word of the double buffer (R63).
-/

namespace Sys2Proof.Machine

/-- The three lifecycle states of R340; R396: these are all of the machine's states. -/
inductive Lifecycle where
  | uninitialised
  | idle
  | running
  deriving DecidableEq, Repr

/-- The lifecycle state that the two flags give (R340). -/
def Control.lifecycle (c : Control) : Lifecycle :=
  if c.initialised then (if c.running then .running else .idle) else .uninitialised

/-- The error kinds that are reported (R389). -/
inductive ErrorKind where
  | invalidCorner
  | notInitialized
  | shapeMismatch
  | illegalCommand
  deriving DecidableEq, Repr

/-- The kind code of an Error record (R99). -/
def ErrorKind.code : ErrorKind → Word
  | .invalidCorner => 1#64
  | .notInitialized => 2#64
  | .shapeMismatch => 3#64
  | .illegalCommand => 4#64

/-- `op` of a FrameReady record (R99). -/
def frameReadyOp : BitVec 8 := 0xE0#8

/-- `op` of an Error record (R99). -/
def errorOp : BitVec 8 := 0xEE#8

/-- The two blocks of the double buffer (R36). -/
inductive Block where
  | a
  | b
  deriving DecidableEq, Repr

/-- The block number: 0 = A, 1 = B (R64). -/
def Block.index : Block → Nat
  | .a => 0
  | .b => 1

/-- The inactive block: `1 − flag` (R250). -/
def Block.other : Block → Block
  | .a => .b
  | .b => .a

/-- The flag word that makes the block active (R63). -/
def Block.flagWord : Block → BitVec 32
  | .a => 0#32
  | .b => 1#32

/-- The active block of a flag word; a word that is neither 0 nor 1 is outside the spec (U6). -/
def Block.ofFlagWord (w : BitVec 32) : Option Block :=
  if w = 0#32 then some .a else if w = 1#32 then some .b else none

end Sys2Proof.Machine
end

