-- ==== Sys2Proof/Machine/Float.lean ====
section
/-!
DEFINITION. IEEE 754 binary64 and binary32 arithmetic on patterns (00_scope.md R11, D8): round to
nearest even, no fusion, no flush to zero.  Exact results are formed in `Nat` and `Int` and rounded
once.  Where R11 says only that a NaN results, its sign and payload are free (log 4).
-/

namespace Sys2Proof

/-! ## Constants (R8, R13 and the literals of the rules) -/

/-- `+0`. -/
def pZero : F64 := 0x0000000000000000#64
/-- `−0`. -/
def nZero : F64 := 0x8000000000000000#64
/-- `+∞`. -/
def pInf : F64 := 0x7FF0000000000000#64
/-- `−∞`. -/
def nInf : F64 := 0xFFF0000000000000#64
/-- `0.1` (R316). -/
def cTenth : F64 := 0x3FB999999999999A#64
/-- `0.5`. -/
def cHalf : F64 := 0x3FE0000000000000#64
/-- `1`. -/
def cOne : F64 := 0x3FF0000000000000#64
/-- `−1`. -/
def cMinusOne : F64 := 0xBFF0000000000000#64
/-- `2`. -/
def cTwo : F64 := 0x4000000000000000#64
/-- `−2`. -/
def cMinusTwo : F64 := 0xC000000000000000#64
/-- `5` (R312). -/
def cFive : F64 := 0x4014000000000000#64
/-- `20` (R324). -/
def cTwenty : F64 := 0x4034000000000000#64
/-- `180`. -/
def c180 : F64 := 0x4066800000000000#64
/-- `200` (R312). -/
def c200 : F64 := 0x4069000000000000#64
/-- `360`. -/
def c360 : F64 := 0x4076800000000000#64
/-- `1000`. -/
def c1000 : F64 := 0x408F400000000000#64
/-- `TICK_CAP = 2000` (R8). -/
def cTickCap : F64 := 0x409F400000000000#64
/-- `PI` (R13). -/
def cPi : F64 := 0x400921FB54442D18#64
/-- `TWO_PI` (R13). -/
def cTwoPi : F64 := 0x401921FB54442D18#64
/-- `SQRT_HALF = Q2` (R8, R13). -/
def cSqrtHalf : F64 := 0x3FE6A09E667F3BCD#64
/-- `TWO_OVER_PI` (R13). -/
def cTwoOverPi : F64 := 0x3FE45F306DC9C883#64
/-- `0.5412`, the first Q of `Q4` (R8). -/
def cQ4a : F64 := 0x3FE15182A9930BE1#64
/-- `1.3066`, the second Q of `Q4` (R8). -/
def cQ4b : F64 := 0x3FF4E7D566CF41F2#64
/-- `BPF4_BW = 1.55` (R8). -/
def cBpf4Bw : F64 := 0x3FF8CCCCCCCCCCCD#64
/-- `MAG_FLOOR = 1e−10` (R8). -/
def cMagFloor : F64 := 0x3DDB7CDFD9D7BDBB#64
/-- `1 + 1e−6`: the sine of unit amplitude with the tolerance of R12. -/
def cSineBound : F64 := 0x3FF000010C6F7A0B#64
/-- `−10`, the logarithm of the floor (R324: the smallest magnitude is exactly −200 dB). -/
def cMinusTen : F64 := 0xC024000000000000#64

/-! ## Classes and comparisons -/

/-- The sign bit. -/
def signBit (x : F64) : Bool := decide (2 ^ 63 ≤ x.toNat)

/-- The pattern without its sign bit. -/
def magBits (x : F64) : Nat := x.toNat % 2 ^ 63

/-- Exponent field all ones, fraction zero. -/
def infMag64 : Nat := 0x7FF0000000000000

/-- Exponent field all ones, fraction not zero. -/
def isNaN (x : F64) : Bool := decide (infMag64 < magBits x)

/-- One of the two infinities. -/
def isInf (x : F64) : Bool := decide (magBits x = infMag64)

/-- Neither NaN nor infinite. -/
def isFinite (x : F64) : Bool := decide (magBits x < infMag64)

/-- The order of the patterns that are not NaN, with `+0` and `−0` equal. -/
def orderKey (x : F64) : Int := if signBit x then -(magBits x : Int) else (magBits x : Int)

/-- `a < b`; false when either is NaN. -/
def flt (a b : F64) : Bool := !isNaN a && !isNaN b && decide (orderKey a < orderKey b)

/-- `a ≤ b`; false when either is NaN. -/
def fle (a b : F64) : Bool := !isNaN a && !isNaN b && decide (orderKey a ≤ orderKey b)

/-- `a = b`; false when either is NaN, true of `+0` and `−0`. -/
def feq (a b : F64) : Bool := !isNaN a && !isNaN b && decide (orderKey a = orderKey b)

/-- Negation flips the sign bit. -/
def fneg (x : F64) : F64 := x ^^^ 0x8000000000000000#64

/-! ## Unpacked values -/

/-- A binary floating-point value: `(−1)^neg · mant · 2^exp` where finite. -/
inductive FVal where
  | nan
  | inf (neg : Bool)
  | fin (neg : Bool) (mant : Nat) (exp : Int)
  deriving DecidableEq, Repr

/-- The value of a binary64 pattern. -/
def unpack (x : F64) : FVal :=
  let m := magBits x
  if infMag64 < m then .nan
  else if m = infMag64 then .inf (signBit x)
  else if m / 2 ^ 52 = 0 then .fin (signBit x) m (-1074)
  else .fin (signBit x) (m % 2 ^ 52 + 2 ^ 52) ((m / 2 ^ 52 : Nat) - 1075)

/-- The value of a binary32 pattern. -/
def unpack32 (x : F32) : FVal :=
  let m := x.toNat % 2 ^ 31
  let neg := decide (2 ^ 31 ≤ x.toNat)
  if 0x7F800000 < m then .nan
  else if m = 0x7F800000 then .inf neg
  else if m / 2 ^ 23 = 0 then .fin neg m (-149)
  else .fin neg (m % 2 ^ 23 + 2 ^ 23) ((m / 2 ^ 23 : Nat) - 150)

/-! ## Rounding -/

/-- `m / 2^k` rounded to nearest, ties to even. -/
def roundShift (m k : Nat) : Nat :=
  let q := m / 2 ^ k
  let r := m % 2 ^ k
  if 2 ^ k < 2 * r ∨ (2 * r = 2 ^ k ∧ q % 2 = 1) then q + 1 else q

/-- Magnitude bits of `m · 2^e` in a format with `fb` fraction bits and smallest exponent `emin`,
rounded to nearest even; `infMag` where it overflows. -/
def roundMag (fb : Nat) (emin : Int) (infMag m : Nat) (e : Int) : Nat :=
  if m = 0 then 0
  else
    let q := max ((Nat.log2 m : Int) + e - fb) emin
    let r := if q ≤ e then m * 2 ^ (e - q).toNat else roundShift m (q - e).toNat
    min ((q - emin).toNat * 2 ^ fb + r) infMag

/-- The binary64 pattern nearest `(−1)^neg · m · 2^e`. -/
def pack (neg : Bool) (m : Nat) (e : Int) : F64 :=
  BitVec.ofNat 64 ((if neg then 2 ^ 63 else 0) + roundMag 52 (-1074) infMag64 m e)

/-- The infinity of a sign. -/
def infOf (neg : Bool) : F64 := if neg then nInf else pInf

/-- The zero of a sign. -/
def zeroOf (neg : Bool) : F64 := if neg then nZero else pZero

/-- The quiet NaN with this sign (top bit) and payload. -/
def quietNaN (p : BitVec 52) : F64 :=
  BitVec.ofNat 64 ((if p.msb then 2 ^ 63 else 0) + 0x7FF8000000000000 + p.toNat % 2 ^ 51)

/-- The NaN that an operation delivers: its sign and payload are free (log 4). -/
def nanOf (op : Config.FOp) (a b : F64) : F64 := quietNaN (Config.nanBits op a b)

/-! ## Arithmetic (R11) -/

/-- The signed integer `(−1)^neg · m · 2^k`. -/
def signedMant (neg : Bool) (m k : Nat) : Int :=
  if neg then -((m * 2 ^ k : Nat) : Int) else ((m * 2 ^ k : Nat) : Int)

/-- The sum of two values; `none` where it is a NaN. -/
def addVal : FVal → FVal → Option F64
  | .nan, _ => none
  | _, .nan => none
  | .inf s, .inf t => if s = t then some (infOf s) else none
  | .inf s, .fin _ _ _ => some (infOf s)
  | .fin _ _ _, .inf t => some (infOf t)
  | .fin s m e, .fin t n f =>
    let g := min e f
    let x := signedMant s m (e - g).toNat + signedMant t n (f - g).toNat
    if x = 0 then some (zeroOf (s && t)) else some (pack (decide (x < 0)) x.natAbs g)

/-- `a + b`. -/
def fadd (a b : F64) : F64 := (addVal (unpack a) (unpack b)).getD (nanOf .add a b)

/-- `a − b`. -/
def fsub (a b : F64) : F64 := (addVal (unpack a) (unpack (fneg b))).getD (nanOf .sub a b)

/-- The product of two values; `none` where it is a NaN. -/
def mulVal : FVal → FVal → Option F64
  | .nan, _ => none
  | _, .nan => none
  | .inf s, .inf t => some (infOf (s ^^ t))
  | .inf s, .fin t n _ => if n = 0 then none else some (infOf (s ^^ t))
  | .fin s m _, .inf t => if m = 0 then none else some (infOf (s ^^ t))
  | .fin s m e, .fin t n f => some (pack (s ^^ t) (m * n) (e + f))

/-- `a · b`. -/
def fmul (a b : F64) : F64 := (mulVal (unpack a) (unpack b)).getD (nanOf .mul a b)

/-- The quotient of two values; `none` where it is a NaN.  The quotient of the mantissas is taken to
110 more bits, with a last bit that says whether a remainder is left. -/
def divVal : FVal → FVal → Option F64
  | .nan, _ => none
  | _, .nan => none
  | .inf _, .inf _ => none
  | .inf s, .fin t _ _ => some (infOf (s ^^ t))
  | .fin s _ _, .inf t => some (zeroOf (s ^^ t))
  | .fin s m e, .fin t n f =>
    if n = 0 then (if m = 0 then none else some (infOf (s ^^ t)))
    else
      let q := m * 2 ^ 110 / n
      let sticky := if m * 2 ^ 110 % n = 0 then 0 else 1
      some (pack (s ^^ t) (2 * q + sticky) (e - f - 111))

/-- `a / b`. -/
def fdiv (a b : F64) : F64 := (divVal (unpack a) (unpack b)).getD (nanOf .div a b)

/-- The largest `r + t` with `t < 2^k` whose square is at most `n`. -/
def isqrtAux (n : Nat) : Nat → Nat → Nat
  | 0, r => r
  | k + 1, r => isqrtAux n k (if (r + 2 ^ k) * (r + 2 ^ k) ≤ n then r + 2 ^ k else r)

/-- The square root of a value; `none` where it is a NaN.  The mantissa is scaled to an even exponent
and to at least 110 bits; a last bit says whether a remainder is left. -/
def sqrtVal : FVal → Option F64
  | .nan => none
  | .inf s => if s then none else some pInf
  | .fin s m e =>
    if m = 0 then some (zeroOf s)
    else if s then none
    else
      let k : Nat := if e % 2 = 0 then 110 else 111
      let n := m * 2 ^ k
      let r := isqrtAux n 83 0
      let sticky := if r * r = n then 0 else 1
      some (pack false (2 * r + sticky) ((e - k) / 2 - 1))

/-- `sqrt(a)`. -/
def fsqrt (a : F64) : F64 := (sqrtVal (unpack a)).getD (nanOf .sqrt a a)

/-- The remainder with the sign of the dividend, exact (R121 `fmod`); `none` where it is a NaN. -/
def fmodVal : FVal → FVal → Option F64
  | .nan, _ => none
  | _, .nan => none
  | .inf _, _ => none
  | .fin s m e, .inf _ => some (pack s m e)
  | .fin s m e, .fin _ n f =>
    if n = 0 then none
    else
      let g := min e f
      some (pack s ((m * 2 ^ (e - g).toNat) % (n * 2 ^ (f - g).toNat)) g)

/-- `fmod(a, b)`. -/
def ffmod (a b : F64) : F64 := (fmodVal (unpack a) (unpack b)).getD (nanOf .fmod a b)

/-! ## Rounding to an integer -/

/-- The integer at or next to `m · 2^e` (`e < 0`), away from zero where `up` and a fraction is cut. -/
def cutFraction (m : Nat) (e : Int) (up : Bool) : Nat :=
  let k := (-e).toNat
  if up && decide (m % 2 ^ k ≠ 0) then m / 2 ^ k + 1 else m / 2 ^ k

/-- `⌊x⌋`, keeping the sign of a zero result (log 11). -/
def ffloor (x : F64) : F64 :=
  match unpack x with
  | .nan => nanOf .floor x x
  | .inf _ => x
  | .fin s m e => if 0 ≤ e then x else pack s (cutFraction m e s) 0

/-- `⌈x⌉`, keeping the sign of a zero result (log 11). -/
def fceil (x : F64) : F64 :=
  match unpack x with
  | .nan => nanOf .ceil x x
  | .inf _ => x
  | .fin s m e => if 0 ≤ e then x else pack s (cutFraction m e (!s)) 0

/-! ## Minimum and maximum -/

/-- `max` of the clamps (R34): the lower bound where the value is below it. -/
def fmax (v lo : F64) : F64 := if flt v lo then lo else v

/-- `min` of the clamps (R34). -/
def fmin (v hi : F64) : F64 := if flt hi v then hi else v

/-! ## Conversions -/

/-- `f64(n)`: exact below 2^53 (R11), to nearest even above (log 8). -/
def natToF64 (n : Nat) : F64 := pack false n 0

/-- The integer part of a finite value that is not negative. -/
def f64ToNat (x : F64) : Nat :=
  match unpack x with
  | .fin false m e => if 0 ≤ e then m * 2 ^ e.toNat else m / 2 ^ (-e).toNat
  | _ => 0

/-- The binary32 NaN of this sign (top bit) and payload. -/
def quietNaN32 (p : BitVec 23) : F32 :=
  BitVec.ofNat 32 ((if p.msb then 2 ^ 31 else 0) + 0x7FC00000 + p.toNat % 2 ^ 22)

/-- `f32(v)`: to nearest even, overflow to infinity, NaN to a NaN (R11). -/
def f64ToF32 (x : F64) : F32 :=
  match unpack x with
  | .nan => quietNaN32 (Config.nanNarrow x)
  | .inf s => BitVec.ofNat 32 ((if s then 2 ^ 31 else 0) + 0x7F800000)
  | .fin s m e =>
    BitVec.ofNat 32 ((if s then 2 ^ 31 else 0) + roundMag 23 (-149) 0x7F800000 m e)

/-- `f64(v)` of a binary32 value: exact (R11); a NaN to a NaN. -/
def f32ToF64 (x : F32) : F64 :=
  match unpack32 x with
  | .nan => quietNaN (Config.nanWiden x)
  | .inf s => infOf s
  | .fin s m e => pack s m e

end Sys2Proof
end

