-- ==== Sys2Proof/Machine/Accuracy.lean ====
section
/-!
DEFINITION. The elementary functions to more digits than binary64 has, in integers scaled by 2^96, against
which the tolerance of 00_scope.md R12 and D9 is tested (log 2).
-/

namespace Sys2Proof

/-- The scale: `1` as a scaled integer. -/
def fixOne : Int := 2 ^ 96

/-- `π`, scaled. -/
def fixPi : Int := 0x3243F6A8885A308D313198A2E

/-- A finite number, scaled; what is below the last place is cut. -/
def toFix (x : F64) : Int :=
  match unpack x with
  | .fin s m e =>
    if -96 ≤ e then signedMant s m (e + 96).toNat else signedMant s (m / 2 ^ (-96 - e).toNat) 0
  | _ => 0

/-- The binary64 nearest a scaled integer. -/
def ofFix (v : Int) : F64 := pack (decide (v < 0)) v.natAbs (-96)

/-- An angle brought into `[−π, π)`. -/
def fixTurn (x : Int) : Int := (x + fixPi) % (2 * fixPi) - fixPi

/-- `1 − y/((k+1)(k+2))·(1 − y/((k+3)(k+4))·(…))`, with `n` factors: the power series of the cosine
(`k = 0`) and of the sine over its argument (`k = 1`) in `y = x²`. -/
def alternating (y : Int) : Nat → Nat → Int
  | 0, _ => fixOne
  | n + 1, k => fixOne - y * alternating y n (k + 2) / (fixOne * ((k + 1) * (k + 2) : Nat))

/-- `v` brought into `[−b, b]`. -/
def fixClip (b v : Int) : Int := max (-b) (min b v)

/-- The sine of a scaled angle, scaled. -/
def fixSin (x : Int) : Int :=
  let r := fixTurn x
  fixClip fixOne (r * alternating (r * r / fixOne) 20 1 / fixOne)

/-- The cosine of a scaled angle, scaled. -/
def fixCos (x : Int) : Int :=
  let r := fixTurn x
  fixClip fixOne (alternating (r * r / fixOne) 20 0)

/-- `ln 2`, scaled. -/
def fixLn2 : Int := 0xb17217f7d1cf79abc9e3b398

/-- `ln 10`, scaled. -/
def fixLn10 : Int := 0x24d763776aaa2b05ba95b58ae

/-- `1/k + y/(k+2) + y²/(k+4) + …`, with `n` terms: for `k = 1` the power series of the inverse hyperbolic
tangent over its argument in `y = x²`, and of the inverse tangent in `y = −x²`. -/
def oddSeries (y : Int) : Nat → Nat → Int
  | 0, _ => 0
  | n + 1, k => fixOne / (k : Int) + y * oddSeries y n (k + 2) / fixOne

/-- The logarithm of `m · 2^e` (`m ≥ 1`), scaled: with `m = 2^l·t`, `ln t = 2·artanh((t − 1)/(t + 1))`. -/
def fixLn (m : Nat) (e : Int) : Int :=
  let l := Nat.log2 m
  let z := ((m - 2 ^ l : Nat) : Int) * fixOne / ((m + 2 ^ l : Nat) : Int)
  (l + e) * fixLn2 + 2 * z * oddSeries (z * z / fixOne) 40 1 / fixOne

/-- The inverse tangent of `p/q` (`0 ≤ p ≤ q`, `q ≥ 1`), scaled; above `0.4` by way of
`π/4 + arctan((p − q)/(p + q))`. -/
def fixArctan (p q : Nat) : Int :=
  let near := fun z : Int => z * oddSeries (-(z * z / fixOne)) 40 1 / fixOne
  if 2 * q < 5 * p then fixPi / 4 + near (((p : Int) - q) * fixOne / ((p + q : Nat) : Int))
  else near ((p : Int) * fixOne / (q : Int))

/-- The angle of the point `(x, y)`, two finite numbers that are not zero, scaled. -/
def fixAtan2 (y x : F64) : Int :=
  match unpack y, unpack x with
  | .fin sy my ey, .fin sx mx ex =>
    let g := min ey ex
    let a := my * 2 ^ (ey - g).toNat
    let b := mx * 2 ^ (ex - g).toNat
    let first := if a ≤ b then fixArctan a b else fixPi / 2 - fixArctan b a
    let upper := if sx then fixPi - first else first
    fixClip fixPi (if sy then -upper else upper)
  | _, _ => 0

/-- The sine, exact to about `2^−88` and then rounded. -/
def refSin (x : F64) : F64 := ofFix (fixSin (toFix x))

/-- The cosine, exact to about `2^−88` and then rounded. -/
def refCos (x : F64) : F64 := ofFix (fixCos (toFix x))

/-- The tangent, as the rounded quotient of sine and cosine. -/
def refTan (x : F64) : F64 := fdiv (refSin x) (refCos x)

/-- The natural logarithm of a finite number above zero, rounded. -/
def refLn (x : F64) : F64 :=
  match unpack x with
  | .fin _ m e => ofFix (fixLn m e)
  | _ => pZero

/-- The decimal logarithm of a finite number above zero, rounded. -/
def refLog10 (x : F64) : F64 :=
  match unpack x with
  | .fin _ m e => ofFix (fixLn m e * fixOne / fixLn10)
  | _ => pZero

/-- The angle of the point `(x, y)`, rounded. -/
def refAtan2 (y x : F64) : F64 := ofFix (fixAtan2 y x)

/-- The angles for which the digits suffice: below `2^32`. -/
def inReach (x : F64) : Bool := decide ((toFix x).natAbs < 2 ^ 128)

/-- `a` and `b` differ by at most `1e−6`. -/
def within (a b : Int) : Bool := decide ((a - b).natAbs * 10 ^ 6 ≤ fixOne.natAbs)

/-- `v` is within 1e−6 of the sine of `x`, and within a relative 1e−6 where the sine is small, with room
for the rounding of binary64. -/
def nearSin (x v : F64) : Bool :=
  let s := fixSin (toFix x)
  !inReach x || decide ((toFix v - s).natAbs ≤ max (s.natAbs / 10 ^ 6) (2 ^ 44))

/-- `v` is within 1e−6 of the cosine of `x`, and within 1e−6 of the square of the sine where that is small,
with room for the rounding of binary64. -/
def nearCos (x v : F64) : Bool :=
  let s := fixSin (toFix x)
  !inReach x || decide ((toFix v - fixCos (toFix x)).natAbs ≤
    max ((s * s / fixOne).natAbs / 10 ^ 6) (2 ^ 44))

/-- `v` is within a relative 1e−6 of the tangent of `x`: `|v·cos x − sin x| ≤ 1e−6·|sin x|`, with room
for the last places. -/
def nearTan (x v : F64) : Bool :=
  let s := fixSin (toFix x) * fixOne
  !inReach x ||
    decide ((toFix v * fixCos (toFix x) - s).natAbs * 10 ^ 6 ≤ s.natAbs + 2 ^ 136)

/-- `v` is within 1e−6 of the natural logarithm of `x`. -/
def nearLn (x v : F64) : Bool := within (toFix v) (toFix (refLn x))

/-- `v` is within 1e−6 of the decimal logarithm of `x`. -/
def nearLog10 (x v : F64) : Bool := within (toFix v) (toFix (refLog10 x))

/-- `v` is within 1e−6 of the angle of the point `(x, y)`. -/
def nearAtan2 (y x v : F64) : Bool := within (toFix v) (fixAtan2 y x)

end Sys2Proof
end

