-- ==== Sys2Proof/Machine/Num.lean ====
section
/-!
DEFINITION. The elementary functions `Num` (00_scope.md R12), `sign` (R14) and the two wrap functions
(R121, R282).  Where a rule names a value it holds; every other value is the free function of
Config.lean (log 2, 3).
-/

namespace Sys2Proof

/-- `v` where it passes a test, else another value that does. -/
def keepIf (ok : F64 → Bool) (v other : F64) : F64 := if ok v then v else other

/-- A value of `Num`: `v` where it keeps the bounds of the rules and the tolerance, else the accurate `ref`.
`last` stands where even `ref` would break a bound, which it does not: it makes the bounds
evident. -/
def numBounded (bounds near : F64 → Bool) (v ref last : F64) : F64 :=
  keepIf (fun r => bounds r && near r) v (keepIf bounds ref last)

/-- A value a sine or a cosine can have: within the tolerance 1e−6 of `[−1, 1]` (R12, D9). -/
def sineOk (v : F64) : Bool := fle (fneg cSineBound) v && fle v cSineBound

/-- `Num.sin`: `sin(+0) = +0` (R12), a NaN for a NaN (DEDUCED from R121), and for a finite operand within
the tolerance 1e−6 of the sine (R12, D9, log 2) and of `[−1, 1]`. -/
def numSin (x : F64) : F64 :=
  if isNaN x then nanOf .sin x x
  else if x = pZero then pZero
  else if isInf x then Config.sin x
  else numBounded sineOk (nearSin x) (Config.sin x) (refSin x) pZero

/-- `Num.cos`: `cos(±0) = 1` (R12), a NaN for a NaN, and for a finite operand within the tolerance 1e−6 of
the cosine (R12, D9, log 2) and of `[−1, 1]`. -/
def numCos (x : F64) : F64 :=
  if isNaN x then nanOf .cos x x
  else if x = pZero ∨ x = nZero then cOne
  else if isInf x then Config.cos x
  else numBounded sineOk (nearCos x) (Config.cos x) (refCos x) cOne

/-- `Num.tan`: a NaN for a NaN, and for a finite operand finite and within a relative 1e−6 of the tangent,
on which the gains of R172 rest (R12, log 2). -/
def numTan (x : F64) : F64 :=
  if isNaN x then nanOf .tan x x
  else if isInf x then Config.tan x
  else numBounded isFinite (nearTan x) (Config.tan x) (refTan x) pZero

/-- A finite number above zero. -/
def isPositive (x : F64) : Bool := isFinite x && flt pZero x

/-- A value the logarithm of a finite number above zero can have: finite, and not above zero where the
number is not above 1. -/
def lnOk (x v : F64) : Bool := isFinite v && (fle v pZero || flt cOne x)

/-- A value the decimal logarithm of a finite number above zero can have: that of the floor, −10, is the
least from the floor on (R324: the smallest magnitude is exactly −200 dB). -/
def log10Ok (x v : F64) : Bool := lnOk x v && (fle cMinusTen v || flt x cMagFloor)

/-- `Num.ln`: `ln(1) = 0` (R141), a NaN for a NaN, `+∞` for `+∞` (log 3), and for a finite operand above
zero a finite value with the sign of a logarithm and within 1e−6 of it (R12, log 2). -/
def numLn (x : F64) : F64 :=
  if isNaN x then nanOf .ln x x
  else if x = cOne then pZero
  else if x = pInf then pInf
  else if isPositive x then numBounded (lnOk x) (nearLn x) (Config.ln x) (refLn x) pZero
  else Config.ln x

/-- `Num.log10`: the floor `1e−10` gives exactly −10 (R324, R384), a NaN gives a NaN (R325), `+∞` gives `+∞`
(log 3), and a finite operand above zero a finite value with the sign of a logarithm and within 1e−6 of
it, not below −10 from the floor on (R12, R324, log 2). -/
def numLog10 (x : F64) : F64 :=
  if isNaN x then nanOf .log10 x x
  else if x = cMagFloor then cMinusTen
  else if x = pInf then pInf
  else if isPositive x then
    numBounded (log10Ok x) (nearLog10 x) (Config.log10 x) (refLog10 x) pZero
  else Config.log10 x

/-- `x` with the sign of `y`. -/
def copySign (x y : F64) : F64 :=
  BitVec.ofNat 64 ((if signBit y then 2 ^ 63 else 0) + magBits x)

/-- `π/2` as binary64. -/
def cHalfPi : F64 := 0x3FF921FB54442D18#64
/-- `3π/4` as binary64. -/
def cThreeQuarterPi : F64 := 0x4002D97C7F3321D2#64
/-- `π/4` as binary64. -/
def cQuarterPi : F64 := 0x3FE921FB54442D18#64

/-- An angle in `[−π, π]`. -/
def inHalfTurn (r : F64) : Bool := fle (fneg cPi) r && fle r cPi

/-- `Num.atan2`: the special cases of IEEE 754 and C (R12, G5; those of an infinite operand are
PRESUMED from C, log 3), and elsewhere a value in `[−π, π]` within 1e−6 of the angle (R12, log 2). -/
def numAtan2 (y x : F64) : F64 :=
  if isNaN y || isNaN x then nanOf .atan2 y x
  else if magBits y = 0 then (if signBit x then copySign cPi y else y)
  else if magBits x = 0 then copySign cHalfPi y
  else if isInf x then
    if isInf y then (if signBit x then copySign cThreeQuarterPi y else copySign cQuarterPi y)
    else (if signBit x then copySign cPi y else copySign pZero y)
  else if isInf y then copySign cHalfPi y
  else
    numBounded inHalfTurn (nearAtan2 y x) (Config.atan2 y x) (refAtan2 y x) pZero

/-- `sign(x)` with `SIGN_AT_ZERO` at both zeros and a NaN for a NaN (R14). -/
def fsign (x : F64) : F64 :=
  if isNaN x then nanOf .sign x x
  else if flt pZero x then cOne
  else if flt x pZero then cMinusOne
  else Config.signAtZero

/-- `Wrap2Pi(p)` (R121). -/
def wrap2Pi (p : F64) : F64 :=
  let r0 := ffmod p cTwoPi
  let r1 := if flt r0 pZero then fadd r0 cTwoPi else r0
  let r2 := if fle cTwoPi r1 then pZero else r1
  if r2 = nZero then pZero else r2

/-- A phase in `(−180, 180]`. -/
def inWrap180 (r : F64) : Bool := flt (fneg c180) r && fle r c180

/-- `p − 360·⌈(p − 180)/360⌉`, each operation rounded (R282, R11). -/
def wrap180Formula (p : F64) : F64 := fsub p (fmul c360 (fceil (fdiv (fsub p c180) c360)))

/-- `Wrap180(p)`: the formula of R282, a NaN where `p` is not finite.  Where rounding takes the formula
out of `(−180, 180]`, which R282 states of every phase, the result is a free value of that interval
(DESIGN CHOICE, log 9). -/
def wrap180 (p : F64) : F64 :=
  if isFinite p then
    keepIf inWrap180 (wrap180Formula p) (keepIf inWrap180 (Config.wrapOutside p) c180)
  else nanOf .wrap p p

/-- Degrees to radians, `d·PI/180` left to right (R13). -/
def toRadians (d : F64) : F64 := fdiv (fmul d cPi) c180

/-- Radians to degrees, `r·180/PI` left to right (R13). -/
def toDegrees (r : F64) : F64 := fdiv (fmul r c180) cPi

end Sys2Proof
end

