-- ==== Sys2Proof/Machine/Ops.lean ====
section
/-!
DEFINITION. The named operations over memory, registers and message streams that every instruction
uses, and raising an error, which is all the exception mechanism the block has (60_exceptions.md R380).
-/

namespace Sys2Proof.Machine

/-! ## Cells in rising order of index -/

/-- The value listed at index `k`. -/
def cellGet {α : Type} : List (Nat × α) → Nat → Option α
  | [], _ => none
  | c :: l, k => if c.1 = k then some c.2 else cellGet l k

/-- `v` listed at index `k`, in its place in the rising order. -/
def cellSet {α : Type} (k : Nat) (v : α) : List (Nat × α) → List (Nat × α)
  | [] => [(k, v)]
  | c :: l =>
    if k < c.1 then (k, v) :: c :: l
    else if c.1 = k then (k, v) :: l
    else c :: cellSet k v l

/-- Index `k` no longer listed. -/
def cellErase {α : Type} (k : Nat) (l : List (Nat × α)) : List (Nat × α) :=
  l.filter (fun c => decide (c.1 ≠ k))

/-! ## The shared region (20_memory.md R60 to R69) -/

/-- The canonical form: addresses strictly rising, and no entry holds 0, which is what an unlisted
address reads as. -/
abbrev Memory.wf (m : Memory) : Prop :=
  m.Pairwise (fun c d => c.1 < d.1) ∧ ∀ c ∈ m, c.2 ≠ 0#8

/-- One byte; a byte that is not listed is 0, its reset value (R36, log 25). -/
def memRead (m : Memory) (a : Nat) : Byte := (cellGet m a).getD 0#8

/-- One byte written; writing 0 removes the entry. -/
def memWrite (m : Memory) (a : Nat) (v : Byte) : Memory :=
  if v = 0#8 then cellErase a m else cellSet a v m

/-- `ShmRead(a, 4)`: little-endian (R62). -/
def memRead32 (m : Memory) (a : Nat) : BitVec 32 :=
  memRead m (a + 3) ++ memRead m (a + 2) ++ memRead m (a + 1) ++ memRead m a

/-- `ShmWrite(a, 4, v)`: little-endian (R62). -/
def memWrite32 (m : Memory) (a : Nat) (v : BitVec 32) : Memory :=
  memWrite (memWrite (memWrite (memWrite m a (v.extractLsb' 0 8)) (a + 1) (v.extractLsb' 8 8))
    (a + 2) (v.extractLsb' 16 8)) (a + 3) (v.extractLsb' 24 8)

/-- `S = 13·P·4`: the bytes of one block (R61). -/
def blockBytes (p : Nat) : Nat := 52 * p

/-- Byte offset of a block (R61, R250). -/
def blockBase (p : Nat) (blk : Block) : Nat := 4 + blk.index * blockBytes p

/-- Byte offset of element 0 of a channel of a block (R64). -/
def chanBase (p : Nat) (blk : Block) (c : Chan) : Nat := blockBase p blk + c.index * (4 * p)

/-- `ElemAddr(b, c, k)` (R64). -/
def elemAddr (p : Nat) (blk : Block) (c : Chan) (k : Nat) : Nat := chanBase p blk c + 4 * k

/-- The bytes the region needs: `4 + 104·P` (R61, R341). -/
def bytesNeeded (p : Nat) : Nat := 4 + 2 * blockBytes p

/-- Consecutive elements stored from byte `a` on, in a region of `size` bytes; `none` where one of them
would lie outside it (R69, log 13). -/
def storeElems (size : Nat) (m : Memory) (a : Nat) : List F32 → Option Memory
  | [] => some m
  | v :: vs =>
    if a + 4 ≤ size then storeElems size (memWrite32 m a v) (a + 4) vs else none

/-! ## Streams (30_encoding.md R90, R98, R99) -/

/-- `emit`: a record appended to the event port. -/
def State.emit (s : State) (r : Record) : State :=
  { s with ports := { s.ports with events := s.ports.events ++ [r] } }

/-- The Error record of a kind; `sel` is the `op` field of the message (R99). -/
def errorRecord (op : BitVec 8) (k : ErrorKind) : Record := ⟨errorOp, op, [k.code]⟩

/-- `raise Error` with kind `k` (R380): one record on the event port and no other change.  There is no
handler entry, no saved state, no mode and no return (R380). -/
def State.raise (s : State) (op : BitVec 8) (k : ErrorKind) : State := s.emit (errorRecord op k)

/-- `resp(payload)`: a record on the response stream of the port of `op` (R98). -/
def State.respond (s : State) (op : Opcode) (sel : BitVec 8) (payload : List Word) : State :=
  match op.port with
  | .producer =>
    { s with ports := { s.ports with pResp := s.ports.pResp ++ [⟨op.code, sel, payload⟩] } }
  | .consumer =>
    { s with ports := { s.ports with cResp := s.ports.cResp ++ [⟨op.code, sel, payload⟩] } }

/-- The count field of a record of `n` payload words.  A count of 2^32 or more does not fit the 32 bits of
the field, and neither R98 nor R233 says what the field then holds: a free value (DESIGN CHOICE,
log 38). -/
def recordCount (n : Nat) : Nat := if n < 2 ^ 32 then n else (Config.longCount n).toNat

/-- A record as the words of its message: header, then payload (R98). -/
def Record.words (r : Record) : List Word :=
  mkHeader r.op r.sel (recordCount r.payload.length) :: r.payload

/-- The test every operation but INIT and FFT.RUN makes first (R382). -/
def State.withInit (s : State) (op : Opcode) (r : Result) : Result :=
  if s.ctl.initialised then r else .next (s.raise op.code .notInitialized)

/-- The operand checks of R97, which come before every other condition (R388). -/
def State.checkOperands (s : State) (op : Opcode) (ok : Bool) (r : Result) : Result :=
  if ok then r else .next (s.raise op.code .illegalCommand)

/-! ## The flag (20_memory.md R63, R70, R71) -/

/-- What follows the read of the flag word; a word that is neither 0 nor 1 is refused (U6, log 12). -/
def State.withFlag (s : State) (k : Block → Result) : Result :=
  if s.build.shmBytes < 4 then .fault .shmOutOfRegion
  else match Block.ofFlagWord (memRead32 s.shm 0) with
    | some blk => k blk
    | none => .refused .flagWordOutsideSpec

/-- The shared region, written by the producer.  The content before joins those that the consumer's plain
reads can still see (R72, R74). -/
def State.setShm (s : State) (m : Memory) : State :=
  { s with
    shm := m
    free := { s.free with view := { s.free.view with past := s.free.view.past ++ [s.shm] } } }

/-- `ShmStoreRelease(0, v)`: block `blk` becomes the active one (R71, R251).  A publish ends the doubt
that a moved layout leaves (U4). -/
def State.storeFlag (s : State) (blk : Block) : State :=
  let t := s.setShm (memWrite32 s.shm 0 blk.flagWord)
  { t with free := { t.free with relaid := false } }

/-- `ShmLoadAcquire(0)` of the consumer: every access after it is ordered after it, so its later reads see
what the region holds now, or what the producer stores later (R70, R72 (c)). -/
def State.acquireLoad (s : State) : State :=
  { s with free := { s.free with view := { s.free.view with past := [], seen := [] } } }

/-! ## Free values -/

/-- The k-th draw of the uniform source: a value in `[0, 1)` (R140, log 5). -/
def drawAt (k : Nat) : F64 :=
  if fle pZero (Config.uniform k) && flt (Config.uniform k) cOne then Config.uniform k else pZero

/-- `n` draws taken. -/
def State.skipDraws (s : State) (n : Nat) : State :=
  { s with free := { s.free with drawPos := s.free.drawPos + n } }

/-- `n` free values used. -/
def State.skipFree (s : State) (n : Nat) : State :=
  { s with free := { s.free with freeCount := s.free.freeCount + n } }

/-! ## Consumer reads that may overlap the producer (R74, R420) -/

/-- Version `v` of the region: an earlier content since the last acquire load, or the present one. -/
def State.version (s : State) (v : Nat) : Memory := s.free.view.past.getD v s.shm

/-- The version of the word at byte `a` that the consumer's `k`-th next read sees: any one since its last
acquire load, but none before the one it has already seen there (R72, R74, U3, log 16). -/
def State.pickVersion (s : State) (k a : Nat) : Nat :=
  let low := min ((cellGet s.free.view.seen a).getD 0) s.free.view.past.length
  low + Config.readVersion s.free.freeCount k % (s.free.view.past.length + 1 - low)

/-- The word at byte `a` so read: that of one version, never torn (R67). -/
def State.racedWord (s : State) (k a : Nat) : BitVec 32 :=
  memRead32 (s.version (s.pickVersion k a)) a

/-- The element at byte `a` so read; free where the layout moved or the element would lie outside the
region (U4, log 14). -/
def State.racedElem (s : State) (relaid : Bool) (k a : Nat) : F32 :=
  if relaid || decide (s.build.shmBytes < a + 4) then Config.freeElement (s.free.freeCount + k)
  else s.racedWord k a

/-- The state after `n` words from byte `a` on have been read: the versions seen are recorded. -/
def State.readRun (s : State) (a n : Nat) : State :=
  { s with free := { s.free with
      freeCount := s.free.freeCount + n
      view := { s.free.view with
        seen := (List.range n).foldl
          (fun l j => cellSet (a + 4 * j) (s.pickVersion j (a + 4 * j)) l) s.free.view.seen } } }

/-! ## Registers of the units -/

/-- `osc[sel].phase` (R24). -/
def State.phase (s : State) : OscSel → F64
  | .ref => s.chain.oscRef
  | .mod => s.chain.oscMod

/-- `osc[sel].phase <- p`. -/
def State.setPhase (s : State) (o : OscSel) (p : F64) : State :=
  match o with
  | .ref => { s with chain := { s.chain with oscRef := p } }
  | .mod => { s with chain := { s.chain with oscMod := p } }

/-- The sections of `bq[sel]` (R25). -/
def State.cascade (s : State) : BqSel → List Section
  | .bpf => s.chain.bpf
  | .lpfI => s.chain.lpfI
  | .lpfQ => s.chain.lpfQ

/-- `bq[sel]` replaced. -/
def State.setCascade (s : State) (b : BqSel) (l : List Section) : State :=
  match b with
  | .bpf => { s with chain := { s.chain with bpf := l } }
  | .lpfI => { s with chain := { s.chain with lpfI := l } }
  | .lpfQ => { s with chain := { s.chain with lpfQ := l } }

/-- The spare cache (R27). -/
def State.setSpare (s : State) (has : Bool) (v : F64) : State :=
  { s with chain := { s.chain with hasSpare := has, spare := v } }

/-- `hasSpare <- 0`. -/
def State.dropSpare (s : State) : State := { s with chain := { s.chain with hasSpare := false } }

/-- The interferer bank (R28). -/
def State.setBank (s : State) (l : List BankEntry) : State :=
  { s with chain := { s.chain with bank := l } }

/-- The accumulator (R26). -/
def State.setAcc (s : State) (i q : F64) (n : BitVec 64) : State :=
  { s with chain := { s.chain with iSum := i, qSum := q, avgCount := n } }

/-- `iSum <- +0; qSum <- +0; avgCount <- 0`. -/
def State.zeroAcc (s : State) : State := s.setAcc pZero pZero 0#64

/-- The channel vector (R22). -/
def State.setV (s : State) (v : PerChan F64) : State := { s with chain := { s.chain with v := v } }

/-- `sampleCount` (R23). -/
def State.setSampleCount (s : State) (n : BitVec 64) : State :=
  { s with chain := { s.chain with sampleCount := n } }

/-- `bpfPhaseOffset` (R29). -/
def State.setOffset (s : State) (v : F64) : State :=
  { s with chain := { s.chain with bpfPhaseOffset := v } }

/-- `lastSampleTime <- now`. -/
def State.setSampleTime (s : State) (now : F64) : State :=
  { s with chain := { s.chain with lastSampleTime := now } }

/-- `lastPublishTime <- now`. -/
def State.setPublishTime (s : State) (now : F64) : State :=
  { s with chain := { s.chain with lastPublishTime := now } }

/-- One ring replaced. -/
def State.setRing (s : State) (c : Chan) (r : Ring) : State := { s with rings := s.rings.set c r }

/-- `running` (R21). -/
def State.setRunning (s : State) (r : Bool) : State := { s with ctl := { s.ctl with running := r } }

/-- The held parameters. -/
def State.setParams (s : State) (p : Params) : State := { s with params := p }

/-- `sampleCount + 1`; what follows 2^64 − 1 is the implementation's (U9, log 7). -/
def nextSampleCount (n : BitVec 64) : BitVec 64 :=
  if n = BitVec.allOnes 64 then Config.sampleCountAfterMax else n + 1#64

/-- `avgCount + 1`; what follows 2^64 − 1 is the implementation's (U9, log 7). -/
def nextAvgCount (n : BitVec 64) : BitVec 64 :=
  if n = BitVec.allOnes 64 then Config.avgCountAfterMax else n + 1#64

end Sys2Proof.Machine
end

