-- ==== Sys2Proof/Machine/Biquad.lean ====
section
/-!
DEFINITION. C5 BiquadChain: BQ.PROC, BQ.RESET, BQ.REPL (43_biquad.md R190 to R196).
-/

namespace Sys2Proof.Machine

/-- `y` of R190: `(((b0·x + b1·x1) + b2·x2) − a1·y1) − a2·y2`, every product rounded. -/
def sectionOutput (s : Section) (x : F64) : F64 :=
  fsub (fsub (fadd (fadd (fmul s.c.b0 x) (fmul s.c.b1 s.x1)) (fmul s.c.b2 s.x2))
    (fmul s.c.a1 s.y1)) (fmul s.c.a2 s.y2)

/-- The section after one sample: "shift state" (R190). -/
def sectionNext (s : Section) (x : F64) : Section :=
  { s with x2 := s.x1, x1 := x, y2 := s.y1, y1 := sectionOutput s x }

/-- The output of a cascade for one sample (R191). -/
def cascadeOutput : List Section → F64 → F64
  | [], x => x
  | s :: l, x => cascadeOutput l (sectionOutput s x)

/-- The sections of a cascade after one sample (R191). -/
def cascadeNext : List Section → F64 → List Section
  | [], _ => []
  | s :: l, x => sectionNext s x :: cascadeNext l (sectionOutput s x)

/-- A section in the zero state. -/
def zeroSection (c : Coeffs) : Section := ⟨c, pZero, pZero, pZero, pZero⟩

/-- `BqReset`: the state zeroed, coefficients and `nsec` kept (R193). -/
def cascadeReset (l : List Section) : List Section := l.map (fun s => zeroSection s.c)

/-- `Replace`: the coefficients replaced with the state kept where the count matches, else the
sections rebuilt in the zero state (R194). -/
def cascadeReplace (old : List Section) (new : List Coeffs) : List Section :=
  if new.length = old.length then List.zipWith (fun s c => { s with c := c }) old new
  else new.map zeroSection

/-- The state after `CascadeProcess(sel, x)` (R191). -/
def State.cascadeProcessed (s : State) (b : BqSel) (x : F64) : State :=
  s.setCascade b (cascadeNext (s.cascade b) x)

/-- BQ.PROC: responds the cascade's output for one sample (R192). -/
def execBqProc (b : BqSel) (x : F64) (s : State) : Result :=
  s.withInit .bqProc
    (.next ((s.cascadeProcessed b x).respond .bqProc b.code [cascadeOutput (s.cascade b) x]))

/-- BQ.RESET: zeros the state of one cascade (R193). -/
def execBqReset (b : BqSel) (s : State) : Result :=
  s.withInit .bqReset (.next (s.setCascade b (cascadeReset (s.cascade b))))

/-- BQ.REPL: replaces the coefficients of one cascade; more than MAX_SECTIONS sections are illegal
(R194, R97). -/
def execBqRepl (b : BqSel) (l : List Coeffs) (s : State) : Result :=
  s.checkOperands .bqRepl (decide (l.length ≤ s.build.maxSections))
    (s.withInit .bqRepl (.next (s.setCascade b (cascadeReplace (s.cascade b) l))))

end Sys2Proof.Machine
end

