-- ==== Sys2Proof/Machine/Filter.lean ====
section
/-!
DEFINITION. C4 FilterDesign: low-pass, high-pass and band-pass designs, the phase response
and the magnitude response (42_filterdesign.md R160 to R172).  Pure functions; the formulas of R163 to
R168 are those the spec supplies from general knowledge (G1 to G4), and the order-4 band-pass is the
spec's default (U8, log 27).
-/

namespace Sys2Proof.Machine

/-- The corner test of R162: NaN, `≤ 0` or `≥ fs/2` is `InvalidCorner`. -/
def invalidCorner (fc fs : F64) : Bool := isNaN fc || fle fc pZero || fle (fdiv fs cTwo) fc

/-- `K = tan(PI·fc/fs)` (R163). -/
def prewarp (fc fs : F64) : F64 := numTan (fdiv (fmul cPi fc) fs)

/-- `norm = 1/(1 + K/Q + K·K)` (R164). -/
def sectionNorm (k q : F64) : F64 :=
  fdiv cOne (fadd (fadd cOne (fdiv k q)) (fmul k k))

/-- `a1 = 2·(K·K − 1)·norm` (R164). -/
def sectionA1 (k q : F64) : F64 := fmul (fmul cTwo (fsub (fmul k k) cOne)) (sectionNorm k q)

/-- `a2 = (1 − K/Q + K·K)·norm` (R164). -/
def sectionA2 (k q : F64) : F64 :=
  fmul (fadd (fsub cOne (fdiv k q)) (fmul k k)) (sectionNorm k q)

/-- The first-order low-pass of a prewarped corner `K` (R163). -/
def lp1Of (k : F64) : Coeffs :=
  let b0 := fdiv k (fadd cOne k)
  { b0 := b0, b1 := b0, b2 := pZero, a1 := fdiv (fsub k cOne) (fadd k cOne), a2 := pZero }

/-- The first-order low-pass (R163). -/
def lp1 (fc fs : F64) : Coeffs := lp1Of (prewarp fc fs)

/-- The second-order low-pass of a prewarped corner `K` (R164). -/
def lp2Of (k q : F64) : Coeffs :=
  let b0 := fmul (fmul k k) (sectionNorm k q)
  { b0 := b0, b1 := fmul cTwo b0, b2 := b0, a1 := sectionA1 k q, a2 := sectionA2 k q }

/-- `LP2(fc, Q, fs)` (R164). -/
def lp2 (fc q fs : F64) : Coeffs := lp2Of (prewarp fc fs) q

/-- The first-order high-pass (R166). -/
def hp1 (fc fs : F64) : Coeffs :=
  let k := prewarp fc fs
  let b0 := fdiv cOne (fadd cOne k)
  { b0 := b0, b1 := fneg b0, b2 := pZero, a1 := fdiv (fsub k cOne) (fadd k cOne), a2 := pZero }

/-- `HP2(fc, Q, fs)` (R166). -/
def hp2 (fc q fs : F64) : Coeffs :=
  let k := prewarp fc fs
  let n := sectionNorm k q
  { b0 := n, b1 := fmul cMinusTwo n, b2 := n, a1 := sectionA1 k q, a2 := sectionA2 k q }

/-- The band-pass of quality `q` from the sine and the cosine of its centre (R167). -/
def bpOf (q sinW cosW : F64) : Coeffs :=
  let alpha := fdiv sinW (fmul cTwo q)
  let a0 := fadd cOne alpha
  { b0 := fdiv alpha a0
    b1 := pZero
    b2 := fdiv (fneg alpha) a0
    a1 := fdiv (fmul cMinusTwo cosW) a0
    a2 := fdiv (fsub cOne alpha) a0 }

/-- The angular frequency `(TWO_PI·f)/fs` (R167, R170). -/
def angularFrequency (f fs : F64) : F64 := fdiv (fmul cTwoPi f) fs

/-- `BP(f0, bw, fs)` (R167). -/
def bp (f0 bw fs : F64) : Coeffs :=
  bpOf (fdiv f0 bw) (numSin (angularFrequency f0 fs)) (numCos (angularFrequency f0 fs))

/-- `DesignLPF(fc, order, fs)`; `none` is `InvalidCorner` (R162 to R165). -/
def designLPF (fc : F64) (order : FilterOrder) (fs : F64) : Option (List Coeffs) :=
  if invalidCorner fc fs then none
  else match order with
    | .one => some [lp1 fc fs]
    | .two => some [lp2 fc cSqrtHalf fs]
    | .four => some [lp2 fc cQ4a fs, lp2 fc cQ4b fs]

/-- `DesignHPF(fc, order, fs)`; `none` is `InvalidCorner` (R162, R166).  No operation uses it. -/
def designHPF (fc : F64) (order : FilterOrder) (fs : F64) : Option (List Coeffs) :=
  if invalidCorner fc fs then none
  else match order with
    | .one => some [hp1 fc fs]
    | .two => some [hp2 fc cSqrtHalf fs]
    | .four => some [hp2 fc cQ4a fs, hp2 fc cQ4b fs]

/-- `DesignBPF(f0, bw, order, fs)`; `none` is `InvalidCorner` (R162, R167, R168). -/
def designBPF (f0 bw : F64) (order : FilterOrder) (fs : F64) : Option (List Coeffs) :=
  if invalidCorner f0 fs then none
  else match order with
    | .one => some [bp f0 bw fs]
    | .two => some [bp f0 bw fs]
    | .four => some [bp f0 (fmul cBpf4Bw bw) fs, bp f0 (fmul cBpf4Bw bw) fs]

/-- Numerator and denominator of `H(e^{jω})`, real and imaginary parts (R161, R170). -/
structure Transfer where
  nr : F64
  ni : F64
  dr : F64
  di : F64
  deriving DecidableEq, Repr

/-- `H(e^{jω})` of a section, as R170 evaluates it, from a sine and a cosine. -/
def transfer (sine cosine : F64 → F64) (c : Coeffs) (w : F64) : Transfer :=
  let c1 := cosine w
  let c2 := cosine (fmul cTwo w)
  let s1 := sine w
  let s2 := sine (fmul cTwo w)
  { nr := fadd (fadd c.b0 (fmul c.b1 c1)) (fmul c.b2 c2)
    ni := fneg (fadd (fmul c.b1 s1) (fmul c.b2 s2))
    dr := fadd (fadd cOne (fmul c.a1 c1)) (fmul c.a2 c2)
    di := fneg (fadd (fmul c.a1 s1) (fmul c.a2 s2)) }

/-- `PhaseResponse(coeffs, f, fs)`, radians (R170). -/
def phaseResponse (c : Coeffs) (f fs : F64) : F64 :=
  let h := transfer numSin numCos c (angularFrequency f fs)
  let d := fadd (fmul h.dr h.dr) (fmul h.di h.di)
  let hr := fdiv (fadd (fmul h.nr h.dr) (fmul h.ni h.di)) d
  let hi := fdiv (fsub (fmul h.ni h.dr) (fmul h.nr h.di)) d
  numAtan2 hi hr

/-- The magnitude response `|H(e^{jω})|` of a section at `f` (R172): the quotient of the moduli.  R172
names the mathematical value, so the sine and the cosine are the accurate ones and not those of
`Num`; the way it is computed is the model's (DESIGN CHOICE, log 43). -/
def magnitudeResponse (c : Coeffs) (f fs : F64) : F64 :=
  let h := transfer refSin refCos c (angularFrequency f fs)
  fdiv (fsqrt (fadd (fmul h.nr h.nr) (fmul h.ni h.ni)))
    (fsqrt (fadd (fmul h.dr h.dr) (fmul h.di h.di)))

/-- The magnitude response of a cascade: the product over its sections (R172). -/
def cascadedMagnitude (l : List Coeffs) (f fs : F64) : F64 :=
  l.foldl (fun m c => fmul m (magnitudeResponse c f fs)) cOne

/-- `CascadedPhase(sections, f, fs)`: the sum in section order from `+0` (R171). -/
def cascadedPhase (l : List Coeffs) (f fs : F64) : F64 :=
  l.foldl (fun sum c => fadd sum (phaseResponse c f fs)) pZero

end Sys2Proof.Machine
end

