-- ==== Sys2Proof/Machine/Oscillator.lean ====
section
/-!
DEFINITION. C1 Oscillator: OSC.PHASE, OSC.PHASEOF, OSC.SINE, OSC.SQUARE, OSC.ADVANCE, OSC.RESET
(40_oscillator.md R120 to R127).
-/

namespace Sys2Proof.Machine

/-- The phase after one step at frequency `f` and sample rate `fs`:
`Wrap2Pi(phase + (TWO_PI·f)/fs)` (R122). -/
def advancedPhase (fs phase f : F64) : F64 := wrap2Pi (fadd phase (fdiv (fmul cTwoPi f) fs))

/-- `OscAdvance`: the state change of R122. -/
def State.oscAdvanced (s : State) (o : OscSel) (f : F64) : State :=
  s.setPhase o (advancedPhase s.params.sampleRate (s.phase o) f)

/-- The sample of `OscSine`: `A·sin(phase)`, before the advance (R125). -/
def State.oscSineValue (s : State) (o : OscSel) (a : F64) : F64 := fmul a (numSin (s.phase o))

/-- The sample of `OscSquare`: `A·sign(sin(phase))`, before the advance (R126). -/
def State.oscSquareValue (s : State) (o : OscSel) (a : F64) : F64 :=
  fmul a (fsign (numSin (s.phase o)))

/-- OSC.PHASE: responds the phase (R123). -/
def execOscPhase (o : OscSel) (s : State) : Result :=
  s.withInit .oscPhase (.next (s.respond .oscPhase o.code [s.phase o]))

/-- OSC.PHASEOF: responds `phase + offset`, not wrapped (R124). -/
def execOscPhaseof (o : OscSel) (offset : F64) (s : State) : Result :=
  s.withInit .oscPhaseof (.next (s.respond .oscPhaseof o.code [fadd (s.phase o) offset]))

/-- OSC.SINE: responds `A·sin(phase)` and advances (R125). -/
def execOscSine (o : OscSel) (f a : F64) (s : State) : Result :=
  s.withInit .oscSine
    (.next ((s.oscAdvanced o f).respond .oscSine o.code [s.oscSineValue o a]))

/-- OSC.SQUARE: responds `A·sign(sin(phase))` and advances (R126). -/
def execOscSquare (o : OscSel) (f a : F64) (s : State) : Result :=
  s.withInit .oscSquare
    (.next ((s.oscAdvanced o f).respond .oscSquare o.code [s.oscSquareValue o a]))

/-- OSC.ADVANCE: advances, no response (R122). -/
def execOscAdvance (o : OscSel) (f : F64) (s : State) : Result :=
  s.withInit .oscAdvance (.next (s.oscAdvanced o f))

/-- OSC.RESET: `phase <- +0` (R127). -/
def execOscReset (o : OscSel) (s : State) : Result :=
  s.withInit .oscReset (.next (s.setPhase o pZero))

end Sys2Proof.Machine
end

