-- ==== Sys2Proof/Machine/Noise.lean ====
section
/-!
DEFINITION. C2 NoiseGen and C3 InterfererBank: NOISE.GAUSS, NOISE.UNIFORM, INTF.INSTALL, INTF.GEN
(41_noise_interferer.md R140 to R148).
-/

namespace Sys2Proof.Machine

/-! ## NoiseGen -/

/-- The pair `(z0, z1)` of deviates that two draws give (R141). -/
def boxMuller (d1 d2 : F64) : F64 × F64 :=
  let r := fsqrt (fmul cMinusTwo (numLn (fsub cOne d1)))
  let a := fmul cTwoPi d2
  (fmul r (numCos a), fmul r (numSin a))

/-- The value `Gauss(σ)` returns: `+0` when `σ` is a zero, the spare scaled by `σ` when there is one,
else the first deviate of two new draws scaled by `σ` (R141). -/
def State.gaussValue (s : State) (sigma : F64) : F64 :=
  if feq sigma pZero then pZero
  else if s.chain.hasSpare then fmul sigma s.chain.spare
  else fmul sigma (boxMuller (drawAt s.free.drawPos) (drawAt (s.free.drawPos + 1))).1

/-- The state `Gauss(σ)` leaves (R141). -/
def State.gaussNext (s : State) (sigma : F64) : State :=
  if feq sigma pZero then s
  else if s.chain.hasSpare then s.dropSpare
  else (s.setSpare true
    (boxMuller (drawAt s.free.drawPos) (drawAt (s.free.drawPos + 1))).2).skipDraws 2

/-- NOISE.GAUSS: responds a Gaussian deviate (R141). -/
def execNoiseGauss (sigma : F64) (s : State) : Result :=
  s.withInit .noiseGauss
    (.next ((s.gaussNext sigma).respond .noiseGauss 0#8 [s.gaussValue sigma]))

/-- NOISE.UNIFORM: responds the next draw (R142). -/
def execNoiseUniform (s : State) : Result :=
  s.withInit .noiseUniform
    (.next ((s.skipDraws 1).respond .noiseUniform 0#8 [drawAt s.free.drawPos]))

/-! ## InterfererBank -/

/-- The list has the bank's length and, in order, its frequencies (f64 equality, R146). -/
def sameFrequencies : List Interferer → List BankEntry → Bool
  | [], [] => true
  | i :: is, e :: es => feq i.frequency e.freq && sameFrequencies is es
  | _, _ => false

/-- The amplitudes overwritten in place (R146). -/
def overwriteAmplitudes (l : List Interferer) (bank : List BankEntry) : List BankEntry :=
  List.zipWith (fun i e => { e with amp := i.amplitude }) l bank

/-- The bank rebuilt, with one draw from position `k` on for each initial phase (R146). -/
def rebuiltBank (k : Nat) : List Interferer → List BankEntry
  | [] => []
  | i :: is => ⟨i.frequency, i.amplitude, fmul cTwoPi (drawAt k)⟩ :: rebuiltBank (k + 1) is

/-- `Install(list)` (R146). -/
def State.install (s : State) (l : List Interferer) : State :=
  if sameFrequencies l s.chain.bank then s.setBank (overwriteAmplitudes l s.chain.bank)
  else (s.setBank (rebuiltBank s.free.drawPos l)).skipDraws l.length

/-- INTF.INSTALL: installs a list; longer than MAX_INTERFERERS it is illegal (R146, R97). -/
def execIntfInstall (l : List Interferer) (s : State) : Result :=
  s.checkOperands .intfInstall (decide (l.length ≤ s.build.maxInterferers))
    (s.withInit .intfInstall (.next (s.install l)))

/-- The sum of `amp·sin(phase)` over the bank in order, from `+0` (R147). -/
def bankSum (bank : List BankEntry) : F64 :=
  bank.foldl (fun sum e => fadd sum (fmul e.amp (numSin e.phase))) pZero

/-- Every phase of the bank advanced (R147). -/
def bankAdvanced (fs : F64) (bank : List BankEntry) : List BankEntry :=
  bank.map (fun e => { e with phase := advancedPhase fs e.phase e.freq })

/-- The state `IntfGenerate()` leaves (R147). -/
def State.bankNext (s : State) : State :=
  s.setBank (bankAdvanced s.params.sampleRate s.chain.bank)

/-- INTF.GEN: responds the sum of the interferers and advances them (R147). -/
def execIntfGen (s : State) : Result :=
  s.withInit .intfGen (.next (s.bankNext.respond .intfGen 0#8 [bankSum s.chain.bank]))

end Sys2Proof.Machine
end

