-- ==== Sys2Proof/Machine/Operands.lean ====
section
/-!
DEFINITION. The operand forms: what a payload word means (30_encoding.md R92) and the validation of
parameter values, "as clamps, not errors" (10_state.md R34).  `none` is a dropped field.
-/

namespace Sys2Proof.Machine

/-- An f64 field clamped to `≥ lo`; a NaN is dropped. -/
def clampLow (lo v : F64) : Option F64 := if isNaN v then none else some (fmax v lo)

/-- An f64 field clamped to `[lo, hi]`; a NaN is dropped. -/
def clampRange (lo hi v : F64) : Option F64 :=
  if isNaN v then none else some (fmin (fmax v lo) hi)

/-- A phase in `[0, 360)`. -/
def inTurn (r : F64) : Bool := fle pZero r && flt r c360

/-- `p − 360·⌊p/360⌋`, each operation rounded (R34, R11); "if rounding makes the result equal 360 the
result is 0". -/
def phaseFormula (p : F64) : F64 :=
  let r := fsub p (fmul c360 (ffloor (fdiv p c360)))
  if r = c360 then pZero else r

/-- `phaseShift` normalised to `[0, 360)` by the formula of R34; a NaN or an infinity is dropped.  Where
rounding takes the formula out of `[0, 360)`, to which R34 normalises, the result is a free value of
that interval (DESIGN CHOICE, log 9). -/
def normalizePhase (p : F64) : Option F64 :=
  if isFinite p then
    some (keepIf inTurn (phaseFormula p) (keepIf inTurn (Config.phaseOutside p) pZero))
  else none

/-- A rate must be finite and positive (R34). -/
def positiveRate (v : F64) : Option F64 :=
  if isFinite v && flt pZero v then some v else none

/-- `order ∈ {1, 2, 4}` (R32, R33). -/
def filterOrderOf (w : Word) : Option FilterOrder :=
  if w = 1#64 then some .one else if w = 2#64 then some .two
  else if w = 4#64 then some .four else none

/-- A `bool` word: 0 or 1 (R92). -/
def boolOf (w : Word) : Option Bool :=
  if w = 0#64 then some false else if w = 1#64 then some true else none

/-- `mixerMode ∈ {0 = Analog, 1 = Digital}` (R33). -/
def modeOf (w : Word) : Option MixMode :=
  if w = 0#64 then some .analog else if w = 1#64 then some .digital else none

/-- `min(max(C, P), RING_CAP_MAX)` (R341, R343). -/
def clampCapacity (b : Config.Build) (p c : Nat) : Nat := min (max c p) b.ringCapMax

/-- One interferer: frequency `≥ 1`, amplitude `≥ 0` (R34); `none` where either is a NaN. -/
def clampInterferer (i : Interferer) : Option Interferer :=
  match clampLow cOne i.frequency, clampLow pZero i.amplitude with
  | some f, some a => some { i with frequency := f, amplitude := a }
  | _, _ => none

/-- Every interferer of a list.  R34 drops "a field whose value is NaN" and does not say whether a NaN inside
an interferer drops that member, that interferer or the list: the field of the record is the whole list
(R94), and it is dropped whole (DESIGN CHOICE, log 44). -/
def clampInterferers : List Interferer → Option (List Interferer)
  | [] => some []
  | i :: is =>
    match clampInterferer i, clampInterferers is with
    | some j, some js => some (j :: js)
    | _, _ => none

/-- The interferer list of a record: longer than MAX_INTERFERERS it is dropped whole (R34). -/
def validInterferers (b : Config.Build) (l : List Interferer) : Option (List Interferer) :=
  if l.length ≤ b.maxInterferers then clampInterferers l else none

/-- One scalar record of START (`engine = true`) or UPDATE (`engine = false`, which drops the engine
group) applied to the candidate parameters (R34, R94). -/
def applyScalar (b : Config.Build) (p : Nat) (engine : Bool) (q : Params) (pid : Pid) (w : Word) :
    Params :=
  match pid with
  | .sampleRate =>
    if engine then (positiveRate w).elim q (fun v => { q with sampleRate := v }) else q
  | .ringCapacity =>
    if engine && decide (w ≠ 0#64) then { q with ringCapacity := clampCapacity b p w.toNat } else q
  | .snapshotRate =>
    if engine then (positiveRate w).elim q (fun v => { q with snapshotRate := v }) else q
  | .referenceFrequency =>
    (clampRange cOne c1000 w).elim q (fun v => { q with referenceFrequency := v })
  | .referenceAmplitude =>
    (clampLow pZero w).elim q (fun v => { q with referenceAmplitude := v })
  | .modulatingFrequency =>
    (clampLow cTenth w).elim q (fun v => { q with modulatingFrequency := v })
  | .modulationIndex =>
    (clampRange pZero cOne w).elim q (fun v => { q with modulationIndex := v })
  | .phaseShift => (normalizePhase w).elim q (fun v => { q with phaseShift := v })
  | .sensorOutputAmplitude =>
    (clampLow pZero w).elim q (fun v => { q with sensorOutputAmplitude := v })
  | .whiteNoiseAmplitude =>
    (clampLow pZero w).elim q (fun v => { q with whiteNoiseAmplitude := v })
  | .bpfEnabled => (boolOf w).elim q (fun v => { q with bpfEnabled := v })
  | .bpfCenterFrequency =>
    (clampLow cOne w).elim q (fun v => { q with bpfCenterFrequency := v })
  | .bpfBandwidth => (clampLow cOne w).elim q (fun v => { q with bpfBandwidth := v })
  | .bpfOrder => (filterOrderOf w).elim q (fun v => { q with bpfOrder := v })
  | .lpfCutoffFrequency =>
    (clampLow cTenth w).elim q (fun v => { q with lpfCutoffFrequency := v })
  | .lpfOrder => (filterOrderOf w).elim q (fun v => { q with lpfOrder := v })
  | .mixerMode => (modeOf w).elim q (fun v => { q with mixerMode := v })

/-- One record applied to the candidate parameters. -/
def applyRecord (b : Config.Build) (p : Nat) (engine : Bool) (q : Params) : ParamRecord → Params
  | .scalar pid w => applyScalar b p engine q pid w
  | .interferers l =>
    (validInterferers b l).elim q (fun v => { q with interferers := v })

/-- The records of a message applied in message order: a later record of the same field wins
(R94). -/
def applyRecords (b : Config.Build) (p : Nat) (engine : Bool) (q : Params)
    (rs : List ParamRecord) : Params :=
  rs.foldl (applyRecord b p engine) q

/-- A list record that was supplied and not dropped (R290 `listGiven`). -/
def givesList (b : Config.Build) : ParamRecord → Bool
  | .scalar _ _ => false
  | .interferers l => (validInterferers b l).isSome

end Sys2Proof.Machine
end

