-- ==== Sys2Proof/Machine/Ring.lean ====
section
/-!
DEFINITION. C8 RingBuffer: RING.PUSH, RING.SNAP, RING.CLEAR (45_ringbuffer.md R230 to R236).
-/

namespace Sys2Proof.Machine

/-- `⌈a/b⌉ = (a + b − 1) div b` for `b ≥ 1` (R300). -/
def ceilDiv (a b : Nat) : Nat := (a + b - 1) / b

/-- `Ring[c][k]`; an element that nothing has written holds a free value (R35, log 20). -/
def ringElem (c : Chan) (r : Ring) (k : Nat) : F32 :=
  (cellGet r.cells k).getD (Config.ringPowerOn c.index k)

/-- `RingPush(c, v)` on one ring of capacity `cap` (R231). -/
def ringPushed (cap : Nat) (r : Ring) (v : F64) : Ring :=
  { w := (r.w + 1) % cap
    n := min (r.n + 1) cap
    cells := cellSet r.w (f64ToF32 v) r.cells }

/-- `n <- 0; w <- 0`; the elements are not erased (R234). -/
def ringCleared (r : Ring) : Ring := { r with w := 0, n := 0 }

/-- `stride = ⌈C/maxPoints⌉` (R232). -/
def ringStride (cap maxPoints : Nat) : Nat := ceilDiv cap maxPoints

/-- `count = ⌈n/stride⌉` (R232). -/
def ringCount (cap : Nat) (r : Ring) (maxPoints : Nat) : Nat :=
  ceilDiv r.n (ringStride cap maxPoints)

/-- The index of element `k` of the decimated view: `(w − n + k·stride) mod C`, computed as
`(w + C − n + k·stride) mod C` (R232, R300). -/
def ringIndex (cap : Nat) (r : Ring) (maxPoints k : Nat) : Nat :=
  (r.w + cap - r.n + k * ringStride cap maxPoints) % cap

/-- `RingSnapshot`: the decimated chronological view, oldest first (R232). -/
def ringView (c : Chan) (cap : Nat) (r : Ring) (maxPoints : Nat) : List F32 :=
  (List.range (ringCount cap r maxPoints)).map
    (fun k => ringElem c r (ringIndex cap r maxPoints k))

/-- The state after a push into one ring. -/
def State.pushed (s : State) (c : Chan) (v : F64) : State :=
  s.setRing c (ringPushed s.params.ringCapacity (s.rings.get c) v)

/-- All thirteen rings cleared (R290, R341, R343, R345). -/
def State.clearRings (s : State) : State :=
  { s with rings := PerChan.ofFn (fun c => ringCleared (s.rings.get c)) }

/-- RING.PUSH: rounds to f32 and overwrites the oldest when full (R231). -/
def execRingPush (c : Chan) (v : F64) (s : State) : Result :=
  s.withInit .ringPush (.next (s.pushed c v))

/-- RING.SNAP: responds the count and the view; `maxPoints = 0` is illegal (R233, R97). -/
def execRingSnap (c : Chan) (maxPoints : Word) (s : State) : Result :=
  s.checkOperands .ringSnap (decide (maxPoints ≠ 0#64))
    (s.withInit .ringSnap
      (.next (s.respond .ringSnap c.code
        (BitVec.ofNat 64 (ringCount s.params.ringCapacity (s.rings.get c) maxPoints.toNat) ::
          (ringView c s.params.ringCapacity (s.rings.get c) maxPoints.toNat).map f32ToF64))))

/-- RING.CLEAR: empties one ring (R234). -/
def execRingClear (c : Chan) (s : State) : Result :=
  s.withInit .ringClear (.next (s.setRing c (ringCleared (s.rings.get c))))

end Sys2Proof.Machine
end

