-- ==== Sys2Proof/Machine/Control.lean ====
section
/-!
DEFINITION. C13 EngineFacade and C14 Configuration: INIT, START, STOP, UPDATE (49_control.md R340 to
R350) and `ApplyUpdate` (47_chainrunner.md R290 to R294).
-/

namespace Sys2Proof.Machine

/-! ## INIT -/

/-- A successful INIT (R341).  Where the block was initialised with another `P` the layout of the
shared region moves: no element has a defined value until the next publish, nor has any that an
FFT.CHAN in progress or a view acquired before still reads (U4, log 14). -/
def State.wired (s : State) (bufferBytes p : Nat) : State :=
  let moved := s.ctl.initialised && decide (p ≠ s.ctl.snapshotPoints)
  State.clearRings
    { s with
      ctl := { s.ctl with initialised := true, shmSize := bufferBytes, snapshotPoints := p }
      params := { s.params with
        ringCapacity := clampCapacity s.build p s.params.ringCapacity }
      free := { s.free with
        relaid := s.free.relaid || moved
        task := s.free.task.map (fun t => { t with relaid := t.relaid || moved })
        view := { s.free.view with relaid := s.free.view.relaid || moved } } }

/-- INIT: wires the views (R341); dropped while running (R340). -/
def execInit (bufferBytes snapshotPoints : Word) (s : State) : Result :=
  s.checkOperands .init
    (decide (snapshotPoints ≠ 0#64) && decide (snapshotPoints.toNat ≤ s.build.snapMax))
    (if s.ctl.running then .next s
     else if min bufferBytes.toNat s.build.shmBytes < bytesNeeded snapshotPoints.toNat then
       .next (s.raise Opcode.init.code .shapeMismatch)
     else .next (s.wired bufferBytes.toNat snapshotPoints.toNat))

/-! ## START -/

/-- `bpfPhaseOffset` for loaded band-pass coefficients (R293). -/
def phaseOffset (p : Params) (bpf : List Coeffs) : F64 :=
  if p.bpfEnabled then cascadedPhase bpf p.referenceFrequency p.sampleRate else pZero

/-- The candidate parameters of START: the defaults overridden by the records (R343). -/
def startParams (b : Config.Build) (p : Nat) (rs : List ParamRecord) : Params :=
  let q := applyRecords b p true Params.default rs
  { q with ringCapacity := clampCapacity b p q.ringCapacity }

/-- `Replace(k, list); BqReset(k)` (R343). -/
def State.loadZeroed (s : State) (b : BqSel) (l : List Coeffs) : State :=
  s.setCascade b (cascadeReset (cascadeReplace (s.cascade b) l))

/-- A successful START with candidate parameters and designed coefficients (R343). -/
def State.started (s : State) (now : F64) (cand : Params) (bpf lpf : List Coeffs) : State :=
  let s1 := ((((s.setParams cand).setPhase .ref pZero).setPhase .mod pZero).dropSpare).setBank []
  let s2 := s1.install cand.interferers
  let s3 := ((s2.loadZeroed .bpf bpf).loadZeroed .lpfI lpf).loadZeroed .lpfQ lpf
  let s4 := ((s3.clearRings.zeroAcc).setSampleCount 0#64).setV (PerChan.const pZero)
  (((s4.setOffset (phaseOffset cand bpf)).setSampleTime now).setPublishTime now).setRunning true

/-- START: builds the graph and starts the loop (R343); dropped while running (R340). -/
def execStart (now : F64) (rs : List ParamRecord) (s : State) : Result :=
  s.withInit .start
    (if s.ctl.running then .next s
     else
       let cand := startParams s.build s.ctl.snapshotPoints rs
       match designBPF cand.bpfCenterFrequency cand.bpfBandwidth cand.bpfOrder cand.sampleRate,
             designLPF cand.lpfCutoffFrequency cand.lpfOrder cand.sampleRate with
       | some bpf, some lpf => .next (s.started now cand bpf lpf)
       | _, _ => .next (s.raise Opcode.start.code .invalidCorner))

/-! ## STOP -/

/-- The teardown of R345. -/
def State.tornDown (s : State) : State :=
  let s1 := (((s.setRunning false).zeroAcc.setPhase .ref pZero).setPhase .mod pZero).dropSpare
  let s2 := (((s1.setBank []).setCascade .bpf []).setCascade .lpfI []).setCascade .lpfQ []
  (s2.clearRings.setV (PerChan.const pZero)).setSampleCount 0#64

/-- STOP: tears the graph down; in the idle state the teardown is harmless (R340, R345). -/
def execStop (s : State) : Result := s.withInit .stop (.next s.tornDown)

/-! ## UPDATE -/

/-- f64 inequality: "changed" (R290). -/
def fne (a b : F64) : Bool := !feq a b

/-- `bpfChanged` (R290). -/
def bpfChanged (held cand : Params) : Bool :=
  fne cand.bpfCenterFrequency held.bpfCenterFrequency || fne cand.bpfBandwidth held.bpfBandwidth ||
    decide (cand.bpfOrder ≠ held.bpfOrder)

/-- `lpfChanged` (R290). -/
def lpfChanged (held cand : Params) : Bool :=
  fne cand.lpfCutoffFrequency held.lpfCutoffFrequency || decide (cand.lpfOrder ≠ held.lpfOrder)

/-- `R`: the update is of the class that resets the owned state (R290). -/
def resetClass (held cand : Params) (listRebuild : Bool) : Bool :=
  fne cand.referenceFrequency held.referenceFrequency ||
    fne cand.modulatingFrequency held.modulatingFrequency ||
    decide (cand.mixerMode ≠ held.mixerMode) || decide (cand.bpfEnabled ≠ held.bpfEnabled) ||
    bpfChanged held cand || lpfChanged held cand || listRebuild

/-- A design made only where its parameters changed: the outer `none` is `InvalidCorner`, the inner
one "unchanged" (R290). -/
def redesign (changed : Bool) (d : Option (List Coeffs)) : Option (Option (List Coeffs)) :=
  if changed then d.map some else some none

/-- `Replace` where there is a new design (R290). -/
def State.replaceIf (s : State) (b : BqSel) (o : Option (List Coeffs)) : State :=
  match o with
  | some l => s.setCascade b (cascadeReplace (s.cascade b) l)
  | none => s

/-- What an update of class R resets (R290): the accumulator, all filter states, all rings; and the
phase offset is computed anew from the coefficients then loaded (R293). -/
def State.updateReset (s : State) : State :=
  let s1 := s.zeroAcc
  let s2 := s1.setCascade .bpf (cascadeReset s1.chain.bpf)
  let s3 := s2.setCascade .lpfI (cascadeReset s2.chain.lpfI)
  let s4 := s3.setCascade .lpfQ (cascadeReset s3.chain.lpfQ)
  s4.clearRings.setOffset (phaseOffset s.params (s.chain.bpf.map (fun x => x.c)))

/-- The part of `ApplyUpdate` that follows the designs (R290). -/
def State.updated (s : State) (cand : Params) (listGiven : Bool)
    (newBpf newLpf : Option (List Coeffs)) : State :=
  let listRebuild := listGiven && !sameFrequencies cand.interferers s.chain.bank
  let s1 := s.setParams cand
  let s2 := if listGiven then s1.install cand.interferers else s1
  let s3 := ((s2.replaceIf .bpf newBpf).replaceIf .lpfI newLpf).replaceIf .lpfQ newLpf
  if resetClass s.params cand listRebuild then s3.updateReset else s3

/-- UPDATE: `ApplyUpdate` (R290, R347); dropped while idle (R340). -/
def execUpdate (rs : List ParamRecord) (s : State) : Result :=
  s.withInit .update
    (if s.ctl.running then
       let cand := applyRecords s.build s.ctl.snapshotPoints false s.params rs
       match redesign (bpfChanged s.params cand)
               (designBPF cand.bpfCenterFrequency cand.bpfBandwidth cand.bpfOrder
                 s.params.sampleRate),
             redesign (lpfChanged s.params cand)
               (designLPF cand.lpfCutoffFrequency cand.lpfOrder s.params.sampleRate) with
       | some newBpf, some newLpf =>
         .next (s.updated cand (rs.any (givesList s.build)) newBpf newLpf)
       | _, _ => .next (s.raise Opcode.update.code .invalidCorner)
     else .next s)

end Sys2Proof.Machine
end

