-- ==== Sys2Proof/Machine/Mixer.lean ====
section
/-!
DEFINITION. C6 Mixer and C7 DUTGenerator: MIX, DUT.GEN (44_mixer_dut.md R210 to R216).
-/

namespace Sys2Proof.Machine

/-- `Mix(mode, s, θ_ref, A_ref)`: the pair `(I, Q)` (R212). -/
def mixValue (mode : MixMode) (x theta aRef : F64) : F64 × F64 :=
  match mode with
  | .analog => (fmul x (numSin theta), fmul x (numCos theta))
  | .digital =>
    if flt pZero aRef then
      (fmul (fmul x (fsign (numSin theta))) cTwoOverPi,
       fmul (fmul x (fsign (numCos theta))) cTwoOverPi)
    else (pZero, pZero)

/-- MIX: responds `I`, `Q` (R212). -/
def execMix (mode : MixMode) (x theta aRef : F64) (s : State) : Result :=
  s.withInit .mix
    (.next (s.respond .mix mode.code
      [(mixValue mode x theta aRef).1, (mixValue mode x theta aRef).2]))

/-- What `DutGen()` computes (R215). -/
structure DutOut where
  reference : F64
  modulatingSignal : F64
  sensorClean : F64
  thetaRef : F64
  deriving DecidableEq, Repr

/-- `m`: `sin(θ_mod)` when `index > 0`, else `+0` (R215). -/
def State.modulator (s : State) : F64 :=
  if flt pZero s.params.modulationIndex then s.oscSineValue .mod cOne else pZero

/-- The values of `DutGen()`, from the phases before the advance (R215). -/
def State.dutOut (s : State) : DutOut :=
  { reference := s.oscSineValue .ref s.params.referenceAmplitude
    modulatingSignal :=
      fmul (fmul s.params.sensorOutputAmplitude s.params.modulationIndex) s.modulator
    sensorClean :=
      fmul (fmul (fmul s.params.sensorOutputAmplitude
        (numSin (fadd s.chain.oscRef (toRadians s.params.phaseShift))))
        s.params.modulationIndex) s.modulator
    thetaRef := s.chain.oscRef }

/-- The state `DutGen()` leaves: both oscillators advance, whatever `index` is (R215). -/
def State.dutNext (s : State) : State :=
  (s.oscAdvanced .ref s.params.referenceFrequency).oscAdvanced .mod s.params.modulatingFrequency

/-- DUT.GEN: responds `reference`, `modulatingSignal`, `sensorClean`, `θ_ref` (R215). -/
def execDutGen (s : State) : Result :=
  s.withInit .dutGen
    (.next (s.dutNext.respond .dutGen 0#8
      [s.dutOut.reference, s.dutOut.modulatingSignal, s.dutOut.sensorClean, s.dutOut.thetaRef]))

end Sys2Proof.Machine
end

