-- ==== Sys2Proof/Machine/Chain.lean ====
section
/-!
DEFINITION. C10 ChainRunner and C15 Time scheduler: SAMPLE, SNAP, TICK (47_chainrunner.md R270 to
R285).
-/

namespace Sys2Proof.Machine

/-! ## SAMPLE (R272).  Every value below is that of the sample about to be produced. -/

/-- `noise = Gauss(σ_white) + IntfGenerate()` (R148). -/
def State.noiseValue (s : State) : F64 :=
  fadd (s.gaussValue s.params.whiteNoiseAmplitude) (bankSum s.chain.bank)

/-- `sensor = sensorClean + noise`. -/
def State.sensorValue (s : State) : F64 := fadd s.dutOut.sensorClean s.noiseValue

/-- `afterBpf`: through the band-pass where it is enabled. -/
def State.afterBpfValue (s : State) : F64 :=
  if s.params.bpfEnabled then cascadeOutput s.chain.bpf s.sensorValue else s.sensorValue

/-- `(mixI, mixQ)`. -/
def State.mixPair (s : State) : F64 × F64 :=
  mixValue s.params.mixerMode s.afterBpfValue s.dutOut.thetaRef s.params.referenceAmplitude

/-- `iFilt`. -/
def State.iFilt (s : State) : F64 := cascadeOutput s.chain.lpfI s.mixPair.1

/-- `qFilt`. -/
def State.qFilt (s : State) : F64 := cascadeOutput s.chain.lpfQ s.mixPair.2

/-- `i·cos(φ) + q·sin(φ)` (R284). -/
def signedMix (phaseShift i q : F64) : F64 :=
  fadd (fmul i (numCos (toRadians phaseShift))) (fmul q (numSin (toRadians phaseShift)))

/-- `V[0..12]` of the sample. -/
def State.sampleVector (s : State) : PerChan F64 :=
  { reference := s.dutOut.reference
    modulating := s.dutOut.modulatingSignal
    modulatingPlusNoise := fadd s.dutOut.modulatingSignal s.noiseValue
    sensorClean := s.dutOut.sensorClean
    noise := s.noiseValue
    sensor := s.sensorValue
    afterBpf := s.afterBpfValue
    mixerI := s.mixPair.1
    mixerQ := s.mixPair.2
    iOutput := s.iFilt
    qOutput := s.qFilt
    signedOutput := signedMix s.params.phaseShift s.iFilt s.qFilt
    time := fdiv (natToF64 s.chain.sampleCount.toNat) s.params.sampleRate }

/-- The thirteen pushes: lane `c` stores `f32(V[c])` into ring `c` (R273). -/
def State.pushAll (s : State) (v : PerChan F64) : State :=
  { s with
    rings := PerChan.ofFn
      (fun c => ringPushed s.params.ringCapacity (s.rings.get c) (v.get c)) }

/-- The band-pass processes the sensor sample where it is enabled; its state is untouched where it is
not. -/
def State.bpfProcessed (s : State) (x : F64) : State :=
  if s.params.bpfEnabled then s.cascadeProcessed .bpf x else s

/-- `Sample()` (R272). -/
def State.sampled (s : State) : State :=
  let s1 := (s.dutNext.gaussNext s.params.whiteNoiseAmplitude).bankNext
  let s2 := ((s1.bpfProcessed s.sensorValue).cascadeProcessed .lpfI s.mixPair.1).cascadeProcessed
    .lpfQ s.mixPair.2
  let s3 := (s2.setV s.sampleVector).pushAll s.sampleVector
  let s4 := s3.setAcc (fadd s.chain.iSum s.iFilt) (fadd s.chain.qSum s.qFilt)
    (nextAvgCount s.chain.avgCount)
  s4.setSampleCount (nextSampleCount s.chain.sampleCount)

/-- SAMPLE: one sample, whether running or not (R272). -/
def execSample (s : State) : Result := s.withInit .sample (.next s.sampled)

/-! ## SNAP (R281) -/

/-- The four outputs of a FrameReady (R284). -/
structure FrameOut where
  i : F64
  q : F64
  signed : F64
  phase : F64
  deriving DecidableEq, Repr

/-- The outputs that the averages give (R281, R284). -/
def frameOf (phaseShift offset i q : F64) : FrameOut :=
  { i := i
    q := q
    signed := signedMix phaseShift i q
    phase := wrap180 (fsub (toDegrees (numAtan2 q i)) (toDegrees offset)) }

/-- The outputs of the next snapshot; free where no sample was accumulated (U2, log 6). -/
def State.frameOut (s : State) : FrameOut :=
  if s.chain.avgCount = 0#64 then
    { i := Config.freeOutput s.free.freeCount
      q := Config.freeOutput (s.free.freeCount + 1)
      signed := Config.freeOutput (s.free.freeCount + 2)
      phase := Config.freeOutput (s.free.freeCount + 3) }
  else
    frameOf s.params.phaseShift s.chain.bpfPhaseOffset
      (fdiv s.chain.iSum (natToF64 s.chain.avgCount.toNat))
      (fdiv s.chain.qSum (natToF64 s.chain.avgCount.toNat))

/-- `effectiveSampleRate = fs/⌈C/P⌉` (R281). -/
def State.effectiveRate (s : State) : F64 :=
  fdiv s.params.sampleRate (natToF64 (ceilDiv s.params.ringCapacity s.ctl.snapshotPoints))

/-- `dataLength <- cnt[0]` (R281). -/
def State.dataLength (s : State) : Nat :=
  ringCount s.params.ringCapacity (s.rings.get .reference) s.ctl.snapshotPoints

/-- The FrameReady record of the next snapshot (R99). -/
def State.frameRecord (s : State) : Record :=
  ⟨frameReadyOp, 0#8,
   [s.frameOut.i, s.frameOut.q, s.frameOut.signed, s.frameOut.phase, s.effectiveRate,
    BitVec.ofNat 64 s.dataLength]⟩

/-- The decimated view of one channel with `maxPoints = P` (R281). -/
def State.chanView (s : State) (c : Chan) : List F32 :=
  ringView c s.params.ringCapacity (s.rings.get c) s.ctl.snapshotPoints

/-- The views of these channels stored into a block, in order (R281). -/
def State.storeViews (s : State) (blk : Block) : List Chan → Memory → Option Memory
  | [], m => some m
  | c :: cs, m =>
    match storeElems s.build.shmBytes m (chanBase s.ctl.snapshotPoints blk c) (s.chanView c) with
    | some m' => s.storeViews blk cs m'
    | none => none

/-- The state after a snapshot whose views make the region `m`, published as block `blk` (R281). -/
def State.published (s : State) (blk : Block) (m : Memory) : State :=
  ((((s.setShm m).zeroAcc.skipFree (if s.chain.avgCount = 0#64 then 4 else 0)).storeFlag
    blk).emit s.frameRecord)

/-- `Snapshot()` (R281).  The flag is read once: no element lies in its bytes. -/
def State.snapshot (s : State) : Result :=
  s.withFlag fun act =>
    match s.storeViews act.other Chan.all s.shm with
    | some m => .next (s.published act.other m)
    | none => .fault .shmOutOfRegion

/-- SNAP: a snapshot now; `lastPublishTime` is not touched (R281). -/
def execSnap (s : State) : Result := s.withInit .snap s.snapshot

/-! ## TICK (R280) -/

/-- `Sample()` repeated. -/
def State.sampledTimes : Nat → State → State
  | 0, s => s
  | k + 1, s => State.sampledTimes k s.sampled

/-- `due` (R280). -/
def State.due (s : State) (now : F64) : F64 :=
  ffloor (fmul (fdiv (fsub now s.chain.lastSampleTime) c1000) s.params.sampleRate)

/-- `k`: 0 where `due` is NaN or not positive, else `min(due, 2000)` (R280, R300). -/
def State.tickSamples (s : State) (now : F64) : Nat :=
  if isNaN (s.due now) || fle (s.due now) pZero then 0 else f64ToNat (fmin (s.due now) cTickCap)

/-- What `lastSampleTime` becomes at a tick: `now` (R280), but a NaN stays, because a NaN `now` "makes every
later `due` NaN, so no samples are produced [...] until a STOP and a new START" (R343; of a TICK at a NaN
vector V-TICK-2 says the same; log 41). -/
def State.nextSampleTime (s : State) (now : F64) : F64 :=
  if isNaN s.chain.lastSampleTime then s.chain.lastSampleTime else now

/-- The sample phase of a tick (R280, R343). -/
def State.tickSampled (s : State) (now : F64) : State :=
  (State.sampledTimes (s.tickSamples now) s).setSampleTime (s.nextSampleTime now)

/-- `(now − lastPublishTime) ≥ 1000/snapshotRate` (R280). -/
def State.publishDue (s : State) (now : F64) : Bool :=
  fle (fdiv c1000 s.params.snapshotRate) (fsub now s.chain.lastPublishTime)

/-- The publish phase of a tick (R280). -/
def State.publishPhase (s : State) (now : F64) : Result :=
  if s.ctl.running && s.publishDue now then
    match s.snapshot with
    | .next t => .next (t.setPublishTime now)
    | .fault f => .fault f
    | .refused r => .refused r
  else .next s

/-- A STOP that has arrived while the tick executes takes effect between its two phases (R283): the
choice says so and a STOP is the next message of the P-port (log 17). -/
def State.stopCuts (s : State) : Bool :=
  s.free.choice.stopCut &&
    match s.ports.pPort with
    | m :: _ => decide ((decode .producer m).toOption = some .stop)
    | [] => false

/-- The STOP that cuts a tick is taken off the P-port and performed (R283, R345). -/
def State.stoppedInTick (s : State) : State :=
  ({ s with ports := { s.ports with pPort := s.ports.pPort.tail } } : State).tornDown

/-- TICK: outside START..STOP nothing; else the sample phase, then the publish phase (R280). -/
def execTick (now : F64) (s : State) : Result :=
  s.withInit .tick
    (if s.ctl.running then
       let t := s.tickSampled now
       (if t.stopCuts then t.stoppedInTick else t).publishPhase now
     else .next s)

end Sys2Proof.Machine
end

