-- ==== Sys2Proof/Machine/DoubleBuffer.lean ====
section
/-!
DEFINITION. C9 DoubleBuffer: DB.ACQW, DB.PUB, DB.ACQR (46_doublebuffer.md R250 to R256) and the plain
loads the consumer may make (20_memory.md R66).
-/

namespace Sys2Proof.Machine

/-- The words `b`, `base` of a view (R250). -/
def viewWords (p : Nat) (blk : Block) : List Word :=
  [BitVec.ofNat 64 blk.index, BitVec.ofNat 64 (blockBase p blk)]

/-- DB.ACQW: responds the view of the inactive block (R250). -/
def execDbAcqw (s : State) : Result :=
  s.withInit .dbAcqw
    (s.withFlag fun act =>
      .next (s.respond .dbAcqw 0#8 (viewWords s.ctl.snapshotPoints act.other)))

/-- DB.PUB: stores `1 − flag` with release ordering (R251). -/
def execDbPub (s : State) : Result :=
  s.withInit .dbPub (s.withFlag fun act => .next (s.storeFlag act.other))

/-- The acquire load of DB.ACQR, and the view of block `blk` that the consumer's plain reads are made
through from then on (R252). -/
def State.acquire (s : State) (blk : Block) : State :=
  let t := s.acquireLoad
  { t with free := { t.free with
      view := { t.free.view with
        base := blockBase s.ctl.snapshotPoints blk
        points := s.ctl.snapshotPoints
        relaid := s.free.relaid } } }

/-- DB.ACQR: acquire load of the flag; responds the view of the active block (R252). -/
def execDbAcqr (s : State) : Result :=
  s.withInit .dbAcqr
    (s.withFlag fun act =>
      .next ((s.acquire act).respond .dbAcqr 0#8 (viewWords s.ctl.snapshotPoints act)))

/-- A plain load of the consumer's own software, and the state after it: an aligned 32-bit load inside
the region, without effect on it (R66, R68).  It sees what the region held at the consumer's last
acquire load or what the producer has stored since, no older than an earlier load of that word saw,
and independently of the loads of every other word (R72): only an acquire load orders it, and R73
leaves open whether the receipt of an event does, so here it does not (DESIGN CHOICE, log 42).
Every other access is refused (U7, log 28). -/
def consumerLoad (s : State) (a : Nat) : Option (BitVec 32 × State) :=
  if a % 4 = 0 ∧ a + 4 ≤ s.build.shmBytes then
    some (s.racedWord 0 a, s.readRun a 1)
  else none

/-- Byte offset of element 0 of a channel of the block that the consumer has acquired (R64). -/
def State.viewAddr (s : State) (c : Chan) : Nat :=
  s.free.view.base + c.index * (4 * s.free.view.points)

/-- The first `len` elements of a channel of the block that the consumer has acquired, as it reads them
now (R74, R420).  After the layout has moved they are free (U4, log 14). -/
def State.viewChannel (s : State) (c : Chan) (len : Nat) : List F64 :=
  (List.range len).map fun j =>
    f32ToF64 (s.racedElem s.free.view.relaid j (s.viewAddr c + 4 * j))

/-- The state after that read. -/
def State.viewRead (s : State) (c : Chan) (len : Nat) : State := s.readRun (s.viewAddr c) len

end Sys2Proof.Machine
end

