-- ==== Sys2Proof/Machine/Spectrum.lean ====
section
/-!
DEFINITION. C12 FFT and spectrum: FFT.RUN, FFT.CHAN (48_trigger_fft.md R320 to R327).
-/

namespace Sys2Proof.Machine

/-! ## The transform -/

/-- `log2 N` of the transform for an input of length `L`; `none` is the empty spectrum (R320). -/
def fftBits (len : Nat) : Option Nat :=
  if len < 64 then none
  else if len < 128 then some 6
  else if len < 256 then some 7
  else if len < 512 then some 8
  else if len < 1024 then some 9
  else some 10

/-- The work arrays during a transform (R76). -/
structure Work where
  re : List F64
  im : List F64
  deriving DecidableEq, Repr

/-- The Hann window `0.5·(1 − cos((TWO_PI·n)/(N − 1)))` (R321). -/
def hann (n k : Nat) : F64 :=
  fmul cHalf (fsub cOne (numCos (fdiv (fmul cTwoPi (natToF64 k)) (natToF64 (n - 1)))))

/-- The last `N` samples, windowed, and a zero imaginary part (R321). -/
def loadWork (n : Nat) (x : List F64) : Work :=
  { re := List.zipWith (fun k v => fmul v (hann n k)) (List.range n) (x.drop (x.length - n))
    im := List.replicate n pZero }

/-- `rev(i)`: the low `b` bits of `i` reversed (R322). -/
def revBits : Nat → Nat → Nat
  | 0, _ => 0
  | b + 1, i => (i % 2) * 2 ^ b + revBits b (i / 2)

/-- Two elements exchanged. -/
def swapAt (l : List F64) (i j : Nat) : List F64 :=
  (l.set i (l.getD j pZero)).set j (l.getD i pZero)

/-- The bit-reversal permutation: `i` and `rev(i)` exchanged where `rev(i) > i` (R322). -/
def bitReverse (b : Nat) (w : Work) : Work :=
  (List.range (2 ^ b)).foldl
    (fun w i =>
      if i < revBits b i then ⟨swapAt w.re i (revBits b i), swapAt w.im i (revBits b i)⟩ else w) w

/-- One butterfly of the group of `size` elements from `start` on (R323). -/
def butterfly (size start : Nat) (w : Work) (k : Nat) : Work :=
  let ang := fdiv (fmul (fneg cTwoPi) (natToF64 k)) (natToF64 size)
  let wr := numCos ang
  let wi := numSin ang
  let i := start + k
  let j := i + size / 2
  let rei := w.re.getD i pZero
  let imi := w.im.getD i pZero
  let rej := w.re.getD j pZero
  let imj := w.im.getD j pZero
  let tr := fsub (fmul rej wr) (fmul imj wi)
  let ti := fadd (fmul rej wi) (fmul imj wr)
  { re := (w.re.set j (fsub rei tr)).set i (fadd rei tr)
    im := (w.im.set j (fsub imi ti)).set i (fadd imi ti) }

/-- One pass over all groups of `size` elements (R323). -/
def fftPass (n size : Nat) (w : Work) : Work :=
  (List.range (n / size)).foldl
    (fun w g => (List.range (size / 2)).foldl (butterfly size (g * size)) w) w

/-- The butterfly loop: sizes 2, 4, ..., N (R323). -/
def fftLoop (b : Nat) (w : Work) : Work :=
  (List.range b).foldl (fun w j => fftPass (2 ^ b) (2 ^ (j + 1)) w) w

/-- The work arrays after the transform of the last `2^b` samples (R321 to R323).  R325 says that an
infinite sample gives NaN in every bin; the pseudocode gives `+∞` in some of them, and the pseudocode
is followed (DESIGN CHOICE, log 39). -/
def transform (b : Nat) (x : List F64) : Work := fftLoop b (bitReverse b (loadWork (2 ^ b) x))

/-- `f[k] = (k·fs)/N` (R324). -/
def binFrequency (n : Nat) (fs : F64) (k : Nat) : F64 :=
  fdiv (fmul (natToF64 k) fs) (natToF64 n)

/-- `mag[k] = 20·log10(max(sqrt(Re² + Im²)/N, 1e−10))` (R324). -/
def binMagnitude (n : Nat) (re im : F64) : F64 :=
  fmul cTwenty (numLog10
    (fmax (fdiv (fsqrt (fadd (fmul re re) (fmul im im))) (natToF64 n)) cMagFloor))

/-- The words `nb, f[0], mag[0], ..., f[nb−1], mag[nb−1]` with `nb = N/2` (R324, R325). -/
def spectrumWords (n : Nat) (fs : F64) (w : Work) : List Word :=
  BitVec.ofNat 64 (n / 2) :: (List.range (n / 2)).flatMap
    (fun k => [binFrequency n fs k, binMagnitude n (w.re.getD k pZero) (w.im.getD k pZero)])

/-- The work arrays and the length of the transform stored (R37): the first `N` entries of both
arrays. -/
def State.setWork (s : State) (n : Nat) (w : Work) : State :=
  { s with cons := { s.cons with
      fftRe := w.re ++ s.cons.fftRe.drop n
      fftIm := w.im ++ s.cons.fftIm.drop n
      fftN := n } }

/-- Rules R320 to R324 on `x` with rate `fs`, and the response of `op`.  The empty spectrum leaves the
work arrays as they are (log 33). -/
def State.runSpectrum (s : State) (op : Opcode) (sel : BitVec 8) (fs : F64) (x : List F64) : State :=
  match fftBits x.length with
  | none => s.respond op sel [0#64]
  | some b =>
    (s.setWork (2 ^ b) (transform b x)).respond op sel (spectrumWords (2 ^ b) fs (transform b x))

/-- FFT.RUN: the spectrum of the operands; INIT is not needed (R325). -/
def execFftRun (fs : F64) (x : List F64) (s : State) : Result :=
  .next (s.runSpectrum .fftRun 0#8 fs x)

/-! ## FFT.CHAN -/

/-- The reads of FFT.CHAN as they stand when the block has just been acquired (R326). -/
def State.newTask (s : State) (c : Chan) (act : Block) : ChanTask :=
  { ch := c
    addr := chanBase s.ctl.snapshotPoints act c
    len := s.cons.dataLen
    rate := s.cons.effRate
    relaid := s.free.relaid }

/-- Element `k` of the channel, as the operation reads it (R74, R326). -/
def State.taskElem (s : State) (t : ChanTask) (k : Nat) : F32 :=
  s.racedElem t.relaid k (t.addr + 4 * k)

/-- The samples that FFT.CHAN transforms (R326). -/
def State.taskSamples (s : State) (t : ChanTask) : List F64 :=
  (List.range t.len).map (fun k => f32ToF64 (s.taskElem t k))

/-- No FFT.CHAN in progress any more. -/
def State.endTask (s : State) : State := { s with free := { s.free with task := none } }

/-- The reads, the transform and the response of FFT.CHAN (R326). -/
def State.finishTask (s : State) (t : ChanTask) : State :=
  (s.readRun t.addr t.len).endTask.runSpectrum .fftChan t.ch.code t.rate (s.taskSamples t)

/-- FFT.CHAN acquired and not yet read. -/
def State.latchTask (s : State) (t : ChanTask) : State :=
  { s with free := { s.free with task := some t } }

/-- FFT.CHAN: an acquire load of the flag, which orders the consumer's later reads as DB.ACQR's does (R326,
R252, R70), and the reads of the active block; where it overlaps later steps of the producer, it
finishes in a later step of the consumer (log 16). -/
def execFftChan (c : Chan) (s : State) : Result :=
  s.withInit .fftChan
    (s.withFlag fun act =>
      let t := s.acquireLoad
      if s.free.choice.overlap then .next (t.latchTask (t.newTask c act))
      else .next (t.finishTask (t.newTask c act)))

end Sys2Proof.Machine
end

