-- ==== Sys2Proof/Machine/Dispatch.lean ====
section
/-!
DEFINITION. The meaning of every operation of spec/opcode_table.json.
-/

namespace Sys2Proof.Machine

def exec (i : Instr) (s : State) : Host.Outcome State Fault Refusal :=
  match i with
  | .init bufferBytes snapshotPoints => Sys2Proof.Machine.execInit bufferBytes snapshotPoints s
  | .start now records => Sys2Proof.Machine.execStart now records s
  | .stop => Sys2Proof.Machine.execStop s
  | .update records => Sys2Proof.Machine.execUpdate records s
  | .tick now => Sys2Proof.Machine.execTick now s
  | .sample => Sys2Proof.Machine.execSample s
  | .snap => Sys2Proof.Machine.execSnap s
  | .oscPhase osc => Sys2Proof.Machine.execOscPhase osc s
  | .oscPhaseof osc offset => Sys2Proof.Machine.execOscPhaseof osc offset s
  | .oscSine osc f a => Sys2Proof.Machine.execOscSine osc f a s
  | .oscSquare osc f a => Sys2Proof.Machine.execOscSquare osc f a s
  | .oscAdvance osc f => Sys2Proof.Machine.execOscAdvance osc f s
  | .oscReset osc => Sys2Proof.Machine.execOscReset osc s
  | .noiseGauss sigma => Sys2Proof.Machine.execNoiseGauss sigma s
  | .noiseUniform => Sys2Proof.Machine.execNoiseUniform s
  | .intfInstall list => Sys2Proof.Machine.execIntfInstall list s
  | .intfGen => Sys2Proof.Machine.execIntfGen s
  | .bqProc bq x => Sys2Proof.Machine.execBqProc bq x s
  | .bqReset bq => Sys2Proof.Machine.execBqReset bq s
  | .bqRepl bq sections => Sys2Proof.Machine.execBqRepl bq sections s
  | .mix mode x theta aRef => Sys2Proof.Machine.execMix mode x theta aRef s
  | .dutGen => Sys2Proof.Machine.execDutGen s
  | .ringPush ch v => Sys2Proof.Machine.execRingPush ch v s
  | .ringSnap ch maxPoints => Sys2Proof.Machine.execRingSnap ch maxPoints s
  | .ringClear ch => Sys2Proof.Machine.execRingClear ch s
  | .dbAcqw => Sys2Proof.Machine.execDbAcqw s
  | .dbPub => Sys2Proof.Machine.execDbPub s
  | .dbAcqr => Sys2Proof.Machine.execDbAcqr s
  | .fftRun fs x => Sys2Proof.Machine.execFftRun fs x s
  | .fftChan ch => Sys2Proof.Machine.execFftChan ch s

end Sys2Proof.Machine
end

