-- ==== Sys2Proof/Machine/Ports.lean ====
section
/-!
DEFINITION. The two agents and the streams between them and the host (10_state.md R20, 30_encoding.md
R90): messages arrive, an agent takes the oldest message of its port and executes it to completion,
and the consumer receives FrameReady records (60_exceptions.md R390).
-/

namespace Sys2Proof.Machine

/-! ## Arrival -/

/-- A message arrives from the host at the end of the queue of a port (R90). -/
def State.deliver (s : State) (p : Port) (m : Message) : State :=
  match p with
  | .producer => { s with ports := { s.ports with pPort := s.ports.pPort ++ [m] } }
  | .consumer => { s with ports := { s.ports with cPort := s.ports.cPort ++ [m] } }

/-- The waiting messages of a port replaced. -/
def State.setQueue (s : State) (p : Port) (l : List Message) : State :=
  match p with
  | .producer => { s with ports := { s.ports with pPort := l } }
  | .consumer => { s with ports := { s.ports with cPort := l } }

/-! ## One message -/

/-- One message of a port executed: an illegal one raises IllegalCommand with the low 8 bits of its
header and changes nothing else (R97, R385, log 23). -/
def runMessage (p : Port) (m : Message) (s : State) : Result :=
  match decode p m with
  | .ok i => exec i s
  | .error _ => .next (s.raise (opField m.header) .illegalCommand)

/-- The producer takes the oldest message of the P-port. -/
def State.producerMove (s : State) : Result :=
  match s.ports.pPort with
  | [] => .next s
  | m :: l => runMessage .producer m (s.setQueue .producer l)

/-- The consumer finishes the FFT.CHAN in progress, or takes the oldest message of the C-port. -/
def State.consumerMove (s : State) : Result :=
  match s.free.task with
  | some t => .next (s.finishTask t)
  | none =>
    match s.ports.cPort with
    | [] => .next s
    | m :: l => runMessage .consumer m (s.setQueue .consumer l)

/-- The last-frame registers after the receipt of a record: a FrameReady is copied, any other record
leaves them (R38, R390). -/
def Consumer.received (c : Consumer) (r : Record) : Consumer :=
  match r.payload with
  | [i, q, signed, phase, rate, len] =>
    if r.op = frameReadyOp then
      { c with outI := i, outQ := q, outSigned := signed, outPhase := phase, effRate := rate,
               dataLen := len.toNat }
    else c
  | _ => c

/-- The consumer receives the oldest record of the event port (R390, log 18).  The receipt orders none of
its plain reads: R73 leaves that open (DESIGN CHOICE, log 42). -/
def State.receiveMove (s : State) : State :=
  match s.ports.events with
  | [] => s
  | r :: l =>
    { s with ports := { s.ports with events := l }, cons := s.cons.received r }

/-! ## Whose turn it is -/

/-- The move is possible. -/
def State.canMove (s : State) : Config.Turn → Bool
  | .producer => !s.ports.pPort.isEmpty
  | .consumer => s.free.task.isSome || !s.ports.cPort.isEmpty
  | .receive => !s.ports.events.isEmpty

/-- The next move: the one the choice names where it is possible, else a possible one; `none` where
nothing waits (log 15). -/
def State.nextTurn (s : State) : Option Config.Turn :=
  if s.canMove s.free.choice.turn then some s.free.choice.turn
  else if s.canMove .producer then some .producer
  else if s.canMove .consumer then some .consumer
  else if s.canMove .receive then some .receive
  else none

/-- One move. -/
def State.move (s : State) : Config.Turn → Result
  | .producer => s.producerMove
  | .consumer => s.consumerMove
  | .receive => .next s.receiveMove

/-- The choices for the step after this one: nothing is known of them (log 15). -/
def State.refreshChoice (s : State) : State :=
  { s with free := { s.free with
      choice := Config.choiceAt s.free.choiceCount
      choiceCount := s.free.choiceCount + 1 } }

/-- One step of the block.  Where nothing waits the block "does nothing and holds all its state"
(R396). -/
def State.advance (s : State) : Result :=
  match s.nextTurn with
  | none => .next s
  | some t =>
    match s.move t with
    | .next s' => .next s'.refreshChoice
    | .fault f => .fault f
    | .refused r => .refused r

/-! ## Placing a table word -/

/-- The port that accepts a message, by its `op`; the P-port where the `op` is reserved. -/
def portOfMessage (m : Message) : Port :=
  match Opcode.ofCode (opField m.header) with
  | some op => op.port
  | none => .producer

/-- The message made the next one to be executed: first in the queue of its port, that port's agent
on turn, and no FFT.CHAN in progress before it. -/
def State.withNextMessage (s : State) (m : Message) : State :=
  match portOfMessage m with
  | .producer =>
    { s with
      ports := { s.ports with pPort := m :: s.ports.pPort }
      free := { s.free with choice := { s.free.choice with turn := .producer } } }
  | .consumer =>
    { s with
      ports := { s.ports with cPort := m :: s.ports.cPort }
      free := { s.free with
        choice := { s.free.choice with turn := .consumer }
        task := none } }

end Sys2Proof.Machine
end

