-- ==== Sys2Proof/Machine/Step.lean ====
section
/-!
DEFINITION. One step of the block, and the placing of an instruction of spec/opcode_table.json where the
next step fetches it (log 19).
-/

namespace Sys2Proof.Machine

/-- One step: one agent makes one move (Machine/Ports.lean). -/
def step (s : State) : Host.Outcome State Fault Refusal := s.advance

/-- The message of a table word stored where the next step takes it. -/
def State.withFetchWord (s : State) (nbits w : Nat) : State :=
  s.withNextMessage (tableMessage nbits w)

end Sys2Proof.Machine
end

