-- ==== Sys2Proof/Machine/Trigger.lean ====
section
/-!
DEFINITION. C11 TriggerDetector and its caller's holdoff procedure (48_trigger_fft.md R310 to R317).
The unit has no operation code (R95): consumer software calls these functions on the view that its
DB.ACQR acquired (log 28, 36, 42).
-/

namespace Sys2Proof.Machine

/-- `TrigSearch`: the first `i ≥ 1` in the window with a rising crossing of the threshold (R311). -/
def trigSearch (channel time : List F64) (len : Nat) (t tStart tEnd : F64) : Option (Nat × F64) :=
  (List.range (len - 1)).findSome? fun j =>
    let ti := time.getD (j + 1) pZero
    if fle tStart ti && fle ti tEnd && flt (channel.getD j pZero) t &&
        fle t (channel.getD (j + 1) pZero) then
      some (j + 1, ti)
    else none

/-- `timeScale` clamped to `[1, 200]`; R312 does not say what the clamp makes of a NaN: a free value
(DESIGN CHOICE, log 40). -/
def clampTimeScale (timeScale : F64) : F64 :=
  if isNaN timeScale then Config.nanTimeScale timeScale else fmin (fmax timeScale cOne) c200

/-- `W = (clamp(timeScale, 1, 200)·5)/1000` seconds (R312). -/
def displayWindow (timeScale : F64) : F64 :=
  fdiv (fmul (clampTimeScale timeScale) cFive) c1000

/-- The window the caller passes: the first tenth of a short buffer, else all but the last `W`
(R316). -/
def searchWindow (tEarliest tLatest w : F64) : F64 × F64 :=
  let d := fsub tLatest tEarliest
  if flt d w then (tEarliest, fadd tEarliest (fmul cTenth d)) else (tEarliest, fsub tLatest w)

/-- A search, and the trigger it finds stored (R316). -/
def Consumer.search (c : Consumer) (channel time : List F64) (len : Nat) (t tEarliest tLatest w : F64) :
    Consumer :=
  match trigSearch channel time len t (searchWindow tEarliest tLatest w).1
      (searchWindow tEarliest tLatest w).2 with
  | some r => { c with trigValid := true, trigIndex := r.1, trigTime := r.2 }
  | none => c

/-- `TriggerUpdate` (R313 to R316). -/
def Consumer.triggerUpdate (c : Consumer) (channel time : List F64) (len : Nat) (t timeScale : F64) :
    Consumer :=
  if len < 2 then c
  else
    let tEarliest := time.getD 0 pZero
    let tLatest := time.getD (len - 1) pZero
    let w := displayWindow timeScale
    let valid := if flt tLatest c.trigPrevLatest then false else c.trigValid
    let c1 := { c with trigValid := valid, trigPrevLatest := tLatest }
    if valid then
      if flt tLatest (fadd c.trigTime w) then c1
      else if fle tEarliest c.trigTime then c1
      else ({ c1 with trigValid := false }).search channel time len t tEarliest tLatest w
    else c1.search channel time len t tEarliest tLatest w

/-- The caller's procedure on a channel of the block that the consumer has acquired: the first `DATALEN`
elements of the channel and then of the `time` channel are read, each read on its own racing the
producer (R74, R420), and the trigger registers are updated (R310, R316). -/
def State.examineTrigger (s : State) (c : Chan) (t timeScale : F64) : State :=
  let n := s.cons.dataLen
  let u := s.viewRead c n
  { u.viewRead .time n with
    cons := s.cons.triggerUpdate (s.viewChannel c n) (u.viewChannel .time n) n t timeScale }

end Sys2Proof.Machine
end

