-- ==== Sys2Proof/Safety.lean ====
section
/-!
DEFINITION. What the statements say of states: the operand checks of 30_encoding.md R97 as a predicate
of an instruction, the invariants of 10_state.md R43, the bytes of a block, and what a plain read may see.
-/

namespace Sys2Proof.Machine

/-! ## Operand checks -/

/-- The checks of R97 that need the structural sizes or the value of an operand: list limits, INIT's
`snapshotPoints`, RING.SNAP's `maxPoints`. -/
def operandsOk (b : Config.Build) : Instr → Bool
  | .init _ p => decide (p ≠ 0#64) && decide (p.toNat ≤ b.snapMax)
  | .intfInstall l => decide (l.length ≤ b.maxInterferers)
  | .bqRepl _ l => decide (l.length ≤ b.maxSections)
  | .ringSnap _ k => decide (k ≠ 0#64)
  | .start _ _ => true
  | .stop => true
  | .update _ => true
  | .tick _ => true
  | .sample => true
  | .snap => true
  | .oscPhase _ => true
  | .oscPhaseof _ _ => true
  | .oscSine _ _ _ => true
  | .oscSquare _ _ _ => true
  | .oscAdvance _ _ => true
  | .oscReset _ => true
  | .noiseGauss _ => true
  | .noiseUniform => true
  | .intfGen => true
  | .bqProc _ _ => true
  | .bqReset _ => true
  | .mix _ _ _ _ => true
  | .dutGen => true
  | .ringPush _ _ => true
  | .ringClear _ => true
  | .dbAcqw => true
  | .dbPub => true
  | .dbAcqr => true
  | .fftRun _ _ => true
  | .fftChan _ => true

/-- INIT and FFT.RUN are the two operations that do not need an initialised block (R382). -/
def needsInit : Instr → Bool
  | .init _ _ => false
  | .fftRun _ _ => false
  | .start _ _ => true
  | .stop => true
  | .update _ => true
  | .tick _ => true
  | .sample => true
  | .snap => true
  | .oscPhase _ => true
  | .oscPhaseof _ _ => true
  | .oscSine _ _ _ => true
  | .oscSquare _ _ _ => true
  | .oscAdvance _ _ => true
  | .oscReset _ => true
  | .noiseGauss _ => true
  | .noiseUniform => true
  | .intfInstall _ => true
  | .intfGen => true
  | .bqProc _ _ => true
  | .bqReset _ => true
  | .bqRepl _ _ => true
  | .mix _ _ _ _ => true
  | .dutGen => true
  | .ringPush _ _ => true
  | .ringSnap _ _ => true
  | .ringClear _ => true
  | .dbAcqw => true
  | .dbPub => true
  | .dbAcqr => true
  | .fftChan _ => true

/-! ## The double buffer -/

/-- The active block: the one the flag points at (R63). -/
def State.activeBlock (s : State) : Option Block := Block.ofFlagWord (memRead32 s.shm 0)

/-- Byte `a` lies in block `blk` of a region laid out for `p` points (R61). -/
abbrev inBlock (p : Nat) (blk : Block) (a : Nat) : Prop :=
  blockBase p blk ≤ a ∧ a < blockBase p blk + blockBytes p

/-! ## Invariants -/

/-- `x` is a number and `lo ≤ x`. -/
abbrev atLeast (lo x : F64) : Prop := fle lo x = true

/-- The invariant of a phase: in `[0, TWO_PI)`, or a NaN, which only a NaN or infinite operand of a
direct operation brings in (R24, R43, R121). -/
abbrev phaseOk (p : F64) : Prop := isNaN p = true ∨ (fle pZero p = true ∧ flt p cTwoPi = true)

/-- The legal ranges that validation leaves in the parameter registers (R30 to R34). -/
structure Params.Legal (p : Params) : Prop where
  sampleRate : isFinite p.sampleRate = true ∧ flt pZero p.sampleRate = true
  snapshotRate : isFinite p.snapshotRate = true ∧ flt pZero p.snapshotRate = true
  referenceFrequency : atLeast cOne p.referenceFrequency ∧ fle p.referenceFrequency c1000 = true
  referenceAmplitude : atLeast pZero p.referenceAmplitude
  modulatingFrequency : atLeast cTenth p.modulatingFrequency
  modulationIndex : atLeast pZero p.modulationIndex ∧ fle p.modulationIndex cOne = true
  phaseShift : atLeast pZero p.phaseShift ∧ flt p.phaseShift c360 = true
  sensorOutputAmplitude : atLeast pZero p.sensorOutputAmplitude
  whiteNoiseAmplitude : atLeast pZero p.whiteNoiseAmplitude
  interferers : ∀ i ∈ p.interferers, atLeast cOne i.frequency ∧ atLeast pZero i.amplitude
  bpfCenterFrequency : atLeast cOne p.bpfCenterFrequency
  bpfBandwidth : atLeast cOne p.bpfBandwidth
  lpfCutoffFrequency : atLeast cTenth p.lpfCutoffFrequency

/-- A ring of capacity `cap` (R35): `w < C`, `n ≤ C`. -/
abbrev Ring.ok (cap : Nat) (r : Ring) : Prop := r.w < cap ∧ r.n ≤ cap

/-- The invariants of R43, with the structural limits of R9 and the form of the memory. -/
structure State.Inv (s : State) : Prop where
  /-- The sizes of the build meet R9. -/
  build : s.build.wf
  /-- The shared region has its canonical form. -/
  memory : Memory.wf s.shm
  /-- `flag ∈ {0, 1}` (R43). -/
  flag : s.activeBlock ≠ none
  /-- The lifecycle has three states (R340). -/
  lifecycle : s.ctl.running = true → s.ctl.initialised = true
  /-- After INIT the region holds the flag and both blocks (R341). -/
  views : s.ctl.initialised = true → bytesNeeded s.ctl.snapshotPoints ≤ s.build.shmBytes
  /-- INIT accepts at most SNAP_MAX points (R97). -/
  points : s.ctl.initialised = true → s.ctl.snapshotPoints ≤ s.build.snapMax
  /-- The flag word exists whether or not the block is initialised. -/
  room : 4 ≤ s.build.shmBytes
  /-- `ringCapacity` is at most RING_CAP_MAX (R30, R34). -/
  capacityMax : s.params.ringCapacity ≤ s.build.ringCapMax
  /-- `1 ≤ P`, `ringCapacity ≥ snapshotPoints` (R43). -/
  capacity : 1 ≤ s.ctl.snapshotPoints ∧ s.ctl.snapshotPoints ≤ s.params.ringCapacity
  /-- `0 ≤ osc[k].phase < TWO_PI` (R43). -/
  oscRef : phaseOk s.chain.oscRef
  oscMod : phaseOk s.chain.oscMod
  /-- `ring[c].n ≤ C`, `ring[c].w < C` (R35, R43). -/
  rings : ∀ c, (s.rings.get c).ok s.params.ringCapacity
  /-- At most MAX_SECTIONS sections a cascade (R25). -/
  sections : ∀ b, (s.cascade b).length ≤ s.build.maxSections
  /-- At most MAX_INTERFERERS interferers (R28), held and installed. -/
  bank : s.chain.bank.length ≤ s.build.maxInterferers
  held : s.params.interferers.length ≤ s.build.maxInterferers
  /-- The held parameters are legal (R30 to R34). -/
  params : s.params.Legal
  /-- The work arrays keep their 1024 elements (R37). -/
  work : s.cons.fftRe.length = 1024 ∧ s.cons.fftIm.length = 1024

/-! ## Plain reads (20_memory.md R70, R72, R74) -/

/-- The contents of the shared region that a plain read of the consumer may see: those since its last acquire
load, oldest first, and the present one last (log 16). -/
def State.contents (s : State) : List Memory := s.free.view.past ++ [s.shm]

/-- Which of the contents a read of the word at byte `a` has seen since the last acquire load; 0, the oldest,
where none has been made. -/
def State.seenAt (s : State) (a : Nat) : Nat := (cellGet s.free.view.seen a).getD 0

/-- A move of either agent in which the consumer acquires nothing: an operation other than DB.ACQR and
FFT.CHAN, plain reads of consecutive words, the end of an FFT.CHAN acquired before, or a move that
touches neither the region nor what has been read of it (an arrival, a receipt, an error). -/
def PlainMove (s t : State) : Prop :=
  (∃ i : Instr, i ≠ .dbAcqr ∧ (∀ c, i ≠ .fftChan c) ∧ exec i s = .next t) ∨
  (∃ a n, t = s.readRun a n) ∨
  (∃ k, s.free.task = some k ∧ t = s.finishTask k) ∨
  (t.build = s.build ∧ t.shm = s.shm ∧ t.free.view = s.free.view)

end Sys2Proof.Machine
end

