-- ==== Sys2Proof/Certificates/Slice0/Obligations.lean ====
section
/-!
DEFINITION. The statements about the model.  Each docstring names the rule of spec/ it rests on.
-/

section StatementsOfTheModel

open Sys2Proof Sys2Proof.Machine

/-! ## Reset and invariants -/

/-- The values the spec gives for reset (R42 with R21 to R39, R90); a register it gives no value is not
named here. -/
def Obligations.ResetValues : Prop :=
  State.reset.ctl =
      { initialised := false, running := false, shmSize := 0, snapshotPoints := 10000 } ∧
  State.reset.params =
      { sampleRate := natToF64 50000, ringCapacity := 100000, snapshotRate := natToF64 30,
        referenceFrequency := natToF64 100, referenceAmplitude := natToF64 1,
        modulatingFrequency := natToF64 10,
        modulationIndex := fdiv (natToF64 1) (natToF64 2), phaseShift := natToF64 0,
        sensorOutputAmplitude := natToF64 1,
        whiteNoiseAmplitude := fdiv (natToF64 1) (natToF64 10), interferers := [],
        bpfEnabled := true, bpfCenterFrequency := natToF64 100, bpfBandwidth := natToF64 50,
        bpfOrder := .two, lpfCutoffFrequency := natToF64 10, lpfOrder := .two,
        mixerMode := .analog } ∧
  (∀ c, State.reset.chain.v.get c = pZero) ∧
  State.reset.chain.sampleCount = 0#64 ∧
  State.reset.chain.oscRef = pZero ∧ State.reset.chain.oscMod = pZero ∧
  (∀ b, State.reset.cascade b = []) ∧
  State.reset.chain.iSum = pZero ∧ State.reset.chain.qSum = pZero ∧
  State.reset.chain.avgCount = 0#64 ∧ State.reset.chain.hasSpare = false ∧
  State.reset.chain.bank = [] ∧ State.reset.chain.bpfPhaseOffset = pZero ∧
  State.reset.chain.lastSampleTime = pZero ∧ State.reset.chain.lastPublishTime = pZero ∧
  (∀ c, (State.reset.rings.get c).w = 0 ∧ (State.reset.rings.get c).n = 0) ∧
  (∀ a, memRead State.reset.shm a = 0#8) ∧
  State.reset.cons.dataLen = 0 ∧ State.reset.cons.effRate = pZero ∧
  State.reset.cons.outI = pZero ∧ State.reset.cons.outQ = pZero ∧
  State.reset.cons.outSigned = pZero ∧ State.reset.cons.outPhase = pZero ∧
  State.reset.cons.trigValid = false ∧ State.reset.cons.trigPrevLatest = nInf ∧
  State.reset.ports = { pPort := [], cPort := [], pResp := [], cResp := [], events := [] }

/-- The invariants of R43 and the structural limits hold after reset. -/
def Obligations.ResetInv : Prop := State.reset.Inv

/-- Every step keeps the invariants of R43: the phases in range, `n ≤ C` and `w < C` in every ring, the
flag 0 or 1, `C ≥ P`; with them the canonical memory, the lifecycle, the legal parameters (R34) and
the structural limits (R9), `C ≤ RING_CAP_MAX` among them. -/
def Obligations.StepKeepsInv : Prop :=
  ∀ s t : State, s.Inv → Sys2Proof.Machine.step s = .next t → t.Inv

/-! ## Encoding -/

/-- Decoding the encoding of a well-formed instruction on its port gives the instruction (R91 to
R96). -/
def Obligations.DecodeOfEncode : Prop :=
  ∀ i : Instr, i.WellFormed = true → decode i.port (encode i) = .ok i

/-- A message that decodes is the encoding of what it decodes to: no bit of it is ignored, so every
other form is illegal (R97). -/
def Obligations.EncodeOfDecode : Prop :=
  ∀ (p : Port) (m : Message) (i : Instr), decode p m = .ok i →
    encode i = m ∧ i.port = p ∧ i.WellFormed = true

/-- The worked encodings of R102. -/
def Obligations.WorkedEncodings : Prop :=
  decode .producer ⟨0x0000000000000003#64, []⟩ = .ok .stop ∧
  decode .producer ⟨0x0000000000000005#64, [0x4040C00000000000#64]⟩ =
    .ok (.tick (fdiv (natToF64 67) (natToF64 2))) ∧
  decode .producer ⟨0x0000000000000112#64, [0x4024000000000000#64, 0x3FF0000000000000#64]⟩ =
    .ok (.oscSine .mod (natToF64 10) (natToF64 1)) ∧
  decode .producer ⟨0x0000000000000220#64, [0x3FF0000000000000#64]⟩ =
    .ok (.bqProc .lpfQ (natToF64 1)) ∧
  decode .producer ⟨0x0000000000000C30#64, [0x3FD0000000000000#64]⟩ =
    .ok (.ringPush .time (fdiv (natToF64 1) (natToF64 4))) ∧
  decode .producer ⟨0x0000000100000122#64,
      [0x3FE0000000000000#64, 0x3FE0000000000000#64, 0#64, 0#64, 0#64]⟩ =
    .ok (.bqRepl .lpfI [⟨fdiv (natToF64 1) (natToF64 2), fdiv (natToF64 1) (natToF64 2),
      natToF64 0, natToF64 0, natToF64 0⟩]) ∧
  decode .producer ⟨0x0000000000000001#64, [0x00000000000FDE84#64, 0x0000000000002710#64]⟩ =
    .ok (.init 1040004#64 10000#64) ∧
  decode .producer ⟨0x0000000100000004#64, [0x0000000000000014#64, 0x403E000000000000#64]⟩ =
    .ok (.update [.scalar .phaseShift (natToF64 30)]) ∧
  decode .producer ⟨0x0000000100000002#64,
      [0x0000000000000000#64, 0x0000000100000017#64, 0x0000000000000007#64,
       0x4049000000000000#64, 0x3FC999999999999A#64]⟩ =
    .ok (.start (natToF64 0)
      [.interferers [⟨7#64, natToF64 50, fdiv (natToF64 1) (natToF64 5)⟩]])

/-- A message with an unlisted operation code or with reserved bits set is illegal on both ports, and
so is a legal message on the port that does not accept it (R97). -/
def Obligations.IllegalHeaders : Prop :=
  (∀ (p : Port) (m : Message),
    ((∀ op : Opcode, op.code ≠ opField m.header) ∨ rsvField m.header ≠ 0#16) →
      ∃ e, decode p m = .error e) ∧
  (∀ (p : Port) (i : Instr), i.WellFormed = true → p ≠ i.port →
    decode p (encode i) = .error .wrongPort)

/-! ## Messages, errors and lifecycle -/

/-- One step runs the decoded instruction: where the producer is on turn and the oldest message of the
P-port decodes to `i`, the step is `exec i` on the state without that message, followed by the
refresh of the choices; the same for the consumer and the C-port with no FFT.CHAN in progress
(R90).  Where the message decodes to nothing, the step is the IllegalCommand record that
`runMessage` raises on the state without it (R385, log 23), followed by the refresh.  Whose turn it
is, and the refresh, are the model's form of the free order of the ports (log 15). -/
def Obligations.StepRunsDecoded : Prop :=
  ∀ (s : State) (m : Message) (l : List Message) (i : Instr),
    (s.free.choice.turn = .producer → s.ports.pPort = m :: l → decode .producer m = .ok i →
      Sys2Proof.Machine.step s =
        match Sys2Proof.Machine.exec i { s with ports := { s.ports with pPort := l } } with
        | .next t => .next { t with free := { t.free with
            choice := Config.choiceAt t.free.choiceCount
            choiceCount := t.free.choiceCount + 1 } }
        | .fault f => .fault f
        | .refused r => .refused r) ∧
    (s.free.choice.turn = .consumer → s.free.task = none → s.ports.cPort = m :: l →
      decode .consumer m = .ok i →
      Sys2Proof.Machine.step s =
        match Sys2Proof.Machine.exec i { s with ports := { s.ports with cPort := l } } with
        | .next t => .next { t with free := { t.free with
            choice := Config.choiceAt t.free.choiceCount
            choiceCount := t.free.choiceCount + 1 } }
        | .fault f => .fault f
        | .refused r => .refused r) ∧
    (∀ e, s.free.choice.turn = .producer → s.ports.pPort = m :: l →
      decode .producer m = .error e →
      ∃ t : State, runMessage .producer m { s with ports := { s.ports with pPort := l } } = .next t ∧
        t.ports = { s.ports with
          pPort := l
          events := s.ports.events ++ [⟨0xEE#8, m.header.extractLsb' 0 8, [4#64]⟩] } ∧
        Sys2Proof.Machine.step s = .next { t with free := { t.free with
          choice := Config.choiceAt t.free.choiceCount
          choiceCount := t.free.choiceCount + 1 } }) ∧
    (∀ e, s.free.choice.turn = .consumer → s.free.task = none → s.ports.cPort = m :: l →
      decode .consumer m = .error e →
      ∃ t : State, runMessage .consumer m { s with ports := { s.ports with cPort := l } } = .next t ∧
        t.ports = { s.ports with
          cPort := l
          events := s.ports.events ++ [⟨0xEE#8, m.header.extractLsb' 0 8, [4#64]⟩] } ∧
        Sys2Proof.Machine.step s = .next { t with free := { t.free with
          choice := Config.choiceAt t.free.choiceCount
          choiceCount := t.free.choiceCount + 1 } })

/-- An illegal message appends one IllegalCommand record, whose `sel` is the low 8 bits of the header,
and changes nothing else (R385, R380; that the model raises it and does not refuse is its choice,
log 23). -/
def Obligations.IllegalMessageRaises : Prop :=
  ∀ (p : Port) (m : Message) (s : State) (e : Reject), decode p m = .error e →
    runMessage p m s =
      .next { s with ports := { s.ports with
        events := s.ports.events ++ [⟨0xEE#8, m.header.extractLsb' 0 8, [4#64]⟩] } }

/-- An instruction that fails an operand check of R97 appends one IllegalCommand record and changes
nothing else, in every lifecycle state (R385, R388). -/
def Obligations.IllegalOperandRaises : Prop :=
  ∀ (i : Instr) (s : State), operandsOk s.build i = false →
    Sys2Proof.Machine.exec i s =
      .next { s with ports := { s.ports with
        events := s.ports.events ++ [⟨0xEE#8, i.opcode.code, [4#64]⟩] } }

/-- Before a successful INIT every operation other than INIT and FFT.RUN appends one NotInitialized
record and changes nothing else, where its operands pass the checks that come first (R382, R388). -/
def Obligations.NotInitializedRaises : Prop :=
  ∀ (i : Instr) (s : State), s.ctl.initialised = false → needsInit i = true →
    operandsOk s.build i = true →
    Sys2Proof.Machine.exec i s =
      .next { s with ports := { s.ports with
        events := s.ports.events ++ [⟨0xEE#8, i.opcode.code, [2#64]⟩] } }

/-- The lifecycle drops of R340: INIT and START while running, UPDATE and TICK while idle change
nothing and raise nothing. -/
def Obligations.LifecycleDrops : Prop :=
  ∀ s : State, s.ctl.initialised = true →
    (s.ctl.running = true →
      (∀ bytes p : Word, p ≠ 0#64 → p.toNat ≤ s.build.snapMax →
        Sys2Proof.Machine.exec (.init bytes p) s = .next s) ∧
      (∀ now rs, Sys2Proof.Machine.exec (.start now rs) s = .next s)) ∧
    (s.ctl.running = false →
      (∀ rs, Sys2Proof.Machine.exec (.update rs) s = .next s) ∧
      (∀ now, Sys2Proof.Machine.exec (.tick now) s = .next s))

/-! ## Control operations -/

/-- A legal INIT while not running writes `shmSize`, `P`, `C`, the rings' `w` and `n` and
`initialised`, and nothing else of the spec's state (R341); the three model fields that a moved layout
marks are named too (U4, log 14). -/
def Obligations.InitWires : Prop :=
  ∀ (s : State) (bytes p : Word), p ≠ 0#64 → p.toNat ≤ s.build.snapMax → s.ctl.running = false →
    4 + 104 * p.toNat ≤ min bytes.toNat s.build.shmBytes →
    Sys2Proof.Machine.exec (.init bytes p) s = .next { s with
      ctl := { initialised := true, running := false, shmSize := bytes.toNat,
               snapshotPoints := p.toNat }
      params := { s.params with
        ringCapacity := min (max s.params.ringCapacity p.toNat) s.build.ringCapMax }
      rings := PerChan.ofFn (fun c => { s.rings.get c with w := 0, n := 0 })
      free := { s.free with
        relaid := s.free.relaid ||
          (s.ctl.initialised && decide (p.toNat ≠ s.ctl.snapshotPoints))
        task := s.free.task.map (fun t => { t with relaid := t.relaid ||
          (s.ctl.initialised && decide (p.toNat ≠ s.ctl.snapshotPoints)) })
        view := { s.free.view with relaid := s.free.view.relaid ||
          (s.ctl.initialised && decide (p.toNat ≠ s.ctl.snapshotPoints)) } } }

/-- An INIT whose region is too small appends one ShapeMismatch record and changes nothing else
(R383). -/
def Obligations.InitRefusesSmallRegion : Prop :=
  ∀ (s : State) (bytes p : Word), p ≠ 0#64 → p.toNat ≤ s.build.snapMax → s.ctl.running = false →
    min bytes.toNat s.build.shmBytes < 4 + 104 * p.toNat →
    Sys2Proof.Machine.exec (.init bytes p) s =
      .next { s with ports := { s.ports with
        events := s.ports.events ++ [⟨0xEE#8, 0x01#8, [3#64]⟩] } }

/-- A START in the idle state whose designs succeed builds the graph: every register R343 lists is
written as it says, one draw is taken per interferer, and nothing else changes. -/
def Obligations.StartBuilds : Prop :=
  ∀ (s : State) (now : F64) (rs : List ParamRecord) (bpf lpf : List Coeffs),
    s.ctl.initialised = true → s.ctl.running = false →
    let cand := startParams s.build s.ctl.snapshotPoints rs
    designBPF cand.bpfCenterFrequency cand.bpfBandwidth cand.bpfOrder cand.sampleRate = some bpf →
    designLPF cand.lpfCutoffFrequency cand.lpfOrder cand.sampleRate = some lpf →
    Sys2Proof.Machine.exec (.start now rs) s = .next { s with
      ctl := { s.ctl with running := true }
      params := cand
      chain :=
        { v := PerChan.const pZero
          sampleCount := 0#64
          oscRef := pZero
          oscMod := pZero
          bpf := bpf.map (fun c => ⟨c, pZero, pZero, pZero, pZero⟩)
          lpfI := lpf.map (fun c => ⟨c, pZero, pZero, pZero, pZero⟩)
          lpfQ := lpf.map (fun c => ⟨c, pZero, pZero, pZero, pZero⟩)
          iSum := pZero
          qSum := pZero
          avgCount := 0#64
          hasSpare := false
          spare := s.chain.spare
          bank := rebuiltBank s.free.drawPos cand.interferers
          bpfPhaseOffset := if cand.bpfEnabled then
            cascadedPhase bpf cand.referenceFrequency cand.sampleRate else pZero
          lastSampleTime := now
          lastPublishTime := now }
      rings := PerChan.ofFn (fun c => { s.rings.get c with w := 0, n := 0 })
      free := { s.free with drawPos := s.free.drawPos + cand.interferers.length } }

/-- Validation: START leaves legal parameters whatever its records, with `C` at most RING_CAP_MAX and,
where `P` is, at least `P`; UPDATE keeps legal ones legal and the engine group, `C` among it, as it
was (R34, R30 to R33). -/
def Obligations.ValidationLeavesLegal : Prop :=
  ∀ (b : Config.Build) (p : Nat) (rs : List ParamRecord),
    (startParams b p rs).Legal ∧
    (startParams b p rs).ringCapacity ≤ b.ringCapMax ∧
    (p ≤ b.ringCapMax → p ≤ (startParams b p rs).ringCapacity) ∧
    ∀ q : Params, q.Legal →
      (applyRecords b p false q rs).Legal ∧
      (applyRecords b p false q rs).sampleRate = q.sampleRate ∧
      (applyRecords b p false q rs).ringCapacity = q.ringCapacity ∧
      (applyRecords b p false q rs).snapshotRate = q.snapshotRate

/-- A START in the idle state, or an UPDATE while running that changes the filter concerned, with a
corner that is NaN, `≤ 0` or `≥ fs/2` appends one InvalidCorner record and changes nothing else
(R381, R162). -/
def Obligations.InvalidCornerRefuses : Prop :=
  ∀ (s : State) (now : F64) (rs : List ParamRecord), s.ctl.initialised = true →
    let bad := fun fc fs : F64 =>
      isNaN fc = true ∨ fle fc pZero = true ∨ fle (fdiv fs cTwo) fc = true
    (s.ctl.running = false →
      (let cand := startParams s.build s.ctl.snapshotPoints rs
       bad cand.bpfCenterFrequency cand.sampleRate ∨
         bad cand.lpfCutoffFrequency cand.sampleRate) →
      Sys2Proof.Machine.exec (.start now rs) s =
        .next { s with ports := { s.ports with
          events := s.ports.events ++ [⟨0xEE#8, 0x02#8, [1#64]⟩] } }) ∧
    (s.ctl.running = true →
      (let cand := applyRecords s.build s.ctl.snapshotPoints false s.params rs
       (bpfChanged s.params cand = true ∧
          bad cand.bpfCenterFrequency s.params.sampleRate) ∨
         (lpfChanged s.params cand = true ∧
          bad cand.lpfCutoffFrequency s.params.sampleRate)) →
      Sys2Proof.Machine.exec (.update rs) s =
        .next { s with ports := { s.ports with
          events := s.ports.events ++ [⟨0xEE#8, 0x04#8, [1#64]⟩] } })

/-- STOP after INIT, running or idle: the teardown of R345 and nothing else; the shared region, the
parameters, `P`, `shmSize`, the timestamps and `bpfPhaseOffset` stay. -/
def Obligations.StopTearsDown : Prop :=
  ∀ s : State, s.ctl.initialised = true →
    Sys2Proof.Machine.exec .stop s = .next { s with
      ctl := { s.ctl with running := false }
      chain := { s.chain with
        v := PerChan.const pZero
        sampleCount := 0#64
        oscRef := pZero
        oscMod := pZero
        bpf := []
        lpfI := []
        lpfQ := []
        iSum := pZero
        qSum := pZero
        avgCount := 0#64
        hasSpare := false
        bank := [] }
      rings := PerChan.ofFn (fun c => { s.rings.get c with w := 0, n := 0 }) }

/-- UPDATE while running, where no filter that changes has an invalid corner (R290, R291, R292,
R293): the parameters become the validated candidate; a list is given where some record is an
interferer list within its limit and without a NaN (R34, log 44), and then the bank is overwritten in
place or rebuilt, else kept; a changed filter has its new coefficients; an update of class R zeroes the
accumulator and all filter states, clears the rings and computes the phase offset anew, and any
other keeps them; everything else stays. -/
def Obligations.UpdateApplies : Prop :=
  ∀ (s : State) (rs : List ParamRecord), s.ctl.initialised = true → s.ctl.running = true →
    let held := s.params
    let cand := applyRecords s.build s.ctl.snapshotPoints false held rs
    let bpfNew := !feq cand.bpfCenterFrequency held.bpfCenterFrequency ||
      !feq cand.bpfBandwidth held.bpfBandwidth || decide (cand.bpfOrder ≠ held.bpfOrder)
    let lpfNew := !feq cand.lpfCutoffFrequency held.lpfCutoffFrequency ||
      decide (cand.lpfOrder ≠ held.lpfOrder)
    let given := rs.any (fun r => match r with
      | .scalar _ _ => false
      | .interferers l => decide (l.length ≤ s.build.maxInterferers) &&
          l.all (fun i => !isNaN i.frequency && !isNaN i.amplitude))
    let rebuild := given && !sameFrequencies cand.interferers s.chain.bank
    let classR := !feq cand.referenceFrequency held.referenceFrequency ||
      !feq cand.modulatingFrequency held.modulatingFrequency ||
      decide (cand.mixerMode ≠ held.mixerMode) || decide (cand.bpfEnabled ≠ held.bpfEnabled) ||
      bpfNew || lpfNew || rebuild
    (bpfNew = true → invalidCorner cand.bpfCenterFrequency held.sampleRate = false) →
    (lpfNew = true → invalidCorner cand.lpfCutoffFrequency held.sampleRate = false) →
    ∃ t : State, Sys2Proof.Machine.exec (.update rs) s = .next t ∧
      t.params = cand ∧
      (given = false → t.chain.bank = s.chain.bank) ∧
      (given = true → rebuild = false →
        t.chain.bank = overwriteAmplitudes cand.interferers s.chain.bank) ∧
      (rebuild = true → t.chain.bank = rebuiltBank s.free.drawPos cand.interferers) ∧
      t.free = { s.free with drawPos := s.free.drawPos +
        (if rebuild then cand.interferers.length else 0) } ∧
      (bpfNew = true → some (t.chain.bpf.map (fun x => x.c)) =
        designBPF cand.bpfCenterFrequency cand.bpfBandwidth cand.bpfOrder held.sampleRate) ∧
      (lpfNew = true →
        some (t.chain.lpfI.map (fun x => x.c)) =
          designLPF cand.lpfCutoffFrequency cand.lpfOrder held.sampleRate ∧
        some (t.chain.lpfQ.map (fun x => x.c)) =
          designLPF cand.lpfCutoffFrequency cand.lpfOrder held.sampleRate) ∧
      (bpfNew = false → t.chain.bpf.map (fun x => x.c) = s.chain.bpf.map (fun x => x.c)) ∧
      (lpfNew = false → t.chain.lpfI.map (fun x => x.c) = s.chain.lpfI.map (fun x => x.c) ∧
        t.chain.lpfQ.map (fun x => x.c) = s.chain.lpfQ.map (fun x => x.c)) ∧
      (classR = true →
        t.chain.iSum = pZero ∧ t.chain.qSum = pZero ∧ t.chain.avgCount = 0#64 ∧
        (∀ b, ∀ x ∈ t.cascade b, x.x1 = pZero ∧ x.x2 = pZero ∧ x.y1 = pZero ∧ x.y2 = pZero) ∧
        t.rings = PerChan.ofFn (fun c => { s.rings.get c with w := 0, n := 0 }) ∧
        t.chain.bpfPhaseOffset = (if cand.bpfEnabled then
          cascadedPhase (t.chain.bpf.map (fun x => x.c)) cand.referenceFrequency cand.sampleRate
          else pZero)) ∧
      (classR = false →
        t.rings = s.rings ∧ (∀ b, t.cascade b = s.cascade b) ∧
        t.chain.iSum = s.chain.iSum ∧ t.chain.qSum = s.chain.qSum ∧
        t.chain.avgCount = s.chain.avgCount ∧
        t.chain.bpfPhaseOffset = s.chain.bpfPhaseOffset) ∧
      t.chain.v = s.chain.v ∧ t.chain.sampleCount = s.chain.sampleCount ∧
      t.chain.oscRef = s.chain.oscRef ∧ t.chain.oscMod = s.chain.oscMod ∧
      t.chain.hasSpare = s.chain.hasSpare ∧ t.chain.spare = s.chain.spare ∧
      t.chain.lastSampleTime = s.chain.lastSampleTime ∧
      t.chain.lastPublishTime = s.chain.lastPublishTime ∧
      t.build = s.build ∧ t.ctl = s.ctl ∧ t.cons = s.cons ∧ t.ports = s.ports ∧
      ∀ a, memRead t.shm a = memRead s.shm a

/-! ## Sequencer -/

/-- SAMPLE (R272): every channel register, ring, filter state, phase, accumulator and counter is what
the rule's pseudocode gives from the state before, whether running or not, and nothing else
changes. -/
def Obligations.SampleProduces : Prop :=
  ∀ s : State, s.ctl.initialised = true →
    let p := s.params
    let phi := fdiv (fmul p.phaseShift cPi) c180
    let theta := s.chain.oscRef
    let reference := fmul p.referenceAmplitude (numSin theta)
    let m := if flt pZero p.modulationIndex then fmul cOne (numSin s.chain.oscMod) else pZero
    let carrier := numSin (fadd theta phi)
    let clean := fmul (fmul (fmul p.sensorOutputAmplitude carrier) p.modulationIndex) m
    let modulating := fmul (fmul p.sensorOutputAmplitude p.modulationIndex) m
    let noise := fadd (s.gaussValue p.whiteNoiseAmplitude) (bankSum s.chain.bank)
    let sensor := fadd clean noise
    let afterBpf := if p.bpfEnabled then cascadeOutput s.chain.bpf sensor else sensor
    let mixed := mixValue p.mixerMode afterBpf theta p.referenceAmplitude
    let i := cascadeOutput s.chain.lpfI mixed.1
    let q := cascadeOutput s.chain.lpfQ mixed.2
    let v : PerChan F64 :=
      { reference := reference, modulating := modulating,
        modulatingPlusNoise := fadd modulating noise, sensorClean := clean, noise := noise,
        sensor := sensor, afterBpf := afterBpf, mixerI := mixed.1, mixerQ := mixed.2,
        iOutput := i, qOutput := q,
        signedOutput := fadd (fmul i (numCos phi)) (fmul q (numSin phi)),
        time := fdiv (natToF64 s.chain.sampleCount.toNat) p.sampleRate }
    ∃ t : State, Sys2Proof.Machine.exec .sample s = .next t ∧
      t.chain.v = v ∧
      (∀ c, t.rings.get c =
        { w := ((s.rings.get c).w + 1) % p.ringCapacity
          n := min ((s.rings.get c).n + 1) p.ringCapacity
          cells := cellSet (s.rings.get c).w (f64ToF32 (v.get c)) (s.rings.get c).cells }) ∧
      t.chain.oscRef =
        wrap2Pi (fadd theta (fdiv (fmul cTwoPi p.referenceFrequency) p.sampleRate)) ∧
      t.chain.oscMod =
        wrap2Pi (fadd s.chain.oscMod (fdiv (fmul cTwoPi p.modulatingFrequency) p.sampleRate)) ∧
      t.chain.bpf = (if p.bpfEnabled then cascadeNext s.chain.bpf sensor else s.chain.bpf) ∧
      t.chain.lpfI = cascadeNext s.chain.lpfI mixed.1 ∧
      t.chain.lpfQ = cascadeNext s.chain.lpfQ mixed.2 ∧
      t.chain.bank = bankAdvanced p.sampleRate s.chain.bank ∧
      t.chain.hasSpare = (s.gaussNext p.whiteNoiseAmplitude).chain.hasSpare ∧
      t.chain.spare = (s.gaussNext p.whiteNoiseAmplitude).chain.spare ∧
      t.free = (s.gaussNext p.whiteNoiseAmplitude).free ∧
      t.chain.iSum = fadd s.chain.iSum i ∧ t.chain.qSum = fadd s.chain.qSum q ∧
      (s.chain.avgCount.toNat + 1 < 2 ^ 64 → t.chain.avgCount = s.chain.avgCount + 1#64) ∧
      (s.chain.sampleCount.toNat + 1 < 2 ^ 64 →
        t.chain.sampleCount = s.chain.sampleCount + 1#64) ∧
      t.chain.bpfPhaseOffset = s.chain.bpfPhaseOffset ∧
      t.chain.lastSampleTime = s.chain.lastSampleTime ∧
      t.chain.lastPublishTime = s.chain.lastPublishTime ∧
      t.build = s.build ∧ t.ctl = s.ctl ∧ t.params = s.params ∧ t.cons = s.cons ∧
      t.ports = s.ports ∧ ∀ a, memRead t.shm a = memRead s.shm a

/-- SNAP (R281, R284): in a state that meets the invariants, element `k` of every channel of the
inactive block is the ring's decimated element, every other byte but the flag's is as before, the
flag then points at that block, the accumulator is zero, and one FrameReady record is appended whose
outputs are the rule's where samples were accumulated (with none they are free, U2, log 6); nothing
else of the spec's state changes. -/
def Obligations.SnapPublishes : Prop :=
  ∀ (s : State) (act : Block), s.Inv → s.ctl.initialised = true → s.activeBlock = some act →
    let points := s.ctl.snapshotPoints
    let cap := s.params.ringCapacity
    let stride := (cap + points - 1) / points
    let count := fun c => ((s.rings.get c).n + stride - 1) / stride
    let phi := fdiv (fmul s.params.phaseShift cPi) c180
    let iAvg := fdiv s.chain.iSum (natToF64 s.chain.avgCount.toNat)
    let qAvg := fdiv s.chain.qSum (natToF64 s.chain.avgCount.toNat)
    ∃ (t : State) (i q signed phase : F64), Sys2Proof.Machine.exec .snap s = .next t ∧
      (s.chain.avgCount ≠ 0#64 →
        i = iAvg ∧ q = qAvg ∧
        signed = fadd (fmul iAvg (numCos phi)) (fmul qAvg (numSin phi)) ∧
        phase = wrap180 (fsub (fdiv (fmul (numAtan2 qAvg iAvg) c180) cPi)
          (fdiv (fmul s.chain.bpfPhaseOffset c180) cPi))) ∧
      (∀ c k, k < count c →
        memRead32 t.shm (elemAddr points act.other c k) =
          ringElem c (s.rings.get c)
            (((s.rings.get c).w + cap - (s.rings.get c).n + k * stride) % cap)) ∧
      (∀ a, 4 ≤ a →
        (∀ c, ¬ (elemAddr points act.other c 0 ≤ a ∧
          a < elemAddr points act.other c (count c))) →
        memRead t.shm a = memRead s.shm a) ∧
      t.activeBlock = some act.other ∧
      t.chain = { s.chain with iSum := pZero, qSum := pZero, avgCount := 0#64 } ∧
      t.ports = { s.ports with events := s.ports.events ++
        [⟨0xE0#8, 0#8, [i, q, signed, phase, fdiv s.params.sampleRate (natToF64 stride),
          BitVec.ofNat 64 (count .reference)]⟩] } ∧
      t.build = s.build ∧ t.ctl = s.ctl ∧ t.params = s.params ∧ t.rings = s.rings ∧
      t.cons = s.cons ∧ t.free.drawPos = s.free.drawPos

/-- How many samples a TICK produces (R280, R300): none where `due` is NaN or not positive, 2000 where
`due` is at least 2000, else `due` itself, which is then less than 2000.  `due` is NaN where `now` or
`lastSampleTime` is one: at a tick that carries a NaN, and at every tick after a START or a TICK at a
NaN, since `lastSampleTime` then stays a NaN (R343, V-TICK-2; TickRuns; log 41). -/
def Obligations.TickSampleCount : Prop :=
  ∀ (s : State) (now : F64),
    let due := ffloor (fmul (fdiv (fsub now s.chain.lastSampleTime) c1000) s.params.sampleRate)
    (isNaN due = true ∨ fle due pZero = true → s.tickSamples now = 0) ∧
    (isNaN now = true ∨ isNaN s.chain.lastSampleTime = true → s.tickSamples now = 0) ∧
    (fle cTickCap due = true → s.tickSamples now = 2000) ∧
    (flt pZero due = true → flt due cTickCap = true →
      s.tickSamples now < 2000 ∧ natToF64 (s.tickSamples now) = due)

/-- `Sample()` repeated, which is the sample phase of a TICK (R280): none leaves the state, and `k + 1`
are the state that SAMPLE answers followed by `k` more; `k` of them add `k` to `sampleCount` and to
`avgCount` where neither reaches 2^64 (R23, R26, R272). -/
def Obligations.SamplesCount : Prop :=
  ∀ (k : Nat) (s : State),
    State.sampledTimes 0 s = s ∧
    (s.ctl.initialised = true →
      ∃ u : State, Sys2Proof.Machine.exec .sample s = .next u ∧
        State.sampledTimes (k + 1) s = State.sampledTimes k u) ∧
    (s.chain.sampleCount.toNat + k < 2 ^ 64 →
      (State.sampledTimes k s).chain.sampleCount.toNat = s.chain.sampleCount.toNat + k) ∧
    (s.chain.avgCount.toNat + k < 2 ^ 64 →
      (State.sampledTimes k s).chain.avgCount.toNat = s.chain.avgCount.toNat + k)

/-- TICK while running, in a state that meets the invariants (R280, R283): `Sample()` runs as often as
the pacing says and `lastSampleTime` becomes `now`, or stays a NaN where it is one (R343, V-TICK-2; that the
write of R280 leaves a NaN is the model's choice between the two rules, log 41); then, where a STOP waits behind the tick and the
choice lets it cut in, the STOP is performed and nothing is published; else, where the cadence says
so, `Snapshot()` runs as in SNAP and `lastPublishTime` becomes `now`, and otherwise nothing
follows.  Where a START or a TICK of the run carried a NaN, or this one does, the tick produces no
sample and `lastSampleTime` is a NaN after it, so that every later `due` is one (R343); after a
START at a NaN nothing is published and `lastPublishTime` stays the NaN (R343), while after a TICK at a NaN
the cadence goes on (R280, R425; log 41). -/
def Obligations.TickRuns : Prop :=
  ∀ (s : State) (now : F64), s.Inv → s.ctl.running = true →
    let mid := { State.sampledTimes (s.tickSamples now) s with
      chain := { (State.sampledTimes (s.tickSamples now) s).chain with
        lastSampleTime := if isNaN s.chain.lastSampleTime then s.chain.lastSampleTime else now } }
    let due := fle (fdiv c1000 s.params.snapshotRate) (fsub now s.chain.lastPublishTime)
    let cut := s.free.choice.stopCut = true ∧
      ∃ m l, s.ports.pPort = m :: l ∧ decode .producer m = .ok .stop
    (¬ cut → due = false → Sys2Proof.Machine.exec (.tick now) s = .next mid) ∧
    (¬ cut → due = true → ∃ t : State, Sys2Proof.Machine.exec .snap mid = .next t ∧
      Sys2Proof.Machine.exec (.tick now) s =
        .next { t with chain := { t.chain with lastPublishTime := now } }) ∧
    (isNaN s.chain.lastSampleTime = true ∨ isNaN now = true →
      isNaN mid.chain.lastSampleTime = true ∧
      mid = { s with chain := { s.chain with lastSampleTime := mid.chain.lastSampleTime } }) ∧
    (isNaN s.chain.lastPublishTime = true → due = false) ∧
    (cut → ∃ t : State,
      Sys2Proof.Machine.exec .stop
        { mid with ports := { mid.ports with pPort := mid.ports.pPort.tail } } = .next t ∧
      Sys2Proof.Machine.exec (.tick now) s = .next t)

/-! ## Oscillators -/

/-- OSC.PHASE responds the phase and OSC.PHASEOF the unwrapped sum of phase and offset; both write
nothing else (R123, R124). -/
def Obligations.OscReads : Prop :=
  ∀ (s : State) (o : OscSel) (offset : F64), s.ctl.initialised = true →
    let phase := match o with
      | .ref => s.chain.oscRef
      | .mod => s.chain.oscMod
    Sys2Proof.Machine.exec (.oscPhase o) s =
      .next { s with ports := { s.ports with
        pResp := s.ports.pResp ++ [⟨0x10#8, o.code, [phase]⟩] } } ∧
    Sys2Proof.Machine.exec (.oscPhaseof o offset) s =
      .next { s with ports := { s.ports with
        pResp := s.ports.pResp ++ [⟨0x11#8, o.code, [fadd phase offset]⟩] } }

/-- OSC.SINE and OSC.SQUARE respond the sample of the phase before the advance, and advance the one
oscillator selected by `(TWO_PI·f)/fs`, wrapped; nothing else changes (R125, R126).  Of the sine and
the cosine R12 names: `sin(+0) = +0`, `cos(±0) = 1`, and a tolerance of 1e−6; that it is imposed on every finite
operand as a bound 1e−6 beyond `[−1, 1]` and, below 2^32, as a distance from the sine or cosine computed
here to 2^−88, is the model's reading (DEDUCED, log 2). -/
def Obligations.OscSamples : Prop :=
  numSin pZero = pZero ∧ numCos pZero = cOne ∧ numCos nZero = cOne ∧
  (∀ x : F64, isFinite x = true →
    (fle (fneg cSineBound) (numSin x) = true ∧ fle (numSin x) cSineBound = true) ∧
    (fle (fneg cSineBound) (numCos x) = true ∧ fle (numCos x) cSineBound = true) ∧
    ((toFix x).natAbs < 2 ^ 128 →
      (toFix (numSin x) - fixSin (toFix x)).natAbs * 10 ^ 6 ≤ 2 ^ 96 ∧
      (toFix (numCos x) - fixCos (toFix x)).natAbs * 10 ^ 6 ≤ 2 ^ 96)) ∧
  ∀ (s : State) (o : OscSel) (f a : F64), s.ctl.initialised = true →
    let phase := match o with
      | .ref => s.chain.oscRef
      | .mod => s.chain.oscMod
    let advanced := wrap2Pi (fadd phase (fdiv (fmul cTwoPi f) s.params.sampleRate))
    let chain := match o with
      | .ref => { s.chain with oscRef := advanced }
      | .mod => { s.chain with oscMod := advanced }
    Sys2Proof.Machine.exec (.oscSine o f a) s =
      .next { s with
        chain := chain
        ports := { s.ports with
          pResp := s.ports.pResp ++ [⟨0x12#8, o.code, [fmul a (numSin phase)]⟩] } } ∧
    Sys2Proof.Machine.exec (.oscSquare o f a) s =
      .next { s with
        chain := chain
        ports := { s.ports with
          pResp := s.ports.pResp ++ [⟨0x13#8, o.code, [fmul a (fsign (numSin phase))]⟩] } }

/-- OSC.ADVANCE and OSC.RESET write the selected phase and nothing else, and respond nothing (R122,
R127). -/
def Obligations.OscWrites : Prop :=
  ∀ (s : State) (f : F64), s.ctl.initialised = true →
    let adv := fun phase => wrap2Pi (fadd phase (fdiv (fmul cTwoPi f) s.params.sampleRate))
    Sys2Proof.Machine.exec (.oscAdvance .ref f) s =
      .next { s with chain := { s.chain with oscRef := adv s.chain.oscRef } } ∧
    Sys2Proof.Machine.exec (.oscAdvance .mod f) s =
      .next { s with chain := { s.chain with oscMod := adv s.chain.oscMod } } ∧
    Sys2Proof.Machine.exec (.oscReset .ref) s =
      .next { s with chain := { s.chain with oscRef := pZero } } ∧
    Sys2Proof.Machine.exec (.oscReset .mod) s =
      .next { s with chain := { s.chain with oscMod := pZero } }

/-- `Wrap2Pi` (R121): of a NaN or an infinity a NaN; of a finite number its remainder by TWO_PI, TWO_PI
added where that is negative, and `+0` where the result is at least TWO_PI or `−0`; so the result is in
`[0, TWO_PI)`, a number already there is itself, and the phases of V-OSC-4 come out as listed. -/
def Obligations.Wrap2PiRange : Prop :=
  (∀ p : F64,
    let r0 := ffmod p cTwoPi
    let r1 := if flt r0 pZero then fadd r0 cTwoPi else r0
    (isFinite p = true →
      wrap2Pi p = (if fle cTwoPi r1 = true ∨ r1 = nZero then pZero else r1) ∧
      fle pZero (wrap2Pi p) = true ∧ flt (wrap2Pi p) cTwoPi = true) ∧
    (fle pZero p = true → flt p cTwoPi = true → wrap2Pi p = if p = nZero then pZero else p) ∧
    (isFinite p = false → isNaN (wrap2Pi p) = true)) ∧
  wrap2Pi (fneg cHalf) = fsub cTwoPi cHalf ∧ wrap2Pi (natToF64 7) = fsub (natToF64 7) cTwoPi ∧
  wrap2Pi cTwoPi = pZero ∧ wrap2Pi (fmul cTwo cTwoPi) = pZero ∧ wrap2Pi nZero = pZero ∧
  wrap2Pi (fadd (fmul cTwo cTwoPi) cPi) = cPi

/-! ## Noise and interferers -/

/-- NOISE.GAUSS for `σ` not zero (R141): with a spare, `σ·spare` and no draw; without one, two draws
`d1`, `d2`, the deviates of `u1 = 1 − d1`, `u2 = d2`, the first scaled and the second cached;
nothing else changes. -/
def Obligations.GaussDraws : Prop :=
  ∀ (s : State) (sigma : F64), s.ctl.initialised = true → feq sigma pZero = false →
    let d1 := drawAt s.free.drawPos
    let d2 := drawAt (s.free.drawPos + 1)
    let r := fsqrt (fmul cMinusTwo (numLn (fsub cOne d1)))
    let a := fmul cTwoPi d2
    (s.chain.hasSpare = true →
      Sys2Proof.Machine.exec (.noiseGauss sigma) s = .next { s with
        chain := { s.chain with hasSpare := false }
        ports := { s.ports with
          pResp := s.ports.pResp ++ [⟨0x18#8, 0#8, [fmul sigma s.chain.spare]⟩] } }) ∧
    (s.chain.hasSpare = false →
      Sys2Proof.Machine.exec (.noiseGauss sigma) s = .next { s with
        chain := { s.chain with hasSpare := true, spare := fmul r (numSin a) }
        free := { s.free with drawPos := s.free.drawPos + 2 }
        ports := { s.ports with
          pResp := s.ports.pResp ++
            [⟨0x18#8, 0#8, [fmul sigma (fmul r (numCos a))]⟩] } })

/-- NOISE.GAUSS with `σ = ±0` responds exactly `+0`, takes no draw and changes nothing else, for every
call (R143). -/
def Obligations.GaussOfZero : Prop :=
  ∀ (s : State) (sigma : F64), s.ctl.initialised = true → magBits sigma = 0 →
    Sys2Proof.Machine.exec (.noiseGauss sigma) s =
      .next { s with ports := { s.ports with
        pResp := s.ports.pResp ++ [⟨0x18#8, 0#8, [pZero]⟩] } }

/-- NOISE.UNIFORM responds the next draw, which is in `[0, 1)`, and takes it (R140, R142). -/
def Obligations.UniformDraws : Prop :=
  ∀ s : State, s.ctl.initialised = true →
    ∃ d : F64, d = drawAt s.free.drawPos ∧ fle pZero d = true ∧ flt d cOne = true ∧
      Sys2Proof.Machine.exec .noiseUniform s = .next { s with
        free := { s.free with drawPos := s.free.drawPos + 1 }
        ports := { s.ports with pResp := s.ports.pResp ++ [⟨0x19#8, 0#8, [d]⟩] } }

/-- INTF.INSTALL (R146): where the list has the bank's length and frequencies, only amplitudes change;
else the bank is the list with one draw for each initial phase, in order; nothing else changes. -/
def Obligations.InstallBank : Prop :=
  ∀ (s : State) (l : List Interferer), s.ctl.initialised = true →
    l.length ≤ s.build.maxInterferers →
    let same := l.length = s.chain.bank.length ∧
      ∀ (k : Nat) (x : Interferer) (e : BankEntry), l[k]? = some x → s.chain.bank[k]? = some e →
        feq x.frequency e.freq = true
    ∃ bank : List BankEntry, bank.length = l.length ∧
      Sys2Proof.Machine.exec (.intfInstall l) s = .next { s with
        chain := { s.chain with bank := bank }
        free := { s.free with drawPos := (Sys2Proof.Machine.State.install s l).free.drawPos } } ∧
      (same → (Sys2Proof.Machine.State.install s l).free.drawPos = s.free.drawPos ∧
        ∀ (k : Nat) (x : Interferer) (e : BankEntry), l[k]? = some x →
          s.chain.bank[k]? = some e → bank[k]? = some ⟨e.freq, x.amplitude, e.phase⟩) ∧
      (¬ same →
        (Sys2Proof.Machine.State.install s l).free.drawPos = s.free.drawPos + l.length ∧
        ∀ (k : Nat) (x : Interferer), l[k]? = some x →
          bank[k]? = some ⟨x.frequency, x.amplitude,
            fmul cTwoPi (drawAt (s.free.drawPos + k))⟩)

/-- INTF.GEN (R147): responds the sum of `iamp·sin(iphase)` in order from `+0`, with the phases before
the advance; every phase advances by `(TWO_PI·ifreq)/fs`, wrapped; nothing else changes. -/
def Obligations.IntfGenSums : Prop :=
  ∀ s : State, s.ctl.initialised = true →
    Sys2Proof.Machine.exec .intfGen s = .next { s with
      chain := { s.chain with bank := s.chain.bank.map (fun e => ⟨e.freq, e.amp,
        wrap2Pi (fadd e.phase (fdiv (fmul cTwoPi e.freq) s.params.sampleRate))⟩) }
      ports := { s.ports with pResp := s.ports.pResp ++ [⟨0x1B#8, 0#8,
        [(s.chain.bank.map (fun e => fmul e.amp (numSin e.phase))).foldl fadd pZero]⟩] } }

/-! ## Filter bank -/

/-- BQ.PROC (R190, R191, R192): an empty cascade responds the input; a cascade that begins with a
section passes the section's output `(((b0·x + b1·x1) + b2·x2) − a1·y1) − a2·y2` on to the rest and
shifts the section's state; only the selected cascade changes. -/
def Obligations.BqProcFilters : Prop :=
  ∀ (s : State) (b : BqSel) (x : F64), s.ctl.initialised = true →
    (∃ (y : F64) (l : List Section), l.map (fun z => z.c) = (s.cascade b).map (fun z => z.c) ∧
      y = cascadeOutput (s.cascade b) x ∧ l = cascadeNext (s.cascade b) x ∧
      Sys2Proof.Machine.exec (.bqProc b x) s = .next { s with
        chain := (match b with
          | .bpf => { s.chain with bpf := l }
          | .lpfI => { s.chain with lpfI := l }
          | .lpfQ => { s.chain with lpfQ := l })
        ports := { s.ports with pResp := s.ports.pResp ++ [⟨0x20#8, b.code, [y]⟩] } }) ∧
    cascadeOutput [] x = x ∧
    ∀ (z : Section) (l : List Section),
      let y := fsub (fsub (fadd (fadd (fmul z.c.b0 x) (fmul z.c.b1 z.x1)) (fmul z.c.b2 z.x2))
        (fmul z.c.a1 z.y1)) (fmul z.c.a2 z.y2)
      cascadeOutput (z :: l) x = cascadeOutput l y ∧
      cascadeNext (z :: l) x = ⟨z.c, x, z.x1, y, z.y1⟩ :: cascadeNext l y

/-- BQ.RESET zeroes the state of every section of the selected cascade and keeps coefficients and
`nsec`; BQ.REPL keeps the state where the section count matches and else rebuilds the sections in
the zero state; nothing else changes (R193, R194). -/
def Obligations.BqWrites : Prop :=
  ∀ (s : State) (b : BqSel) (cs : List Coeffs), s.ctl.initialised = true →
    let put := fun l : List Section => match b with
      | .bpf => { s.chain with bpf := l }
      | .lpfI => { s.chain with lpfI := l }
      | .lpfQ => { s.chain with lpfQ := l }
    Sys2Proof.Machine.exec (.bqReset b) s = .next { s with
      chain := put ((s.cascade b).map (fun z => ⟨z.c, pZero, pZero, pZero, pZero⟩)) } ∧
    (cs.length ≤ s.build.maxSections → ∃ l : List Section,
      Sys2Proof.Machine.exec (.bqRepl b cs) s = .next { s with chain := put l } ∧
      l.map (fun z => z.c) = cs ∧
      (cs.length = (s.cascade b).length →
        l.map (fun z => (z.x1, z.x2, z.y1, z.y2)) =
          (s.cascade b).map (fun z => (z.x1, z.x2, z.y1, z.y2))) ∧
      (cs.length ≠ (s.cascade b).length →
        ∀ z ∈ l, z.x1 = pZero ∧ z.x2 = pZero ∧ z.y1 = pZero ∧ z.y2 = pZero))

/-- With zero input and zero state a cascade with finite coefficients outputs a zero for all `n`
(R196; the premise on the coefficients is the model's: an infinite one gives a NaN under R11). -/
def Obligations.BqZeroStaysZero : Prop :=
  ∀ (l : List Section) (xs : List F64) (x : F64),
    (∀ z ∈ l, magBits z.x1 = 0 ∧ magBits z.x2 = 0 ∧ magBits z.y1 = 0 ∧ magBits z.y2 = 0 ∧
      isFinite z.c.b0 = true ∧ isFinite z.c.b1 = true ∧ isFinite z.c.b2 = true ∧
      isFinite z.c.a1 = true ∧ isFinite z.c.a2 = true) →
    (∀ y ∈ xs, magBits y = 0) → magBits x = 0 →
    magBits (cascadeOutput (xs.foldl cascadeNext l) x) = 0

/-! ## Mixer and DUT generator -/

/-- MIX (R212): the products with the sine and the cosine in analog mode whatever `A_ref` is; in
digital mode the products with their signs and `2/π` where `A_ref > 0`, else `+0` twice; no state
changes.  The sign (R14) is `+1` above zero, `−1` below, SIGN_AT_ZERO, which is 0 (log 29), at both
zeros and a NaN of a NaN. -/
def Obligations.MixMultiplies : Prop :=
  (∀ x : F64,
    (flt pZero x = true → fsign x = natToF64 1) ∧
    (flt x pZero = true → fsign x = fneg (natToF64 1)) ∧
    (feq x pZero = true → fsign x = natToF64 0) ∧
    (isNaN x = true → isNaN (fsign x) = true)) ∧
  ∀ (s : State) (x theta aRef : F64), s.ctl.initialised = true →
    Sys2Proof.Machine.exec (.mix .analog x theta aRef) s =
      .next { s with ports := { s.ports with pResp := s.ports.pResp ++
        [⟨0x28#8, 0#8, [fmul x (numSin theta), fmul x (numCos theta)]⟩] } } ∧
    Sys2Proof.Machine.exec (.mix .digital x theta aRef) s =
      .next { s with ports := { s.ports with pResp := s.ports.pResp ++ [⟨0x28#8, 1#8,
        if flt pZero aRef then
          [fmul (fmul x (fsign (numSin theta))) cTwoOverPi,
           fmul (fmul x (fsign (numCos theta))) cTwoOverPi]
        else [pZero, pZero]⟩] } }

/-- DUT.GEN (R215): the four values from the phases before the advance; both oscillators advance
whatever `modulationIndex` is; nothing else changes. -/
def Obligations.DutGenerates : Prop :=
  ∀ s : State, s.ctl.initialised = true →
    let p := s.params
    let theta := s.chain.oscRef
    let m := if flt pZero p.modulationIndex then fmul cOne (numSin s.chain.oscMod) else pZero
    let carrier := numSin (fadd theta (fdiv (fmul p.phaseShift cPi) c180))
    Sys2Proof.Machine.exec .dutGen s = .next { s with
      chain := { s.chain with
        oscRef := wrap2Pi (fadd theta (fdiv (fmul cTwoPi p.referenceFrequency) p.sampleRate))
        oscMod := wrap2Pi (fadd s.chain.oscMod
          (fdiv (fmul cTwoPi p.modulatingFrequency) p.sampleRate)) }
      ports := { s.ports with pResp := s.ports.pResp ++ [⟨0x29#8, 0#8,
        [fmul p.referenceAmplitude (numSin theta),
         fmul (fmul p.sensorOutputAmplitude p.modulationIndex) m,
         fmul (fmul (fmul p.sensorOutputAmplitude carrier) p.modulationIndex) m,
         theta]⟩] } }

/-! ## Rings -/

/-- RING.PUSH stores `f32(v)` at the write index and moves `w` and `n` of that ring; RING.CLEAR zeroes
its `w` and `n`; the other twelve rings and everything else stay (R231, R234).  `f32` (R11) keeps every
value that binary32 has, overflows to the infinity of the sign exactly from half a unit above the
largest finite one on, gives a NaN of a NaN, and rounds a tie to the even neighbour. -/
def Obligations.RingWrites : Prop :=
  (∀ x : F32, isNaN (f32ToF64 x) = false → f64ToF32 (f32ToF64 x) = x) ∧
  (∀ x : F64, isNaN x = false →
    (0x47EFFFFFF0000000 ≤ magBits x →
      f64ToF32 x = if signBit x then 0xFF800000#32 else 0x7F800000#32) ∧
    (magBits x < 0x47EFFFFFF0000000 → isFinite (f32ToF64 (f64ToF32 x)) = true)) ∧
  (∀ x : F64, isNaN x = true → isNaN (f32ToF64 (f64ToF32 x)) = true) ∧
  (f64ToF32 cTenth = 0x3DCCCCCD#32 ∧ f64ToF32 0x3FF0000010000000#64 = 0x3F800000#32 ∧
    f64ToF32 0x3FF0000030000000#64 = 0x3F800002#32 ∧ f64ToF32 0x3FF0000010000001#64 = 0x3F800001#32) ∧
  ∀ (s : State) (c : Chan) (v : F64), s.ctl.initialised = true →
    let r := s.rings.get c
    (∃ t : State, Sys2Proof.Machine.exec (.ringPush c v) s = .next t ∧
      ringElem c (t.rings.get c) r.w = f64ToF32 v ∧
      (∀ k, k ≠ r.w → ringElem c (t.rings.get c) k = ringElem c r k) ∧
      (t.rings.get c).w = (r.w + 1) % s.params.ringCapacity ∧
      (t.rings.get c).n = min (r.n + 1) s.params.ringCapacity ∧
      (∀ d, d ≠ c → t.rings.get d = s.rings.get d) ∧
      { t with rings := s.rings } = s) ∧
    (∃ t : State, Sys2Proof.Machine.exec (.ringClear c) s = .next t ∧
      (∀ k, ringElem c (t.rings.get c) k = ringElem c r k) ∧
      (t.rings.get c).w = 0 ∧ (t.rings.get c).n = 0 ∧
      (∀ d, d ≠ c → t.rings.get d = s.rings.get d) ∧
      { t with rings := s.rings } = s)

/-- RING.SNAP with `maxPoints ≥ 1` responds `count = ⌈n/stride⌉` and the elements at
`(w − n + k·stride) mod C` with `stride = ⌈C/maxPoints⌉`, widened to f64; no state changes (R232,
R233, R300). -/
def Obligations.RingSnapReads : Prop :=
  ∀ (s : State) (c : Chan) (maxPoints : Word), s.ctl.initialised = true → maxPoints ≠ 0#64 →
    let r := s.rings.get c
    let cap := s.params.ringCapacity
    let stride := (cap + maxPoints.toNat - 1) / maxPoints.toNat
    let count := (r.n + stride - 1) / stride
    Sys2Proof.Machine.exec (.ringSnap c maxPoints) s =
      .next { s with ports := { s.ports with pResp := s.ports.pResp ++ [⟨0x31#8, c.code,
        BitVec.ofNat 64 count :: (List.range count).map (fun k =>
          f32ToF64 (ringElem c r ((r.w + cap - r.n + k * stride) % cap)))⟩] } }

/-- After any pushes into a cleared ring, RING.SNAP responds the pushed values in insertion order,
decimated with stride `⌈C/maxPoints⌉` from the oldest that the ring still holds (R235). -/
def Obligations.RingHistory : Prop :=
  ∀ (s : State) (c : Chan) (vs : List F64) (maxPoints : Word), s.ctl.initialised = true →
    1 ≤ s.params.ringCapacity → maxPoints ≠ 0#64 →
    (s.rings.get c).w = 0 → (s.rings.get c).n = 0 →
    let cap := s.params.ringCapacity
    let stride := (cap + maxPoints.toNat - 1) / maxPoints.toNat
    let count := (min vs.length cap + stride - 1) / stride
    ∃ t : State,
      vs.foldl (fun (o : Result) v => match o with
        | .next u => Sys2Proof.Machine.exec (.ringPush c v) u
        | .fault f => .fault f
        | .refused r => .refused r) (.next s) = .next t ∧
      Sys2Proof.Machine.exec (.ringSnap c maxPoints) t =
        .next { t with ports := { t.ports with pResp := t.ports.pResp ++ [⟨0x31#8, c.code,
          BitVec.ofNat 64 count :: (List.range count).map (fun k =>
            f32ToF64 (f64ToF32 (vs.getD ((vs.length - cap) + k * stride) pZero)))⟩] } }

/-! ## Double buffer -/

/-- DB.ACQW responds the number and the base of the inactive block and DB.ACQR those of the active one;
neither writes anything of the spec's state (R250, R252).  DB.ACQR's acquire load is kept in the
model's own field that bounds what the consumer's later plain reads see (R70, log 42). -/
def Obligations.ViewsRespond : Prop :=
  ∀ (s : State) (act : Block), s.ctl.initialised = true → 4 ≤ s.build.shmBytes →
    s.activeBlock = some act →
    let view := fun blk : Block => match blk with
      | .a => [0#64, 4#64]
      | .b => [1#64, BitVec.ofNat 64 (4 + 52 * s.ctl.snapshotPoints)]
    Sys2Proof.Machine.exec .dbAcqw s =
      .next { s with ports := { s.ports with
        pResp := s.ports.pResp ++ [⟨0x38#8, 0#8, view act.other⟩] } } ∧
    Sys2Proof.Machine.exec .dbAcqr s =
      .next { s with
        ports := { s.ports with cResp := s.ports.cResp ++ [⟨0x3A#8, 0#8, view act⟩] }
        free := { s.free with view := {
          base := match act with
            | .a => 4
            | .b => 4 + 52 * s.ctl.snapshotPoints
          points := s.ctl.snapshotPoints
          relaid := s.free.relaid
          past := []
          seen := [] } } }

/-- DB.PUB stores `1 − flag`: the other block becomes active, no byte but the flag's four changes, and
nothing else of the spec's state; a second DB.PUB makes the first block active again (R251). -/
def Obligations.PublishFlips : Prop :=
  ∀ (s : State) (act : Block), s.ctl.initialised = true → 4 ≤ s.build.shmBytes →
    s.activeBlock = some act →
    ∃ t u : State, Sys2Proof.Machine.exec .dbPub s = .next t ∧
      Sys2Proof.Machine.exec .dbPub t = .next u ∧
      t.activeBlock = some act.other ∧ u.activeBlock = some act ∧
      memRead32 t.shm 0 = (match act with
        | .a => 1#32
        | .b => 0#32) ∧
      (∀ a, 4 ≤ a → memRead t.shm a = memRead s.shm a) ∧
      { t with shm := s.shm, free := { t.free with relaid := s.free.relaid, view := s.free.view } } = s

/-- The active block is never mutated while it is active: one step leaves every byte of the block that
is active before it as it was, and every byte beyond the two blocks (R254, R69). -/
def Obligations.ActiveBlockKept : Prop :=
  ∀ (s t : State) (act : Block) (a : Nat), s.Inv → s.ctl.initialised = true →
    s.activeBlock = some act → Sys2Proof.Machine.step s = .next t →
    (inBlock s.ctl.snapshotPoints act a ∨ 4 + 104 * s.ctl.snapshotPoints ≤ a) →
    memRead t.shm a = memRead s.shm a

/-- Every instruction but SNAP, TICK and DB.PUB leaves every byte of the shared region as it was
(R253, R72). -/
def Obligations.OtherInstructionsStoreNothing : Prop :=
  ∀ (i : Instr) (s t : State), i ≠ .snap → (∀ now, i ≠ .tick now) → i ≠ .dbPub →
    Sys2Proof.Machine.exec i s = .next t → ∀ a, memRead t.shm a = memRead s.shm a

/-- An instruction of the C-port changes nothing the producer owns and not the shared region; one of the
P-port changes nothing the consumer owns; neither changes the build (R20, R72, R394). -/
def Obligations.AgentsOwnTheirState : Prop :=
  ∀ (i : Instr) (s t : State), Sys2Proof.Machine.exec i s = .next t →
    t.build = s.build ∧
    (i.port = .consumer →
      t.ctl = s.ctl ∧ t.params = s.params ∧ t.chain = s.chain ∧ t.rings = s.rings ∧
      t.shm = s.shm ∧ t.ports.pPort = s.ports.pPort ∧ t.ports.pResp = s.ports.pResp ∧
      t.free.drawPos = s.free.drawPos) ∧
    (i.port = .producer →
      t.cons = s.cons ∧ t.ports.cPort = s.ports.cPort ∧ t.ports.cResp = s.ports.cResp)

/-- The receipt of a FrameReady copies its payload into the last-frame registers and takes the record
off the event port; nothing else of the spec's state changes (R38, R390). -/
def Obligations.FrameReadyReceived : Prop :=
  ∀ (s : State) (l : List Record) (i q signed phase rate len : Word),
    s.free.choice.turn = .receive →
    s.ports.events = ⟨0xE0#8, 0#8, [i, q, signed, phase, rate, len]⟩ :: l →
    Sys2Proof.Machine.step s = .next { s with
      cons := { s.cons with
        outI := i, outQ := q, outSigned := signed, outPhase := phase, effRate := rate,
        dataLen := len.toNat }
      ports := { s.ports with events := l }
      free := { s.free with
        choice := Config.choiceAt s.free.choiceCount
        choiceCount := s.free.choiceCount + 1 } }

/-! ## Spectrum and trigger -/

/-- The length rule (R320): under 64 samples the spectrum is empty; else `N` is the largest power of
two with `N ≤ min(L, 1024)`. -/
def Obligations.FftLength : Prop :=
  ∀ len : Nat,
    (len < 64 → fftBits len = none) ∧
    (64 ≤ len → ∃ b, fftBits len = some b ∧ 2 ^ b ≤ min len 1024 ∧
      ∀ k, 2 ^ k ≤ min len 1024 → 2 ^ k ≤ 2 ^ b)

/-- FFT.RUN, initialised or not (R321 to R325): under 64 samples it responds 0; else it responds `nb`
and the pairs `f[k]`, `mag[k]` of the transform, and stores the transform in the first `N` entries
of the work arrays; nothing else changes.  The transform is the butterfly loop of R323, written out,
over the bit-reversed arrays of the last `N` samples under the Hann window and of zeros.  (Where
R325's words on an infinite sample differ from that pseudocode it is followed, log 39.) -/
def Obligations.FftRunResponds : Prop :=
  ∀ (s : State) (fs : F64) (x : List F64),
    (x.length < 64 → Sys2Proof.Machine.exec (.fftRun fs x) s =
      .next { s with ports := { s.ports with
        cResp := s.ports.cResp ++ [⟨0x40#8, 0#8, [0#64]⟩] } }) ∧
    (∀ b, fftBits x.length = some b →
      let n := 2 ^ b
      let w := transform b x
      let load := loadWork n x
      w.re.length = n ∧ w.im.length = n ∧
      load.re.length = n ∧ load.im.length = n ∧
      (∀ k, k < n →
        load.re[k]? = some (fmul (x.getD (x.length - n + k) pZero)
          (fmul cHalf (fsub cOne
            (numCos (fdiv (fmul cTwoPi (natToF64 k)) (natToF64 (n - 1))))))) ∧
        load.im[k]? = some pZero) ∧
      w = (List.range b).foldl (fun w j => (List.range (n / 2 ^ (j + 1))).foldl (fun w g =>
          (List.range (2 ^ j)).foldl (fun w k =>
            let ang := fdiv (fmul (fneg cTwoPi) (natToF64 k)) (natToF64 (2 ^ (j + 1)))
            let lo := g * 2 ^ (j + 1) + k
            let hi := lo + 2 ^ j
            let tr := fsub (fmul (w.re.getD hi pZero) (numCos ang))
              (fmul (w.im.getD hi pZero) (numSin ang))
            let ti := fadd (fmul (w.re.getD hi pZero) (numSin ang))
              (fmul (w.im.getD hi pZero) (numCos ang))
            { re := (w.re.set hi (fsub (w.re.getD lo pZero) tr)).set lo
                (fadd (w.re.getD lo pZero) tr)
              im := (w.im.set hi (fsub (w.im.getD lo pZero) ti)).set lo
                (fadd (w.im.getD lo pZero) ti) }) w) w) (bitReverse b load) ∧
      Sys2Proof.Machine.exec (.fftRun fs x) s = .next { s with
        cons := { s.cons with
          fftRe := w.re ++ s.cons.fftRe.drop n
          fftIm := w.im ++ s.cons.fftIm.drop n
          fftN := n }
        ports := { s.ports with cResp := s.ports.cResp ++ [⟨0x40#8, 0#8,
          BitVec.ofNat 64 (n / 2) :: (List.range (n / 2)).flatMap (fun k =>
            let re := w.re.getD k pZero
            let im := w.im.getD k pZero
            [fdiv (fmul (natToF64 k) fs) (natToF64 n),
             fmul cTwenty (numLog10 (fmax
               (fdiv (fsqrt (fadd (fmul re re) (fmul im im))) (natToF64 n))
               cMagFloor))])⟩] } })

/-- The bit-reversal permutation (R322): bit `j` of `rev(i)` is bit `B−1−j` of `i`, `rev` is its own
inverse on `0..N−1`, and after the exchanges position `i` of both arrays holds the element of index
`rev(i)`. -/
def Obligations.BitReversalPermutes : Prop :=
  ∀ (b : Nat) (w : Work), w.re.length = 2 ^ b → w.im.length = 2 ^ b →
    ∀ i, i < 2 ^ b →
      revBits b i < 2 ^ b ∧
      (∀ j, j < b → (revBits b i).testBit j = i.testBit (b - 1 - j)) ∧
      revBits b (revBits b i) = i ∧
      (bitReverse b w).re[i]? = w.re[revBits b i]? ∧
      (bitReverse b w).im[i]? = w.im[revBits b i]?

/-- No bin reads less than −200 dB, one whose scaled magnitude is below `1e−10` reads exactly that (R324,
R384), and an input of zeros gives that in every bin (R325; it rests on sines and cosines of finite
numbers being finite and on the logarithm of the floor, log 2). -/
def Obligations.MagnitudeFloor : Prop :=
  (∀ (n : Nat) (re im : F64),
    isNaN (binMagnitude n re im) = true ∨ fle (fneg c200) (binMagnitude n re im) = true) ∧
  (∀ (n : Nat) (re im : F64),
    flt (fdiv (fsqrt (fadd (fmul re re) (fmul im im))) (natToF64 n)) cMagFloor = true →
    binMagnitude n re im = fneg c200) ∧
  ∀ (x : List F64) (b : Nat), (∀ y ∈ x, magBits y = 0) → fftBits x.length = some b →
    ∀ k, k < 2 ^ b / 2 →
      binMagnitude (2 ^ b) ((transform b x).re.getD k pZero) ((transform b x).im.getD k pZero) =
        fneg c200

/-- FFT.CHAN that does not overlap the producer (R326): it responds, under its own `op` and `sel`, what
FFT.RUN responds for the first `DATALEN` elements of the channel of the active block at rate
`EFFRATE`, and leaves the work arrays the same; nothing the producer owns changes.  The premises put
the elements inside the region and the layout of the last publish in place (U4). -/
def Obligations.FftChanReadsActiveBlock : Prop :=
  ∀ (s : State) (act : Block) (c : Chan), s.ctl.initialised = true → 4 ≤ s.build.shmBytes →
    s.activeBlock = some act → s.free.choice.overlap = false → s.free.relaid = false →
    elemAddr s.ctl.snapshotPoints act c s.cons.dataLen ≤ s.build.shmBytes →
    let x := (List.range s.cons.dataLen).map (fun k =>
      f32ToF64 (memRead32 s.shm (elemAddr s.ctl.snapshotPoints act c k)))
    ∃ (t u : State) (payload : List Word),
      Sys2Proof.Machine.exec (.fftChan c) s = .next t ∧
      Sys2Proof.Machine.exec (.fftRun s.cons.effRate x) s = .next u ∧
      u.ports = { s.ports with cResp := s.ports.cResp ++ [⟨0x40#8, 0#8, payload⟩] } ∧
      t.ports = { s.ports with cResp := s.ports.cResp ++ [⟨0x41#8, c.code, payload⟩] } ∧
      t.cons = u.cons ∧ t.build = s.build ∧ t.ctl = s.ctl ∧ t.params = s.params ∧
      t.chain = s.chain ∧ t.rings = s.rings ∧ (∀ a, memRead t.shm a = memRead s.shm a) ∧
      t.free.drawPos = s.free.drawPos

/-- An FFT.CHAN that overlaps the producer acquires and latches its block, and when the consumer finishes it
every element is one that the region has held there since or holds then (R74, U3; the model's form of
the overlap, log 16). -/
def Obligations.FftChanRace : Prop :=
  (∀ (s : State) (act : Block) (c : Chan), s.ctl.initialised = true → 4 ≤ s.build.shmBytes →
    s.activeBlock = some act → s.free.choice.overlap = true →
    Sys2Proof.Machine.exec (.fftChan c) s = .next { s with free := { s.free with
      view := { s.free.view with past := [], seen := [] }
      task := some { ch := c, addr := elemAddr s.ctl.snapshotPoints act c 0,
                     len := s.cons.dataLen, rate := s.cons.effRate,
                     relaid := s.free.relaid } } }) ∧
  (∀ (s : State) (t : ChanTask), s.free.task = some t → t.relaid = false →
    t.addr + 4 * t.len ≤ s.build.shmBytes →
    ∃ x : List F64, x.length = t.len ∧
      (∀ (k : Nat) (y : F64), x[k]? = some y → ∃ m : Memory, (m ∈ s.free.view.past ∨ m = s.shm) ∧
        y = f32ToF64 (memRead32 m (t.addr + 4 * k))) ∧
      ∃ u : State, s.consumerMove = .next u ∧ u.free.task = none ∧ u.shm = s.shm ∧
        ∃ v : State, Sys2Proof.Machine.exec (.fftRun t.rate x) s = .next v ∧
          u.cons = v.cons ∧
          ∃ payload, v.ports.cResp = s.ports.cResp ++ [⟨0x40#8, 0#8, payload⟩] ∧
            u.ports.cResp = s.ports.cResp ++ [⟨0x41#8, t.ch.code, payload⟩])

/-- `Wrap180` of every finite phase is in `(−180, 180]` and of a NaN or an infinity a NaN; it is the
formula of R282, each operation rounded (R11), wherever that lies in the interval (elsewhere it is a
free value of the interval, log 9); and it takes the values R282 lists. -/
def Obligations.Wrap180Range : Prop :=
  (∀ p : F64,
    (isFinite p = true → flt (fneg c180) (wrap180 p) = true ∧ fle (wrap180 p) c180 = true) ∧
    (isFinite p = false → isNaN (wrap180 p) = true) ∧
    (let r := fsub p (fmul c360 (fceil (fdiv (fsub p c180) c360)))
     isFinite p = true → flt (fneg c180) r = true → fle r c180 = true → wrap180 p = r)) ∧
  wrap180 c180 = c180 ∧ wrap180 (fneg c180) = c180 ∧
  wrap180 (natToF64 181) = fneg (natToF64 179) ∧
  wrap180 (fneg (natToF64 181)) = natToF64 179 ∧ wrap180 (natToF64 540) = c180

/-- `TrigSearch` returns the first index `i ≥ 1` whose time lies in the closed window and at which the
channel crosses the threshold upward, with its time, and null where there is none (R311). -/
def Obligations.TrigSearchFindsFirst : Prop :=
  ∀ (channel time : List F64) (len : Nat) (t tStart tEnd : F64),
    let hit := fun i : Nat => 1 ≤ i ∧ i < len ∧
      fle tStart (time.getD i pZero) = true ∧ fle (time.getD i pZero) tEnd = true ∧
      flt (channel.getD (i - 1) pZero) t = true ∧ fle t (channel.getD i pZero) = true
    (∀ i ti, trigSearch channel time len t tStart tEnd = some (i, ti) ↔
      hit i ∧ (∀ j, j < i → ¬ hit j) ∧ ti = time.getD i pZero) ∧
    (trigSearch channel time len t tStart tEnd = none ↔ ∀ i, ¬ hit i)

/-- The caller's procedure (R313 to R316): fewer than two elements change nothing; a trigger in holdoff
or still valid is kept without a search unless the timeline went backward; in every other case the
window of R316 is searched and a trigger found is stored, else none is held.  What the clamp of
`timeScale` makes of a NaN is free (R312, log 40). -/
def Obligations.TriggerHoldoff : Prop :=
  ∀ (c : Consumer) (channel time : List F64) (len : Nat) (t timeScale : F64),
    let first := time.getD 0 pZero
    let last := time.getD (len - 1) pZero
    let w := fdiv (fmul (if isNaN timeScale then Config.nanTimeScale timeScale
      else fmin (fmax timeScale cOne) c200) cFive) c1000
    let kept := c.trigValid = true ∧ flt last c.trigPrevLatest = false ∧
      (flt last (fadd c.trigTime w) = true ∨ fle first c.trigTime = true)
    let found := if flt (fsub last first) w then
        trigSearch channel time len t first (fadd first (fmul cTenth (fsub last first)))
      else trigSearch channel time len t first (fsub last w)
    (len < 2 → c.triggerUpdate channel time len t timeScale = c) ∧
    (2 ≤ len → kept →
      c.triggerUpdate channel time len t timeScale = { c with trigPrevLatest := last }) ∧
    (2 ≤ len → ¬ kept →
      c.triggerUpdate channel time len t timeScale = match found with
        | some r => { c with trigPrevLatest := last, trigValid := true, trigIndex := r.1,
                             trigTime := r.2 }
        | none => { c with trigPrevLatest := last, trigValid := false })

/-! ## Parameter records, filter designs, plain reads -/

/-- What each parameter record writes (R34, R94; the engine group only where `engine`, in START): its own
field and no other, clamped, normalised or dropped as R34 says; a later record of a message is
applied to what the earlier ones left; START applies its records to the defaults.  Where rounding
takes the formula of `phaseShift` out of `[0, 360)` the value is free there (log 9), and a clamp
keeps the sign of a zero at its bound (log 10).  That a NaN inside one interferer drops the whole list is
the model's choice (DESIGN CHOICE, log 44): R34 does not say what of the list is dropped. -/
def Obligations.RecordsWriteTheirFields : Prop :=
  ∀ (b : Config.Build) (p : Nat) (engine : Bool) (q : Params) (w : Word),
    let put := fun pid : Pid => applyRecord b p engine q (.scalar pid w)
    let low := fun lo : F64 => if flt w lo then lo else w
    let span := fun lo hi : F64 => if flt hi (low lo) then hi else low lo
    let rate := engine && isFinite w && flt pZero w
    let turn := fsub w (fmul c360 (ffloor (fdiv w c360)))
    put .sampleRate = (if rate then { q with sampleRate := w } else q) ∧
    put .ringCapacity = (if engine = true ∧ w ≠ 0#64 then
      { q with ringCapacity := min (max w.toNat p) b.ringCapMax } else q) ∧
    put .snapshotRate = (if rate then { q with snapshotRate := w } else q) ∧
    put .referenceFrequency =
      (if isNaN w then q else { q with referenceFrequency := span cOne c1000 }) ∧
    put .referenceAmplitude =
      (if isNaN w then q else { q with referenceAmplitude := low pZero }) ∧
    put .modulatingFrequency =
      (if isNaN w then q else { q with modulatingFrequency := low cTenth }) ∧
    put .modulationIndex =
      (if isNaN w then q else { q with modulationIndex := span pZero cOne }) ∧
    (isFinite w = false → put .phaseShift = q) ∧
    (isFinite w = true → ∃ v : F64, put .phaseShift = { q with phaseShift := v } ∧
      fle pZero v = true ∧ flt v c360 = true ∧ (turn = c360 → v = pZero) ∧
      (fle pZero turn = true → flt turn c360 = true → v = turn)) ∧
    put .sensorOutputAmplitude =
      (if isNaN w then q else { q with sensorOutputAmplitude := low pZero }) ∧
    put .whiteNoiseAmplitude =
      (if isNaN w then q else { q with whiteNoiseAmplitude := low pZero }) ∧
    put .bpfEnabled = (if w = 0#64 then { q with bpfEnabled := false }
      else if w = 1#64 then { q with bpfEnabled := true } else q) ∧
    put .bpfCenterFrequency =
      (if isNaN w then q else { q with bpfCenterFrequency := low cOne }) ∧
    put .bpfBandwidth = (if isNaN w then q else { q with bpfBandwidth := low cOne }) ∧
    put .bpfOrder = (if w = 1#64 then { q with bpfOrder := .one }
      else if w = 2#64 then { q with bpfOrder := .two }
      else if w = 4#64 then { q with bpfOrder := .four } else q) ∧
    put .lpfCutoffFrequency =
      (if isNaN w then q else { q with lpfCutoffFrequency := low cTenth }) ∧
    put .lpfOrder = (if w = 1#64 then { q with lpfOrder := .one }
      else if w = 2#64 then { q with lpfOrder := .two }
      else if w = 4#64 then { q with lpfOrder := .four } else q) ∧
    put .mixerMode = (if w = 0#64 then { q with mixerMode := .analog }
      else if w = 1#64 then { q with mixerMode := .digital } else q) ∧
    (∀ l : List Interferer, applyRecord b p engine q (.interferers l) =
      (if l.length ≤ b.maxInterferers ∧
          (∀ i ∈ l, isNaN i.frequency = false ∧ isNaN i.amplitude = false) then
        { q with interferers := l.map (fun i =>
          ⟨i.id, if flt i.frequency cOne then cOne else i.frequency,
            if flt i.amplitude pZero then pZero else i.amplitude⟩) }
      else q)) ∧
    applyRecords b p engine q [] = q ∧
    (∀ (rs : List ParamRecord) (r : ParamRecord), applyRecords b p engine q (rs ++ [r]) =
      applyRecord b p engine (applyRecords b p engine q rs) r) ∧
    (∀ rs : List ParamRecord, startParams b p rs =
      { applyRecords b p true Params.default rs with
        ringCapacity :=
          min (max (applyRecords b p true Params.default rs).ringCapacity p) b.ringCapMax })

/-- The designs (R162 to R168): `InvalidCorner` for a corner that is NaN, `≤ 0` or `≥ fs/2`; else one
section for orders 1 and 2 and two for order 4 (a band-pass of order 4: the spec's default, log 27),
with `b2 = a2 = 0` in a low or high pass of order 1 and the coefficients of the rules; the phase
response and its sum over a cascade (R170, R171). -/
def Obligations.DesignsFollowTheFormulas : Prop :=
  ∀ fc fs : F64,
    let bad := isNaN fc || fle fc pZero || fle (fdiv fs cTwo) fc
    let k := numTan (fdiv (fmul cPi fc) fs)
    let norm := fun q => fdiv cOne (fadd (fadd cOne (fdiv k q)) (fmul k k))
    let a1 := fun q => fmul (fmul cTwo (fsub (fmul k k) cOne)) (norm q)
    let a2 := fun q => fmul (fadd (fsub cOne (fdiv k q)) (fmul k k)) (norm q)
    let low := fun q : F64 =>
      let b0 := fmul (fmul k k) (norm q)
      (⟨b0, fmul cTwo b0, b0, a1 q, a2 q⟩ : Coeffs)
    let high := fun q : F64 => (⟨norm q, fmul cMinusTwo (norm q), norm q, a1 q, a2 q⟩ : Coeffs)
    let pole := fdiv (fsub k cOne) (fadd k cOne)
    let first := fdiv k (fadd cOne k)
    let firstHigh := fdiv cOne (fadd cOne k)
    let band := fun bw : F64 =>
      let w := fdiv (fmul cTwoPi fc) fs
      let alpha := fdiv (numSin w) (fmul cTwo (fdiv fc bw))
      let a0 := fadd cOne alpha
      (⟨fdiv alpha a0, pZero, fdiv (fneg alpha) a0, fdiv (fmul cMinusTwo (numCos w)) a0,
        fdiv (fsub cOne alpha) a0⟩ : Coeffs)
    (bad = true → ∀ (bw : F64) (o : FilterOrder), designLPF fc o fs = none ∧
      designHPF fc o fs = none ∧ designBPF fc bw o fs = none) ∧
    (bad = false →
      designLPF fc .one fs = some [⟨first, first, pZero, pole, pZero⟩] ∧
      designLPF fc .two fs = some [low cSqrtHalf] ∧
      designLPF fc .four fs = some [low cQ4a, low cQ4b] ∧
      designHPF fc .one fs = some [⟨firstHigh, fneg firstHigh, pZero, pole, pZero⟩] ∧
      designHPF fc .two fs = some [high cSqrtHalf] ∧
      designHPF fc .four fs = some [high cQ4a, high cQ4b] ∧
      ∀ bw : F64, designBPF fc bw .one fs = some [band bw] ∧
        designBPF fc bw .two fs = some [band bw] ∧
        designBPF fc bw .four fs = some [band (fmul cBpf4Bw bw), band (fmul cBpf4Bw bw)]) ∧
    (∀ (c : Coeffs) (f : F64),
      let w := fdiv (fmul cTwoPi f) fs
      let nr := fadd (fadd c.b0 (fmul c.b1 (numCos w))) (fmul c.b2 (numCos (fmul cTwo w)))
      let ni := fneg (fadd (fmul c.b1 (numSin w)) (fmul c.b2 (numSin (fmul cTwo w))))
      let dr := fadd (fadd cOne (fmul c.a1 (numCos w))) (fmul c.a2 (numCos (fmul cTwo w)))
      let di := fneg (fadd (fmul c.a1 (numSin w)) (fmul c.a2 (numSin (fmul cTwo w))))
      let d := fadd (fmul dr dr) (fmul di di)
      phaseResponse c f fs =
        numAtan2 (fdiv (fsub (fmul ni dr) (fmul nr di)) d)
          (fdiv (fadd (fmul nr dr) (fmul ni di)) d)) ∧
    (∀ (c : Coeffs) (f : F64),
      let w := fdiv (fmul cTwoPi f) fs
      let nr := fadd (fadd c.b0 (fmul c.b1 (refCos w))) (fmul c.b2 (refCos (fmul cTwo w)))
      let ni := fneg (fadd (fmul c.b1 (refSin w)) (fmul c.b2 (refSin (fmul cTwo w))))
      let dr := fadd (fadd cOne (fmul c.a1 (refCos w))) (fmul c.a2 (refCos (fmul cTwo w)))
      let di := fneg (fadd (fmul c.a1 (refSin w)) (fmul c.a2 (refSin (fmul cTwo w))))
      magnitudeResponse c f fs =
        fdiv (fsqrt (fadd (fmul nr nr) (fmul ni ni))) (fsqrt (fadd (fmul dr dr) (fmul di di)))) ∧
    ∀ (l : List Coeffs) (c : Coeffs) (f : F64),
      cascadedPhase [] f fs = pZero ∧
      cascadedPhase (l ++ [c]) f fs = fadd (cascadedPhase l f fs) (phaseResponse c f fs) ∧
      cascadedMagnitude [] f fs = cOne ∧
      cascadedMagnitude (l ++ [c]) f fs = fmul (cascadedMagnitude l f fs) (magnitudeResponse c f fs)

/-- The gains of R172 at `fs = 50 000`.  The low-pass is designed from the tangent `K` of its corner and the
band-pass from the sine and the cosine of its centre.  For every `K` within 8 units in the last place of
the correctly rounded tangent, and at both ends of the tolerance of `Num`, the low-pass of every order at
10, 1 and 0.1 Hz (the default, and down to the lowest legal cutoff) has magnitude `1 ± 1e−6` at DC.  For a
sine and a cosine within 2 units, and at both ends of the tolerance, the band-pass has `1 ± 1e−2` at its
centre and that of order 4 `1 ± 5e−2`: the default one, and at the tolerance also those of 12 500 Hz
(`fs/4`), of 1 Hz and of 24 999 Hz with bandwidth 1.  (The tolerance is that of log 2, within R12's 1e−6;
how a magnitude is computed is the model's, log 43.) -/
def Obligations.DesignedGains : Prop :=
  let fs := natToF64 50000
  let gain := fun (l : List Coeffs) (f lo hi : F64) =>
    fle lo (cascadedMagnitude l f fs) = true ∧ fle (cascadedMagnitude l f fs) hi = true
  (∀ fc bw : F64, invalidCorner fc fs = false →
    let k := numTan (fdiv (fmul cPi fc) fs)
    let w := fdiv (fmul cTwoPi fc) fs
    designLPF fc .one fs = some [lp1Of k] ∧
    designLPF fc .two fs = some [lp2Of k cSqrtHalf] ∧
    designLPF fc .four fs = some [lp2Of k cQ4a, lp2Of k cQ4b] ∧
    designBPF fc bw .two fs = some [bpOf (fdiv fc bw) (numSin w) (numCos w)] ∧
    designBPF fc bw .four fs = some (List.replicate 2
      (bpOf (fdiv fc (fmul cBpf4Bw bw)) (numSin w) (numCos w)))) ∧
  (∀ (corner : Fin 3) (d : Fin 17),
    let k := ([0x3F4496B7F2B10313#64, 0x3F107893048D60AC#64, 0x3EDA5A84D381F1CD#64] : List F64).getD
      corner.val pZero - 8#64 + BitVec.ofNat 64 d.val
    gain [lp1Of k] pZero 0x3FEFFFFDE7210BE9#64 0x3FF000010C6F7A0B#64 ∧
    gain [lp2Of k cSqrtHalf] pZero 0x3FEFFFFDE7210BE9#64 0x3FF000010C6F7A0B#64 ∧
    gain [lp2Of k cQ4a, lp2Of k cQ4b] pZero 0x3FEFFFFDE7210BE9#64 0x3FF000010C6F7A0B#64) ∧
  (∀ d e : Fin 5,
    let sinW := 0x3F89BC3952B6BECA#64 + BitVec.ofNat 64 d.val
    let cosW := 0x3FEFFF5A6AEE007D#64 + BitVec.ofNat 64 e.val
    let centre := natToF64 100
    gain [bpOf cTwo sinW cosW] centre 0x3FEFAE147AE147AE#64 0x3FF028F5C28F5C29#64 ∧
    gain (List.replicate 2 (bpOf (fdiv centre (fmul cBpf4Bw (natToF64 50))) sinW cosW)) centre
      0x3FEE666666666666#64 0x3FF0CCCCCCCCCCCD#64) ∧
  (∀ d : Fin 9,
    let k := ([0x3F4496B699451DED#64, 0x3F4496B7F2B10313#64, 0x3F4496B94C1CE839#64,
      0x3F107891F037121D#64, 0x3F107893048D60AC#64, 0x3F10789418E3AF3C#64,
      0x3EDA5A83195E40F2#64, 0x3EDA5A84D381F1CD#64, 0x3EDA5A868DA5A2A9#64] : List F64).getD d.val pZero
    gain [lp1Of k] pZero 0x3FEFFFFDE7210BE9#64 0x3FF000010C6F7A0B#64 ∧
    gain [lp2Of k cSqrtHalf] pZero 0x3FEFFFFDE7210BE9#64 0x3FF000010C6F7A0B#64 ∧
    gain [lp2Of k cQ4a, lp2Of k cQ4b] pZero 0x3FEFFFFDE7210BE9#64 0x3FF000010C6F7A0B#64) ∧
  ∀ (site : Fin 4) (d e : Fin 3),
    let centre := natToF64 (([100, 12500, 1, 24999] : List Nat).getD site.val 0)
    let bw := natToF64 (([50, 50, 1, 1] : List Nat).getD site.val 0)
    let sinW := ([0x3F89BC37A2F2CCD4#64, 0x3F89BC3952B6BECC#64, 0x3F89BC3B027AB0C5#64,
      0x3FEFFFFDE7212F18#64, 0x3FF0000000000000#64, 0x3FF000010C6F6874#64,
      0x3F207891EF1FCA94#64, 0x3F20789303761911#64, 0x3F20789417CC678E#64,
      0x3F207891EF1FD36D#64, 0x3F207893037621E9#64, 0x3F20789417CC7066#64] : List F64).getD
        (3 * site.val + d.val) pZero
    let cosW := ([0x3FEFFF5A6AD84CB3#64, 0x3FEFFF5A6AEE007F#64, 0x3FEFFF5A6B03B44B#64,
      0xBEB0C6F68737EBF1#64, 0x3C91A62633145C07#64, 0x3EB0C6F68740BF04#64,
      0x3FEFFFFFFBC2D2C7#64, 0x3FEFFFFFFBC2D355#64, 0x3FEFFFFFFBC2D3E4#64,
      0xBFEFFFFFFBC2D3E4#64, 0xBFEFFFFFFBC2D355#64, 0xBFEFFFFFFBC2D2C7#64] : List F64).getD
        (3 * site.val + e.val) pZero
    gain [bpOf (fdiv centre bw) sinW cosW] centre 0x3FEFAE147AE147AE#64 0x3FF028F5C28F5C29#64 ∧
    gain (List.replicate 2 (bpOf (fdiv centre (fmul cBpf4Bw bw)) sinW cosW)) centre
      0x3FEE666666666666#64 0x3FF0CCCCCCCCCCCD#64

/-- The consumer's plain reads race the producer (R74, R420, U3; the model's form, log 16 and 42).  What a read
may see is the list of the contents since the last acquire load, the present one last.
- An acquire load, of DB.ACQR or of FFT.CHAN, leaves the present content alone (R70, R72 (c)).
- Of the other operations DB.PUB adds one content, which differs in the flag; a SNAP or a TICK that publishes
adds two, the region with its elements stored and then with its flag stored; no other operation adds one,
none takes one away, and neither does the receipt of an event (R73).
- Reads of consecutive words record at each word which content was seen there, and touch no other word's
record.  The content read is one of the list, and none before the one already seen at that word.
- So no read goes back: after a read of a word and any moves that acquire nothing, reads of other words among
them, the contents are the earlier ones and perhaps more, and every later read of that word, by a plain
load, of a channel or by an FFT.CHAN, sees the same content or a later one (R72 (a), (d)).
- A plain load, each element of a channel and each sample of an FFT.CHAN in progress are read so; a load that
is not an aligned one inside the region is refused (R66, U7). -/
def Obligations.PlainReadsRace : Prop :=
  (∀ (s : State) (act : Block) (c : Chan), s.ctl.initialised = true → 4 ≤ s.build.shmBytes →
    s.activeBlock = some act →
    (∃ t : State, Sys2Proof.Machine.exec .dbAcqr s = .next t ∧ t.contents = [s.shm]) ∧
    ∃ t : State, Sys2Proof.Machine.exec (.fftChan c) s = .next t ∧ t.contents = [s.shm]) ∧
  (∀ (i : Instr) (s t : State), i ≠ .dbAcqr → (∀ c, i ≠ .fftChan c) →
    Sys2Proof.Machine.exec i s = .next t →
    t.free.view.seen = s.free.view.seen ∧
    (t.contents = s.contents ∨
      (i = .dbPub ∧ t.contents = s.contents ++ [t.shm] ∧
        ∀ a, 4 ≤ a → memRead t.shm a = memRead s.shm a) ∨
      ((i = .snap ∨ ∃ now, i = .tick now) ∧ ∃ m : Memory, t.contents = s.contents ++ [m, t.shm] ∧
        ∀ a, memRead m a = if a < 4 then memRead s.shm a else memRead t.shm a))) ∧
  (∀ s t : State, s.ctl.initialised = true → Sys2Proof.Machine.exec .snap s = .next t →
    ∃ (act : Block) (m : Memory), s.activeBlock = some act ∧
      s.storeViews act.other Chan.all s.shm = some m ∧ t = s.published act.other m ∧
      t.contents = s.contents ++ [m, t.shm]) ∧
  (∀ s : State, s.receiveMove.contents = s.contents ∧
    s.receiveMove.free.view.seen = s.free.view.seen) ∧
  (∀ (s : State) (k a : Nat), min (s.seenAt a) (s.contents.length - 1) ≤ s.pickVersion k a ∧
    s.pickVersion k a < s.contents.length) ∧
  (∀ (s : State) (b n : Nat), { s.readRun b n with free := s.free } = s ∧
    (s.readRun b n).contents = s.contents ∧
    (∀ j, j < n → (s.readRun b n).seenAt (b + 4 * j) = s.pickVersion j (b + 4 * j)) ∧
    ∀ w, (∀ j, j < n → w ≠ b + 4 * j) → (s.readRun b n).seenAt w = s.seenAt w) ∧
  (∀ (s u : State) (b n j : Nat), j < n → Relation.ReflTransGen PlainMove (s.readRun b n) u →
    u.build = s.build ∧ s.contents <+: u.contents ∧
    ∀ k, s.pickVersion j (b + 4 * j) ≤ u.pickVersion k (b + 4 * j)) ∧
  (∀ (s : State) (a : Nat),
    (¬ (a % 4 = 0 ∧ a + 4 ≤ s.build.shmBytes) → consumerLoad s a = none) ∧
    (a % 4 = 0 → a + 4 ≤ s.build.shmBytes → consumerLoad s a =
      some (memRead32 (s.contents.getD (s.pickVersion 0 a) []) a, s.readRun a 1))) ∧
  (∀ (s : State) (c : Chan) (len : Nat), s.free.view.relaid = false →
    let addr := s.free.view.base + c.index * (4 * s.free.view.points)
    addr + 4 * len ≤ s.build.shmBytes →
    s.viewChannel c len = (List.range len).map (fun j =>
      f32ToF64 (memRead32 (s.contents.getD (s.pickVersion j (addr + 4 * j)) []) (addr + 4 * j))) ∧
    s.viewRead c len = s.readRun addr len) ∧
  (∀ (s : State) (k : ChanTask), k.relaid = false → k.addr + 4 * k.len ≤ s.build.shmBytes →
    s.taskSamples k = (List.range k.len).map (fun j => f32ToF64 (memRead32
      (s.contents.getD (s.pickVersion j (k.addr + 4 * j)) []) (k.addr + 4 * j))) ∧
    (s.finishTask k).contents = s.contents ∧
    (s.finishTask k).free.view.seen = (s.readRun k.addr k.len).free.view.seen) ∧
  ∀ (s : State) (c : Chan) (t timeScale : F64),
    s.examineTrigger c t timeScale =
      { (s.viewRead c s.cons.dataLen).viewRead .time s.cons.dataLen with
        cons := s.cons.triggerUpdate (s.viewChannel c s.cons.dataLen)
          ((s.viewRead c s.cons.dataLen).viewChannel .time s.cons.dataLen) s.cons.dataLen t timeScale }

end StatementsOfTheModel
end

