-- ==== Sys2Proof/Laws/Float.lean ====
section
/-!
SUPPORT. Laws of the binary64 arithmetic: the value of a pattern, the order as the order of values, and
rounding as a monotone map that keeps every representable value.
-/

namespace Sys2Proof

/-! ## The value of a magnitude -/

/-- The exponent of the unit in the last place of magnitude bits `M`. -/
def magExp (M : Nat) : Int := if M / 2 ^ 52 = 0 then -1074 else (M / 2 ^ 52 : Nat) - 1075

/-- The integer mantissa of magnitude bits `M`. -/
def magMant (M : Nat) : Nat := if M / 2 ^ 52 = 0 then M else M % 2 ^ 52 + 2 ^ 52

/-- The value of magnitude bits `M`; the infinite pattern counts as 2^1024. -/
def magValue (M : Nat) : ℚ := magMant M * 2 ^ magExp M

theorem magExp_ge (M : Nat) : -1074 ≤ magExp M := by
  unfold magExp
  split
  · exact le_refl _
  · rename_i h
    have : 1 ≤ M / 2 ^ 52 := Nat.one_le_iff_ne_zero.mpr h
    omega

theorem magMant_lt (M : Nat) : magMant M < 2 ^ 53 := by
  unfold magMant
  split
  · rename_i h
    omega
  · omega

theorem magMant_ge {M : Nat} (h : -1074 < magExp M) : 2 ^ 52 ≤ magMant M := by
  unfold magExp at h
  unfold magMant
  split at h
  · omega
  · rename_i hn
    rw [if_neg hn]
    omega

theorem mag_eq (M : Nat) : (M : Int) = (magExp M + 1074) * 2 ^ 52 + magMant M := by
  unfold magExp magMant
  split
  · rename_i h
    omega
  · rename_i h
    have : 1 ≤ M / 2 ^ 52 := Nat.one_le_iff_ne_zero.mpr h
    omega

theorem magValue_nonneg (M : Nat) : 0 ≤ magValue M := by
  unfold magValue
  positivity

theorem two_zpow_mono {a b : Int} (h : a ≤ b) : (2 : ℚ) ^ a ≤ 2 ^ b :=
  zpow_le_zpow_right₀ (by norm_num) h

theorem magValue_strictMono : StrictMono magValue := by
  refine strictMono_nat_of_lt_succ fun M => ?_
  have e1 := mag_eq M
  have e2 := mag_eq (M + 1)
  have l1 := magMant_lt M
  have l2 := magMant_lt (M + 1)
  have g1 := magExp_ge M
  have g2 := magExp_ge (M + 1)
  unfold magValue
  have hp : (0 : ℚ) < 2 ^ magExp M := by positivity
  rcases lt_trichotomy (magExp M) (magExp (M + 1)) with h | h | h
  · have g := magMant_ge (M := M + 1) (by omega)
    have hx : (2 : ℚ) ^ (magExp M + 1) ≤ 2 ^ magExp (M + 1) := two_zpow_mono (by omega)
    rw [zpow_add₀ (by norm_num), zpow_one] at hx
    have c1 : (magMant M : ℚ) < 2 ^ 53 := by exact_mod_cast l1
    have c2 : (2 : ℚ) ^ 52 ≤ magMant (M + 1) := by exact_mod_cast g
    calc (magMant M : ℚ) * 2 ^ magExp M < 2 ^ 53 * 2 ^ magExp M := by
          exact mul_lt_mul_of_pos_right c1 hp
      _ = 2 ^ 52 * (2 ^ magExp M * 2) := by ring
      _ ≤ magMant (M + 1) * 2 ^ magExp (M + 1) := by
          exact mul_le_mul c2 hx (by positivity) (by positivity)
  · rw [← h]
    have : magMant M + 1 = magMant (M + 1) := by
      rw [← h] at e2
      push_cast at e2
      omega
    rw [← this]
    push_cast
    nlinarith
  · exfalso
    have g := magMant_ge (M := M) (by omega)
    push_cast at e2
    omega

theorem magValue_le_iff {M N : Nat} : magValue M ≤ magValue N ↔ M ≤ N :=
  magValue_strictMono.le_iff_le

theorem magValue_lt_iff {M N : Nat} : magValue M < magValue N ↔ M < N :=
  magValue_strictMono.lt_iff_lt

theorem magValue_zero : magValue 0 = 0 := by simp [magValue, magMant]

/-! ## Rounding -/

theorem roundShift_le {m k t : Nat} (h : m ≤ t * 2 ^ k) : roundShift m k ≤ t := by
  unfold roundShift
  have hp : 0 < 2 ^ k := by positivity
  have h1 := Nat.div_add_mod m (2 ^ k)
  have h2 := Nat.mod_lt m hp
  rcases Nat.lt_or_ge (m / 2 ^ k) t with hlt | hge
  · simp only
    split <;> omega
  · have h3 : t * 2 ^ k ≤ m / 2 ^ k * 2 ^ k := Nat.mul_le_mul_right _ hge
    have h4 : 2 ^ k * (m / 2 ^ k) = m / 2 ^ k * 2 ^ k := Nat.mul_comm _ _
    have h5 : m % 2 ^ k = 0 := by omega
    have h6 : m / 2 ^ k ≤ t := by
      have : m / 2 ^ k * 2 ^ k ≤ t * 2 ^ k := by omega
      exact Nat.le_of_mul_le_mul_right this hp
    simp only [h5]
    rw [if_neg (by omega)]
    exact h6

theorem le_roundShift {m k t : Nat} (h : t * 2 ^ k ≤ m) : t ≤ roundShift m k := by
  unfold roundShift
  have hp : 0 < 2 ^ k := by positivity
  have : t ≤ m / 2 ^ k := (Nat.le_div_iff_mul_le hp).mpr h
  simp only
  split <;> omega

/-- The integer that rounding at exponent `q` gives. -/
def roundedMant (m : Nat) (e q : Int) : Nat :=
  if q ≤ e then m * 2 ^ (e - q).toNat else roundShift m (q - e).toNat

theorem roundedMant_le {m t : Nat} {e q : Int} (h : (m : ℚ) * 2 ^ e ≤ t * 2 ^ q) :
    roundedMant m e q ≤ t := by
  unfold roundedMant
  have hp : (0 : ℚ) < 2 ^ q := by positivity
  split
  · rename_i hq
    have e1 : (2 : ℚ) ^ e = 2 ^ (e - q).toNat * 2 ^ q := by
      rw [← zpow_natCast, ← zpow_add₀ (by norm_num)]
      congr 1
      omega
    rw [e1, ← mul_assoc] at h
    have := le_of_mul_le_mul_right h hp
    exact_mod_cast this
  · rename_i hq
    refine roundShift_le ?_
    have e1 : (2 : ℚ) ^ q = 2 ^ (q - e).toNat * 2 ^ e := by
      rw [← zpow_natCast, ← zpow_add₀ (by norm_num)]
      congr 1
      omega
    rw [e1, ← mul_assoc] at h
    have := le_of_mul_le_mul_right h (by positivity)
    exact_mod_cast this

theorem le_roundedMant {m t : Nat} {e q : Int} (h : (t : ℚ) * 2 ^ q ≤ m * 2 ^ e) :
    t ≤ roundedMant m e q := by
  unfold roundedMant
  have hp : (0 : ℚ) < 2 ^ q := by positivity
  split
  · rename_i hq
    have e1 : (2 : ℚ) ^ e = 2 ^ (e - q).toNat * 2 ^ q := by
      rw [← zpow_natCast, ← zpow_add₀ (by norm_num)]
      congr 1
      omega
    rw [e1, ← mul_assoc] at h
    have := le_of_mul_le_mul_right h hp
    exact_mod_cast this
  · rename_i hq
    refine le_roundShift ?_
    have e1 : (2 : ℚ) ^ q = 2 ^ (q - e).toNat * 2 ^ e := by
      rw [← zpow_natCast, ← zpow_add₀ (by norm_num)]
      congr 1
      omega
    rw [e1, ← mul_assoc] at h
    have := le_of_mul_le_mul_right h (by positivity)
    exact_mod_cast this

theorem roundMag_eq {m : Nat} (hm : m ≠ 0) (e : Int) :
    roundMag 52 (-1074) infMag64 m e =
      min ((max ((Nat.log2 m : Int) + e - 52) (-1074) + 1074).toNat * 2 ^ 52 +
        roundedMant m e (max ((Nat.log2 m : Int) + e - 52) (-1074))) infMag64 := by
  unfold roundMag roundedMant
  rw [if_neg hm]
  simp only [Nat.cast_ofNat, sub_neg_eq_add]

theorem value_bounds {m : Nat} (hm : m ≠ 0) (e : Int) :
    (2 : ℚ) ^ ((Nat.log2 m : Int) + e) ≤ m * 2 ^ e ∧
      (m : ℚ) * 2 ^ e < 2 ^ ((Nat.log2 m : Int) + e + 1) := by
  have hp : (0 : ℚ) < 2 ^ e := by positivity
  have h1 : 2 ^ Nat.log2 m ≤ m := Nat.log2_self_le hm
  have h2 : m < 2 ^ (Nat.log2 m + 1) := Nat.lt_log2_self
  have c1 : (2 : ℚ) ^ (Nat.log2 m) ≤ m := by exact_mod_cast h1
  have c2 : (m : ℚ) < 2 ^ (Nat.log2 m + 1) := by exact_mod_cast h2
  constructor
  · rw [zpow_add₀ (by norm_num), zpow_natCast]
    exact mul_le_mul_of_nonneg_right c1 hp.le
  · rw [show (Nat.log2 m : Int) + e + 1 = ((Nat.log2 m + 1 : Nat) : Int) + e by push_cast; ring,
      zpow_add₀ (by norm_num), zpow_natCast]
    exact mul_lt_mul_of_pos_right c2 hp

/-- Rounding does not pass a representable value from below. -/
theorem roundMag_le {m M : Nat} {e : Int} (h : (m : ℚ) * 2 ^ e ≤ magValue M) :
    roundMag 52 (-1074) infMag64 m e ≤ M := by
  by_cases hm : m = 0
  · simp [roundMag, hm]
  rw [roundMag_eq hm]
  refine le_trans (min_le_left _ _) ?_
  obtain ⟨b1, b2⟩ := value_bounds hm e
  generalize hL : (Nat.log2 m : Int) + e = L at *
  have hq1 : L - 52 ≤ max (L - 52) (-1074) := le_max_left _ _
  have hq2 : -1074 ≤ max (L - 52) (-1074) := le_max_right _ _
  have hq3 : max (L - 52) (-1074) = L - 52 ∨ max (L - 52) (-1074) = -1074 := max_choice _ _
  generalize max (L - 52) (-1074) = q at *
  have hM := mag_eq M
  have hx := magExp_ge M
  have hl := magMant_lt M
  unfold magValue at h
  have up : roundedMant m e q ≤ 2 ^ 53 := by
    have h1 : (2 : ℚ) ^ (L + 1) ≤ 2 ^ (53 : Int) * 2 ^ q := by
      rw [← zpow_add₀ (by norm_num)]
      exact two_zpow_mono (by omega)
    exact roundedMant_le (le_trans b2.le (le_trans h1 (le_of_eq (by norm_num))))
  rcases lt_trichotomy q (magExp M) with hlt | heq | hgt
  · have := magMant_ge (M := M) (by omega)
    omega
  · have : roundedMant m e q ≤ magMant M := roundedMant_le (by rw [heq]; exact h)
    omega
  · exfalso
    have c : (magMant M : ℚ) < 2 ^ (53 : Int) := by exact_mod_cast hl
    have hp : (0 : ℚ) < 2 ^ magExp M := by positivity
    have h1 : (magMant M : ℚ) * 2 ^ magExp M < 2 ^ ((53 : Int) + magExp M) := by
      rw [zpow_add₀ (by norm_num)]
      exact mul_lt_mul_of_pos_right c hp
    have h2 : (2 : ℚ) ^ ((53 : Int) + magExp M) ≤ 2 ^ L := two_zpow_mono (by omega)
    linarith

/-- Rounding does not pass a representable value from above. -/
theorem le_roundMag {m M : Nat} {e : Int} (hi : M ≤ infMag64) (h : magValue M ≤ (m : ℚ) * 2 ^ e) :
    M ≤ roundMag 52 (-1074) infMag64 m e := by
  by_cases hm : m = 0
  · subst hm
    have : magValue M ≤ magValue 0 := by rw [magValue_zero]; simpa using h
    have := magValue_le_iff.mp this
    omega
  rw [roundMag_eq hm]
  refine le_min ?_ hi
  obtain ⟨b1, b2⟩ := value_bounds hm e
  generalize hL : (Nat.log2 m : Int) + e = L at *
  have hq1 : L - 52 ≤ max (L - 52) (-1074) := le_max_left _ _
  have hq2 : -1074 ≤ max (L - 52) (-1074) := le_max_right _ _
  have hq3 : max (L - 52) (-1074) = L - 52 ∨ max (L - 52) (-1074) = -1074 := max_choice _ _
  generalize max (L - 52) (-1074) = q at *
  have hM := mag_eq M
  have hx := magExp_ge M
  have hl := magMant_lt M
  unfold magValue at h
  rcases lt_trichotomy q (magExp M) with hlt | heq | hgt
  · exfalso
    have g := magMant_ge (M := M) (by omega)
    have c : (2 : ℚ) ^ (52 : Int) ≤ magMant M := by exact_mod_cast g
    have h1 : (2 : ℚ) ^ ((52 : Int) + magExp M) ≤ magMant M * 2 ^ magExp M := by
      rw [zpow_add₀ (by norm_num)]
      exact mul_le_mul_of_nonneg_right c (by positivity)
    have h2 : (2 : ℚ) ^ (L + 1) ≤ 2 ^ ((52 : Int) + magExp M) := two_zpow_mono (by omega)
    linarith
  · have : magMant M ≤ roundedMant m e q := le_roundedMant (by rw [heq]; exact h)
    omega
  · have : 2 ^ 52 ≤ roundedMant m e q := by
      have h1 : (2 : ℚ) ^ (52 : Int) * 2 ^ q ≤ 2 ^ L := by
        rw [← zpow_add₀ (by norm_num)]
        exact two_zpow_mono (by omega)
      exact le_roundedMant (le_trans (le_of_eq (by norm_num)) (le_trans h1 b1))
    omega

theorem roundMag_le_inf (m : Nat) (e : Int) : roundMag 52 (-1074) infMag64 m e ≤ infMag64 := by
  unfold roundMag
  split
  · simp
  · exact min_le_right _ _

/-- A representable value is kept. -/
theorem roundMag_exact {m M : Nat} {e : Int} (hi : M ≤ infMag64) (h : (m : ℚ) * 2 ^ e = magValue M) :
    roundMag 52 (-1074) infMag64 m e = M :=
  le_antisymm (roundMag_le h.le) (le_roundMag hi h.ge)

/-! ## Patterns -/

theorem toNat_eq_sign_mag (x : F64) : x.toNat = (if signBit x then 2 ^ 63 else 0) + magBits x := by
  have := x.isLt
  unfold signBit magBits
  by_cases h : 2 ^ 63 ≤ x.toNat
  · simp only [h, decide_true, if_true]
    omega
  · simp only [h, decide_false]
    simp
    omega

theorem eq_of_sign_mag {x y : F64} (hs : signBit x = signBit y) (hm : magBits x = magBits y) : x = y := by
  apply BitVec.eq_of_toNat_eq
  rw [toNat_eq_sign_mag x, toNat_eq_sign_mag y, hs, hm]

theorem ofNat_sign_mag {n : Bool} {M : Nat} (h : M < 2 ^ 63) :
    signBit (BitVec.ofNat 64 ((if n then 2 ^ 63 else 0) + M)) = n ∧
      magBits (BitVec.ofNat 64 ((if n then 2 ^ 63 else 0) + M)) = M := by
  have hlt : (if n then 2 ^ 63 else 0) + M < 2 ^ 64 := by split <;> omega
  unfold signBit magBits
  rw [BitVec.toNat_ofNat, Nat.mod_eq_of_lt hlt]
  cases n
  · simp
    omega
  · simp only [if_true]
    constructor
    · simp
    · omega

theorem pack_sign (n : Bool) (m : Nat) (e : Int) : signBit (pack n m e) = n :=
  (ofNat_sign_mag (lt_of_le_of_lt (roundMag_le_inf m e) (by decide))).1

theorem pack_mag (n : Bool) (m : Nat) (e : Int) :
    magBits (pack n m e) = roundMag 52 (-1074) infMag64 m e :=
  (ofNat_sign_mag (lt_of_le_of_lt (roundMag_le_inf m e) (by decide))).2

theorem pack_not_nan (n : Bool) (m : Nat) (e : Int) : isNaN (pack n m e) = false := by
  unfold isNaN
  rw [pack_mag]
  simpa using roundMag_le_inf m e

theorem quietNaN_isNaN (p : BitVec 52) : isNaN (quietNaN p) = true := by
  have h : 0x7FF8000000000000 + p.toNat % 2 ^ 51 < 2 ^ 63 := by omega
  have e : magBits (quietNaN p) = 0x7FF8000000000000 + p.toNat % 2 ^ 51 := by
    unfold quietNaN
    rw [Nat.add_assoc]
    exact (ofNat_sign_mag (n := p.msb) h).2
  exact decide_eq_true (by rw [e]; unfold infMag64; omega)

@[simp] theorem nanOf_isNaN (op : Config.FOp) (a b : F64) : isNaN (nanOf op a b) = true :=
  quietNaN_isNaN _

theorem isFinite_iff (x : F64) : isFinite x = true ↔ isNaN x = false ∧ isInf x = false := by
  simp only [isFinite, isNaN, isInf, decide_eq_true_eq, decide_eq_false_iff_not]
  omega

/-! ## Values and order -/

/-- The value of a pattern that is not a NaN; an infinity counts as ±2^1024. -/
def fval (x : F64) : ℚ := if signBit x then -magValue (magBits x) else magValue (magBits x)

theorem orderKey_le_iff (a b : F64) : orderKey a ≤ orderKey b ↔ fval a ≤ fval b := by
  have ha := magValue_nonneg (magBits a)
  have hb := magValue_nonneg (magBits b)
  have z : ∀ M, magValue M ≤ 0 ↔ M ≤ 0 := fun M => by
    rw [← magValue_zero]
    exact magValue_le_iff
  unfold orderKey fval
  cases signBit a <;> cases signBit b <;> simp only [if_true, Bool.false_eq_true, if_false]
  · rw [magValue_le_iff]
    omega
  · constructor
    · intro h
      have h1 := (z (magBits a)).mpr (by omega)
      have h2 := (z (magBits b)).mpr (by omega)
      linarith
    · intro h
      have h1 := (z (magBits a)).mp (by linarith)
      have h2 := (z (magBits b)).mp (by linarith)
      omega
  · constructor
    · intro _
      linarith
    · intro _
      omega
  · rw [neg_le_neg_iff, neg_le_neg_iff, magValue_le_iff]
    omega

theorem fle_iff (a b : F64) :
    fle a b = true ↔ isNaN a = false ∧ isNaN b = false ∧ fval a ≤ fval b := by
  simp [fle, orderKey_le_iff, and_assoc]

theorem flt_iff (a b : F64) :
    flt a b = true ↔ isNaN a = false ∧ isNaN b = false ∧ fval a < fval b := by
  have : orderKey a < orderKey b ↔ fval a < fval b := by
    rw [← not_le, ← not_le, orderKey_le_iff]
  simp [flt, this, and_assoc]

theorem feq_iff (a b : F64) :
    feq a b = true ↔ isNaN a = false ∧ isNaN b = false ∧ fval a = fval b := by
  have : orderKey a = orderKey b ↔ fval a = fval b := by
    constructor
    · intro h
      exact le_antisymm ((orderKey_le_iff a b).mp h.le) ((orderKey_le_iff b a).mp h.ge)
    · intro h
      exact le_antisymm ((orderKey_le_iff a b).mpr h.le) ((orderKey_le_iff b a).mpr h.ge)
  simp [feq, this, and_assoc]

theorem fval_pZero : fval pZero = 0 := by
  have h1 : signBit pZero = false := by decide
  have h2 : magBits pZero = 0 := by decide
  simp [fval, h1, h2, magValue_zero]

/-- What `unpack` gives of a finite pattern has the pattern's sign and value. -/
theorem unpack_finite {x : F64} (h : isFinite x = true) :
    ∃ m e, unpack x = .fin (signBit x) m e ∧ (m : ℚ) * 2 ^ e = magValue (magBits x) ∧ m < 2 ^ 53 ∧
      -1074 ≤ e := by
  have hf : magBits x < infMag64 := by simpa [isFinite] using h
  have hl := magMant_lt (magBits x)
  have hg := magExp_ge (magBits x)
  unfold magValue at *
  by_cases hs : magBits x / 2 ^ 52 = 0
  · refine ⟨magBits x, -1074, ?_, ?_, ?_, le_refl _⟩
    · unfold unpack
      simp only
      rw [if_neg (by omega), if_neg (by omega), if_pos hs]
    · unfold magMant magExp
      rw [if_pos hs, if_pos hs]
    · omega
  · refine ⟨magBits x % 2 ^ 52 + 2 ^ 52, (magBits x / 2 ^ 52 : Nat) - 1075, ?_, ?_, ?_, ?_⟩
    · unfold unpack
      simp only
      rw [if_neg (by omega), if_neg (by omega), if_neg hs]
    · unfold magMant magExp
      rw [if_neg hs, if_neg hs]
    · omega
    · have : 1 ≤ magBits x / 2 ^ 52 := Nat.one_le_iff_ne_zero.mpr hs
      omega

theorem unpack_nan {x : F64} (h : isNaN x = true) : unpack x = .nan := by
  have : infMag64 < magBits x := by simpa [isNaN] using h
  unfold unpack
  simp only
  rw [if_pos this]

theorem unpack_inf {x : F64} (h : isInf x = true) : unpack x = .inf (signBit x) := by
  have : magBits x = infMag64 := by simpa [isInf] using h
  unfold unpack
  simp only
  rw [if_neg (by omega), if_pos this]

/-- `(−1)^n · m · 2^e` as a rational number. -/
def sval (n : Bool) (m : Nat) (e : Int) : ℚ := if n then -((m : ℚ) * 2 ^ e) else m * 2 ^ e

theorem magBits_le_inf {y : F64} (h : isNaN y = false) : magBits y ≤ infMag64 := by
  simpa [isNaN] using h

/-- Rounding is monotone: an upper bound that is a pattern stays one. -/
theorem pack_le {n : Bool} {m : Nat} {e : Int} {y : F64} (hy : isNaN y = false)
    (h : sval n m e ≤ fval y) : fle (pack n m e) y = true := by
  refine (fle_iff _ _).mpr ⟨pack_not_nan _ _ _, hy, ?_⟩
  have hp : (0 : ℚ) ≤ m * 2 ^ e := by positivity
  have hr := magValue_nonneg (roundMag 52 (-1074) infMag64 m e)
  unfold fval at h ⊢
  rw [pack_sign, pack_mag]
  unfold sval at h
  have hm := magValue_nonneg (magBits y)
  cases n <;> cases hs : signBit y <;> simp only [hs, if_true, Bool.false_eq_true, if_false] at h ⊢
  · exact magValue_le_iff.mpr (roundMag_le h)
  · have h0 : (m : ℚ) * 2 ^ e ≤ magValue 0 := by rw [magValue_zero]; linarith
    have h1 := roundMag_le h0
    have h2 : roundMag 52 (-1074) infMag64 m e = 0 := by omega
    have h3 : magValue (magBits y) ≤ 0 := by linarith
    rw [h2, magValue_zero]
    linarith
  · linarith
  · have : magValue (magBits y) ≤ m * 2 ^ e := by linarith
    have := magValue_le_iff.mpr (le_roundMag (magBits_le_inf hy) this)
    linarith

/-- Rounding is monotone: a lower bound that is a pattern stays one. -/
theorem le_pack {n : Bool} {m : Nat} {e : Int} {y : F64} (hy : isNaN y = false)
    (h : fval y ≤ sval n m e) : fle y (pack n m e) = true := by
  refine (fle_iff _ _).mpr ⟨hy, pack_not_nan _ _ _, ?_⟩
  have hp : (0 : ℚ) ≤ m * 2 ^ e := by positivity
  have hr := magValue_nonneg (roundMag 52 (-1074) infMag64 m e)
  unfold fval at h ⊢
  rw [pack_sign, pack_mag]
  unfold sval at h
  have hm := magValue_nonneg (magBits y)
  cases n <;> cases hs : signBit y <;> simp only [hs, if_true, Bool.false_eq_true, if_false] at h ⊢
  · exact magValue_le_iff.mpr (le_roundMag (magBits_le_inf hy) h)
  · linarith
  · have h0 : (m : ℚ) * 2 ^ e ≤ magValue 0 := by rw [magValue_zero]; linarith
    have h1 := roundMag_le h0
    have h2 : roundMag 52 (-1074) infMag64 m e = 0 := by omega
    rw [h2, magValue_zero]
    linarith
  · have : (m : ℚ) * 2 ^ e ≤ magValue (magBits y) := by linarith
    have := magValue_le_iff.mpr (roundMag_le this)
    linarith

/-- Packing a value that a finite pattern of the same sign holds gives the pattern. -/
theorem pack_exact {m : Nat} {e : Int} {x : F64} (hx : isNaN x = false)
    (h : (m : ℚ) * 2 ^ e = magValue (magBits x)) : pack (signBit x) m e = x :=
  eq_of_sign_mag (pack_sign _ _ _) (by rw [pack_mag]; exact roundMag_exact (magBits_le_inf hx) h)

/-! ## Clamps -/

theorem fmax_ge {v lo : F64} (hv : isNaN v = false) (hl : isNaN lo = false) : fle lo (fmax v lo) = true := by
  unfold fmax
  split
  · exact (fle_iff _ _).mpr ⟨hl, hl, le_refl _⟩
  · rename_i h
    refine (fle_iff _ _).mpr ⟨hl, hv, not_lt.mp fun hc => h ((flt_iff _ _).mpr ⟨hv, hl, hc⟩)⟩

theorem fmin_le {v hi : F64} (hv : isNaN v = false) (hh : isNaN hi = false) : fle (fmin v hi) hi = true := by
  unfold fmin
  split
  · exact (fle_iff _ _).mpr ⟨hh, hh, le_refl _⟩
  · rename_i h
    refine (fle_iff _ _).mpr ⟨hv, hh, not_lt.mp fun hc => h ((flt_iff _ _).mpr ⟨hh, hv, hc⟩)⟩

end Sys2Proof
end

