-- ==== Sys2Proof/Laws/Num.lean ====
section
/-!
SUPPORT. Laws of the elementary functions (00_scope.md R12): the values named and the bounds that hold of
every other value.
-/

namespace Sys2Proof

theorem keepIf_ok {ok : F64 → Bool} {v other : F64} (h : ok other = true) :
    ok (keepIf ok v other) = true := by
  unfold keepIf
  split <;> assumption

/-- A value of `Num` keeps its bounds where the last resort does. -/
theorem numBounded_ok {bounds near : F64 → Bool} {v ref last : F64} (h : bounds last = true) :
    bounds (numBounded bounds near v ref last) = true := by
  unfold numBounded
  unfold keepIf
  split
  · rename_i hv
    exact (Bool.and_eq_true _ _ ▸ hv).1
  · exact keepIf_ok h

@[simp] theorem numSin_pZero : numSin pZero = pZero := by
  unfold numSin
  rw [if_neg (by decide), if_pos rfl]

@[simp] theorem numCos_pZero : numCos pZero = cOne := by
  unfold numCos
  rw [if_neg (by decide), if_pos (.inl rfl)]

@[simp] theorem numCos_nZero : numCos nZero = cOne := by
  unfold numCos
  rw [if_neg (by decide), if_pos (.inr rfl)]

theorem not_nan_of_finite {x : F64} (h : isFinite x = true) : isNaN x = false := by
  simp only [isFinite, isNaN, decide_eq_true_eq, decide_eq_false_iff_not] at *
  omega

theorem not_inf_of_finite {x : F64} (h : isFinite x = true) : isInf x = false := by
  simp only [isFinite, isInf, decide_eq_true_eq, decide_eq_false_iff_not] at *
  omega

/-- The sine of a finite number is within 1e−6 of `[−1, 1]`. -/
theorem numSin_bound {x : F64} (h : isFinite x = true) : sineOk (numSin x) = true := by
  unfold numSin
  rw [not_nan_of_finite h, not_inf_of_finite h]
  simp only [Bool.false_eq_true, if_false]
  split
  · decide
  · exact numBounded_ok (by decide)

/-- The cosine of a finite number is within 1e−6 of `[−1, 1]`. -/
theorem numCos_bound {x : F64} (h : isFinite x = true) : sineOk (numCos x) = true := by
  unfold numCos
  rw [not_nan_of_finite h, not_inf_of_finite h]
  simp only [Bool.false_eq_true, if_false]
  split
  · decide
  · exact numBounded_ok (by decide)

/-- What is within 1e−6 of `[−1, 1]` is finite. -/
theorem finite_of_sineOk {v : F64} (h : sineOk v = true) : isFinite v = true := by
  have h1 : orderKey (fneg cSineBound) = -0x3FF000010C6F7A0B := by decide
  have h2 : orderKey cSineBound = 0x3FF000010C6F7A0B := by decide
  simp only [sineOk, fle, Bool.and_eq_true, decide_eq_true_eq] at h
  rw [h1, h2] at h
  obtain ⟨⟨_, h3⟩, _, h4⟩ := h
  unfold orderKey at h3 h4
  have hm : magBits v < 0x7FF0000000000000 := by
    cases hs : signBit v <;>
      simp only [hs, Bool.false_eq_true, if_true, if_false] at h3 h4 <;> omega
  exact decide_eq_true hm

/-- The tangent of a finite number is finite. -/
theorem numTan_finite {x : F64} (h : isFinite x = true) : isFinite (numTan x) = true := by
  unfold numTan
  rw [not_nan_of_finite h, not_inf_of_finite h]
  simp only [Bool.false_eq_true, if_false]
  exact numBounded_ok (by decide)

end Sys2Proof
end

