-- ==== Sys2Proof/Laws/Accuracy.lean ====
section
/-!
SUPPORT. Laws of the accurate functions: rounding a scaled integer changes it by at most half a unit in the
last place of 1, so the accurate sine and cosine keep every bound and tolerance that `Num` has (R12).
-/

namespace Sys2Proof

/-! ## Rounding -/

/-- Neighbouring magnitudes differ by the unit in the last place of the lower one. -/
theorem magValue_succ (M : Nat) : magValue (M + 1) = magValue M + 2 ^ magExp M := by
  have e1 := mag_eq M
  have e2 := mag_eq (M + 1)
  have l1 := magMant_lt M
  have l2 := magMant_lt (M + 1)
  have g1 := magExp_ge M
  have g2 := magExp_ge (M + 1)
  unfold magValue
  push_cast at e2
  rcases lt_trichotomy (magExp M) (magExp (M + 1)) with h | h | h
  · have g := magMant_ge (M := M + 1) (by omega)
    have h1 : magExp (M + 1) = magExp M + 1 := by omega
    have h2 : magMant (M + 1) = 2 ^ 52 := by omega
    have h3 : magMant M = 2 ^ 53 - 1 := by omega
    rw [h1, h2, h3, zpow_add₀ (by norm_num), zpow_one]
    push_cast
    ring
  · have : magMant (M + 1) = magMant M + 1 := by omega
    rw [← h, this]
    push_cast
    ring
  · exfalso
    have g := magMant_ge (M := M) (by omega)
    omega

/-- Rounding a value not above the pattern `top` moves it by at most one unit in the last place below
`top`. -/
theorem round_error {m top : Nat} {e g : Int} (hi : top ≤ infMag64)
    (hx : (m : ℚ) * 2 ^ e ≤ magValue top) (hg : ∀ M, M < top → magExp M ≤ g) :
    |magValue (roundMag 52 (-1074) infMag64 m e) - m * 2 ^ e| ≤ 2 ^ g := by
  have hp : (0 : ℚ) < 2 ^ g := by positivity
  have h0 : magValue 0 ≤ (m : ℚ) * 2 ^ e := by
    rw [magValue_zero]
    positivity
  let P : Nat → Prop := fun M => magValue M ≤ (m : ℚ) * 2 ^ e
  classical
  obtain ⟨M, hM, hP, hmax⟩ : ∃ M, M ≤ top ∧ P M ∧ ∀ N, M < N → N ≤ top → ¬ P N :=
    ⟨Nat.findGreatest P top, Nat.findGreatest_le _, Nat.findGreatest_spec (Nat.zero_le _) h0,
      fun N h1 h2 => Nat.findGreatest_is_greatest h1 h2⟩
  have hlow := le_roundMag (hM.trans hi) hP
  rcases Nat.lt_or_eq_of_le hM with h | h
  · have h1 : (m : ℚ) * 2 ^ e < magValue (M + 1) := not_le.mp (hmax (M + 1) (by omega) h)
    have h2 := roundMag_le h1.le
    have h3 := magValue_le_iff.mpr hlow
    have h4 := magValue_le_iff.mpr h2
    have h5 := two_zpow_mono (hg M h)
    have hP : magValue M ≤ (m : ℚ) * 2 ^ e := hP
    rw [magValue_succ] at h1 h4
    rw [abs_le]
    constructor <;> linarith
  · have h1 : (m : ℚ) * 2 ^ e = magValue top := le_antisymm hx (h ▸ hP)
    rw [roundMag_exact hi h1, h1]
    simpa using hp.le

theorem magExp_below_one {M : Nat} (h : M < 0x3FF0000000000000) : magExp M ≤ -53 := by
  unfold magExp
  split <;> omega

theorem magValue_one : magValue 0x3FF0000000000000 = 1 := by
  have h1 : magMant 0x3FF0000000000000 = 2 ^ 52 := by decide
  have h2 : magExp 0x3FF0000000000000 = -52 := by decide
  rw [magValue, h1, h2]
  norm_num

/-! ## Scaled integers -/

theorem signedMant_cast (s : Bool) (m k : Nat) :
    ((signedMant s m k : Int) : ℚ) = (if s then -1 else 1) * (m * 2 ^ k) := by
  unfold signedMant
  cases s <;> simp

/-- The scaled integer of a finite number is its value up to less than one unit. -/
theorem toFix_error {x : F64} (h : isFinite x = true) : |(toFix x : ℚ) - fval x * 2 ^ 96| < 1 := by
  obtain ⟨m, e, hu, hv, _, _⟩ := unpack_finite h
  have hf : fval x = (if signBit x then -1 else 1) * ((m : ℚ) * 2 ^ e) := by
    unfold fval
    rw [← hv]
    cases signBit x <;> simp
  unfold toFix
  rw [hu, hf]
  simp only
  split
  · rename_i he
    rw [signedMant_cast]
    obtain ⟨k, hk⟩ := Int.eq_ofNat_of_zero_le (show 0 ≤ e + 96 by omega)
    have : (2 : ℚ) ^ e * 2 ^ 96 = 2 ^ (e + 96).toNat := by
      rw [hk, Int.toNat_natCast, ← zpow_natCast, ← zpow_natCast, ← zpow_add₀ (by norm_num)]
      congr 1
    have e2 : (if signBit x = true then (-1 : ℚ) else 1) * (m * 2 ^ e) * 2 ^ 96 =
        (if signBit x = true then (-1 : ℚ) else 1) * (m * 2 ^ (e + 96).toNat) := by
      rw [← this]
      ring
    rw [e2, sub_self, abs_zero]
    norm_num
  · rename_i he
    rw [signedMant_cast]
    obtain ⟨k, hk⟩ := Int.eq_ofNat_of_zero_le (show 0 ≤ -96 - e by omega)
    have h2 : (2 : ℚ) ^ e * 2 ^ 96 * 2 ^ k = 1 := by
      rw [← zpow_natCast, ← zpow_natCast, ← zpow_add₀ (by norm_num), ← zpow_add₀ (by norm_num)]
      have : e + ((96 : Nat) : Int) + (k : Int) = 0 := by omega
      rw [this, zpow_zero]
    have h3 : (0 : ℚ) < 2 ^ k := by positivity
    rw [hk, Int.toNat_natCast]
    have h4 := Nat.div_add_mod m (2 ^ k)
    have h5 := Nat.mod_lt m (show 0 < 2 ^ k by positivity)
    have h6 : (2 : ℚ) ^ k * (m / 2 ^ k : Nat) + (m % 2 ^ k : Nat) = m := by exact_mod_cast h4
    have h7 : ((m % 2 ^ k : Nat) : ℚ) < 2 ^ k := by exact_mod_cast h5
    have h8 : (0 : ℚ) ≤ (m % 2 ^ k : Nat) := by positivity
    have h9 : (m : ℚ) * 2 ^ e * 2 ^ 96 = (m / 2 ^ k : Nat) + (m % 2 ^ k : Nat) / 2 ^ k := by
      rw [eq_comm, ← h6]
      field_simp
      linear_combination (-(2 : ℚ) ^ k * (m / 2 ^ k : Nat) - (m % 2 ^ k : Nat)) * h2
    have h10 : ((m % 2 ^ k : Nat) : ℚ) / 2 ^ k < 1 := (div_lt_one h3).mpr h7
    have h11 : 0 ≤ ((m % 2 ^ k : Nat) : ℚ) / 2 ^ k := by positivity
    rw [abs_lt]
    cases signBit x <;> simp only [if_true, Bool.false_eq_true, if_false] <;>
      constructor <;> nlinarith [h9, h10, h11]

theorem ofFix_sval (v : Int) : sval (decide (v < 0)) v.natAbs (-96) = (v : ℚ) / 2 ^ 96 := by
  have h2 : (v.natAbs : ℚ) = |(v : ℚ)| := by rw [Nat.cast_natAbs, Int.cast_abs]
  have h3 : (2 : ℚ) ^ (-96 : Int) = 1 / 2 ^ 96 := by norm_num
  unfold sval
  rw [h2, h3]
  by_cases h : v < 0
  · have : (v : ℚ) < 0 := by exact_mod_cast h
    simp only [h, decide_true, if_true, abs_of_neg this]
    ring
  · have : 0 ≤ (v : ℚ) := by exact_mod_cast not_lt.mp h
    simp only [h, decide_false, Bool.false_eq_true, if_false, abs_of_nonneg this]
    ring

/-- Rounding a scaled integer of magnitude at most 1 moves it by at most `2^−53`. -/
theorem ofFix_error {v : Int} (h : |v| ≤ fixOne) : |fval (ofFix v) - (v : ℚ) / 2 ^ 96| ≤ 2 ^ (-53 : Int) := by
  have hv : (v.natAbs : Int) ≤ 2 ^ 96 := by
    rw [Int.natCast_natAbs]
    exact h
  have hx : (v.natAbs : ℚ) * 2 ^ (-96 : Int) ≤ magValue 0x3FF0000000000000 := by
    have : (v.natAbs : ℚ) ≤ 2 ^ 96 := by exact_mod_cast hv
    rw [magValue_one]
    norm_num at this ⊢
    linarith
  have hr := round_error (by decide) hx (fun M hM => magExp_below_one hM)
  rw [← ofFix_sval]
  unfold ofFix fval sval
  rw [pack_sign, pack_mag]
  cases decide (v < 0)
  · simpa using hr
  · rw [if_pos rfl, if_pos rfl]
    have : ∀ a b : ℚ, -a - -b = -(a - b) := fun a b => by ring
    rw [this, abs_neg]
    exact hr

/-- A rounded scaled integer of magnitude at most 1 is within the bounds of a sine. -/
theorem sineOk_ofFix {v : Int} (h : |v| ≤ fixOne) : sineOk (ofFix v) = true := by
  have h1 : (v : ℚ) ≤ 2 ^ 96 := by exact_mod_cast (abs_le.mp h).2
  have h2 : -2 ^ 96 ≤ (v : ℚ) := by exact_mod_cast (abs_le.mp h).1
  have hone : fval cOne = 1 := by
    have a : signBit cOne = false := by decide
    have b : magBits cOne = 0x3FF0000000000000 := by decide
    simp [fval, a, b, magValue_one]
  have hm : fval cMinusOne = -1 := by
    have a : signBit cMinusOne = true := by decide
    have b : magBits cMinusOne = 0x3FF0000000000000 := by decide
    simp [fval, a, b, magValue_one]
  have hu : fle (ofFix v) cOne = true := pack_le (by decide) (by
    rw [ofFix_sval, hone]
    norm_num at h1 ⊢
    linarith)
  have hl : fle cMinusOne (ofFix v) = true := le_pack (by decide) (by
    rw [ofFix_sval, hm]
    norm_num at h2 ⊢
    linarith)
  rw [fle_iff] at hu hl
  have c1 := (fle_iff cOne cSineBound).mp (by decide)
  have c2 := (fle_iff (fneg cSineBound) cMinusOne).mp (by decide)
  simp only [sineOk, Bool.and_eq_true, fle_iff]
  exact ⟨⟨c2.1, hu.1, c2.2.2.trans hl.2.2⟩, hu.1, c1.2.1, hu.2.2.trans c1.2.2⟩

/-- Rounding and scaling again moves a scaled integer of magnitude at most 1 by at most `2^44` units. -/
theorem toFix_ofFix {v : Int} (h : |v| ≤ fixOne) : (toFix (ofFix v) - v).natAbs ≤ 2 ^ 44 := by
  have h1 := toFix_error (finite_of_sineOk (sineOk_ofFix h))
  have h2 := ofFix_error h
  rw [abs_lt] at h1
  rw [abs_le] at h2
  have h3 : |((toFix (ofFix v) - v : Int) : ℚ)| ≤ 2 ^ 44 := by
    push_cast
    norm_num at h2
    rw [abs_le]
    constructor <;> norm_num <;> linarith [h1.1, h1.2, h2.1, h2.2]
  have h4 : |toFix (ofFix v) - v| ≤ 2 ^ 44 := by exact_mod_cast h3
  have h5 : ((toFix (ofFix v) - v).natAbs : Int) ≤ 2 ^ 44 := by
    rw [Int.natCast_natAbs]
    exact h4
  exact_mod_cast h5

theorem fixClip_abs {b : Int} (hb : 0 ≤ b) (v : Int) : |fixClip b v| ≤ b := by
  unfold fixClip
  rw [abs_le]
  omega

theorem fixSin_abs (x : Int) : |fixSin x| ≤ fixOne := fixClip_abs (by decide) _

theorem fixCos_abs (x : Int) : |fixCos x| ≤ fixOne := fixClip_abs (by decide) _

/-! ## The accurate sine and cosine are values that `Num` may have -/

theorem sineOk_refSin (x : F64) : sineOk (refSin x) = true := sineOk_ofFix (fixSin_abs _)

theorem sineOk_refCos (x : F64) : sineOk (refCos x) = true := sineOk_ofFix (fixCos_abs _)

theorem nearSin_refSin (x : F64) : nearSin x (refSin x) = true := by
  simp only [nearSin, Bool.or_eq_true, decide_eq_true_eq]
  exact .inr ((toFix_ofFix (fixSin_abs _)).trans (Nat.le_max_right _ _))

theorem nearCos_refCos (x : F64) : nearCos x (refCos x) = true := by
  simp only [nearCos, Bool.or_eq_true, decide_eq_true_eq]
  exact .inr ((toFix_ofFix (fixCos_abs _)).trans (Nat.le_max_right _ _))

/-- Where the accurate value keeps the bounds and the tolerance, so does the value of `Num`. -/
theorem numBounded_near {bounds near : F64 → Bool} {v ref last : F64} (h : bounds ref = true)
    (hn : near ref = true) : near (numBounded bounds near v ref last) = true := by
  unfold numBounded keepIf
  rw [if_pos h]
  split
  · rename_i hv
    exact (Bool.and_eq_true _ _ ▸ hv).2
  · exact hn

/-- The sine of a finite number keeps its tolerance. -/
theorem numSin_near {x : F64} (h : isFinite x = true) : nearSin x (numSin x) = true := by
  unfold numSin
  rw [not_nan_of_finite h, not_inf_of_finite h]
  simp only [Bool.false_eq_true, if_false]
  split
  · rename_i hx
    subst hx
    decide +kernel
  · exact numBounded_near (sineOk_refSin x) (nearSin_refSin x)

/-- The cosine of a finite number keeps its tolerance. -/
theorem numCos_near {x : F64} (h : isFinite x = true) : nearCos x (numCos x) = true := by
  unfold numCos
  rw [not_nan_of_finite h, not_inf_of_finite h]
  simp only [Bool.false_eq_true, if_false]
  split
  · rename_i hx
    rcases hx with hx | hx <;> subst hx <;> decide +kernel
  · exact numBounded_near (sineOk_refCos x) (nearCos_refCos x)

end Sys2Proof
end

