-- ==== Sys2Proof/Laws/State.lean ====
section
/-!
SUPPORT. One lemma per field per named update of the state: what the update writes and what it leaves.
-/

namespace Sys2Proof.Machine

/-! ### emit -/

@[simp] theorem State.emit_build (s : State) (r : Record) :
    (s.emit r).build = s.build := rfl

@[simp] theorem State.emit_ctl (s : State) (r : Record) :
    (s.emit r).ctl = s.ctl := rfl

@[simp] theorem State.emit_params (s : State) (r : Record) :
    (s.emit r).params = s.params := rfl

@[simp] theorem State.emit_chain (s : State) (r : Record) :
    (s.emit r).chain = s.chain := rfl

@[simp] theorem State.emit_rings (s : State) (r : Record) :
    (s.emit r).rings = s.rings := rfl

@[simp] theorem State.emit_shm (s : State) (r : Record) :
    (s.emit r).shm = s.shm := rfl

@[simp] theorem State.emit_cons (s : State) (r : Record) :
    (s.emit r).cons = s.cons := rfl

@[simp] theorem State.emit_free (s : State) (r : Record) :
    (s.emit r).free = s.free := rfl

@[simp] theorem State.emit_ports_pPort (s : State) (r : Record) :
    (s.emit r).ports.pPort = s.ports.pPort := rfl

@[simp] theorem State.emit_ports_cPort (s : State) (r : Record) :
    (s.emit r).ports.cPort = s.ports.cPort := rfl

@[simp] theorem State.emit_ports_pResp (s : State) (r : Record) :
    (s.emit r).ports.pResp = s.ports.pResp := rfl

@[simp] theorem State.emit_ports_cResp (s : State) (r : Record) :
    (s.emit r).ports.cResp = s.ports.cResp := rfl

@[simp] theorem State.emit_ports_events (s : State) (r : Record) :
    (s.emit r).ports.events = s.ports.events ++ [r] := rfl

/-! ### raise -/

@[simp] theorem State.raise_build (s : State) (op : BitVec 8) (k : ErrorKind) :
    (s.raise op k).build = s.build := rfl

@[simp] theorem State.raise_ctl (s : State) (op : BitVec 8) (k : ErrorKind) :
    (s.raise op k).ctl = s.ctl := rfl

@[simp] theorem State.raise_params (s : State) (op : BitVec 8) (k : ErrorKind) :
    (s.raise op k).params = s.params := rfl

@[simp] theorem State.raise_chain (s : State) (op : BitVec 8) (k : ErrorKind) :
    (s.raise op k).chain = s.chain := rfl

@[simp] theorem State.raise_rings (s : State) (op : BitVec 8) (k : ErrorKind) :
    (s.raise op k).rings = s.rings := rfl

@[simp] theorem State.raise_shm (s : State) (op : BitVec 8) (k : ErrorKind) :
    (s.raise op k).shm = s.shm := rfl

@[simp] theorem State.raise_cons (s : State) (op : BitVec 8) (k : ErrorKind) :
    (s.raise op k).cons = s.cons := rfl

@[simp] theorem State.raise_free (s : State) (op : BitVec 8) (k : ErrorKind) :
    (s.raise op k).free = s.free := rfl

@[simp] theorem State.raise_ports_pPort (s : State) (op : BitVec 8) (k : ErrorKind) :
    (s.raise op k).ports.pPort = s.ports.pPort := rfl

@[simp] theorem State.raise_ports_cPort (s : State) (op : BitVec 8) (k : ErrorKind) :
    (s.raise op k).ports.cPort = s.ports.cPort := rfl

@[simp] theorem State.raise_ports_pResp (s : State) (op : BitVec 8) (k : ErrorKind) :
    (s.raise op k).ports.pResp = s.ports.pResp := rfl

@[simp] theorem State.raise_ports_cResp (s : State) (op : BitVec 8) (k : ErrorKind) :
    (s.raise op k).ports.cResp = s.ports.cResp := rfl

@[simp] theorem State.raise_ports_events (s : State) (op : BitVec 8) (k : ErrorKind) :
    (s.raise op k).ports.events = s.ports.events ++ [errorRecord op k] := rfl

/-! ### respond -/

@[simp] theorem State.respond_build (s : State) (op : Opcode) (sel : BitVec 8) (l : List Word) :
    (s.respond op sel l).build = s.build := by
  unfold State.respond; split <;> rfl

@[simp] theorem State.respond_ctl (s : State) (op : Opcode) (sel : BitVec 8) (l : List Word) :
    (s.respond op sel l).ctl = s.ctl := by
  unfold State.respond; split <;> rfl

@[simp] theorem State.respond_params (s : State) (op : Opcode) (sel : BitVec 8) (l : List Word) :
    (s.respond op sel l).params = s.params := by
  unfold State.respond; split <;> rfl

@[simp] theorem State.respond_chain (s : State) (op : Opcode) (sel : BitVec 8) (l : List Word) :
    (s.respond op sel l).chain = s.chain := by
  unfold State.respond; split <;> rfl

@[simp] theorem State.respond_rings (s : State) (op : Opcode) (sel : BitVec 8) (l : List Word) :
    (s.respond op sel l).rings = s.rings := by
  unfold State.respond; split <;> rfl

@[simp] theorem State.respond_shm (s : State) (op : Opcode) (sel : BitVec 8) (l : List Word) :
    (s.respond op sel l).shm = s.shm := by
  unfold State.respond; split <;> rfl

@[simp] theorem State.respond_cons (s : State) (op : Opcode) (sel : BitVec 8) (l : List Word) :
    (s.respond op sel l).cons = s.cons := by
  unfold State.respond; split <;> rfl

@[simp] theorem State.respond_free (s : State) (op : Opcode) (sel : BitVec 8) (l : List Word) :
    (s.respond op sel l).free = s.free := by
  unfold State.respond; split <;> rfl

@[simp] theorem State.respond_ports_pPort (s : State) (op : Opcode) (sel : BitVec 8) (l : List Word) :
    (s.respond op sel l).ports.pPort = s.ports.pPort := by
  unfold State.respond; split <;> rfl

@[simp] theorem State.respond_ports_cPort (s : State) (op : Opcode) (sel : BitVec 8) (l : List Word) :
    (s.respond op sel l).ports.cPort = s.ports.cPort := by
  unfold State.respond; split <;> rfl

@[simp] theorem State.respond_ports_events (s : State) (op : Opcode) (sel : BitVec 8) (l : List Word) :
    (s.respond op sel l).ports.events = s.ports.events := by
  unfold State.respond; split <;> rfl

/-! ### storeFlag -/

@[simp] theorem State.storeFlag_build (s : State) (blk : Block) :
    (s.storeFlag blk).build = s.build := rfl

@[simp] theorem State.storeFlag_ctl (s : State) (blk : Block) :
    (s.storeFlag blk).ctl = s.ctl := rfl

@[simp] theorem State.storeFlag_params (s : State) (blk : Block) :
    (s.storeFlag blk).params = s.params := rfl

@[simp] theorem State.storeFlag_chain (s : State) (blk : Block) :
    (s.storeFlag blk).chain = s.chain := rfl

@[simp] theorem State.storeFlag_rings (s : State) (blk : Block) :
    (s.storeFlag blk).rings = s.rings := rfl

@[simp] theorem State.storeFlag_cons (s : State) (blk : Block) :
    (s.storeFlag blk).cons = s.cons := rfl

@[simp] theorem State.storeFlag_ports (s : State) (blk : Block) :
    (s.storeFlag blk).ports = s.ports := rfl

@[simp] theorem State.storeFlag_free_drawPos (s : State) (blk : Block) :
    (s.storeFlag blk).free.drawPos = s.free.drawPos := rfl

@[simp] theorem State.storeFlag_free_freeCount (s : State) (blk : Block) :
    (s.storeFlag blk).free.freeCount = s.free.freeCount := rfl

@[simp] theorem State.storeFlag_free_choice (s : State) (blk : Block) :
    (s.storeFlag blk).free.choice = s.free.choice := rfl

@[simp] theorem State.storeFlag_free_choiceCount (s : State) (blk : Block) :
    (s.storeFlag blk).free.choiceCount = s.free.choiceCount := rfl

@[simp] theorem State.storeFlag_free_task (s : State) (blk : Block) :
    (s.storeFlag blk).free.task = s.free.task := rfl

@[simp] theorem State.storeFlag_free_relaid (s : State) (blk : Block) :
    (s.storeFlag blk).free.relaid = false := rfl

/-! ### skipDraws -/

@[simp] theorem State.skipDraws_build (s : State) (n : Nat) :
    (s.skipDraws n).build = s.build := rfl

@[simp] theorem State.skipDraws_ctl (s : State) (n : Nat) :
    (s.skipDraws n).ctl = s.ctl := rfl

@[simp] theorem State.skipDraws_params (s : State) (n : Nat) :
    (s.skipDraws n).params = s.params := rfl

@[simp] theorem State.skipDraws_chain (s : State) (n : Nat) :
    (s.skipDraws n).chain = s.chain := rfl

@[simp] theorem State.skipDraws_rings (s : State) (n : Nat) :
    (s.skipDraws n).rings = s.rings := rfl

@[simp] theorem State.skipDraws_shm (s : State) (n : Nat) :
    (s.skipDraws n).shm = s.shm := rfl

@[simp] theorem State.skipDraws_cons (s : State) (n : Nat) :
    (s.skipDraws n).cons = s.cons := rfl

@[simp] theorem State.skipDraws_ports (s : State) (n : Nat) :
    (s.skipDraws n).ports = s.ports := rfl

@[simp] theorem State.skipDraws_free_drawPos (s : State) (n : Nat) :
    (s.skipDraws n).free.drawPos = s.free.drawPos + n := rfl

@[simp] theorem State.skipDraws_free_freeCount (s : State) (n : Nat) :
    (s.skipDraws n).free.freeCount = s.free.freeCount := rfl

@[simp] theorem State.skipDraws_free_choice (s : State) (n : Nat) :
    (s.skipDraws n).free.choice = s.free.choice := rfl

@[simp] theorem State.skipDraws_free_choiceCount (s : State) (n : Nat) :
    (s.skipDraws n).free.choiceCount = s.free.choiceCount := rfl

@[simp] theorem State.skipDraws_free_task (s : State) (n : Nat) :
    (s.skipDraws n).free.task = s.free.task := rfl

@[simp] theorem State.skipDraws_free_relaid (s : State) (n : Nat) :
    (s.skipDraws n).free.relaid = s.free.relaid := rfl

@[simp] theorem State.skipDraws_free_view (s : State) (n : Nat) :
    (s.skipDraws n).free.view = s.free.view := rfl

/-! ### skipFree -/

@[simp] theorem State.skipFree_build (s : State) (n : Nat) :
    (s.skipFree n).build = s.build := rfl

@[simp] theorem State.skipFree_ctl (s : State) (n : Nat) :
    (s.skipFree n).ctl = s.ctl := rfl

@[simp] theorem State.skipFree_params (s : State) (n : Nat) :
    (s.skipFree n).params = s.params := rfl

@[simp] theorem State.skipFree_chain (s : State) (n : Nat) :
    (s.skipFree n).chain = s.chain := rfl

@[simp] theorem State.skipFree_rings (s : State) (n : Nat) :
    (s.skipFree n).rings = s.rings := rfl

@[simp] theorem State.skipFree_shm (s : State) (n : Nat) :
    (s.skipFree n).shm = s.shm := rfl

@[simp] theorem State.skipFree_cons (s : State) (n : Nat) :
    (s.skipFree n).cons = s.cons := rfl

@[simp] theorem State.skipFree_ports (s : State) (n : Nat) :
    (s.skipFree n).ports = s.ports := rfl

@[simp] theorem State.skipFree_free_drawPos (s : State) (n : Nat) :
    (s.skipFree n).free.drawPos = s.free.drawPos := rfl

@[simp] theorem State.skipFree_free_freeCount (s : State) (n : Nat) :
    (s.skipFree n).free.freeCount = s.free.freeCount + n := rfl

@[simp] theorem State.skipFree_free_choice (s : State) (n : Nat) :
    (s.skipFree n).free.choice = s.free.choice := rfl

@[simp] theorem State.skipFree_free_choiceCount (s : State) (n : Nat) :
    (s.skipFree n).free.choiceCount = s.free.choiceCount := rfl

@[simp] theorem State.skipFree_free_task (s : State) (n : Nat) :
    (s.skipFree n).free.task = s.free.task := rfl

@[simp] theorem State.skipFree_free_relaid (s : State) (n : Nat) :
    (s.skipFree n).free.relaid = s.free.relaid := rfl

@[simp] theorem State.skipFree_free_view (s : State) (n : Nat) :
    (s.skipFree n).free.view = s.free.view := rfl

/-! ### setPhase -/

@[simp] theorem State.setPhase_build (s : State) (o : OscSel) (p : F64) :
    (s.setPhase o p).build = s.build := by cases o <;> rfl

@[simp] theorem State.setPhase_ctl (s : State) (o : OscSel) (p : F64) :
    (s.setPhase o p).ctl = s.ctl := by cases o <;> rfl

@[simp] theorem State.setPhase_params (s : State) (o : OscSel) (p : F64) :
    (s.setPhase o p).params = s.params := by cases o <;> rfl

@[simp] theorem State.setPhase_rings (s : State) (o : OscSel) (p : F64) :
    (s.setPhase o p).rings = s.rings := by cases o <;> rfl

@[simp] theorem State.setPhase_shm (s : State) (o : OscSel) (p : F64) :
    (s.setPhase o p).shm = s.shm := by cases o <;> rfl

@[simp] theorem State.setPhase_cons (s : State) (o : OscSel) (p : F64) :
    (s.setPhase o p).cons = s.cons := by cases o <;> rfl

@[simp] theorem State.setPhase_ports (s : State) (o : OscSel) (p : F64) :
    (s.setPhase o p).ports = s.ports := by cases o <;> rfl

@[simp] theorem State.setPhase_free (s : State) (o : OscSel) (p : F64) :
    (s.setPhase o p).free = s.free := by cases o <;> rfl

@[simp] theorem State.setPhase_chain_v (s : State) (o : OscSel) (p : F64) :
    (s.setPhase o p).chain.v = s.chain.v := by cases o <;> rfl

@[simp] theorem State.setPhase_chain_sampleCount (s : State) (o : OscSel) (p : F64) :
    (s.setPhase o p).chain.sampleCount = s.chain.sampleCount := by cases o <;> rfl

@[simp] theorem State.setPhase_chain_bpf (s : State) (o : OscSel) (p : F64) :
    (s.setPhase o p).chain.bpf = s.chain.bpf := by cases o <;> rfl

@[simp] theorem State.setPhase_chain_lpfI (s : State) (o : OscSel) (p : F64) :
    (s.setPhase o p).chain.lpfI = s.chain.lpfI := by cases o <;> rfl

@[simp] theorem State.setPhase_chain_lpfQ (s : State) (o : OscSel) (p : F64) :
    (s.setPhase o p).chain.lpfQ = s.chain.lpfQ := by cases o <;> rfl

@[simp] theorem State.setPhase_chain_iSum (s : State) (o : OscSel) (p : F64) :
    (s.setPhase o p).chain.iSum = s.chain.iSum := by cases o <;> rfl

@[simp] theorem State.setPhase_chain_qSum (s : State) (o : OscSel) (p : F64) :
    (s.setPhase o p).chain.qSum = s.chain.qSum := by cases o <;> rfl

@[simp] theorem State.setPhase_chain_avgCount (s : State) (o : OscSel) (p : F64) :
    (s.setPhase o p).chain.avgCount = s.chain.avgCount := by cases o <;> rfl

@[simp] theorem State.setPhase_chain_hasSpare (s : State) (o : OscSel) (p : F64) :
    (s.setPhase o p).chain.hasSpare = s.chain.hasSpare := by cases o <;> rfl

@[simp] theorem State.setPhase_chain_spare (s : State) (o : OscSel) (p : F64) :
    (s.setPhase o p).chain.spare = s.chain.spare := by cases o <;> rfl

@[simp] theorem State.setPhase_chain_bank (s : State) (o : OscSel) (p : F64) :
    (s.setPhase o p).chain.bank = s.chain.bank := by cases o <;> rfl

@[simp] theorem State.setPhase_chain_bpfPhaseOffset (s : State) (o : OscSel) (p : F64) :
    (s.setPhase o p).chain.bpfPhaseOffset = s.chain.bpfPhaseOffset := by cases o <;> rfl

@[simp] theorem State.setPhase_chain_lastSampleTime (s : State) (o : OscSel) (p : F64) :
    (s.setPhase o p).chain.lastSampleTime = s.chain.lastSampleTime := by cases o <;> rfl

@[simp] theorem State.setPhase_chain_lastPublishTime (s : State) (o : OscSel) (p : F64) :
    (s.setPhase o p).chain.lastPublishTime = s.chain.lastPublishTime := by cases o <;> rfl

/-! ### setCascade -/

@[simp] theorem State.setCascade_build (s : State) (b : BqSel) (l : List Section) :
    (s.setCascade b l).build = s.build := by cases b <;> rfl

@[simp] theorem State.setCascade_ctl (s : State) (b : BqSel) (l : List Section) :
    (s.setCascade b l).ctl = s.ctl := by cases b <;> rfl

@[simp] theorem State.setCascade_params (s : State) (b : BqSel) (l : List Section) :
    (s.setCascade b l).params = s.params := by cases b <;> rfl

@[simp] theorem State.setCascade_rings (s : State) (b : BqSel) (l : List Section) :
    (s.setCascade b l).rings = s.rings := by cases b <;> rfl

@[simp] theorem State.setCascade_shm (s : State) (b : BqSel) (l : List Section) :
    (s.setCascade b l).shm = s.shm := by cases b <;> rfl

@[simp] theorem State.setCascade_cons (s : State) (b : BqSel) (l : List Section) :
    (s.setCascade b l).cons = s.cons := by cases b <;> rfl

@[simp] theorem State.setCascade_ports (s : State) (b : BqSel) (l : List Section) :
    (s.setCascade b l).ports = s.ports := by cases b <;> rfl

@[simp] theorem State.setCascade_free (s : State) (b : BqSel) (l : List Section) :
    (s.setCascade b l).free = s.free := by cases b <;> rfl

@[simp] theorem State.setCascade_chain_v (s : State) (b : BqSel) (l : List Section) :
    (s.setCascade b l).chain.v = s.chain.v := by cases b <;> rfl

@[simp] theorem State.setCascade_chain_sampleCount (s : State) (b : BqSel) (l : List Section) :
    (s.setCascade b l).chain.sampleCount = s.chain.sampleCount := by cases b <;> rfl

@[simp] theorem State.setCascade_chain_oscRef (s : State) (b : BqSel) (l : List Section) :
    (s.setCascade b l).chain.oscRef = s.chain.oscRef := by cases b <;> rfl

@[simp] theorem State.setCascade_chain_oscMod (s : State) (b : BqSel) (l : List Section) :
    (s.setCascade b l).chain.oscMod = s.chain.oscMod := by cases b <;> rfl

@[simp] theorem State.setCascade_chain_iSum (s : State) (b : BqSel) (l : List Section) :
    (s.setCascade b l).chain.iSum = s.chain.iSum := by cases b <;> rfl

@[simp] theorem State.setCascade_chain_qSum (s : State) (b : BqSel) (l : List Section) :
    (s.setCascade b l).chain.qSum = s.chain.qSum := by cases b <;> rfl

@[simp] theorem State.setCascade_chain_avgCount (s : State) (b : BqSel) (l : List Section) :
    (s.setCascade b l).chain.avgCount = s.chain.avgCount := by cases b <;> rfl

@[simp] theorem State.setCascade_chain_hasSpare (s : State) (b : BqSel) (l : List Section) :
    (s.setCascade b l).chain.hasSpare = s.chain.hasSpare := by cases b <;> rfl

@[simp] theorem State.setCascade_chain_spare (s : State) (b : BqSel) (l : List Section) :
    (s.setCascade b l).chain.spare = s.chain.spare := by cases b <;> rfl

@[simp] theorem State.setCascade_chain_bank (s : State) (b : BqSel) (l : List Section) :
    (s.setCascade b l).chain.bank = s.chain.bank := by cases b <;> rfl

@[simp] theorem State.setCascade_chain_bpfPhaseOffset (s : State) (b : BqSel) (l : List Section) :
    (s.setCascade b l).chain.bpfPhaseOffset = s.chain.bpfPhaseOffset := by cases b <;> rfl

@[simp] theorem State.setCascade_chain_lastSampleTime (s : State) (b : BqSel) (l : List Section) :
    (s.setCascade b l).chain.lastSampleTime = s.chain.lastSampleTime := by cases b <;> rfl

@[simp] theorem State.setCascade_chain_lastPublishTime (s : State) (b : BqSel) (l : List Section) :
    (s.setCascade b l).chain.lastPublishTime = s.chain.lastPublishTime := by cases b <;> rfl

/-! ### setSpare -/

@[simp] theorem State.setSpare_build (s : State) (has : Bool) (v : F64) :
    (s.setSpare has v).build = s.build := rfl

@[simp] theorem State.setSpare_ctl (s : State) (has : Bool) (v : F64) :
    (s.setSpare has v).ctl = s.ctl := rfl

@[simp] theorem State.setSpare_params (s : State) (has : Bool) (v : F64) :
    (s.setSpare has v).params = s.params := rfl

@[simp] theorem State.setSpare_rings (s : State) (has : Bool) (v : F64) :
    (s.setSpare has v).rings = s.rings := rfl

@[simp] theorem State.setSpare_shm (s : State) (has : Bool) (v : F64) :
    (s.setSpare has v).shm = s.shm := rfl

@[simp] theorem State.setSpare_cons (s : State) (has : Bool) (v : F64) :
    (s.setSpare has v).cons = s.cons := rfl

@[simp] theorem State.setSpare_ports (s : State) (has : Bool) (v : F64) :
    (s.setSpare has v).ports = s.ports := rfl

@[simp] theorem State.setSpare_free (s : State) (has : Bool) (v : F64) :
    (s.setSpare has v).free = s.free := rfl

@[simp] theorem State.setSpare_chain_v (s : State) (has : Bool) (v : F64) :
    (s.setSpare has v).chain.v = s.chain.v := rfl

@[simp] theorem State.setSpare_chain_sampleCount (s : State) (has : Bool) (v : F64) :
    (s.setSpare has v).chain.sampleCount = s.chain.sampleCount := rfl

@[simp] theorem State.setSpare_chain_oscRef (s : State) (has : Bool) (v : F64) :
    (s.setSpare has v).chain.oscRef = s.chain.oscRef := rfl

@[simp] theorem State.setSpare_chain_oscMod (s : State) (has : Bool) (v : F64) :
    (s.setSpare has v).chain.oscMod = s.chain.oscMod := rfl

@[simp] theorem State.setSpare_chain_bpf (s : State) (has : Bool) (v : F64) :
    (s.setSpare has v).chain.bpf = s.chain.bpf := rfl

@[simp] theorem State.setSpare_chain_lpfI (s : State) (has : Bool) (v : F64) :
    (s.setSpare has v).chain.lpfI = s.chain.lpfI := rfl

@[simp] theorem State.setSpare_chain_lpfQ (s : State) (has : Bool) (v : F64) :
    (s.setSpare has v).chain.lpfQ = s.chain.lpfQ := rfl

@[simp] theorem State.setSpare_chain_iSum (s : State) (has : Bool) (v : F64) :
    (s.setSpare has v).chain.iSum = s.chain.iSum := rfl

@[simp] theorem State.setSpare_chain_qSum (s : State) (has : Bool) (v : F64) :
    (s.setSpare has v).chain.qSum = s.chain.qSum := rfl

@[simp] theorem State.setSpare_chain_avgCount (s : State) (has : Bool) (v : F64) :
    (s.setSpare has v).chain.avgCount = s.chain.avgCount := rfl

@[simp] theorem State.setSpare_chain_hasSpare (s : State) (has : Bool) (v : F64) :
    (s.setSpare has v).chain.hasSpare = has := rfl

@[simp] theorem State.setSpare_chain_spare (s : State) (has : Bool) (v : F64) :
    (s.setSpare has v).chain.spare = v := rfl

@[simp] theorem State.setSpare_chain_bank (s : State) (has : Bool) (v : F64) :
    (s.setSpare has v).chain.bank = s.chain.bank := rfl

@[simp] theorem State.setSpare_chain_bpfPhaseOffset (s : State) (has : Bool) (v : F64) :
    (s.setSpare has v).chain.bpfPhaseOffset = s.chain.bpfPhaseOffset := rfl

@[simp] theorem State.setSpare_chain_lastSampleTime (s : State) (has : Bool) (v : F64) :
    (s.setSpare has v).chain.lastSampleTime = s.chain.lastSampleTime := rfl

@[simp] theorem State.setSpare_chain_lastPublishTime (s : State) (has : Bool) (v : F64) :
    (s.setSpare has v).chain.lastPublishTime = s.chain.lastPublishTime := rfl

/-! ### dropSpare -/

@[simp] theorem State.dropSpare_build (s : State) :
    (s.dropSpare).build = s.build := rfl

@[simp] theorem State.dropSpare_ctl (s : State) :
    (s.dropSpare).ctl = s.ctl := rfl

@[simp] theorem State.dropSpare_params (s : State) :
    (s.dropSpare).params = s.params := rfl

@[simp] theorem State.dropSpare_rings (s : State) :
    (s.dropSpare).rings = s.rings := rfl

@[simp] theorem State.dropSpare_shm (s : State) :
    (s.dropSpare).shm = s.shm := rfl

@[simp] theorem State.dropSpare_cons (s : State) :
    (s.dropSpare).cons = s.cons := rfl

@[simp] theorem State.dropSpare_ports (s : State) :
    (s.dropSpare).ports = s.ports := rfl

@[simp] theorem State.dropSpare_free (s : State) :
    (s.dropSpare).free = s.free := rfl

@[simp] theorem State.dropSpare_chain_v (s : State) :
    (s.dropSpare).chain.v = s.chain.v := rfl

@[simp] theorem State.dropSpare_chain_sampleCount (s : State) :
    (s.dropSpare).chain.sampleCount = s.chain.sampleCount := rfl

@[simp] theorem State.dropSpare_chain_oscRef (s : State) :
    (s.dropSpare).chain.oscRef = s.chain.oscRef := rfl

@[simp] theorem State.dropSpare_chain_oscMod (s : State) :
    (s.dropSpare).chain.oscMod = s.chain.oscMod := rfl

@[simp] theorem State.dropSpare_chain_bpf (s : State) :
    (s.dropSpare).chain.bpf = s.chain.bpf := rfl

@[simp] theorem State.dropSpare_chain_lpfI (s : State) :
    (s.dropSpare).chain.lpfI = s.chain.lpfI := rfl

@[simp] theorem State.dropSpare_chain_lpfQ (s : State) :
    (s.dropSpare).chain.lpfQ = s.chain.lpfQ := rfl

@[simp] theorem State.dropSpare_chain_iSum (s : State) :
    (s.dropSpare).chain.iSum = s.chain.iSum := rfl

@[simp] theorem State.dropSpare_chain_qSum (s : State) :
    (s.dropSpare).chain.qSum = s.chain.qSum := rfl

@[simp] theorem State.dropSpare_chain_avgCount (s : State) :
    (s.dropSpare).chain.avgCount = s.chain.avgCount := rfl

@[simp] theorem State.dropSpare_chain_hasSpare (s : State) :
    (s.dropSpare).chain.hasSpare = false := rfl

@[simp] theorem State.dropSpare_chain_spare (s : State) :
    (s.dropSpare).chain.spare = s.chain.spare := rfl

@[simp] theorem State.dropSpare_chain_bank (s : State) :
    (s.dropSpare).chain.bank = s.chain.bank := rfl

@[simp] theorem State.dropSpare_chain_bpfPhaseOffset (s : State) :
    (s.dropSpare).chain.bpfPhaseOffset = s.chain.bpfPhaseOffset := rfl

@[simp] theorem State.dropSpare_chain_lastSampleTime (s : State) :
    (s.dropSpare).chain.lastSampleTime = s.chain.lastSampleTime := rfl

@[simp] theorem State.dropSpare_chain_lastPublishTime (s : State) :
    (s.dropSpare).chain.lastPublishTime = s.chain.lastPublishTime := rfl

/-! ### setBank -/

@[simp] theorem State.setBank_build (s : State) (l : List BankEntry) :
    (s.setBank l).build = s.build := rfl

@[simp] theorem State.setBank_ctl (s : State) (l : List BankEntry) :
    (s.setBank l).ctl = s.ctl := rfl

@[simp] theorem State.setBank_params (s : State) (l : List BankEntry) :
    (s.setBank l).params = s.params := rfl

@[simp] theorem State.setBank_rings (s : State) (l : List BankEntry) :
    (s.setBank l).rings = s.rings := rfl

@[simp] theorem State.setBank_shm (s : State) (l : List BankEntry) :
    (s.setBank l).shm = s.shm := rfl

@[simp] theorem State.setBank_cons (s : State) (l : List BankEntry) :
    (s.setBank l).cons = s.cons := rfl

@[simp] theorem State.setBank_ports (s : State) (l : List BankEntry) :
    (s.setBank l).ports = s.ports := rfl

@[simp] theorem State.setBank_free (s : State) (l : List BankEntry) :
    (s.setBank l).free = s.free := rfl

@[simp] theorem State.setBank_chain_v (s : State) (l : List BankEntry) :
    (s.setBank l).chain.v = s.chain.v := rfl

@[simp] theorem State.setBank_chain_sampleCount (s : State) (l : List BankEntry) :
    (s.setBank l).chain.sampleCount = s.chain.sampleCount := rfl

@[simp] theorem State.setBank_chain_oscRef (s : State) (l : List BankEntry) :
    (s.setBank l).chain.oscRef = s.chain.oscRef := rfl

@[simp] theorem State.setBank_chain_oscMod (s : State) (l : List BankEntry) :
    (s.setBank l).chain.oscMod = s.chain.oscMod := rfl

@[simp] theorem State.setBank_chain_bpf (s : State) (l : List BankEntry) :
    (s.setBank l).chain.bpf = s.chain.bpf := rfl

@[simp] theorem State.setBank_chain_lpfI (s : State) (l : List BankEntry) :
    (s.setBank l).chain.lpfI = s.chain.lpfI := rfl

@[simp] theorem State.setBank_chain_lpfQ (s : State) (l : List BankEntry) :
    (s.setBank l).chain.lpfQ = s.chain.lpfQ := rfl

@[simp] theorem State.setBank_chain_iSum (s : State) (l : List BankEntry) :
    (s.setBank l).chain.iSum = s.chain.iSum := rfl

@[simp] theorem State.setBank_chain_qSum (s : State) (l : List BankEntry) :
    (s.setBank l).chain.qSum = s.chain.qSum := rfl

@[simp] theorem State.setBank_chain_avgCount (s : State) (l : List BankEntry) :
    (s.setBank l).chain.avgCount = s.chain.avgCount := rfl

@[simp] theorem State.setBank_chain_hasSpare (s : State) (l : List BankEntry) :
    (s.setBank l).chain.hasSpare = s.chain.hasSpare := rfl

@[simp] theorem State.setBank_chain_spare (s : State) (l : List BankEntry) :
    (s.setBank l).chain.spare = s.chain.spare := rfl

@[simp] theorem State.setBank_chain_bank (s : State) (l : List BankEntry) :
    (s.setBank l).chain.bank = l := rfl

@[simp] theorem State.setBank_chain_bpfPhaseOffset (s : State) (l : List BankEntry) :
    (s.setBank l).chain.bpfPhaseOffset = s.chain.bpfPhaseOffset := rfl

@[simp] theorem State.setBank_chain_lastSampleTime (s : State) (l : List BankEntry) :
    (s.setBank l).chain.lastSampleTime = s.chain.lastSampleTime := rfl

@[simp] theorem State.setBank_chain_lastPublishTime (s : State) (l : List BankEntry) :
    (s.setBank l).chain.lastPublishTime = s.chain.lastPublishTime := rfl

/-! ### setAcc -/

@[simp] theorem State.setAcc_build (s : State) (i q : F64) (n : BitVec 64) :
    (s.setAcc i q n).build = s.build := rfl

@[simp] theorem State.setAcc_ctl (s : State) (i q : F64) (n : BitVec 64) :
    (s.setAcc i q n).ctl = s.ctl := rfl

@[simp] theorem State.setAcc_params (s : State) (i q : F64) (n : BitVec 64) :
    (s.setAcc i q n).params = s.params := rfl

@[simp] theorem State.setAcc_rings (s : State) (i q : F64) (n : BitVec 64) :
    (s.setAcc i q n).rings = s.rings := rfl

@[simp] theorem State.setAcc_shm (s : State) (i q : F64) (n : BitVec 64) :
    (s.setAcc i q n).shm = s.shm := rfl

@[simp] theorem State.setAcc_cons (s : State) (i q : F64) (n : BitVec 64) :
    (s.setAcc i q n).cons = s.cons := rfl

@[simp] theorem State.setAcc_ports (s : State) (i q : F64) (n : BitVec 64) :
    (s.setAcc i q n).ports = s.ports := rfl

@[simp] theorem State.setAcc_free (s : State) (i q : F64) (n : BitVec 64) :
    (s.setAcc i q n).free = s.free := rfl

@[simp] theorem State.setAcc_chain_v (s : State) (i q : F64) (n : BitVec 64) :
    (s.setAcc i q n).chain.v = s.chain.v := rfl

@[simp] theorem State.setAcc_chain_sampleCount (s : State) (i q : F64) (n : BitVec 64) :
    (s.setAcc i q n).chain.sampleCount = s.chain.sampleCount := rfl

@[simp] theorem State.setAcc_chain_oscRef (s : State) (i q : F64) (n : BitVec 64) :
    (s.setAcc i q n).chain.oscRef = s.chain.oscRef := rfl

@[simp] theorem State.setAcc_chain_oscMod (s : State) (i q : F64) (n : BitVec 64) :
    (s.setAcc i q n).chain.oscMod = s.chain.oscMod := rfl

@[simp] theorem State.setAcc_chain_bpf (s : State) (i q : F64) (n : BitVec 64) :
    (s.setAcc i q n).chain.bpf = s.chain.bpf := rfl

@[simp] theorem State.setAcc_chain_lpfI (s : State) (i q : F64) (n : BitVec 64) :
    (s.setAcc i q n).chain.lpfI = s.chain.lpfI := rfl

@[simp] theorem State.setAcc_chain_lpfQ (s : State) (i q : F64) (n : BitVec 64) :
    (s.setAcc i q n).chain.lpfQ = s.chain.lpfQ := rfl

@[simp] theorem State.setAcc_chain_iSum (s : State) (i q : F64) (n : BitVec 64) :
    (s.setAcc i q n).chain.iSum = i := rfl

@[simp] theorem State.setAcc_chain_qSum (s : State) (i q : F64) (n : BitVec 64) :
    (s.setAcc i q n).chain.qSum = q := rfl

@[simp] theorem State.setAcc_chain_avgCount (s : State) (i q : F64) (n : BitVec 64) :
    (s.setAcc i q n).chain.avgCount = n := rfl

@[simp] theorem State.setAcc_chain_hasSpare (s : State) (i q : F64) (n : BitVec 64) :
    (s.setAcc i q n).chain.hasSpare = s.chain.hasSpare := rfl

@[simp] theorem State.setAcc_chain_spare (s : State) (i q : F64) (n : BitVec 64) :
    (s.setAcc i q n).chain.spare = s.chain.spare := rfl

@[simp] theorem State.setAcc_chain_bank (s : State) (i q : F64) (n : BitVec 64) :
    (s.setAcc i q n).chain.bank = s.chain.bank := rfl

@[simp] theorem State.setAcc_chain_bpfPhaseOffset (s : State) (i q : F64) (n : BitVec 64) :
    (s.setAcc i q n).chain.bpfPhaseOffset = s.chain.bpfPhaseOffset := rfl

@[simp] theorem State.setAcc_chain_lastSampleTime (s : State) (i q : F64) (n : BitVec 64) :
    (s.setAcc i q n).chain.lastSampleTime = s.chain.lastSampleTime := rfl

@[simp] theorem State.setAcc_chain_lastPublishTime (s : State) (i q : F64) (n : BitVec 64) :
    (s.setAcc i q n).chain.lastPublishTime = s.chain.lastPublishTime := rfl

/-! ### zeroAcc -/

@[simp] theorem State.zeroAcc_build (s : State) :
    (s.zeroAcc).build = s.build := rfl

@[simp] theorem State.zeroAcc_ctl (s : State) :
    (s.zeroAcc).ctl = s.ctl := rfl

@[simp] theorem State.zeroAcc_params (s : State) :
    (s.zeroAcc).params = s.params := rfl

@[simp] theorem State.zeroAcc_rings (s : State) :
    (s.zeroAcc).rings = s.rings := rfl

@[simp] theorem State.zeroAcc_shm (s : State) :
    (s.zeroAcc).shm = s.shm := rfl

@[simp] theorem State.zeroAcc_cons (s : State) :
    (s.zeroAcc).cons = s.cons := rfl

@[simp] theorem State.zeroAcc_ports (s : State) :
    (s.zeroAcc).ports = s.ports := rfl

@[simp] theorem State.zeroAcc_free (s : State) :
    (s.zeroAcc).free = s.free := rfl

@[simp] theorem State.zeroAcc_chain_v (s : State) :
    (s.zeroAcc).chain.v = s.chain.v := rfl

@[simp] theorem State.zeroAcc_chain_sampleCount (s : State) :
    (s.zeroAcc).chain.sampleCount = s.chain.sampleCount := rfl

@[simp] theorem State.zeroAcc_chain_oscRef (s : State) :
    (s.zeroAcc).chain.oscRef = s.chain.oscRef := rfl

@[simp] theorem State.zeroAcc_chain_oscMod (s : State) :
    (s.zeroAcc).chain.oscMod = s.chain.oscMod := rfl

@[simp] theorem State.zeroAcc_chain_bpf (s : State) :
    (s.zeroAcc).chain.bpf = s.chain.bpf := rfl

@[simp] theorem State.zeroAcc_chain_lpfI (s : State) :
    (s.zeroAcc).chain.lpfI = s.chain.lpfI := rfl

@[simp] theorem State.zeroAcc_chain_lpfQ (s : State) :
    (s.zeroAcc).chain.lpfQ = s.chain.lpfQ := rfl

@[simp] theorem State.zeroAcc_chain_iSum (s : State) :
    (s.zeroAcc).chain.iSum = pZero := rfl

@[simp] theorem State.zeroAcc_chain_qSum (s : State) :
    (s.zeroAcc).chain.qSum = pZero := rfl

@[simp] theorem State.zeroAcc_chain_avgCount (s : State) :
    (s.zeroAcc).chain.avgCount = 0#64 := rfl

@[simp] theorem State.zeroAcc_chain_hasSpare (s : State) :
    (s.zeroAcc).chain.hasSpare = s.chain.hasSpare := rfl

@[simp] theorem State.zeroAcc_chain_spare (s : State) :
    (s.zeroAcc).chain.spare = s.chain.spare := rfl

@[simp] theorem State.zeroAcc_chain_bank (s : State) :
    (s.zeroAcc).chain.bank = s.chain.bank := rfl

@[simp] theorem State.zeroAcc_chain_bpfPhaseOffset (s : State) :
    (s.zeroAcc).chain.bpfPhaseOffset = s.chain.bpfPhaseOffset := rfl

@[simp] theorem State.zeroAcc_chain_lastSampleTime (s : State) :
    (s.zeroAcc).chain.lastSampleTime = s.chain.lastSampleTime := rfl

@[simp] theorem State.zeroAcc_chain_lastPublishTime (s : State) :
    (s.zeroAcc).chain.lastPublishTime = s.chain.lastPublishTime := rfl

/-! ### setV -/

@[simp] theorem State.setV_build (s : State) (v : PerChan F64) :
    (s.setV v).build = s.build := rfl

@[simp] theorem State.setV_ctl (s : State) (v : PerChan F64) :
    (s.setV v).ctl = s.ctl := rfl

@[simp] theorem State.setV_params (s : State) (v : PerChan F64) :
    (s.setV v).params = s.params := rfl

@[simp] theorem State.setV_rings (s : State) (v : PerChan F64) :
    (s.setV v).rings = s.rings := rfl

@[simp] theorem State.setV_shm (s : State) (v : PerChan F64) :
    (s.setV v).shm = s.shm := rfl

@[simp] theorem State.setV_cons (s : State) (v : PerChan F64) :
    (s.setV v).cons = s.cons := rfl

@[simp] theorem State.setV_ports (s : State) (v : PerChan F64) :
    (s.setV v).ports = s.ports := rfl

@[simp] theorem State.setV_free (s : State) (v : PerChan F64) :
    (s.setV v).free = s.free := rfl

@[simp] theorem State.setV_chain_v (s : State) (v : PerChan F64) :
    (s.setV v).chain.v = v := rfl

@[simp] theorem State.setV_chain_sampleCount (s : State) (v : PerChan F64) :
    (s.setV v).chain.sampleCount = s.chain.sampleCount := rfl

@[simp] theorem State.setV_chain_oscRef (s : State) (v : PerChan F64) :
    (s.setV v).chain.oscRef = s.chain.oscRef := rfl

@[simp] theorem State.setV_chain_oscMod (s : State) (v : PerChan F64) :
    (s.setV v).chain.oscMod = s.chain.oscMod := rfl

@[simp] theorem State.setV_chain_bpf (s : State) (v : PerChan F64) :
    (s.setV v).chain.bpf = s.chain.bpf := rfl

@[simp] theorem State.setV_chain_lpfI (s : State) (v : PerChan F64) :
    (s.setV v).chain.lpfI = s.chain.lpfI := rfl

@[simp] theorem State.setV_chain_lpfQ (s : State) (v : PerChan F64) :
    (s.setV v).chain.lpfQ = s.chain.lpfQ := rfl

@[simp] theorem State.setV_chain_iSum (s : State) (v : PerChan F64) :
    (s.setV v).chain.iSum = s.chain.iSum := rfl

@[simp] theorem State.setV_chain_qSum (s : State) (v : PerChan F64) :
    (s.setV v).chain.qSum = s.chain.qSum := rfl

@[simp] theorem State.setV_chain_avgCount (s : State) (v : PerChan F64) :
    (s.setV v).chain.avgCount = s.chain.avgCount := rfl

@[simp] theorem State.setV_chain_hasSpare (s : State) (v : PerChan F64) :
    (s.setV v).chain.hasSpare = s.chain.hasSpare := rfl

@[simp] theorem State.setV_chain_spare (s : State) (v : PerChan F64) :
    (s.setV v).chain.spare = s.chain.spare := rfl

@[simp] theorem State.setV_chain_bank (s : State) (v : PerChan F64) :
    (s.setV v).chain.bank = s.chain.bank := rfl

@[simp] theorem State.setV_chain_bpfPhaseOffset (s : State) (v : PerChan F64) :
    (s.setV v).chain.bpfPhaseOffset = s.chain.bpfPhaseOffset := rfl

@[simp] theorem State.setV_chain_lastSampleTime (s : State) (v : PerChan F64) :
    (s.setV v).chain.lastSampleTime = s.chain.lastSampleTime := rfl

@[simp] theorem State.setV_chain_lastPublishTime (s : State) (v : PerChan F64) :
    (s.setV v).chain.lastPublishTime = s.chain.lastPublishTime := rfl

/-! ### setSampleCount -/

@[simp] theorem State.setSampleCount_build (s : State) (n : BitVec 64) :
    (s.setSampleCount n).build = s.build := rfl

@[simp] theorem State.setSampleCount_ctl (s : State) (n : BitVec 64) :
    (s.setSampleCount n).ctl = s.ctl := rfl

@[simp] theorem State.setSampleCount_params (s : State) (n : BitVec 64) :
    (s.setSampleCount n).params = s.params := rfl

@[simp] theorem State.setSampleCount_rings (s : State) (n : BitVec 64) :
    (s.setSampleCount n).rings = s.rings := rfl

@[simp] theorem State.setSampleCount_shm (s : State) (n : BitVec 64) :
    (s.setSampleCount n).shm = s.shm := rfl

@[simp] theorem State.setSampleCount_cons (s : State) (n : BitVec 64) :
    (s.setSampleCount n).cons = s.cons := rfl

@[simp] theorem State.setSampleCount_ports (s : State) (n : BitVec 64) :
    (s.setSampleCount n).ports = s.ports := rfl

@[simp] theorem State.setSampleCount_free (s : State) (n : BitVec 64) :
    (s.setSampleCount n).free = s.free := rfl

@[simp] theorem State.setSampleCount_chain_v (s : State) (n : BitVec 64) :
    (s.setSampleCount n).chain.v = s.chain.v := rfl

@[simp] theorem State.setSampleCount_chain_sampleCount (s : State) (n : BitVec 64) :
    (s.setSampleCount n).chain.sampleCount = n := rfl

@[simp] theorem State.setSampleCount_chain_oscRef (s : State) (n : BitVec 64) :
    (s.setSampleCount n).chain.oscRef = s.chain.oscRef := rfl

@[simp] theorem State.setSampleCount_chain_oscMod (s : State) (n : BitVec 64) :
    (s.setSampleCount n).chain.oscMod = s.chain.oscMod := rfl

@[simp] theorem State.setSampleCount_chain_bpf (s : State) (n : BitVec 64) :
    (s.setSampleCount n).chain.bpf = s.chain.bpf := rfl

@[simp] theorem State.setSampleCount_chain_lpfI (s : State) (n : BitVec 64) :
    (s.setSampleCount n).chain.lpfI = s.chain.lpfI := rfl

@[simp] theorem State.setSampleCount_chain_lpfQ (s : State) (n : BitVec 64) :
    (s.setSampleCount n).chain.lpfQ = s.chain.lpfQ := rfl

@[simp] theorem State.setSampleCount_chain_iSum (s : State) (n : BitVec 64) :
    (s.setSampleCount n).chain.iSum = s.chain.iSum := rfl

@[simp] theorem State.setSampleCount_chain_qSum (s : State) (n : BitVec 64) :
    (s.setSampleCount n).chain.qSum = s.chain.qSum := rfl

@[simp] theorem State.setSampleCount_chain_avgCount (s : State) (n : BitVec 64) :
    (s.setSampleCount n).chain.avgCount = s.chain.avgCount := rfl

@[simp] theorem State.setSampleCount_chain_hasSpare (s : State) (n : BitVec 64) :
    (s.setSampleCount n).chain.hasSpare = s.chain.hasSpare := rfl

@[simp] theorem State.setSampleCount_chain_spare (s : State) (n : BitVec 64) :
    (s.setSampleCount n).chain.spare = s.chain.spare := rfl

@[simp] theorem State.setSampleCount_chain_bank (s : State) (n : BitVec 64) :
    (s.setSampleCount n).chain.bank = s.chain.bank := rfl

@[simp] theorem State.setSampleCount_chain_bpfPhaseOffset (s : State) (n : BitVec 64) :
    (s.setSampleCount n).chain.bpfPhaseOffset = s.chain.bpfPhaseOffset := rfl

@[simp] theorem State.setSampleCount_chain_lastSampleTime (s : State) (n : BitVec 64) :
    (s.setSampleCount n).chain.lastSampleTime = s.chain.lastSampleTime := rfl

@[simp] theorem State.setSampleCount_chain_lastPublishTime (s : State) (n : BitVec 64) :
    (s.setSampleCount n).chain.lastPublishTime = s.chain.lastPublishTime := rfl

/-! ### setOffset -/

@[simp] theorem State.setOffset_build (s : State) (v : F64) :
    (s.setOffset v).build = s.build := rfl

@[simp] theorem State.setOffset_ctl (s : State) (v : F64) :
    (s.setOffset v).ctl = s.ctl := rfl

@[simp] theorem State.setOffset_params (s : State) (v : F64) :
    (s.setOffset v).params = s.params := rfl

@[simp] theorem State.setOffset_rings (s : State) (v : F64) :
    (s.setOffset v).rings = s.rings := rfl

@[simp] theorem State.setOffset_shm (s : State) (v : F64) :
    (s.setOffset v).shm = s.shm := rfl

@[simp] theorem State.setOffset_cons (s : State) (v : F64) :
    (s.setOffset v).cons = s.cons := rfl

@[simp] theorem State.setOffset_ports (s : State) (v : F64) :
    (s.setOffset v).ports = s.ports := rfl

@[simp] theorem State.setOffset_free (s : State) (v : F64) :
    (s.setOffset v).free = s.free := rfl

@[simp] theorem State.setOffset_chain_v (s : State) (v : F64) :
    (s.setOffset v).chain.v = s.chain.v := rfl

@[simp] theorem State.setOffset_chain_sampleCount (s : State) (v : F64) :
    (s.setOffset v).chain.sampleCount = s.chain.sampleCount := rfl

@[simp] theorem State.setOffset_chain_oscRef (s : State) (v : F64) :
    (s.setOffset v).chain.oscRef = s.chain.oscRef := rfl

@[simp] theorem State.setOffset_chain_oscMod (s : State) (v : F64) :
    (s.setOffset v).chain.oscMod = s.chain.oscMod := rfl

@[simp] theorem State.setOffset_chain_bpf (s : State) (v : F64) :
    (s.setOffset v).chain.bpf = s.chain.bpf := rfl

@[simp] theorem State.setOffset_chain_lpfI (s : State) (v : F64) :
    (s.setOffset v).chain.lpfI = s.chain.lpfI := rfl

@[simp] theorem State.setOffset_chain_lpfQ (s : State) (v : F64) :
    (s.setOffset v).chain.lpfQ = s.chain.lpfQ := rfl

@[simp] theorem State.setOffset_chain_iSum (s : State) (v : F64) :
    (s.setOffset v).chain.iSum = s.chain.iSum := rfl

@[simp] theorem State.setOffset_chain_qSum (s : State) (v : F64) :
    (s.setOffset v).chain.qSum = s.chain.qSum := rfl

@[simp] theorem State.setOffset_chain_avgCount (s : State) (v : F64) :
    (s.setOffset v).chain.avgCount = s.chain.avgCount := rfl

@[simp] theorem State.setOffset_chain_hasSpare (s : State) (v : F64) :
    (s.setOffset v).chain.hasSpare = s.chain.hasSpare := rfl

@[simp] theorem State.setOffset_chain_spare (s : State) (v : F64) :
    (s.setOffset v).chain.spare = s.chain.spare := rfl

@[simp] theorem State.setOffset_chain_bank (s : State) (v : F64) :
    (s.setOffset v).chain.bank = s.chain.bank := rfl

@[simp] theorem State.setOffset_chain_bpfPhaseOffset (s : State) (v : F64) :
    (s.setOffset v).chain.bpfPhaseOffset = v := rfl

@[simp] theorem State.setOffset_chain_lastSampleTime (s : State) (v : F64) :
    (s.setOffset v).chain.lastSampleTime = s.chain.lastSampleTime := rfl

@[simp] theorem State.setOffset_chain_lastPublishTime (s : State) (v : F64) :
    (s.setOffset v).chain.lastPublishTime = s.chain.lastPublishTime := rfl

/-! ### setSampleTime -/

@[simp] theorem State.setSampleTime_build (s : State) (now : F64) :
    (s.setSampleTime now).build = s.build := rfl

@[simp] theorem State.setSampleTime_ctl (s : State) (now : F64) :
    (s.setSampleTime now).ctl = s.ctl := rfl

@[simp] theorem State.setSampleTime_params (s : State) (now : F64) :
    (s.setSampleTime now).params = s.params := rfl

@[simp] theorem State.setSampleTime_rings (s : State) (now : F64) :
    (s.setSampleTime now).rings = s.rings := rfl

@[simp] theorem State.setSampleTime_shm (s : State) (now : F64) :
    (s.setSampleTime now).shm = s.shm := rfl

@[simp] theorem State.setSampleTime_cons (s : State) (now : F64) :
    (s.setSampleTime now).cons = s.cons := rfl

@[simp] theorem State.setSampleTime_ports (s : State) (now : F64) :
    (s.setSampleTime now).ports = s.ports := rfl

@[simp] theorem State.setSampleTime_free (s : State) (now : F64) :
    (s.setSampleTime now).free = s.free := rfl

@[simp] theorem State.setSampleTime_chain_v (s : State) (now : F64) :
    (s.setSampleTime now).chain.v = s.chain.v := rfl

@[simp] theorem State.setSampleTime_chain_sampleCount (s : State) (now : F64) :
    (s.setSampleTime now).chain.sampleCount = s.chain.sampleCount := rfl

@[simp] theorem State.setSampleTime_chain_oscRef (s : State) (now : F64) :
    (s.setSampleTime now).chain.oscRef = s.chain.oscRef := rfl

@[simp] theorem State.setSampleTime_chain_oscMod (s : State) (now : F64) :
    (s.setSampleTime now).chain.oscMod = s.chain.oscMod := rfl

@[simp] theorem State.setSampleTime_chain_bpf (s : State) (now : F64) :
    (s.setSampleTime now).chain.bpf = s.chain.bpf := rfl

@[simp] theorem State.setSampleTime_chain_lpfI (s : State) (now : F64) :
    (s.setSampleTime now).chain.lpfI = s.chain.lpfI := rfl

@[simp] theorem State.setSampleTime_chain_lpfQ (s : State) (now : F64) :
    (s.setSampleTime now).chain.lpfQ = s.chain.lpfQ := rfl

@[simp] theorem State.setSampleTime_chain_iSum (s : State) (now : F64) :
    (s.setSampleTime now).chain.iSum = s.chain.iSum := rfl

@[simp] theorem State.setSampleTime_chain_qSum (s : State) (now : F64) :
    (s.setSampleTime now).chain.qSum = s.chain.qSum := rfl

@[simp] theorem State.setSampleTime_chain_avgCount (s : State) (now : F64) :
    (s.setSampleTime now).chain.avgCount = s.chain.avgCount := rfl

@[simp] theorem State.setSampleTime_chain_hasSpare (s : State) (now : F64) :
    (s.setSampleTime now).chain.hasSpare = s.chain.hasSpare := rfl

@[simp] theorem State.setSampleTime_chain_spare (s : State) (now : F64) :
    (s.setSampleTime now).chain.spare = s.chain.spare := rfl

@[simp] theorem State.setSampleTime_chain_bank (s : State) (now : F64) :
    (s.setSampleTime now).chain.bank = s.chain.bank := rfl

@[simp] theorem State.setSampleTime_chain_bpfPhaseOffset (s : State) (now : F64) :
    (s.setSampleTime now).chain.bpfPhaseOffset = s.chain.bpfPhaseOffset := rfl

@[simp] theorem State.setSampleTime_chain_lastSampleTime (s : State) (now : F64) :
    (s.setSampleTime now).chain.lastSampleTime = now := rfl

@[simp] theorem State.setSampleTime_chain_lastPublishTime (s : State) (now : F64) :
    (s.setSampleTime now).chain.lastPublishTime = s.chain.lastPublishTime := rfl

/-! ### setPublishTime -/

@[simp] theorem State.setPublishTime_build (s : State) (now : F64) :
    (s.setPublishTime now).build = s.build := rfl

@[simp] theorem State.setPublishTime_ctl (s : State) (now : F64) :
    (s.setPublishTime now).ctl = s.ctl := rfl

@[simp] theorem State.setPublishTime_params (s : State) (now : F64) :
    (s.setPublishTime now).params = s.params := rfl

@[simp] theorem State.setPublishTime_rings (s : State) (now : F64) :
    (s.setPublishTime now).rings = s.rings := rfl

@[simp] theorem State.setPublishTime_shm (s : State) (now : F64) :
    (s.setPublishTime now).shm = s.shm := rfl

@[simp] theorem State.setPublishTime_cons (s : State) (now : F64) :
    (s.setPublishTime now).cons = s.cons := rfl

@[simp] theorem State.setPublishTime_ports (s : State) (now : F64) :
    (s.setPublishTime now).ports = s.ports := rfl

@[simp] theorem State.setPublishTime_free (s : State) (now : F64) :
    (s.setPublishTime now).free = s.free := rfl

@[simp] theorem State.setPublishTime_chain_v (s : State) (now : F64) :
    (s.setPublishTime now).chain.v = s.chain.v := rfl

@[simp] theorem State.setPublishTime_chain_sampleCount (s : State) (now : F64) :
    (s.setPublishTime now).chain.sampleCount = s.chain.sampleCount := rfl

@[simp] theorem State.setPublishTime_chain_oscRef (s : State) (now : F64) :
    (s.setPublishTime now).chain.oscRef = s.chain.oscRef := rfl

@[simp] theorem State.setPublishTime_chain_oscMod (s : State) (now : F64) :
    (s.setPublishTime now).chain.oscMod = s.chain.oscMod := rfl

@[simp] theorem State.setPublishTime_chain_bpf (s : State) (now : F64) :
    (s.setPublishTime now).chain.bpf = s.chain.bpf := rfl

@[simp] theorem State.setPublishTime_chain_lpfI (s : State) (now : F64) :
    (s.setPublishTime now).chain.lpfI = s.chain.lpfI := rfl

@[simp] theorem State.setPublishTime_chain_lpfQ (s : State) (now : F64) :
    (s.setPublishTime now).chain.lpfQ = s.chain.lpfQ := rfl

@[simp] theorem State.setPublishTime_chain_iSum (s : State) (now : F64) :
    (s.setPublishTime now).chain.iSum = s.chain.iSum := rfl

@[simp] theorem State.setPublishTime_chain_qSum (s : State) (now : F64) :
    (s.setPublishTime now).chain.qSum = s.chain.qSum := rfl

@[simp] theorem State.setPublishTime_chain_avgCount (s : State) (now : F64) :
    (s.setPublishTime now).chain.avgCount = s.chain.avgCount := rfl

@[simp] theorem State.setPublishTime_chain_hasSpare (s : State) (now : F64) :
    (s.setPublishTime now).chain.hasSpare = s.chain.hasSpare := rfl

@[simp] theorem State.setPublishTime_chain_spare (s : State) (now : F64) :
    (s.setPublishTime now).chain.spare = s.chain.spare := rfl

@[simp] theorem State.setPublishTime_chain_bank (s : State) (now : F64) :
    (s.setPublishTime now).chain.bank = s.chain.bank := rfl

@[simp] theorem State.setPublishTime_chain_bpfPhaseOffset (s : State) (now : F64) :
    (s.setPublishTime now).chain.bpfPhaseOffset = s.chain.bpfPhaseOffset := rfl

@[simp] theorem State.setPublishTime_chain_lastSampleTime (s : State) (now : F64) :
    (s.setPublishTime now).chain.lastSampleTime = s.chain.lastSampleTime := rfl

@[simp] theorem State.setPublishTime_chain_lastPublishTime (s : State) (now : F64) :
    (s.setPublishTime now).chain.lastPublishTime = now := rfl

/-! ### setRing -/

@[simp] theorem State.setRing_build (s : State) (c : Chan) (r : Ring) :
    (s.setRing c r).build = s.build := rfl

@[simp] theorem State.setRing_ctl (s : State) (c : Chan) (r : Ring) :
    (s.setRing c r).ctl = s.ctl := rfl

@[simp] theorem State.setRing_params (s : State) (c : Chan) (r : Ring) :
    (s.setRing c r).params = s.params := rfl

@[simp] theorem State.setRing_chain (s : State) (c : Chan) (r : Ring) :
    (s.setRing c r).chain = s.chain := rfl

@[simp] theorem State.setRing_shm (s : State) (c : Chan) (r : Ring) :
    (s.setRing c r).shm = s.shm := rfl

@[simp] theorem State.setRing_cons (s : State) (c : Chan) (r : Ring) :
    (s.setRing c r).cons = s.cons := rfl

@[simp] theorem State.setRing_ports (s : State) (c : Chan) (r : Ring) :
    (s.setRing c r).ports = s.ports := rfl

@[simp] theorem State.setRing_free (s : State) (c : Chan) (r : Ring) :
    (s.setRing c r).free = s.free := rfl

/-! ### setRunning -/

@[simp] theorem State.setRunning_build (s : State) (r : Bool) :
    (s.setRunning r).build = s.build := rfl

@[simp] theorem State.setRunning_params (s : State) (r : Bool) :
    (s.setRunning r).params = s.params := rfl

@[simp] theorem State.setRunning_chain (s : State) (r : Bool) :
    (s.setRunning r).chain = s.chain := rfl

@[simp] theorem State.setRunning_rings (s : State) (r : Bool) :
    (s.setRunning r).rings = s.rings := rfl

@[simp] theorem State.setRunning_shm (s : State) (r : Bool) :
    (s.setRunning r).shm = s.shm := rfl

@[simp] theorem State.setRunning_cons (s : State) (r : Bool) :
    (s.setRunning r).cons = s.cons := rfl

@[simp] theorem State.setRunning_ports (s : State) (r : Bool) :
    (s.setRunning r).ports = s.ports := rfl

@[simp] theorem State.setRunning_free (s : State) (r : Bool) :
    (s.setRunning r).free = s.free := rfl

@[simp] theorem State.setRunning_ctl_initialised (s : State) (r : Bool) :
    (s.setRunning r).ctl.initialised = s.ctl.initialised := rfl

@[simp] theorem State.setRunning_ctl_running (s : State) (r : Bool) :
    (s.setRunning r).ctl.running = r := rfl

@[simp] theorem State.setRunning_ctl_shmSize (s : State) (r : Bool) :
    (s.setRunning r).ctl.shmSize = s.ctl.shmSize := rfl

@[simp] theorem State.setRunning_ctl_snapshotPoints (s : State) (r : Bool) :
    (s.setRunning r).ctl.snapshotPoints = s.ctl.snapshotPoints := rfl

/-! ### setParams -/

@[simp] theorem State.setParams_build (s : State) (p : Params) :
    (s.setParams p).build = s.build := rfl

@[simp] theorem State.setParams_ctl (s : State) (p : Params) :
    (s.setParams p).ctl = s.ctl := rfl

@[simp] theorem State.setParams_chain (s : State) (p : Params) :
    (s.setParams p).chain = s.chain := rfl

@[simp] theorem State.setParams_rings (s : State) (p : Params) :
    (s.setParams p).rings = s.rings := rfl

@[simp] theorem State.setParams_shm (s : State) (p : Params) :
    (s.setParams p).shm = s.shm := rfl

@[simp] theorem State.setParams_cons (s : State) (p : Params) :
    (s.setParams p).cons = s.cons := rfl

@[simp] theorem State.setParams_ports (s : State) (p : Params) :
    (s.setParams p).ports = s.ports := rfl

@[simp] theorem State.setParams_free (s : State) (p : Params) :
    (s.setParams p).free = s.free := rfl

/-! ### setShm -/

@[simp] theorem State.setShm_build (s : State) (m : Memory) :
    (s.setShm m).build = s.build := rfl

@[simp] theorem State.setShm_ctl (s : State) (m : Memory) :
    (s.setShm m).ctl = s.ctl := rfl

@[simp] theorem State.setShm_params (s : State) (m : Memory) :
    (s.setShm m).params = s.params := rfl

@[simp] theorem State.setShm_chain (s : State) (m : Memory) :
    (s.setShm m).chain = s.chain := rfl

@[simp] theorem State.setShm_rings (s : State) (m : Memory) :
    (s.setShm m).rings = s.rings := rfl

@[simp] theorem State.setShm_cons (s : State) (m : Memory) :
    (s.setShm m).cons = s.cons := rfl

@[simp] theorem State.setShm_ports (s : State) (m : Memory) :
    (s.setShm m).ports = s.ports := rfl

@[simp] theorem State.setShm_free_drawPos (s : State) (m : Memory) :
    (s.setShm m).free.drawPos = s.free.drawPos := rfl

@[simp] theorem State.setShm_free_freeCount (s : State) (m : Memory) :
    (s.setShm m).free.freeCount = s.free.freeCount := rfl

@[simp] theorem State.setShm_free_choice (s : State) (m : Memory) :
    (s.setShm m).free.choice = s.free.choice := rfl

@[simp] theorem State.setShm_free_choiceCount (s : State) (m : Memory) :
    (s.setShm m).free.choiceCount = s.free.choiceCount := rfl

@[simp] theorem State.setShm_free_task (s : State) (m : Memory) :
    (s.setShm m).free.task = s.free.task := rfl

@[simp] theorem State.setShm_free_relaid (s : State) (m : Memory) :
    (s.setShm m).free.relaid = s.free.relaid := rfl

/-! ### clearRings -/

@[simp] theorem State.clearRings_build (s : State) :
    (s.clearRings).build = s.build := rfl

@[simp] theorem State.clearRings_ctl (s : State) :
    (s.clearRings).ctl = s.ctl := rfl

@[simp] theorem State.clearRings_params (s : State) :
    (s.clearRings).params = s.params := rfl

@[simp] theorem State.clearRings_chain (s : State) :
    (s.clearRings).chain = s.chain := rfl

@[simp] theorem State.clearRings_shm (s : State) :
    (s.clearRings).shm = s.shm := rfl

@[simp] theorem State.clearRings_cons (s : State) :
    (s.clearRings).cons = s.cons := rfl

@[simp] theorem State.clearRings_ports (s : State) :
    (s.clearRings).ports = s.ports := rfl

@[simp] theorem State.clearRings_free (s : State) :
    (s.clearRings).free = s.free := rfl

/-! ### pushAll -/

@[simp] theorem State.pushAll_build (s : State) (v : PerChan F64) :
    (s.pushAll v).build = s.build := rfl

@[simp] theorem State.pushAll_ctl (s : State) (v : PerChan F64) :
    (s.pushAll v).ctl = s.ctl := rfl

@[simp] theorem State.pushAll_params (s : State) (v : PerChan F64) :
    (s.pushAll v).params = s.params := rfl

@[simp] theorem State.pushAll_chain (s : State) (v : PerChan F64) :
    (s.pushAll v).chain = s.chain := rfl

@[simp] theorem State.pushAll_shm (s : State) (v : PerChan F64) :
    (s.pushAll v).shm = s.shm := rfl

@[simp] theorem State.pushAll_cons (s : State) (v : PerChan F64) :
    (s.pushAll v).cons = s.cons := rfl

@[simp] theorem State.pushAll_ports (s : State) (v : PerChan F64) :
    (s.pushAll v).ports = s.ports := rfl

@[simp] theorem State.pushAll_free (s : State) (v : PerChan F64) :
    (s.pushAll v).free = s.free := rfl

/-! ### setWork -/

@[simp] theorem State.setWork_build (s : State) (n : Nat) (w : Work) :
    (s.setWork n w).build = s.build := rfl

@[simp] theorem State.setWork_ctl (s : State) (n : Nat) (w : Work) :
    (s.setWork n w).ctl = s.ctl := rfl

@[simp] theorem State.setWork_params (s : State) (n : Nat) (w : Work) :
    (s.setWork n w).params = s.params := rfl

@[simp] theorem State.setWork_chain (s : State) (n : Nat) (w : Work) :
    (s.setWork n w).chain = s.chain := rfl

@[simp] theorem State.setWork_rings (s : State) (n : Nat) (w : Work) :
    (s.setWork n w).rings = s.rings := rfl

@[simp] theorem State.setWork_shm (s : State) (n : Nat) (w : Work) :
    (s.setWork n w).shm = s.shm := rfl

@[simp] theorem State.setWork_ports (s : State) (n : Nat) (w : Work) :
    (s.setWork n w).ports = s.ports := rfl

@[simp] theorem State.setWork_free (s : State) (n : Nat) (w : Work) :
    (s.setWork n w).free = s.free := rfl

/-! ### endTask -/

@[simp] theorem State.endTask_build (s : State) :
    (s.endTask).build = s.build := rfl

@[simp] theorem State.endTask_ctl (s : State) :
    (s.endTask).ctl = s.ctl := rfl

@[simp] theorem State.endTask_params (s : State) :
    (s.endTask).params = s.params := rfl

@[simp] theorem State.endTask_chain (s : State) :
    (s.endTask).chain = s.chain := rfl

@[simp] theorem State.endTask_rings (s : State) :
    (s.endTask).rings = s.rings := rfl

@[simp] theorem State.endTask_shm (s : State) :
    (s.endTask).shm = s.shm := rfl

@[simp] theorem State.endTask_cons (s : State) :
    (s.endTask).cons = s.cons := rfl

@[simp] theorem State.endTask_ports (s : State) :
    (s.endTask).ports = s.ports := rfl

@[simp] theorem State.endTask_free_drawPos (s : State) :
    (s.endTask).free.drawPos = s.free.drawPos := rfl

@[simp] theorem State.endTask_free_freeCount (s : State) :
    (s.endTask).free.freeCount = s.free.freeCount := rfl

@[simp] theorem State.endTask_free_choice (s : State) :
    (s.endTask).free.choice = s.free.choice := rfl

@[simp] theorem State.endTask_free_choiceCount (s : State) :
    (s.endTask).free.choiceCount = s.free.choiceCount := rfl

@[simp] theorem State.endTask_free_task (s : State) :
    (s.endTask).free.task = none := rfl

@[simp] theorem State.endTask_free_relaid (s : State) :
    (s.endTask).free.relaid = s.free.relaid := rfl

@[simp] theorem State.endTask_free_view (s : State) :
    (s.endTask).free.view = s.free.view := rfl

/-! ### acquireLoad -/

@[simp] theorem State.acquireLoad_build (s : State) :
    (s.acquireLoad).build = s.build := rfl

@[simp] theorem State.acquireLoad_ctl (s : State) :
    (s.acquireLoad).ctl = s.ctl := rfl

@[simp] theorem State.acquireLoad_params (s : State) :
    (s.acquireLoad).params = s.params := rfl

@[simp] theorem State.acquireLoad_chain (s : State) :
    (s.acquireLoad).chain = s.chain := rfl

@[simp] theorem State.acquireLoad_rings (s : State) :
    (s.acquireLoad).rings = s.rings := rfl

@[simp] theorem State.acquireLoad_shm (s : State) :
    (s.acquireLoad).shm = s.shm := rfl

@[simp] theorem State.acquireLoad_cons (s : State) :
    (s.acquireLoad).cons = s.cons := rfl

@[simp] theorem State.acquireLoad_ports (s : State) :
    (s.acquireLoad).ports = s.ports := rfl

@[simp] theorem State.acquireLoad_free_drawPos (s : State) :
    (s.acquireLoad).free.drawPos = s.free.drawPos := rfl

@[simp] theorem State.acquireLoad_free_freeCount (s : State) :
    (s.acquireLoad).free.freeCount = s.free.freeCount := rfl

@[simp] theorem State.acquireLoad_free_choice (s : State) :
    (s.acquireLoad).free.choice = s.free.choice := rfl

@[simp] theorem State.acquireLoad_free_choiceCount (s : State) :
    (s.acquireLoad).free.choiceCount = s.free.choiceCount := rfl

@[simp] theorem State.acquireLoad_free_task (s : State) :
    (s.acquireLoad).free.task = s.free.task := rfl

@[simp] theorem State.acquireLoad_free_relaid (s : State) :
    (s.acquireLoad).free.relaid = s.free.relaid := rfl

/-! ### readRun -/

@[simp] theorem State.readRun_build (s : State) (a n : Nat) :
    (s.readRun a n).build = s.build := rfl

@[simp] theorem State.readRun_ctl (s : State) (a n : Nat) :
    (s.readRun a n).ctl = s.ctl := rfl

@[simp] theorem State.readRun_params (s : State) (a n : Nat) :
    (s.readRun a n).params = s.params := rfl

@[simp] theorem State.readRun_chain (s : State) (a n : Nat) :
    (s.readRun a n).chain = s.chain := rfl

@[simp] theorem State.readRun_rings (s : State) (a n : Nat) :
    (s.readRun a n).rings = s.rings := rfl

@[simp] theorem State.readRun_shm (s : State) (a n : Nat) :
    (s.readRun a n).shm = s.shm := rfl

@[simp] theorem State.readRun_cons (s : State) (a n : Nat) :
    (s.readRun a n).cons = s.cons := rfl

@[simp] theorem State.readRun_ports (s : State) (a n : Nat) :
    (s.readRun a n).ports = s.ports := rfl

@[simp] theorem State.readRun_free_drawPos (s : State) (a n : Nat) :
    (s.readRun a n).free.drawPos = s.free.drawPos := rfl

@[simp] theorem State.readRun_free_freeCount (s : State) (a n : Nat) :
    (s.readRun a n).free.freeCount = s.free.freeCount + n := rfl

@[simp] theorem State.readRun_free_choice (s : State) (a n : Nat) :
    (s.readRun a n).free.choice = s.free.choice := rfl

@[simp] theorem State.readRun_free_choiceCount (s : State) (a n : Nat) :
    (s.readRun a n).free.choiceCount = s.free.choiceCount := rfl

@[simp] theorem State.readRun_free_task (s : State) (a n : Nat) :
    (s.readRun a n).free.task = s.free.task := rfl

@[simp] theorem State.readRun_free_relaid (s : State) (a n : Nat) :
    (s.readRun a n).free.relaid = s.free.relaid := rfl

/-! ### latchTask -/

@[simp] theorem State.latchTask_build (s : State) (t : ChanTask) :
    (s.latchTask t).build = s.build := rfl

@[simp] theorem State.latchTask_ctl (s : State) (t : ChanTask) :
    (s.latchTask t).ctl = s.ctl := rfl

@[simp] theorem State.latchTask_params (s : State) (t : ChanTask) :
    (s.latchTask t).params = s.params := rfl

@[simp] theorem State.latchTask_chain (s : State) (t : ChanTask) :
    (s.latchTask t).chain = s.chain := rfl

@[simp] theorem State.latchTask_rings (s : State) (t : ChanTask) :
    (s.latchTask t).rings = s.rings := rfl

@[simp] theorem State.latchTask_shm (s : State) (t : ChanTask) :
    (s.latchTask t).shm = s.shm := rfl

@[simp] theorem State.latchTask_cons (s : State) (t : ChanTask) :
    (s.latchTask t).cons = s.cons := rfl

@[simp] theorem State.latchTask_ports (s : State) (t : ChanTask) :
    (s.latchTask t).ports = s.ports := rfl

@[simp] theorem State.latchTask_free_drawPos (s : State) (t : ChanTask) :
    (s.latchTask t).free.drawPos = s.free.drawPos := rfl

@[simp] theorem State.latchTask_free_freeCount (s : State) (t : ChanTask) :
    (s.latchTask t).free.freeCount = s.free.freeCount := rfl

@[simp] theorem State.latchTask_free_choice (s : State) (t : ChanTask) :
    (s.latchTask t).free.choice = s.free.choice := rfl

@[simp] theorem State.latchTask_free_choiceCount (s : State) (t : ChanTask) :
    (s.latchTask t).free.choiceCount = s.free.choiceCount := rfl

@[simp] theorem State.latchTask_free_task (s : State) (t : ChanTask) :
    (s.latchTask t).free.task = some t := rfl

@[simp] theorem State.latchTask_free_relaid (s : State) (t : ChanTask) :
    (s.latchTask t).free.relaid = s.free.relaid := rfl

@[simp] theorem State.latchTask_free_view (s : State) (t : ChanTask) :
    (s.latchTask t).free.view = s.free.view := rfl

/-! ### setQueue -/

@[simp] theorem State.setQueue_build (s : State) (p : Port) (l : List Message) :
    (s.setQueue p l).build = s.build := by cases p <;> rfl

@[simp] theorem State.setQueue_ctl (s : State) (p : Port) (l : List Message) :
    (s.setQueue p l).ctl = s.ctl := by cases p <;> rfl

@[simp] theorem State.setQueue_params (s : State) (p : Port) (l : List Message) :
    (s.setQueue p l).params = s.params := by cases p <;> rfl

@[simp] theorem State.setQueue_chain (s : State) (p : Port) (l : List Message) :
    (s.setQueue p l).chain = s.chain := by cases p <;> rfl

@[simp] theorem State.setQueue_rings (s : State) (p : Port) (l : List Message) :
    (s.setQueue p l).rings = s.rings := by cases p <;> rfl

@[simp] theorem State.setQueue_shm (s : State) (p : Port) (l : List Message) :
    (s.setQueue p l).shm = s.shm := by cases p <;> rfl

@[simp] theorem State.setQueue_cons (s : State) (p : Port) (l : List Message) :
    (s.setQueue p l).cons = s.cons := by cases p <;> rfl

@[simp] theorem State.setQueue_free (s : State) (p : Port) (l : List Message) :
    (s.setQueue p l).free = s.free := by cases p <;> rfl

@[simp] theorem State.setQueue_ports_pResp (s : State) (p : Port) (l : List Message) :
    (s.setQueue p l).ports.pResp = s.ports.pResp := by cases p <;> rfl

@[simp] theorem State.setQueue_ports_cResp (s : State) (p : Port) (l : List Message) :
    (s.setQueue p l).ports.cResp = s.ports.cResp := by cases p <;> rfl

@[simp] theorem State.setQueue_ports_events (s : State) (p : Port) (l : List Message) :
    (s.setQueue p l).ports.events = s.ports.events := by cases p <;> rfl

/-! ### acquire -/

@[simp] theorem State.acquire_build (s : State) (blk : Block) :
    (s.acquire blk).build = s.build := rfl

@[simp] theorem State.acquire_ctl (s : State) (blk : Block) :
    (s.acquire blk).ctl = s.ctl := rfl

@[simp] theorem State.acquire_params (s : State) (blk : Block) :
    (s.acquire blk).params = s.params := rfl

@[simp] theorem State.acquire_chain (s : State) (blk : Block) :
    (s.acquire blk).chain = s.chain := rfl

@[simp] theorem State.acquire_rings (s : State) (blk : Block) :
    (s.acquire blk).rings = s.rings := rfl

@[simp] theorem State.acquire_shm (s : State) (blk : Block) :
    (s.acquire blk).shm = s.shm := rfl

@[simp] theorem State.acquire_cons (s : State) (blk : Block) :
    (s.acquire blk).cons = s.cons := rfl

@[simp] theorem State.acquire_ports (s : State) (blk : Block) :
    (s.acquire blk).ports = s.ports := rfl

@[simp] theorem State.acquire_free_drawPos (s : State) (blk : Block) :
    (s.acquire blk).free.drawPos = s.free.drawPos := rfl

@[simp] theorem State.acquire_free_freeCount (s : State) (blk : Block) :
    (s.acquire blk).free.freeCount = s.free.freeCount := rfl

@[simp] theorem State.acquire_free_choice (s : State) (blk : Block) :
    (s.acquire blk).free.choice = s.free.choice := rfl

@[simp] theorem State.acquire_free_choiceCount (s : State) (blk : Block) :
    (s.acquire blk).free.choiceCount = s.free.choiceCount := rfl

@[simp] theorem State.acquire_free_task (s : State) (blk : Block) :
    (s.acquire blk).free.task = s.free.task := rfl

@[simp] theorem State.acquire_free_relaid (s : State) (blk : Block) :
    (s.acquire blk).free.relaid = s.free.relaid := rfl

/-! ### refreshChoice -/

@[simp] theorem State.refreshChoice_build (s : State) :
    (s.refreshChoice).build = s.build := rfl

@[simp] theorem State.refreshChoice_ctl (s : State) :
    (s.refreshChoice).ctl = s.ctl := rfl

@[simp] theorem State.refreshChoice_params (s : State) :
    (s.refreshChoice).params = s.params := rfl

@[simp] theorem State.refreshChoice_chain (s : State) :
    (s.refreshChoice).chain = s.chain := rfl

@[simp] theorem State.refreshChoice_rings (s : State) :
    (s.refreshChoice).rings = s.rings := rfl

@[simp] theorem State.refreshChoice_shm (s : State) :
    (s.refreshChoice).shm = s.shm := rfl

@[simp] theorem State.refreshChoice_cons (s : State) :
    (s.refreshChoice).cons = s.cons := rfl

@[simp] theorem State.refreshChoice_ports (s : State) :
    (s.refreshChoice).ports = s.ports := rfl

@[simp] theorem State.refreshChoice_free_drawPos (s : State) :
    (s.refreshChoice).free.drawPos = s.free.drawPos := rfl

@[simp] theorem State.refreshChoice_free_freeCount (s : State) :
    (s.refreshChoice).free.freeCount = s.free.freeCount := rfl

@[simp] theorem State.refreshChoice_free_choice (s : State) :
    (s.refreshChoice).free.choice = Config.choiceAt s.free.choiceCount := rfl

@[simp] theorem State.refreshChoice_free_choiceCount (s : State) :
    (s.refreshChoice).free.choiceCount = s.free.choiceCount + 1 := rfl

@[simp] theorem State.refreshChoice_free_task (s : State) :
    (s.refreshChoice).free.task = s.free.task := rfl

@[simp] theorem State.refreshChoice_free_relaid (s : State) :
    (s.refreshChoice).free.relaid = s.free.relaid := rfl

@[simp] theorem State.refreshChoice_free_view (s : State) :
    (s.refreshChoice).free.view = s.free.view := rfl

/-! ### The fields each update writes -/

@[simp] theorem State.setParams_params (s : State) (p : Params) : (s.setParams p).params = p := rfl

@[simp] theorem State.setShm_shm (s : State) (m : Memory) : (s.setShm m).shm = m := rfl

@[simp] theorem State.storeFlag_shm (s : State) (blk : Block) :
    (s.storeFlag blk).shm = memWrite32 s.shm 0 blk.flagWord := rfl

@[simp] theorem State.setPhase_phase_same (s : State) (o : OscSel) (p : F64) :
    (s.setPhase o p).phase o = p := by cases o <;> rfl

@[simp] theorem State.setPhase_oscRef (s : State) (p : F64) :
    (s.setPhase .ref p).chain.oscRef = p := rfl

@[simp] theorem State.setPhase_oscMod (s : State) (p : F64) :
    (s.setPhase .mod p).chain.oscMod = p := rfl

@[simp] theorem State.setPhase_ref_oscMod (s : State) (p : F64) :
    (s.setPhase .ref p).chain.oscMod = s.chain.oscMod := rfl

@[simp] theorem State.setPhase_mod_oscRef (s : State) (p : F64) :
    (s.setPhase .mod p).chain.oscRef = s.chain.oscRef := rfl

theorem State.setPhase_phase_other (s : State) {o q : OscSel} (h : q ≠ o) (p : F64) :
    (s.setPhase o p).phase q = s.phase q := by
  cases o <;> cases q <;> first | rfl | exact absurd rfl h

@[simp] theorem State.setCascade_cascade_same (s : State) (b : BqSel) (l : List Section) :
    (s.setCascade b l).cascade b = l := by cases b <;> rfl

theorem State.setCascade_cascade_other (s : State) {b c : BqSel} (h : c ≠ b) (l : List Section) :
    (s.setCascade b l).cascade c = s.cascade c := by
  cases b <;> cases c <;> first | rfl | exact absurd rfl h

@[simp] theorem PerChan.get_set_same {α : Type} (p : PerChan α) (c : Chan) (a : α) :
    (p.set c a).get c = a := by cases c <;> rfl

theorem PerChan.get_set_other {α : Type} (p : PerChan α) {c d : Chan} (h : d ≠ c) (a : α) :
    (p.set c a).get d = p.get d := by
  cases c <;> cases d <;> first | rfl | exact absurd rfl h

@[simp] theorem PerChan.get_ofFn {α : Type} (f : Chan → α) (c : Chan) :
    (PerChan.ofFn f).get c = f c := by cases c <;> rfl

@[simp] theorem PerChan.get_const {α : Type} (a : α) (c : Chan) :
    (PerChan.const a).get c = a := by cases c <;> rfl

theorem PerChan.ext_get {α : Type} {p q : PerChan α} (h : ∀ c, p.get c = q.get c) : p = q := by
  cases p; cases q
  simp only [PerChan.mk.injEq]
  exact ⟨h .reference, h .modulating, h .modulatingPlusNoise, h .sensorClean, h .noise, h .sensor,
    h .afterBpf, h .mixerI, h .mixerQ, h .iOutput, h .qOutput, h .signedOutput, h .time⟩

@[simp] theorem State.setRing_get_same (s : State) (c : Chan) (r : Ring) :
    (s.setRing c r).rings.get c = r := PerChan.get_set_same _ _ _

theorem State.setRing_get_other (s : State) {c d : Chan} (h : d ≠ c) (r : Ring) :
    (s.setRing c r).rings.get d = s.rings.get d := PerChan.get_set_other _ h _

@[simp] theorem State.clearRings_get (s : State) (c : Chan) :
    s.clearRings.rings.get c = ringCleared (s.rings.get c) := PerChan.get_ofFn _ _

@[simp] theorem State.pushAll_get (s : State) (v : PerChan F64) (c : Chan) :
    (s.pushAll v).rings.get c =
      ringPushed s.params.ringCapacity (s.rings.get c) (v.get c) := PerChan.get_ofFn _ _

end Sys2Proof.Machine
end

