-- ==== Sys2Proof/Laws/Composite.lean ====
section
/-!
SUPPORT. One lemma per field per composite update (the Gaussian source, INSTALL, SAMPLE, INIT, START, STOP,
UPDATE, SNAP, the spectrum): what the update writes and what it leaves.
-/

namespace Sys2Proof.Machine

/-! ### One cascade, by name -/

@[simp] theorem State.setCascade_bpf_bpf (s : State) (l : List Section) :
    (s.setCascade .bpf l).chain.bpf = l := rfl

@[simp] theorem State.setCascade_bpf_lpfI (s : State) (l : List Section) :
    (s.setCascade .bpf l).chain.lpfI = s.chain.lpfI := rfl

@[simp] theorem State.setCascade_bpf_lpfQ (s : State) (l : List Section) :
    (s.setCascade .bpf l).chain.lpfQ = s.chain.lpfQ := rfl

@[simp] theorem State.setCascade_lpfI_bpf (s : State) (l : List Section) :
    (s.setCascade .lpfI l).chain.bpf = s.chain.bpf := rfl

@[simp] theorem State.setCascade_lpfI_lpfI (s : State) (l : List Section) :
    (s.setCascade .lpfI l).chain.lpfI = l := rfl

@[simp] theorem State.setCascade_lpfI_lpfQ (s : State) (l : List Section) :
    (s.setCascade .lpfI l).chain.lpfQ = s.chain.lpfQ := rfl

@[simp] theorem State.setCascade_lpfQ_bpf (s : State) (l : List Section) :
    (s.setCascade .lpfQ l).chain.bpf = s.chain.bpf := rfl

@[simp] theorem State.setCascade_lpfQ_lpfI (s : State) (l : List Section) :
    (s.setCascade .lpfQ l).chain.lpfI = s.chain.lpfI := rfl

@[simp] theorem State.setCascade_lpfQ_lpfQ (s : State) (l : List Section) :
    (s.setCascade .lpfQ l).chain.lpfQ = l := rfl

@[simp] theorem State.cascade_bpf (s : State) : s.cascade .bpf = s.chain.bpf := rfl

@[simp] theorem State.cascade_lpfI (s : State) : s.cascade .lpfI = s.chain.lpfI := rfl

@[simp] theorem State.cascade_lpfQ (s : State) : s.cascade .lpfQ = s.chain.lpfQ := rfl

/-! ### oscAdvanced -/

@[simp] theorem State.oscAdvanced_build (s : State) (o : OscSel) (f : F64) :
    (s.oscAdvanced o f).build = s.build := State.setPhase_build _ _ _

@[simp] theorem State.oscAdvanced_ctl (s : State) (o : OscSel) (f : F64) :
    (s.oscAdvanced o f).ctl = s.ctl := State.setPhase_ctl _ _ _

@[simp] theorem State.oscAdvanced_params (s : State) (o : OscSel) (f : F64) :
    (s.oscAdvanced o f).params = s.params := State.setPhase_params _ _ _

@[simp] theorem State.oscAdvanced_rings (s : State) (o : OscSel) (f : F64) :
    (s.oscAdvanced o f).rings = s.rings := State.setPhase_rings _ _ _

@[simp] theorem State.oscAdvanced_shm (s : State) (o : OscSel) (f : F64) :
    (s.oscAdvanced o f).shm = s.shm := State.setPhase_shm _ _ _

@[simp] theorem State.oscAdvanced_cons (s : State) (o : OscSel) (f : F64) :
    (s.oscAdvanced o f).cons = s.cons := State.setPhase_cons _ _ _

@[simp] theorem State.oscAdvanced_ports (s : State) (o : OscSel) (f : F64) :
    (s.oscAdvanced o f).ports = s.ports := State.setPhase_ports _ _ _

@[simp] theorem State.oscAdvanced_free (s : State) (o : OscSel) (f : F64) :
    (s.oscAdvanced o f).free = s.free := State.setPhase_free _ _ _

@[simp] theorem State.oscAdvanced_chain_v (s : State) (o : OscSel) (f : F64) :
    (s.oscAdvanced o f).chain.v = s.chain.v := State.setPhase_chain_v _ _ _

@[simp] theorem State.oscAdvanced_chain_sampleCount (s : State) (o : OscSel) (f : F64) :
    (s.oscAdvanced o f).chain.sampleCount = s.chain.sampleCount := State.setPhase_chain_sampleCount _ _ _

@[simp] theorem State.oscAdvanced_chain_bpf (s : State) (o : OscSel) (f : F64) :
    (s.oscAdvanced o f).chain.bpf = s.chain.bpf := State.setPhase_chain_bpf _ _ _

@[simp] theorem State.oscAdvanced_chain_lpfI (s : State) (o : OscSel) (f : F64) :
    (s.oscAdvanced o f).chain.lpfI = s.chain.lpfI := State.setPhase_chain_lpfI _ _ _

@[simp] theorem State.oscAdvanced_chain_lpfQ (s : State) (o : OscSel) (f : F64) :
    (s.oscAdvanced o f).chain.lpfQ = s.chain.lpfQ := State.setPhase_chain_lpfQ _ _ _

@[simp] theorem State.oscAdvanced_chain_iSum (s : State) (o : OscSel) (f : F64) :
    (s.oscAdvanced o f).chain.iSum = s.chain.iSum := State.setPhase_chain_iSum _ _ _

@[simp] theorem State.oscAdvanced_chain_qSum (s : State) (o : OscSel) (f : F64) :
    (s.oscAdvanced o f).chain.qSum = s.chain.qSum := State.setPhase_chain_qSum _ _ _

@[simp] theorem State.oscAdvanced_chain_avgCount (s : State) (o : OscSel) (f : F64) :
    (s.oscAdvanced o f).chain.avgCount = s.chain.avgCount := State.setPhase_chain_avgCount _ _ _

@[simp] theorem State.oscAdvanced_chain_hasSpare (s : State) (o : OscSel) (f : F64) :
    (s.oscAdvanced o f).chain.hasSpare = s.chain.hasSpare := State.setPhase_chain_hasSpare _ _ _

@[simp] theorem State.oscAdvanced_chain_spare (s : State) (o : OscSel) (f : F64) :
    (s.oscAdvanced o f).chain.spare = s.chain.spare := State.setPhase_chain_spare _ _ _

@[simp] theorem State.oscAdvanced_chain_bank (s : State) (o : OscSel) (f : F64) :
    (s.oscAdvanced o f).chain.bank = s.chain.bank := State.setPhase_chain_bank _ _ _

@[simp] theorem State.oscAdvanced_chain_bpfPhaseOffset (s : State) (o : OscSel) (f : F64) :
    (s.oscAdvanced o f).chain.bpfPhaseOffset = s.chain.bpfPhaseOffset := State.setPhase_chain_bpfPhaseOffset _ _ _

@[simp] theorem State.oscAdvanced_chain_lastSampleTime (s : State) (o : OscSel) (f : F64) :
    (s.oscAdvanced o f).chain.lastSampleTime = s.chain.lastSampleTime := State.setPhase_chain_lastSampleTime _ _ _

@[simp] theorem State.oscAdvanced_chain_lastPublishTime (s : State) (o : OscSel) (f : F64) :
    (s.oscAdvanced o f).chain.lastPublishTime = s.chain.lastPublishTime := State.setPhase_chain_lastPublishTime _ _ _

/-! ### gaussNext -/

@[simp] theorem State.gaussNext_build (s : State) (sigma : F64) :
    (s.gaussNext sigma).build = s.build := by
  unfold State.gaussNext; repeat (first | rfl | split)

@[simp] theorem State.gaussNext_ctl (s : State) (sigma : F64) :
    (s.gaussNext sigma).ctl = s.ctl := by
  unfold State.gaussNext; repeat (first | rfl | split)

@[simp] theorem State.gaussNext_params (s : State) (sigma : F64) :
    (s.gaussNext sigma).params = s.params := by
  unfold State.gaussNext; repeat (first | rfl | split)

@[simp] theorem State.gaussNext_rings (s : State) (sigma : F64) :
    (s.gaussNext sigma).rings = s.rings := by
  unfold State.gaussNext; repeat (first | rfl | split)

@[simp] theorem State.gaussNext_shm (s : State) (sigma : F64) :
    (s.gaussNext sigma).shm = s.shm := by
  unfold State.gaussNext; repeat (first | rfl | split)

@[simp] theorem State.gaussNext_cons (s : State) (sigma : F64) :
    (s.gaussNext sigma).cons = s.cons := by
  unfold State.gaussNext; repeat (first | rfl | split)

@[simp] theorem State.gaussNext_ports (s : State) (sigma : F64) :
    (s.gaussNext sigma).ports = s.ports := by
  unfold State.gaussNext; repeat (first | rfl | split)

@[simp] theorem State.gaussNext_chain_v (s : State) (sigma : F64) :
    (s.gaussNext sigma).chain.v = s.chain.v := by
  unfold State.gaussNext; repeat (first | rfl | split)

@[simp] theorem State.gaussNext_chain_sampleCount (s : State) (sigma : F64) :
    (s.gaussNext sigma).chain.sampleCount = s.chain.sampleCount := by
  unfold State.gaussNext; repeat (first | rfl | split)

@[simp] theorem State.gaussNext_chain_oscRef (s : State) (sigma : F64) :
    (s.gaussNext sigma).chain.oscRef = s.chain.oscRef := by
  unfold State.gaussNext; repeat (first | rfl | split)

@[simp] theorem State.gaussNext_chain_oscMod (s : State) (sigma : F64) :
    (s.gaussNext sigma).chain.oscMod = s.chain.oscMod := by
  unfold State.gaussNext; repeat (first | rfl | split)

@[simp] theorem State.gaussNext_chain_bpf (s : State) (sigma : F64) :
    (s.gaussNext sigma).chain.bpf = s.chain.bpf := by
  unfold State.gaussNext; repeat (first | rfl | split)

@[simp] theorem State.gaussNext_chain_lpfI (s : State) (sigma : F64) :
    (s.gaussNext sigma).chain.lpfI = s.chain.lpfI := by
  unfold State.gaussNext; repeat (first | rfl | split)

@[simp] theorem State.gaussNext_chain_lpfQ (s : State) (sigma : F64) :
    (s.gaussNext sigma).chain.lpfQ = s.chain.lpfQ := by
  unfold State.gaussNext; repeat (first | rfl | split)

@[simp] theorem State.gaussNext_chain_iSum (s : State) (sigma : F64) :
    (s.gaussNext sigma).chain.iSum = s.chain.iSum := by
  unfold State.gaussNext; repeat (first | rfl | split)

@[simp] theorem State.gaussNext_chain_qSum (s : State) (sigma : F64) :
    (s.gaussNext sigma).chain.qSum = s.chain.qSum := by
  unfold State.gaussNext; repeat (first | rfl | split)

@[simp] theorem State.gaussNext_chain_avgCount (s : State) (sigma : F64) :
    (s.gaussNext sigma).chain.avgCount = s.chain.avgCount := by
  unfold State.gaussNext; repeat (first | rfl | split)

@[simp] theorem State.gaussNext_chain_bank (s : State) (sigma : F64) :
    (s.gaussNext sigma).chain.bank = s.chain.bank := by
  unfold State.gaussNext; repeat (first | rfl | split)

@[simp] theorem State.gaussNext_chain_bpfPhaseOffset (s : State) (sigma : F64) :
    (s.gaussNext sigma).chain.bpfPhaseOffset = s.chain.bpfPhaseOffset := by
  unfold State.gaussNext; repeat (first | rfl | split)

@[simp] theorem State.gaussNext_chain_lastSampleTime (s : State) (sigma : F64) :
    (s.gaussNext sigma).chain.lastSampleTime = s.chain.lastSampleTime := by
  unfold State.gaussNext; repeat (first | rfl | split)

@[simp] theorem State.gaussNext_chain_lastPublishTime (s : State) (sigma : F64) :
    (s.gaussNext sigma).chain.lastPublishTime = s.chain.lastPublishTime := by
  unfold State.gaussNext; repeat (first | rfl | split)

/-! ### install -/

@[simp] theorem State.install_build (s : State) (l : List Interferer) :
    (s.install l).build = s.build := by
  unfold State.install; split <;> rfl

@[simp] theorem State.install_ctl (s : State) (l : List Interferer) :
    (s.install l).ctl = s.ctl := by
  unfold State.install; split <;> rfl

@[simp] theorem State.install_params (s : State) (l : List Interferer) :
    (s.install l).params = s.params := by
  unfold State.install; split <;> rfl

@[simp] theorem State.install_rings (s : State) (l : List Interferer) :
    (s.install l).rings = s.rings := by
  unfold State.install; split <;> rfl

@[simp] theorem State.install_shm (s : State) (l : List Interferer) :
    (s.install l).shm = s.shm := by
  unfold State.install; split <;> rfl

@[simp] theorem State.install_cons (s : State) (l : List Interferer) :
    (s.install l).cons = s.cons := by
  unfold State.install; split <;> rfl

@[simp] theorem State.install_ports (s : State) (l : List Interferer) :
    (s.install l).ports = s.ports := by
  unfold State.install; split <;> rfl

@[simp] theorem State.install_chain_v (s : State) (l : List Interferer) :
    (s.install l).chain.v = s.chain.v := by
  unfold State.install; split <;> rfl

@[simp] theorem State.install_chain_sampleCount (s : State) (l : List Interferer) :
    (s.install l).chain.sampleCount = s.chain.sampleCount := by
  unfold State.install; split <;> rfl

@[simp] theorem State.install_chain_oscRef (s : State) (l : List Interferer) :
    (s.install l).chain.oscRef = s.chain.oscRef := by
  unfold State.install; split <;> rfl

@[simp] theorem State.install_chain_oscMod (s : State) (l : List Interferer) :
    (s.install l).chain.oscMod = s.chain.oscMod := by
  unfold State.install; split <;> rfl

@[simp] theorem State.install_chain_bpf (s : State) (l : List Interferer) :
    (s.install l).chain.bpf = s.chain.bpf := by
  unfold State.install; split <;> rfl

@[simp] theorem State.install_chain_lpfI (s : State) (l : List Interferer) :
    (s.install l).chain.lpfI = s.chain.lpfI := by
  unfold State.install; split <;> rfl

@[simp] theorem State.install_chain_lpfQ (s : State) (l : List Interferer) :
    (s.install l).chain.lpfQ = s.chain.lpfQ := by
  unfold State.install; split <;> rfl

@[simp] theorem State.install_chain_iSum (s : State) (l : List Interferer) :
    (s.install l).chain.iSum = s.chain.iSum := by
  unfold State.install; split <;> rfl

@[simp] theorem State.install_chain_qSum (s : State) (l : List Interferer) :
    (s.install l).chain.qSum = s.chain.qSum := by
  unfold State.install; split <;> rfl

@[simp] theorem State.install_chain_avgCount (s : State) (l : List Interferer) :
    (s.install l).chain.avgCount = s.chain.avgCount := by
  unfold State.install; split <;> rfl

@[simp] theorem State.install_chain_hasSpare (s : State) (l : List Interferer) :
    (s.install l).chain.hasSpare = s.chain.hasSpare := by
  unfold State.install; split <;> rfl

@[simp] theorem State.install_chain_spare (s : State) (l : List Interferer) :
    (s.install l).chain.spare = s.chain.spare := by
  unfold State.install; split <;> rfl

@[simp] theorem State.install_chain_bpfPhaseOffset (s : State) (l : List Interferer) :
    (s.install l).chain.bpfPhaseOffset = s.chain.bpfPhaseOffset := by
  unfold State.install; split <;> rfl

@[simp] theorem State.install_chain_lastSampleTime (s : State) (l : List Interferer) :
    (s.install l).chain.lastSampleTime = s.chain.lastSampleTime := by
  unfold State.install; split <;> rfl

@[simp] theorem State.install_chain_lastPublishTime (s : State) (l : List Interferer) :
    (s.install l).chain.lastPublishTime = s.chain.lastPublishTime := by
  unfold State.install; split <;> rfl

/-! ### bpfProcessed -/

@[simp] theorem State.bpfProcessed_build (s : State) (x : F64) :
    (s.bpfProcessed x).build = s.build := by
  unfold State.bpfProcessed; split <;> rfl

@[simp] theorem State.bpfProcessed_ctl (s : State) (x : F64) :
    (s.bpfProcessed x).ctl = s.ctl := by
  unfold State.bpfProcessed; split <;> rfl

@[simp] theorem State.bpfProcessed_params (s : State) (x : F64) :
    (s.bpfProcessed x).params = s.params := by
  unfold State.bpfProcessed; split <;> rfl

@[simp] theorem State.bpfProcessed_rings (s : State) (x : F64) :
    (s.bpfProcessed x).rings = s.rings := by
  unfold State.bpfProcessed; split <;> rfl

@[simp] theorem State.bpfProcessed_shm (s : State) (x : F64) :
    (s.bpfProcessed x).shm = s.shm := by
  unfold State.bpfProcessed; split <;> rfl

@[simp] theorem State.bpfProcessed_cons (s : State) (x : F64) :
    (s.bpfProcessed x).cons = s.cons := by
  unfold State.bpfProcessed; split <;> rfl

@[simp] theorem State.bpfProcessed_ports (s : State) (x : F64) :
    (s.bpfProcessed x).ports = s.ports := by
  unfold State.bpfProcessed; split <;> rfl

@[simp] theorem State.bpfProcessed_free (s : State) (x : F64) :
    (s.bpfProcessed x).free = s.free := by
  unfold State.bpfProcessed; split <;> rfl

@[simp] theorem State.bpfProcessed_chain_v (s : State) (x : F64) :
    (s.bpfProcessed x).chain.v = s.chain.v := by
  unfold State.bpfProcessed; split <;> rfl

@[simp] theorem State.bpfProcessed_chain_sampleCount (s : State) (x : F64) :
    (s.bpfProcessed x).chain.sampleCount = s.chain.sampleCount := by
  unfold State.bpfProcessed; split <;> rfl

@[simp] theorem State.bpfProcessed_chain_oscRef (s : State) (x : F64) :
    (s.bpfProcessed x).chain.oscRef = s.chain.oscRef := by
  unfold State.bpfProcessed; split <;> rfl

@[simp] theorem State.bpfProcessed_chain_oscMod (s : State) (x : F64) :
    (s.bpfProcessed x).chain.oscMod = s.chain.oscMod := by
  unfold State.bpfProcessed; split <;> rfl

@[simp] theorem State.bpfProcessed_chain_lpfI (s : State) (x : F64) :
    (s.bpfProcessed x).chain.lpfI = s.chain.lpfI := by
  unfold State.bpfProcessed; split <;> rfl

@[simp] theorem State.bpfProcessed_chain_lpfQ (s : State) (x : F64) :
    (s.bpfProcessed x).chain.lpfQ = s.chain.lpfQ := by
  unfold State.bpfProcessed; split <;> rfl

@[simp] theorem State.bpfProcessed_chain_iSum (s : State) (x : F64) :
    (s.bpfProcessed x).chain.iSum = s.chain.iSum := by
  unfold State.bpfProcessed; split <;> rfl

@[simp] theorem State.bpfProcessed_chain_qSum (s : State) (x : F64) :
    (s.bpfProcessed x).chain.qSum = s.chain.qSum := by
  unfold State.bpfProcessed; split <;> rfl

@[simp] theorem State.bpfProcessed_chain_avgCount (s : State) (x : F64) :
    (s.bpfProcessed x).chain.avgCount = s.chain.avgCount := by
  unfold State.bpfProcessed; split <;> rfl

@[simp] theorem State.bpfProcessed_chain_hasSpare (s : State) (x : F64) :
    (s.bpfProcessed x).chain.hasSpare = s.chain.hasSpare := by
  unfold State.bpfProcessed; split <;> rfl

@[simp] theorem State.bpfProcessed_chain_spare (s : State) (x : F64) :
    (s.bpfProcessed x).chain.spare = s.chain.spare := by
  unfold State.bpfProcessed; split <;> rfl

@[simp] theorem State.bpfProcessed_chain_bank (s : State) (x : F64) :
    (s.bpfProcessed x).chain.bank = s.chain.bank := by
  unfold State.bpfProcessed; split <;> rfl

@[simp] theorem State.bpfProcessed_chain_bpfPhaseOffset (s : State) (x : F64) :
    (s.bpfProcessed x).chain.bpfPhaseOffset = s.chain.bpfPhaseOffset := by
  unfold State.bpfProcessed; split <;> rfl

@[simp] theorem State.bpfProcessed_chain_lastSampleTime (s : State) (x : F64) :
    (s.bpfProcessed x).chain.lastSampleTime = s.chain.lastSampleTime := by
  unfold State.bpfProcessed; split <;> rfl

@[simp] theorem State.bpfProcessed_chain_lastPublishTime (s : State) (x : F64) :
    (s.bpfProcessed x).chain.lastPublishTime = s.chain.lastPublishTime := by
  unfold State.bpfProcessed; split <;> rfl

@[simp] theorem State.bpfProcessed_chain_bpf (s : State) (x : F64) :
    (s.bpfProcessed x).chain.bpf =
      if s.params.bpfEnabled then cascadeNext s.chain.bpf x else s.chain.bpf := by
  unfold State.bpfProcessed; split <;> rfl

/-! ### replaceIf -/

@[simp] theorem State.replaceIf_build (s : State) (b : BqSel) (o : Option (List Coeffs)) :
    (s.replaceIf b o).build = s.build := by
  unfold State.replaceIf; split <;> simp

@[simp] theorem State.replaceIf_ctl (s : State) (b : BqSel) (o : Option (List Coeffs)) :
    (s.replaceIf b o).ctl = s.ctl := by
  unfold State.replaceIf; split <;> simp

@[simp] theorem State.replaceIf_params (s : State) (b : BqSel) (o : Option (List Coeffs)) :
    (s.replaceIf b o).params = s.params := by
  unfold State.replaceIf; split <;> simp

@[simp] theorem State.replaceIf_rings (s : State) (b : BqSel) (o : Option (List Coeffs)) :
    (s.replaceIf b o).rings = s.rings := by
  unfold State.replaceIf; split <;> simp

@[simp] theorem State.replaceIf_shm (s : State) (b : BqSel) (o : Option (List Coeffs)) :
    (s.replaceIf b o).shm = s.shm := by
  unfold State.replaceIf; split <;> simp

@[simp] theorem State.replaceIf_cons (s : State) (b : BqSel) (o : Option (List Coeffs)) :
    (s.replaceIf b o).cons = s.cons := by
  unfold State.replaceIf; split <;> simp

@[simp] theorem State.replaceIf_ports (s : State) (b : BqSel) (o : Option (List Coeffs)) :
    (s.replaceIf b o).ports = s.ports := by
  unfold State.replaceIf; split <;> simp

@[simp] theorem State.replaceIf_free (s : State) (b : BqSel) (o : Option (List Coeffs)) :
    (s.replaceIf b o).free = s.free := by
  unfold State.replaceIf; split <;> simp

@[simp] theorem State.replaceIf_chain_v (s : State) (b : BqSel) (o : Option (List Coeffs)) :
    (s.replaceIf b o).chain.v = s.chain.v := by
  unfold State.replaceIf; split <;> simp

@[simp] theorem State.replaceIf_chain_sampleCount (s : State) (b : BqSel) (o : Option (List Coeffs)) :
    (s.replaceIf b o).chain.sampleCount = s.chain.sampleCount := by
  unfold State.replaceIf; split <;> simp

@[simp] theorem State.replaceIf_chain_oscRef (s : State) (b : BqSel) (o : Option (List Coeffs)) :
    (s.replaceIf b o).chain.oscRef = s.chain.oscRef := by
  unfold State.replaceIf; split <;> simp

@[simp] theorem State.replaceIf_chain_oscMod (s : State) (b : BqSel) (o : Option (List Coeffs)) :
    (s.replaceIf b o).chain.oscMod = s.chain.oscMod := by
  unfold State.replaceIf; split <;> simp

@[simp] theorem State.replaceIf_chain_iSum (s : State) (b : BqSel) (o : Option (List Coeffs)) :
    (s.replaceIf b o).chain.iSum = s.chain.iSum := by
  unfold State.replaceIf; split <;> simp

@[simp] theorem State.replaceIf_chain_qSum (s : State) (b : BqSel) (o : Option (List Coeffs)) :
    (s.replaceIf b o).chain.qSum = s.chain.qSum := by
  unfold State.replaceIf; split <;> simp

@[simp] theorem State.replaceIf_chain_avgCount (s : State) (b : BqSel) (o : Option (List Coeffs)) :
    (s.replaceIf b o).chain.avgCount = s.chain.avgCount := by
  unfold State.replaceIf; split <;> simp

@[simp] theorem State.replaceIf_chain_hasSpare (s : State) (b : BqSel) (o : Option (List Coeffs)) :
    (s.replaceIf b o).chain.hasSpare = s.chain.hasSpare := by
  unfold State.replaceIf; split <;> simp

@[simp] theorem State.replaceIf_chain_spare (s : State) (b : BqSel) (o : Option (List Coeffs)) :
    (s.replaceIf b o).chain.spare = s.chain.spare := by
  unfold State.replaceIf; split <;> simp

@[simp] theorem State.replaceIf_chain_bank (s : State) (b : BqSel) (o : Option (List Coeffs)) :
    (s.replaceIf b o).chain.bank = s.chain.bank := by
  unfold State.replaceIf; split <;> simp

@[simp] theorem State.replaceIf_chain_bpfPhaseOffset (s : State) (b : BqSel) (o : Option (List Coeffs)) :
    (s.replaceIf b o).chain.bpfPhaseOffset = s.chain.bpfPhaseOffset := by
  unfold State.replaceIf; split <;> simp

@[simp] theorem State.replaceIf_chain_lastSampleTime (s : State) (b : BqSel) (o : Option (List Coeffs)) :
    (s.replaceIf b o).chain.lastSampleTime = s.chain.lastSampleTime := by
  unfold State.replaceIf; split <;> simp

@[simp] theorem State.replaceIf_chain_lastPublishTime (s : State) (b : BqSel) (o : Option (List Coeffs)) :
    (s.replaceIf b o).chain.lastPublishTime = s.chain.lastPublishTime := by
  unfold State.replaceIf; split <;> simp

/-! ### dutNext -/

theorem State.dutNext_eq (s : State) :
    s.dutNext = { s with chain := { s.chain with
      oscRef := advancedPhase s.params.sampleRate s.chain.oscRef s.params.referenceFrequency
      oscMod := advancedPhase s.params.sampleRate s.chain.oscMod s.params.modulatingFrequency } } := by
  simp only [State.dutNext, State.oscAdvanced, State.setPhase, State.phase]

/-- `Gauss` does not look at the oscillators. -/
theorem State.gaussNext_oscillators (s : State) (sigma r m : F64) :
    State.gaussNext { s with chain := { s.chain with oscRef := r, oscMod := m } } sigma =
      { s.gaussNext sigma with
        chain := { (s.gaussNext sigma).chain with oscRef := r, oscMod := m } } := by
  unfold State.gaussNext
  split
  · rfl
  · split <;> rfl

theorem State.gaussNext_dutNext (s : State) (sigma : F64) :
    s.dutNext.gaussNext sigma = { s.gaussNext sigma with chain := { (s.gaussNext sigma).chain with
      oscRef := advancedPhase s.params.sampleRate s.chain.oscRef s.params.referenceFrequency
      oscMod :=
        advancedPhase s.params.sampleRate s.chain.oscMod s.params.modulatingFrequency } } := by
  have h := congrArg (fun x => State.gaussNext x sigma) s.dutNext_eq
  exact h.trans (s.gaussNext_oscillators sigma _ _)

/-! ### sampled -/

@[simp] theorem State.sampled_build (s : State) :
    (s.sampled).build = s.build := by
  simp [State.sampled, State.gaussNext_dutNext, State.bankNext, State.cascadeProcessed]

@[simp] theorem State.sampled_ctl (s : State) :
    (s.sampled).ctl = s.ctl := by
  simp [State.sampled, State.gaussNext_dutNext, State.bankNext, State.cascadeProcessed]

@[simp] theorem State.sampled_params (s : State) :
    (s.sampled).params = s.params := by
  simp [State.sampled, State.gaussNext_dutNext, State.bankNext, State.cascadeProcessed]

@[simp] theorem State.sampled_shm (s : State) :
    (s.sampled).shm = s.shm := by
  simp [State.sampled, State.gaussNext_dutNext, State.bankNext, State.cascadeProcessed]

@[simp] theorem State.sampled_cons (s : State) :
    (s.sampled).cons = s.cons := by
  simp [State.sampled, State.gaussNext_dutNext, State.bankNext, State.cascadeProcessed]

@[simp] theorem State.sampled_ports (s : State) :
    (s.sampled).ports = s.ports := by
  simp [State.sampled, State.gaussNext_dutNext, State.bankNext, State.cascadeProcessed]

@[simp] theorem State.sampled_chain_v (s : State) :
    (s.sampled).chain.v = s.sampleVector := by
  simp [State.sampled, State.gaussNext_dutNext, State.bankNext, State.cascadeProcessed]

@[simp] theorem State.sampled_chain_sampleCount (s : State) :
    (s.sampled).chain.sampleCount = nextSampleCount s.chain.sampleCount := by
  simp [State.sampled, State.gaussNext_dutNext, State.bankNext, State.cascadeProcessed]

@[simp] theorem State.sampled_chain_oscRef (s : State) :
    (s.sampled).chain.oscRef = 
      advancedPhase s.params.sampleRate s.chain.oscRef s.params.referenceFrequency := by
  simp [State.sampled, State.gaussNext_dutNext, State.bankNext, State.cascadeProcessed]

@[simp] theorem State.sampled_chain_oscMod (s : State) :
    (s.sampled).chain.oscMod = 
      advancedPhase s.params.sampleRate s.chain.oscMod s.params.modulatingFrequency := by
  simp [State.sampled, State.gaussNext_dutNext, State.bankNext, State.cascadeProcessed]

@[simp] theorem State.sampled_chain_bpf (s : State) :
    (s.sampled).chain.bpf = (if s.params.bpfEnabled then cascadeNext s.chain.bpf s.sensorValue else
      s.chain.bpf) := by
  simp [State.sampled, State.gaussNext_dutNext, State.bankNext, State.cascadeProcessed]
  rfl

@[simp] theorem State.sampled_chain_lpfI (s : State) :
    (s.sampled).chain.lpfI = cascadeNext s.chain.lpfI s.mixPair.1 := by
  simp [State.sampled, State.gaussNext_dutNext, State.bankNext, State.cascadeProcessed]

@[simp] theorem State.sampled_chain_lpfQ (s : State) :
    (s.sampled).chain.lpfQ = cascadeNext s.chain.lpfQ s.mixPair.2 := by
  simp [State.sampled, State.gaussNext_dutNext, State.bankNext, State.cascadeProcessed]

@[simp] theorem State.sampled_chain_iSum (s : State) :
    (s.sampled).chain.iSum = fadd s.chain.iSum s.iFilt := by
  simp [State.sampled, State.gaussNext_dutNext, State.bankNext, State.cascadeProcessed]

@[simp] theorem State.sampled_chain_qSum (s : State) :
    (s.sampled).chain.qSum = fadd s.chain.qSum s.qFilt := by
  simp [State.sampled, State.gaussNext_dutNext, State.bankNext, State.cascadeProcessed]

@[simp] theorem State.sampled_chain_avgCount (s : State) :
    (s.sampled).chain.avgCount = nextAvgCount s.chain.avgCount := by
  simp [State.sampled, State.gaussNext_dutNext, State.bankNext, State.cascadeProcessed]

@[simp] theorem State.sampled_chain_hasSpare (s : State) :
    (s.sampled).chain.hasSpare = 
      (s.gaussNext s.params.whiteNoiseAmplitude).chain.hasSpare := by
  simp [State.sampled, State.gaussNext_dutNext, State.bankNext, State.cascadeProcessed]

@[simp] theorem State.sampled_chain_spare (s : State) :
    (s.sampled).chain.spare = 
      (s.gaussNext s.params.whiteNoiseAmplitude).chain.spare := by
  simp [State.sampled, State.gaussNext_dutNext, State.bankNext, State.cascadeProcessed]

@[simp] theorem State.sampled_chain_bank (s : State) :
    (s.sampled).chain.bank = bankAdvanced s.params.sampleRate s.chain.bank := by
  simp [State.sampled, State.gaussNext_dutNext, State.bankNext, State.cascadeProcessed]

@[simp] theorem State.sampled_chain_bpfPhaseOffset (s : State) :
    (s.sampled).chain.bpfPhaseOffset = s.chain.bpfPhaseOffset := by
  simp [State.sampled, State.gaussNext_dutNext, State.bankNext, State.cascadeProcessed]

@[simp] theorem State.sampled_chain_lastSampleTime (s : State) :
    (s.sampled).chain.lastSampleTime = s.chain.lastSampleTime := by
  simp [State.sampled, State.gaussNext_dutNext, State.bankNext, State.cascadeProcessed]

@[simp] theorem State.sampled_chain_lastPublishTime (s : State) :
    (s.sampled).chain.lastPublishTime = s.chain.lastPublishTime := by
  simp [State.sampled, State.gaussNext_dutNext, State.bankNext, State.cascadeProcessed]

@[simp] theorem State.sampled_rings_get (s : State) (c : Chan) :
    s.sampled.rings.get c =
      ringPushed s.params.ringCapacity (s.rings.get c) (s.sampleVector.get c) := by
  simp [State.sampled, State.gaussNext_dutNext, State.bankNext, State.cascadeProcessed]

@[simp] theorem State.sampled_free (s : State) :
    s.sampled.free = (s.gaussNext s.params.whiteNoiseAmplitude).free := by
  simp [State.sampled, State.gaussNext_dutNext, State.bankNext, State.cascadeProcessed]

@[simp] theorem State.sampledTimes_build (k : Nat) :
    ∀ s : State, (State.sampledTimes k s).build = s.build := by
  induction k with
  | zero => intro s; rfl
  | succ k ih => intro s; simp [State.sampledTimes, ih]

@[simp] theorem State.sampledTimes_ctl (k : Nat) :
    ∀ s : State, (State.sampledTimes k s).ctl = s.ctl := by
  induction k with
  | zero => intro s; rfl
  | succ k ih => intro s; simp [State.sampledTimes, ih]

@[simp] theorem State.sampledTimes_params (k : Nat) :
    ∀ s : State, (State.sampledTimes k s).params = s.params := by
  induction k with
  | zero => intro s; rfl
  | succ k ih => intro s; simp [State.sampledTimes, ih]

@[simp] theorem State.sampledTimes_shm (k : Nat) :
    ∀ s : State, (State.sampledTimes k s).shm = s.shm := by
  induction k with
  | zero => intro s; rfl
  | succ k ih => intro s; simp [State.sampledTimes, ih]

@[simp] theorem State.sampledTimes_cons (k : Nat) :
    ∀ s : State, (State.sampledTimes k s).cons = s.cons := by
  induction k with
  | zero => intro s; rfl
  | succ k ih => intro s; simp [State.sampledTimes, ih]

@[simp] theorem State.sampledTimes_ports (k : Nat) :
    ∀ s : State, (State.sampledTimes k s).ports = s.ports := by
  induction k with
  | zero => intro s; rfl
  | succ k ih => intro s; simp [State.sampledTimes, ih]

/-! ### tornDown -/

@[simp] theorem State.tornDown_build (s : State) :
    (s.tornDown).build = s.build := rfl

@[simp] theorem State.tornDown_params (s : State) :
    (s.tornDown).params = s.params := rfl

@[simp] theorem State.tornDown_shm (s : State) :
    (s.tornDown).shm = s.shm := rfl

@[simp] theorem State.tornDown_cons (s : State) :
    (s.tornDown).cons = s.cons := rfl

@[simp] theorem State.tornDown_ports (s : State) :
    (s.tornDown).ports = s.ports := rfl

@[simp] theorem State.tornDown_free (s : State) :
    (s.tornDown).free = s.free := rfl

/-! ### wired -/

@[simp] theorem State.wired_build (s : State) (bytes p : Nat) :
    (s.wired bytes p).build = s.build := rfl

@[simp] theorem State.wired_chain (s : State) (bytes p : Nat) :
    (s.wired bytes p).chain = s.chain := rfl

@[simp] theorem State.wired_shm (s : State) (bytes p : Nat) :
    (s.wired bytes p).shm = s.shm := rfl

@[simp] theorem State.wired_cons (s : State) (bytes p : Nat) :
    (s.wired bytes p).cons = s.cons := rfl

@[simp] theorem State.wired_ports (s : State) (bytes p : Nat) :
    (s.wired bytes p).ports = s.ports := rfl

/-! ### started -/

@[simp] theorem State.started_build (s : State) (now : F64) (cand : Params) (bpf lpf : List Coeffs) :
    (s.started now cand bpf lpf).build = s.build := by
  simp [State.started, State.loadZeroed]

@[simp] theorem State.started_shm (s : State) (now : F64) (cand : Params) (bpf lpf : List Coeffs) :
    (s.started now cand bpf lpf).shm = s.shm := by
  simp [State.started, State.loadZeroed]

@[simp] theorem State.started_cons (s : State) (now : F64) (cand : Params) (bpf lpf : List Coeffs) :
    (s.started now cand bpf lpf).cons = s.cons := by
  simp [State.started, State.loadZeroed]

@[simp] theorem State.started_ports (s : State) (now : F64) (cand : Params) (bpf lpf : List Coeffs) :
    (s.started now cand bpf lpf).ports = s.ports := by
  simp [State.started, State.loadZeroed]

/-! ### updated -/

@[simp] theorem State.updated_build (s : State) (cand : Params) (given : Bool) (b l : Option (List Coeffs)) :
    (s.updated cand given b l).build = s.build := by
  cases given <;> simp [State.updated, State.updateReset] <;> split <;> simp

@[simp] theorem State.updated_ctl (s : State) (cand : Params) (given : Bool) (b l : Option (List Coeffs)) :
    (s.updated cand given b l).ctl = s.ctl := by
  cases given <;> simp [State.updated, State.updateReset] <;> split <;> simp

@[simp] theorem State.updated_shm (s : State) (cand : Params) (given : Bool) (b l : Option (List Coeffs)) :
    (s.updated cand given b l).shm = s.shm := by
  cases given <;> simp [State.updated, State.updateReset] <;> split <;> simp

@[simp] theorem State.updated_cons (s : State) (cand : Params) (given : Bool) (b l : Option (List Coeffs)) :
    (s.updated cand given b l).cons = s.cons := by
  cases given <;> simp [State.updated, State.updateReset] <;> split <;> simp

@[simp] theorem State.updated_ports (s : State) (cand : Params) (given : Bool) (b l : Option (List Coeffs)) :
    (s.updated cand given b l).ports = s.ports := by
  cases given <;> simp [State.updated, State.updateReset] <;> split <;> simp

@[simp] theorem State.updated_chain_v (s : State) (cand : Params) (given : Bool) (b l : Option (List Coeffs)) :
    (s.updated cand given b l).chain.v = s.chain.v := by
  cases given <;> simp [State.updated, State.updateReset] <;> split <;> simp

@[simp] theorem State.updated_chain_sampleCount (s : State) (cand : Params) (given : Bool) (b l : Option (List Coeffs)) :
    (s.updated cand given b l).chain.sampleCount = s.chain.sampleCount := by
  cases given <;> simp [State.updated, State.updateReset] <;> split <;> simp

@[simp] theorem State.updated_chain_oscRef (s : State) (cand : Params) (given : Bool) (b l : Option (List Coeffs)) :
    (s.updated cand given b l).chain.oscRef = s.chain.oscRef := by
  cases given <;> simp [State.updated, State.updateReset] <;> split <;> simp

@[simp] theorem State.updated_chain_oscMod (s : State) (cand : Params) (given : Bool) (b l : Option (List Coeffs)) :
    (s.updated cand given b l).chain.oscMod = s.chain.oscMod := by
  cases given <;> simp [State.updated, State.updateReset] <;> split <;> simp

@[simp] theorem State.updated_chain_hasSpare (s : State) (cand : Params) (given : Bool) (b l : Option (List Coeffs)) :
    (s.updated cand given b l).chain.hasSpare = s.chain.hasSpare := by
  cases given <;> simp [State.updated, State.updateReset] <;> split <;> simp

@[simp] theorem State.updated_chain_spare (s : State) (cand : Params) (given : Bool) (b l : Option (List Coeffs)) :
    (s.updated cand given b l).chain.spare = s.chain.spare := by
  cases given <;> simp [State.updated, State.updateReset] <;> split <;> simp

@[simp] theorem State.updated_chain_lastSampleTime (s : State) (cand : Params) (given : Bool) (b l : Option (List Coeffs)) :
    (s.updated cand given b l).chain.lastSampleTime = s.chain.lastSampleTime := by
  cases given <;> simp [State.updated, State.updateReset] <;> split <;> simp

@[simp] theorem State.updated_chain_lastPublishTime (s : State) (cand : Params) (given : Bool) (b l : Option (List Coeffs)) :
    (s.updated cand given b l).chain.lastPublishTime = s.chain.lastPublishTime := by
  cases given <;> simp [State.updated, State.updateReset] <;> split <;> simp

/-! ### published -/

@[simp] theorem State.published_build (s : State) (blk : Block) (m : Memory) :
    (s.published blk m).build = s.build := rfl

@[simp] theorem State.published_ctl (s : State) (blk : Block) (m : Memory) :
    (s.published blk m).ctl = s.ctl := rfl

@[simp] theorem State.published_params (s : State) (blk : Block) (m : Memory) :
    (s.published blk m).params = s.params := rfl

@[simp] theorem State.published_rings (s : State) (blk : Block) (m : Memory) :
    (s.published blk m).rings = s.rings := rfl

@[simp] theorem State.published_cons (s : State) (blk : Block) (m : Memory) :
    (s.published blk m).cons = s.cons := rfl

@[simp] theorem State.published_chain_v (s : State) (blk : Block) (m : Memory) :
    (s.published blk m).chain.v = s.chain.v := rfl

@[simp] theorem State.published_chain_sampleCount (s : State) (blk : Block) (m : Memory) :
    (s.published blk m).chain.sampleCount = s.chain.sampleCount := rfl

@[simp] theorem State.published_chain_oscRef (s : State) (blk : Block) (m : Memory) :
    (s.published blk m).chain.oscRef = s.chain.oscRef := rfl

@[simp] theorem State.published_chain_oscMod (s : State) (blk : Block) (m : Memory) :
    (s.published blk m).chain.oscMod = s.chain.oscMod := rfl

@[simp] theorem State.published_chain_bpf (s : State) (blk : Block) (m : Memory) :
    (s.published blk m).chain.bpf = s.chain.bpf := rfl

@[simp] theorem State.published_chain_lpfI (s : State) (blk : Block) (m : Memory) :
    (s.published blk m).chain.lpfI = s.chain.lpfI := rfl

@[simp] theorem State.published_chain_lpfQ (s : State) (blk : Block) (m : Memory) :
    (s.published blk m).chain.lpfQ = s.chain.lpfQ := rfl

@[simp] theorem State.published_chain_iSum (s : State) (blk : Block) (m : Memory) :
    (s.published blk m).chain.iSum = pZero := rfl

@[simp] theorem State.published_chain_qSum (s : State) (blk : Block) (m : Memory) :
    (s.published blk m).chain.qSum = pZero := rfl

@[simp] theorem State.published_chain_avgCount (s : State) (blk : Block) (m : Memory) :
    (s.published blk m).chain.avgCount = 0#64 := rfl

@[simp] theorem State.published_chain_hasSpare (s : State) (blk : Block) (m : Memory) :
    (s.published blk m).chain.hasSpare = s.chain.hasSpare := rfl

@[simp] theorem State.published_chain_spare (s : State) (blk : Block) (m : Memory) :
    (s.published blk m).chain.spare = s.chain.spare := rfl

@[simp] theorem State.published_chain_bank (s : State) (blk : Block) (m : Memory) :
    (s.published blk m).chain.bank = s.chain.bank := rfl

@[simp] theorem State.published_chain_bpfPhaseOffset (s : State) (blk : Block) (m : Memory) :
    (s.published blk m).chain.bpfPhaseOffset = s.chain.bpfPhaseOffset := rfl

@[simp] theorem State.published_chain_lastSampleTime (s : State) (blk : Block) (m : Memory) :
    (s.published blk m).chain.lastSampleTime = s.chain.lastSampleTime := rfl

@[simp] theorem State.published_chain_lastPublishTime (s : State) (blk : Block) (m : Memory) :
    (s.published blk m).chain.lastPublishTime = s.chain.lastPublishTime := rfl

/-! ### runSpectrum -/

@[simp] theorem State.runSpectrum_build (s : State) (op : Opcode) (sel : BitVec 8) (fs : F64) (x : List F64) :
    (s.runSpectrum op sel fs x).build = s.build := by
  unfold State.runSpectrum; split <;> simp

@[simp] theorem State.runSpectrum_ctl (s : State) (op : Opcode) (sel : BitVec 8) (fs : F64) (x : List F64) :
    (s.runSpectrum op sel fs x).ctl = s.ctl := by
  unfold State.runSpectrum; split <;> simp

@[simp] theorem State.runSpectrum_params (s : State) (op : Opcode) (sel : BitVec 8) (fs : F64) (x : List F64) :
    (s.runSpectrum op sel fs x).params = s.params := by
  unfold State.runSpectrum; split <;> simp

@[simp] theorem State.runSpectrum_chain (s : State) (op : Opcode) (sel : BitVec 8) (fs : F64) (x : List F64) :
    (s.runSpectrum op sel fs x).chain = s.chain := by
  unfold State.runSpectrum; split <;> simp

@[simp] theorem State.runSpectrum_rings (s : State) (op : Opcode) (sel : BitVec 8) (fs : F64) (x : List F64) :
    (s.runSpectrum op sel fs x).rings = s.rings := by
  unfold State.runSpectrum; split <;> simp

@[simp] theorem State.runSpectrum_shm (s : State) (op : Opcode) (sel : BitVec 8) (fs : F64) (x : List F64) :
    (s.runSpectrum op sel fs x).shm = s.shm := by
  unfold State.runSpectrum; split <;> simp

@[simp] theorem State.runSpectrum_free (s : State) (op : Opcode) (sel : BitVec 8) (fs : F64) (x : List F64) :
    (s.runSpectrum op sel fs x).free = s.free := by
  unfold State.runSpectrum; split <;> simp

@[simp] theorem State.sampled_free_choice (s : State) :
    s.sampled.free.choice = s.free.choice := by
  rw [State.sampled_free]; unfold State.gaussNext; split
  · rfl
  · split <;> rfl

@[simp] theorem State.sampledTimes_free_choice (k : Nat) :
    ∀ s : State, (State.sampledTimes k s).free.choice = s.free.choice := by
  induction k with
  | zero => intro s; rfl
  | succ k ih => intro s; exact (ih _).trans (State.sampled_free_choice s)

@[simp] theorem State.sampledTimes_chain_lastPublishTime (k : Nat) :
    ∀ s : State, (State.sampledTimes k s).chain.lastPublishTime = s.chain.lastPublishTime := by
  induction k with
  | zero => intro s; rfl
  | succ k ih => intro s; exact (ih _).trans (State.sampled_chain_lastPublishTime s)

/-! ### What the consumer's plain reads can still see (20_memory.md R72, R74) -/

@[simp] theorem State.install_free_view (s : State) (l : List Interferer) :
    (s.install l).free.view = s.free.view := by
  unfold State.install; split <;> rfl

@[simp] theorem State.gaussNext_free_view (s : State) (sigma : F64) :
    (s.gaussNext sigma).free.view = s.free.view := by
  unfold State.gaussNext; split
  · rfl
  · split <;> rfl

@[simp] theorem State.sampled_free_view (s : State) : s.sampled.free.view = s.free.view := by simp

@[simp] theorem State.sampledTimes_free_view (k : Nat) :
    ∀ s : State, (State.sampledTimes k s).free.view = s.free.view := by
  induction k with
  | zero => intro s; rfl
  | succ k ih => intro s; exact (ih _).trans (State.sampled_free_view s)

@[simp] theorem State.started_free_view (s : State) (now : F64) (cand : Params) (bpf lpf : List Coeffs) :
    (s.started now cand bpf lpf).free.view = s.free.view := by simp [State.started, State.loadZeroed]

@[simp] theorem State.updated_free_view (s : State) (cand : Params) (given : Bool)
    (b l : Option (List Coeffs)) : (s.updated cand given b l).free.view = s.free.view := by
  cases given <;> simp [State.updated, State.updateReset] <;> split <;> simp

/-- A publish adds two contents: the one before the elements, and the one before the flag. -/
@[simp] theorem State.published_free_view_past (s : State) (blk : Block) (m : Memory) :
    (s.published blk m).free.view.past = s.free.view.past ++ [s.shm, m] := by
  show s.free.view.past ++ [s.shm] ++ [m] = _
  simp

@[simp] theorem State.published_free_view_seen (s : State) (blk : Block) (m : Memory) :
    (s.published blk m).free.view.seen = s.free.view.seen := rfl

end Sys2Proof.Machine
end

