-- ==== Sys2Proof/Laws/Memory.lean ====
section
/-!
SUPPORT. Laws of the cell lists and of the shared region: read after write, frame, and the canonical form
kept by every memory operation.
-/

namespace Sys2Proof.Machine

/-! ## Cells -/

theorem cellGet_cellSet_same {α : Type} (k : Nat) (v : α) (l : List (Nat × α)) :
    cellGet (cellSet k v l) k = some v := by
  induction l with
  | nil => simp [cellSet, cellGet]
  | cons c l ih =>
    simp only [cellSet]
    split
    · simp [cellGet]
    · split
      · simp [cellGet]
      · simp [cellGet, *]

theorem cellGet_cellSet_other {α : Type} {j k : Nat} (h : j ≠ k) (v : α) (l : List (Nat × α)) :
    cellGet (cellSet k v l) j = cellGet l j := by
  induction l with
  | nil => simp [cellSet, cellGet, Ne.symm h]
  | cons c l ih =>
    simp only [cellSet]
    split
    · simp [cellGet, Ne.symm h]
    · split
      · rename_i hk
        subst hk
        simp [cellGet, Ne.symm h]
      · simp [cellGet, ih]

theorem cellGet_cellErase_same {α : Type} (k : Nat) (l : List (Nat × α)) :
    cellGet (cellErase k l) k = none := by
  induction l with
  | nil => rfl
  | cons c l ih =>
    unfold cellErase at ih ⊢
    by_cases hc : c.1 = k
    · simpa [List.filter_cons, hc] using ih
    · simpa [List.filter_cons, hc, cellGet] using ih

theorem cellGet_cellErase_other {α : Type} {j k : Nat} (h : j ≠ k) (l : List (Nat × α)) :
    cellGet (cellErase k l) j = cellGet l j := by
  induction l with
  | nil => rfl
  | cons c l ih =>
    unfold cellErase at ih ⊢
    by_cases hc : c.1 = k
    · have hj : c.1 ≠ j := fun e => h (e.symm.trans hc)
      simpa [List.filter_cons, hc, cellGet, Ne.symm h] using ih
    · by_cases hj : c.1 = j
      · simp [hj, cellGet, h]
      · simpa [List.filter_cons, hc, cellGet, hj] using ih

theorem mem_cellSet {α : Type} {k : Nat} {v : α} {l : List (Nat × α)} {c : Nat × α}
    (h : c ∈ cellSet k v l) : c = (k, v) ∨ c ∈ l := by
  induction l with
  | nil => simpa [cellSet] using h
  | cons d l ih =>
    simp only [cellSet] at h
    split at h
    · simpa using h
    · split at h
      · rcases List.mem_cons.mp h with h | h
        · exact .inl h
        · exact .inr (List.mem_cons_of_mem _ h)
      · rcases List.mem_cons.mp h with h | h
        · exact .inr (by simp [h])
        · exact (ih h).imp id (List.mem_cons_of_mem _)

theorem cellSet_pairwise {α : Type} (k : Nat) (v : α) (l : List (Nat × α))
    (h : l.Pairwise (fun c d => c.1 < d.1)) :
    (cellSet k v l).Pairwise (fun c d => c.1 < d.1) := by
  induction l with
  | nil => simp [cellSet]
  | cons c l ih =>
    obtain ⟨hc, hl⟩ := List.pairwise_cons.mp h
    simp only [cellSet]
    split
    · rename_i hk
      refine List.pairwise_cons.mpr ⟨fun d hd => ?_, h⟩
      rcases List.mem_cons.mp hd with rfl | hd
      · exact hk
      · exact Nat.lt_trans hk (hc d hd)
    · split
      · rename_i hk
        exact List.pairwise_cons.mpr ⟨fun d hd => hk ▸ hc d hd, hl⟩
      · rename_i h1 h2
        refine List.pairwise_cons.mpr ⟨fun d hd => ?_, ih hl⟩
        rcases mem_cellSet hd with rfl | hd
        · exact Nat.lt_of_le_of_ne (Nat.le_of_not_lt h1) h2
        · exact hc d hd

/-! ## Bytes -/

theorem memRead_memWrite_same (m : Memory) (a : Nat) (v : Byte) : memRead (memWrite m a v) a = v := by
  unfold memRead memWrite
  split
  · simp [cellGet_cellErase_same, *]
  · simp [cellGet_cellSet_same]

theorem memRead_memWrite_other (m : Memory) {a b : Nat} (h : b ≠ a) (v : Byte) :
    memRead (memWrite m a v) b = memRead m b := by
  unfold memRead memWrite
  split
  · rw [cellGet_cellErase_other h]
  · rw [cellGet_cellSet_other h]

theorem memWrite_wf {m : Memory} (h : Memory.wf m) (a : Nat) (v : Byte) :
    Memory.wf (memWrite m a v) := by
  unfold memWrite
  split
  · exact ⟨h.1.filter _, fun c hc => h.2 c (List.mem_of_mem_filter hc)⟩
  · refine ⟨cellSet_pairwise a v m h.1, fun c hc => ?_⟩
    rcases mem_cellSet hc with rfl | hc
    · assumption
    · exact h.2 c hc

/-! ## 32-bit words -/

theorem memWrite32_wf {m : Memory} (h : Memory.wf m) (a : Nat) (v : BitVec 32) :
    Memory.wf (memWrite32 m a v) :=
  memWrite_wf (memWrite_wf (memWrite_wf (memWrite_wf h _ _) _ _) _ _) _ _

theorem memRead_memWrite32_other (m : Memory) {a b : Nat} (h : b < a ∨ a + 4 ≤ b) (v : BitVec 32) :
    memRead (memWrite32 m a v) b = memRead m b := by
  unfold memWrite32
  rw [memRead_memWrite_other _ (by omega), memRead_memWrite_other _ (by omega),
    memRead_memWrite_other _ (by omega), memRead_memWrite_other _ (by omega)]

theorem memRead_memWrite32_0 (m : Memory) (a : Nat) (v : BitVec 32) :
    memRead (memWrite32 m a v) a = v.extractLsb' 0 8 := by
  unfold memWrite32
  rw [memRead_memWrite_other _ (by omega), memRead_memWrite_other _ (by omega),
    memRead_memWrite_other _ (by omega), memRead_memWrite_same]

theorem memRead_memWrite32_1 (m : Memory) (a : Nat) (v : BitVec 32) :
    memRead (memWrite32 m a v) (a + 1) = v.extractLsb' 8 8 := by
  unfold memWrite32
  rw [memRead_memWrite_other _ (by omega), memRead_memWrite_other _ (by omega),
    memRead_memWrite_same]

theorem memRead_memWrite32_2 (m : Memory) (a : Nat) (v : BitVec 32) :
    memRead (memWrite32 m a v) (a + 2) = v.extractLsb' 16 8 := by
  unfold memWrite32
  rw [memRead_memWrite_other _ (by omega), memRead_memWrite_same]

theorem memRead_memWrite32_3 (m : Memory) (a : Nat) (v : BitVec 32) :
    memRead (memWrite32 m a v) (a + 3) = v.extractLsb' 24 8 := by
  unfold memWrite32
  rw [memRead_memWrite_same]

theorem memRead32_memWrite32_same (m : Memory) (a : Nat) (v : BitVec 32) :
    memRead32 (memWrite32 m a v) a = v := by
  unfold memRead32
  rw [memRead_memWrite32_0, memRead_memWrite32_1, memRead_memWrite32_2, memRead_memWrite32_3]
  ext i hi
  simp only [BitVec.getElem_append, BitVec.getElem_extractLsb']
  split
  · simp [hi]
  · split
    · simp [show 8 + (i - 8) = i by omega, hi]
    · split
      · simp [show 16 + (i - 8 - 8) = i by omega, hi]
      · simp [show 24 + (i - 8 - 8 - 8) = i by omega, hi]

theorem memRead32_memWrite32_other (m : Memory) {a b : Nat} (h : b + 4 ≤ a ∨ a + 4 ≤ b)
    (v : BitVec 32) : memRead32 (memWrite32 m a v) b = memRead32 m b := by
  unfold memRead32
  rw [memRead_memWrite32_other _ (by omega), memRead_memWrite32_other _ (by omega),
    memRead_memWrite32_other _ (by omega), memRead_memWrite32_other _ (by omega)]

theorem memRead32_congr {m m' : Memory} {a : Nat}
    (h : ∀ b, a ≤ b → b < a + 4 → memRead m b = memRead m' b) : memRead32 m a = memRead32 m' a := by
  unfold memRead32
  rw [h a (by omega) (by omega), h (a + 1) (by omega) (by omega), h (a + 2) (by omega) (by omega),
    h (a + 3) (by omega) (by omega)]

/-! ## Runs of elements: everything `storeElems` can do -/

theorem storeElems_wf {size : Nat} {l : List F32} : ∀ {m m' : Memory} {a : Nat},
    Memory.wf m → storeElems size m a l = some m' → Memory.wf m' := by
  induction l with
  | nil => intro m m' a h e; cases e; exact h
  | cons v l ih =>
    intro m m' a h e
    unfold storeElems at e
    split at e
    · exact ih (memWrite32_wf h _ _) e
    · cases e

theorem storeElems_frame {size : Nat} {l : List F32} : ∀ {m m' : Memory} {a b : Nat},
    storeElems size m a l = some m' → (b < a ∨ a + 4 * l.length ≤ b) →
    memRead m' b = memRead m b := by
  induction l with
  | nil => intro m m' a b e _; cases e; rfl
  | cons v l ih =>
    intro m m' a b e hb
    unfold storeElems at e
    split at e
    · simp only [List.length_cons] at hb
      rw [ih e (by omega), memRead_memWrite32_other _ (by omega)]
    · cases e

theorem storeElems_elem {size : Nat} {l : List F32} : ∀ {m m' : Memory} {a k : Nat},
    storeElems size m a l = some m' → (hk : k < l.length) → memRead32 m' (a + 4 * k) = l[k] := by
  induction l with
  | nil => intro m m' a k _ hk; simp at hk
  | cons v l ih =>
    intro m m' a k e hk
    unfold storeElems at e
    split at e
    · cases k with
      | zero =>
        rw [memRead32_congr (m' := memWrite32 m a v)
          (fun b h1 h2 => storeElems_frame e (by omega))]
        simpa using memRead32_memWrite32_same m a v
      | succ k =>
        have := ih (k := k) e (by simpa using hk)
        simpa [show a + 4 * (k + 1) = a + 4 + 4 * k by omega] using this
    · cases e

theorem storeElems_total {size : Nat} {l : List F32} : ∀ {m : Memory} {a : Nat},
    a + 4 * l.length ≤ size → ∃ m', storeElems size m a l = some m' := by
  induction l with
  | nil => intro m a _; exact ⟨m, rfl⟩
  | cons v l ih =>
    intro m a h
    simp only [List.length_cons] at h
    unfold storeElems
    rw [if_pos (by omega)]
    exact ih (by omega)

end Sys2Proof.Machine
end

