-- ==== Sys2Proof/Laws/Operands.lean ====
section
/-!
SUPPORT. Laws of validation (10_state.md R34): what each clamp gives where it does not drop the field, and
what one parameter record keeps.
-/

namespace Sys2Proof.Machine

theorem clampLow_some {lo v w : F64} (hl : isNaN lo = false) (h : clampLow lo v = some w) :
    fle lo w = true := by
  unfold clampLow at h
  split at h
  · cases h
  · rename_i hn
    cases h
    exact fmax_ge (by simpa using hn) hl

theorem clampRange_some {lo hi v w : F64} (hl : isNaN lo = false) (hh : isNaN hi = false)
    (hlh : fle lo hi = true) (h : clampRange lo hi v = some w) :
    fle lo w = true ∧ fle w hi = true := by
  unfold clampRange at h
  split at h
  · cases h
  · rename_i hn
    cases h
    have hm := fmax_ge (v := v) (by simpa using hn) hl
    refine ⟨?_, fmin_le ((fle_iff _ _).mp hm).2.1 hh⟩
    unfold fmin
    split
    · exact hlh
    · exact hm

theorem normalizePhase_some {p w : F64} (h : normalizePhase p = some w) :
    fle pZero w = true ∧ flt w c360 = true := by
  unfold normalizePhase at h
  split at h
  · cases h
    simpa [inTurn] using keepIf_ok (ok := inTurn) (v := phaseFormula p)
      (keepIf_ok (v := Config.phaseOutside p) (by decide : inTurn pZero = true))
  · cases h

theorem positiveRate_some {v w : F64} (h : positiveRate v = some w) :
    isFinite w = true ∧ flt pZero w = true := by
  unfold positiveRate at h
  split at h
  · rename_i hc
    cases h
    simpa using hc
  · cases h

theorem clampInterferers_some {l : List Interferer} : ∀ {l' : List Interferer},
    clampInterferers l = some l' → l'.length = l.length ∧
      ∀ i ∈ l', atLeast cOne i.frequency ∧ atLeast pZero i.amplitude := by
  induction l with
  | nil =>
    intro l' h
    cases h
    simp
  | cons x l ih =>
    intro l' h
    unfold clampInterferers at h
    split at h
    · rename_i j js h1 h2
      cases h
      obtain ⟨e1, e2⟩ := ih h2
      refine ⟨by simp [e1], fun i hi => ?_⟩
      rcases List.mem_cons.mp hi with rfl | hi
      · unfold clampInterferer at h1
        split at h1
        · rename_i f a hf ha
          cases h1
          exact ⟨clampLow_some (by decide) hf, clampLow_some (by decide) ha⟩
        · cases h1
      · exact e2 i hi
    · cases h

theorem validInterferers_some {b : Config.Build} {l l' : List Interferer}
    (h : validInterferers b l = some l') : l'.length ≤ b.maxInterferers ∧
      ∀ i ∈ l', atLeast cOne i.frequency ∧ atLeast pZero i.amplitude := by
  unfold validInterferers at h
  split at h
  · obtain ⟨e1, e2⟩ := clampInterferers_some h
    exact ⟨by omega, e2⟩
  · cases h

/-- What a record keeps of parameters: legality, the list limit, and outside START the engine group. -/
def recordKeeps (b : Config.Build) (engine : Bool) (q r : Params) : Prop :=
  r.Legal ∧ (q.interferers.length ≤ b.maxInterferers → r.interferers.length ≤ b.maxInterferers) ∧
    (engine = false → r.sampleRate = q.sampleRate ∧ r.ringCapacity = q.ringCapacity ∧
      r.snapshotRate = q.snapshotRate)

theorem recordKeeps_refl (b : Config.Build) (engine : Bool) {q : Params} (h : q.Legal) :
    recordKeeps b engine q q := ⟨h, fun h => h, fun _ => ⟨rfl, rfl, rfl⟩⟩

/-- A field that is not of the engine group and leaves the list. -/
theorem recordKeeps_elim {α : Type} (b : Config.Build) (engine : Bool) {q : Params} (h : q.Legal)
    (o : Option α) (f : α → Params) (hl : ∀ v, o = some v → (f v).Legal)
    (hf : ∀ v, (f v).interferers = q.interferers ∧ (f v).sampleRate = q.sampleRate ∧
      (f v).ringCapacity = q.ringCapacity ∧ (f v).snapshotRate = q.snapshotRate) :
    recordKeeps b engine q (o.elim q f) := by
  cases o with
  | none => exact recordKeeps_refl b engine h
  | some v =>
    obtain ⟨h1, h2⟩ := hf v
    exact ⟨hl v rfl, fun hq => by
      show (f v).interferers.length ≤ _
      rw [h1]
      exact hq, fun _ => h2⟩

theorem applyScalar_keeps (b : Config.Build) (p : Nat) (engine : Bool) {q : Params} (h : q.Legal)
    (pid : Pid) (w : Word) : recordKeeps b engine q (applyScalar b p engine q pid w) := by
  cases pid <;> simp only [applyScalar]
  case sampleRate =>
    cases engine
    · exact recordKeeps_refl b false h
    · cases e : positiveRate w with
      | none => exact recordKeeps_refl b true h
      | some v =>
        exact ⟨{ h with sampleRate := positiveRate_some e }, fun h => h, fun h => by cases h⟩
  case snapshotRate =>
    cases engine
    · exact recordKeeps_refl b false h
    · cases e : positiveRate w with
      | none => exact recordKeeps_refl b true h
      | some v =>
        exact ⟨{ h with snapshotRate := positiveRate_some e }, fun h => h, fun h => by cases h⟩
  case ringCapacity =>
    split
    · rename_i hc
      exact ⟨{ h with }, fun h => h, fun he => by rw [he] at hc; simp at hc⟩
    · exact recordKeeps_refl b engine h
  case referenceFrequency =>
    exact recordKeeps_elim b engine h _ _
      (fun v e => { h with
        referenceFrequency := clampRange_some (by decide) (by decide) (by decide) e })
      (fun _ => ⟨rfl, rfl, rfl, rfl⟩)
  case referenceAmplitude =>
    exact recordKeeps_elim b engine h _ _
      (fun v e => { h with referenceAmplitude := clampLow_some (by decide) e })
      (fun _ => ⟨rfl, rfl, rfl, rfl⟩)
  case modulatingFrequency =>
    exact recordKeeps_elim b engine h _ _
      (fun v e => { h with modulatingFrequency := clampLow_some (by decide) e })
      (fun _ => ⟨rfl, rfl, rfl, rfl⟩)
  case modulationIndex =>
    exact recordKeeps_elim b engine h _ _
      (fun v e => { h with
        modulationIndex := clampRange_some (by decide) (by decide) (by decide) e })
      (fun _ => ⟨rfl, rfl, rfl, rfl⟩)
  case phaseShift =>
    exact recordKeeps_elim b engine h _ _
      (fun v e => { h with phaseShift := normalizePhase_some e }) (fun _ => ⟨rfl, rfl, rfl, rfl⟩)
  case sensorOutputAmplitude =>
    exact recordKeeps_elim b engine h _ _
      (fun v e => { h with sensorOutputAmplitude := clampLow_some (by decide) e })
      (fun _ => ⟨rfl, rfl, rfl, rfl⟩)
  case whiteNoiseAmplitude =>
    exact recordKeeps_elim b engine h _ _
      (fun v e => { h with whiteNoiseAmplitude := clampLow_some (by decide) e })
      (fun _ => ⟨rfl, rfl, rfl, rfl⟩)
  case bpfEnabled =>
    exact recordKeeps_elim b engine h _ _ (fun v _ => { h with }) (fun _ => ⟨rfl, rfl, rfl, rfl⟩)
  case bpfCenterFrequency =>
    exact recordKeeps_elim b engine h _ _
      (fun v e => { h with bpfCenterFrequency := clampLow_some (by decide) e })
      (fun _ => ⟨rfl, rfl, rfl, rfl⟩)
  case bpfBandwidth =>
    exact recordKeeps_elim b engine h _ _
      (fun v e => { h with bpfBandwidth := clampLow_some (by decide) e })
      (fun _ => ⟨rfl, rfl, rfl, rfl⟩)
  case bpfOrder =>
    exact recordKeeps_elim b engine h _ _ (fun v _ => { h with }) (fun _ => ⟨rfl, rfl, rfl, rfl⟩)
  case lpfCutoffFrequency =>
    exact recordKeeps_elim b engine h _ _
      (fun v e => { h with lpfCutoffFrequency := clampLow_some (by decide) e })
      (fun _ => ⟨rfl, rfl, rfl, rfl⟩)
  case lpfOrder =>
    exact recordKeeps_elim b engine h _ _ (fun v _ => { h with }) (fun _ => ⟨rfl, rfl, rfl, rfl⟩)
  case mixerMode =>
    exact recordKeeps_elim b engine h _ _ (fun v _ => { h with }) (fun _ => ⟨rfl, rfl, rfl, rfl⟩)

theorem applyRecord_keeps (b : Config.Build) (p : Nat) (engine : Bool) {q : Params} (h : q.Legal)
    (r : ParamRecord) : recordKeeps b engine q (applyRecord b p engine q r) := by
  cases r with
  | scalar pid w => exact applyScalar_keeps b p engine h pid w
  | interferers l =>
    simp only [applyRecord]
    cases e : validInterferers b l with
    | none => exact recordKeeps_refl b engine h
    | some v =>
      exact ⟨{ h with interferers := (validInterferers_some e).2 },
        fun _ => (validInterferers_some e).1, fun _ => ⟨rfl, rfl, rfl⟩⟩

end Sys2Proof.Machine
end

