-- ==== Sys2Proof/Laws/Ops.lean ====
section
/-!
SUPPORT. One lemma per shared operation that says what it can do: the guards, the flag read, the snapshot,
and the composite updates of SAMPLE, INIT, START, STOP and UPDATE.
-/

namespace Sys2Proof

/-! ## Channels -/

theorem Chan.index_inj {c d : Chan} (h : c.index = d.index) : c = d := by
  cases c <;> cases d <;> first | rfl | (exact absurd h (by decide))

theorem Chan.index_lt (c : Chan) : c.index < 13 := by cases c <;> decide

theorem Chan.mem_all (c : Chan) : c ∈ Chan.all := by cases c <;> decide

theorem Chan.all_nodup : Chan.all.Nodup := by decide

end Sys2Proof

namespace Sys2Proof.Machine

/-! ## Guards -/

@[simp] theorem State.withInit_true {s : State} (h : s.ctl.initialised = true) (op : Opcode)
    (r : Result) : s.withInit op r = r := by simp [State.withInit, h]

theorem State.withInit_false {s : State} (h : s.ctl.initialised = false) (op : Opcode) (r : Result) :
    s.withInit op r = .next (s.raise op.code .notInitialized) := by simp [State.withInit, h]

theorem State.withInit_cases {s t : State} {op : Opcode} {r : Result} (h : s.withInit op r = .next t) :
    (s.ctl.initialised = false ∧ t = s.raise op.code .notInitialized) ∨
      (s.ctl.initialised = true ∧ r = .next t) := by
  unfold State.withInit at h
  split at h
  · rename_i hi
    exact .inr ⟨hi, h⟩
  · rename_i hi
    cases h
    exact .inl ⟨by simpa using hi, rfl⟩

theorem State.checkOperands_cases {s t : State} {op : Opcode} {ok : Bool} {r : Result}
    (h : s.checkOperands op ok r = .next t) :
    (ok = false ∧ t = s.raise op.code .illegalCommand) ∨ (ok = true ∧ r = .next t) := by
  unfold State.checkOperands at h
  split at h
  · rename_i hi
    exact .inr ⟨hi, h⟩
  · rename_i hi
    cases h
    exact .inl ⟨by simpa using hi, rfl⟩

theorem State.withFlag_of_active {s : State} {act : Block} (hr : 4 ≤ s.build.shmBytes)
    (ha : s.activeBlock = some act) (k : Block → Result) : s.withFlag k = k act := by
  unfold State.activeBlock at ha
  simp [State.withFlag, show ¬ s.build.shmBytes < 4 by omega, ha]

theorem State.withFlag_cases {s t : State} {k : Block → Result} (h : s.withFlag k = .next t) :
    ∃ act, 4 ≤ s.build.shmBytes ∧ s.activeBlock = some act ∧ k act = .next t := by
  unfold State.withFlag at h
  split at h
  · cases h
  · rename_i hr
    split at h
    · rename_i blk hb
      exact ⟨blk, by omega, hb, h⟩
    · cases h

/-! ## The flag word -/

@[simp] theorem Block.ofFlagWord_flagWord (blk : Block) : Block.ofFlagWord blk.flagWord = some blk := by
  cases blk <;> rfl

@[simp] theorem Block.other_other (blk : Block) : blk.other.other = blk := by cases blk <;> rfl

theorem State.storeFlag_activeBlock (s : State) (blk : Block) :
    (s.storeFlag blk).activeBlock = some blk := by
  simp [State.activeBlock, State.storeFlag, memRead32_memWrite32_same]

theorem State.storeFlag_frame (s : State) (blk : Block) {a : Nat} (h : 4 ≤ a) :
    memRead (s.storeFlag blk).shm a = memRead s.shm a :=
  memRead_memWrite32_other _ (.inr (by omega)) _

/-- The version picked is one that exists, and none before the one already seen. -/
theorem State.pickVersion_bounds (s : State) (k a : Nat) :
    min ((cellGet s.free.view.seen a).getD 0) s.free.view.past.length ≤ s.pickVersion k a ∧
      s.pickVersion k a ≤ s.free.view.past.length := by
  unfold State.pickVersion
  simp only
  have h := Nat.min_le_right ((cellGet s.free.view.seen a).getD 0) s.free.view.past.length
  have h2 := Nat.mod_lt (Config.readVersion s.free.freeCount k)
    (show 0 < s.free.view.past.length + 1 -
      min ((cellGet s.free.view.seen a).getD 0) s.free.view.past.length by omega)
  omega

theorem foldl_cellSet_other {f : Nat → Nat} {w b : Nat} : ∀ (l : List Nat) (z : List (Nat × Nat)),
    (∀ j ∈ l, w ≠ b + 4 * j) →
    cellGet (l.foldl (fun z j => cellSet (b + 4 * j) (f j) z) z) w = cellGet z w
  | [], _, _ => rfl
  | j :: l, z, h => by
    rw [List.foldl_cons, foldl_cellSet_other l _ fun i hi => h i (List.mem_cons_of_mem _ hi)]
    exact cellGet_cellSet_other (h j List.mem_cons_self) _ _

/-- What reads of consecutive words leave of the record at another word. -/
theorem State.readRun_seenAt_other (s : State) {b n w : Nat} (h : ∀ j, j < n → w ≠ b + 4 * j) :
    (s.readRun b n).seenAt w = s.seenAt w := by
  simp only [State.seenAt, State.readRun]
  rw [foldl_cellSet_other _ _ fun j hj => h j (List.mem_range.mp hj)]

/-- What reads of consecutive words record at each of them. -/
theorem State.readRun_seenAt (s : State) {b n j : Nat} (h : j < n) :
    (s.readRun b n).seenAt (b + 4 * j) = s.pickVersion j (b + 4 * j) := by
  induction n with
  | zero => omega
  | succ n ih =>
    simp only [State.seenAt, State.readRun, List.range_succ, List.foldl_append, List.foldl_cons,
      List.foldl_nil]
    rcases Nat.lt_or_eq_of_le (Nat.le_of_lt_succ h) with hj | rfl
    · rw [cellGet_cellSet_other (by omega)]
      exact ih hj
    · rw [cellGet_cellSet_same]
      rfl

@[simp] theorem State.contents_length (s : State) :
    s.contents.length = s.free.view.past.length + 1 := by simp [State.contents]

/-- A version that exists, as an entry of the contents a read may see. -/
theorem State.contents_getD {s : State} {v : Nat} (h : v ≤ s.free.view.past.length) :
    s.contents.getD v [] = s.version v := by
  unfold State.contents State.version
  rcases Nat.lt_or_eq_of_le h with h | rfl
  · simp [List.getElem?_append_left h, h]
  · simp

/-- A version is a content since the last acquire load or the present one. -/
theorem State.version_cases (s : State) (v : Nat) :
    s.version v ∈ s.free.view.past ∨ s.version v = s.shm := by
  unfold State.version
  rw [List.getD_eq_getElem?_getD]
  cases h : s.free.view.past[v]? with
  | none => exact .inr rfl
  | some m => exact .inl (List.mem_of_getElem? h)

/-- A raced word is the one of a content since the last acquire load or the one the region holds (R74). -/
theorem State.racedWord_cases (s : State) (k a : Nat) :
    ∃ m, (m ∈ s.free.view.past ∨ m = s.shm) ∧ s.racedWord k a = memRead32 m a :=
  ⟨_, s.version_cases _, rfl⟩

/-- With no content left from before, a raced word is the one the region holds (R72 (c)). -/
theorem State.racedWord_acquired {s : State} (h : s.free.view.past = []) (k a : Nat) :
    s.racedWord k a = memRead32 s.shm a := by
  simp [State.racedWord, State.version, h]

/-- A raced element of a layout in place, inside the region, is a raced word. -/
theorem State.racedElem_of_inside {s : State} {a : Nat} (h : a + 4 ≤ s.build.shmBytes) (k : Nat) :
    s.racedElem false k a = s.racedWord k a :=
  if_neg (by simpa using h)

/-- The canonical memory has one form: two in it that read the same are the same list. -/
theorem Memory.wf_ext {m m' : Memory} (h : Memory.wf m) (h' : Memory.wf m')
    (e : ∀ a, memRead m a = memRead m' a) : m = m' := by
  have get : ∀ {m : Memory}, Memory.wf m → ∀ c ∈ m, cellGet m c.1 = some c.2 := by
    intro m h
    induction m with
    | nil => intro c hc; simp at hc
    | cons d m ih =>
      intro c hc
      obtain ⟨h1, h2⟩ := List.pairwise_cons.mp h.1
      rcases List.mem_cons.mp hc with rfl | hc
      · simp [cellGet]
      · have := h1 c hc
        rw [cellGet, if_neg (by omega)]
        exact ih ⟨h2, fun c hc => h.2 c (List.mem_cons_of_mem _ hc)⟩ c hc
  have low : ∀ {m : Memory} {a : Nat}, (∀ c ∈ m, a < c.1) → cellGet m a = none := by
    intro m a h
    induction m with
    | nil => rfl
    | cons d m ih =>
      have := h d (by simp)
      rw [cellGet, if_neg (by omega)]
      exact ih (fun c hc => h c (List.mem_cons_of_mem _ hc))
  induction m generalizing m' with
  | nil =>
    cases m' with
    | nil => rfl
    | cons c m' =>
      have h1 := e c.1
      have h3 := h'.2 c (by simp)
      simp [memRead, cellGet] at h1
      exact absurd h1.symm h3
  | cons d m ih =>
    cases m' with
    | nil =>
      have h1 := e d.1
      have h3 := h.2 d (by simp)
      simp [memRead, cellGet] at h1
      exact absurd h1 h3
    | cons c m' =>
      obtain ⟨p1, p2⟩ := List.pairwise_cons.mp h.1
      obtain ⟨q1, q2⟩ := List.pairwise_cons.mp h'.1
      have hd := get h d (by simp)
      have hc := get h' c (by simp)
      have key : d = c := by
        rcases Nat.lt_trichotomy d.1 c.1 with hlt | heq | hgt
        · have h1 := e d.1
          have : cellGet (c :: m') d.1 = none := low (fun x hx => by
            rcases List.mem_cons.mp hx with rfl | hx
            · exact hlt
            · exact Nat.lt_trans hlt (q1 x hx))
          simp [memRead, hd, this] at h1
          exact absurd h1 (h.2 d (by simp))
        · have h1 := e d.1
          rw [heq] at hd
          simp [memRead, heq, hd, hc] at h1
          exact Prod.ext heq h1
        · have h1 := e c.1
          have : cellGet (d :: m) c.1 = none := low (fun x hx => by
            rcases List.mem_cons.mp hx with rfl | hx
            · exact hgt
            · exact Nat.lt_trans hgt (p1 x hx))
          simp [memRead, hc, this] at h1
          exact absurd h1.symm (h'.2 c (by simp))
      subst key
      congr 1
      refine ih ⟨p2, fun c hc => h.2 c (List.mem_cons_of_mem _ hc)⟩
        ⟨q2, fun c hc => h'.2 c (List.mem_cons_of_mem _ hc)⟩ fun a => ?_
      by_cases ha : a = d.1
      · subst ha
        have l1 : cellGet m d.1 = none := low p1
        have l2 : cellGet m' d.1 = none := low q1
        simp [memRead, l1, l2]
      · have := e a
        simpa [memRead, cellGet, Ne.symm ha] using this

/-! ## Sections -/

theorem cascadeNext_coeffs (l : List Section) :
    ∀ x, (cascadeNext l x).map (fun z => z.c) = l.map (fun z => z.c) := by
  induction l with
  | nil => intro x; rfl
  | cons s l ih => intro x; simp [cascadeNext, sectionNext, ih]

@[simp] theorem cascadeNext_length (l : List Section) : ∀ x, (cascadeNext l x).length = l.length := by
  induction l with
  | nil => intro x; rfl
  | cons s l ih => intro x; simp [cascadeNext, ih]

theorem cascadeReset_coeffs (l : List Section) :
    (cascadeReset l).map (fun z => z.c) = l.map (fun z => z.c) := by
  simp [cascadeReset, zeroSection]

theorem cascadeReplace_coeffs (l : List Section) (n : List Coeffs) :
    (cascadeReplace l n).map (fun z => z.c) = n := by
  unfold cascadeReplace
  split
  · rename_i h
    apply List.ext_getElem <;> simp [h]
  · simp [zeroSection, Function.comp_def]

theorem cascadeReplace_keeps {l : List Section} {n : List Coeffs} (h : n.length = l.length) :
    (cascadeReplace l n).map (fun z => (z.x1, z.x2, z.y1, z.y2)) =
      l.map (fun z => (z.x1, z.x2, z.y1, z.y2)) := by
  unfold cascadeReplace
  rw [if_pos h]
  apply List.ext_getElem <;> simp [h]

theorem cascadeReset_replace (l : List Section) (n : List Coeffs) :
    cascadeReset (cascadeReplace l n) = n.map zeroSection := by
  have : ∀ l : List Section, cascadeReset l = (l.map (fun z => z.c)).map zeroSection := by
    intro l; simp [cascadeReset]
  rw [this, cascadeReplace_coeffs]

@[simp] theorem cascadeReplace_length (l : List Section) (n : List Coeffs) :
    (cascadeReplace l n).length = n.length := by
  simpa using congrArg List.length (cascadeReplace_coeffs l n)

@[simp] theorem cascadeReset_length (l : List Section) : (cascadeReset l).length = l.length := by
  simp [cascadeReset]

/-! ## The interferer bank -/

theorem sameFrequencies_iff (l : List Interferer) (bank : List BankEntry) :
    sameFrequencies l bank = true ↔ l.length = bank.length ∧
      ∀ (k : Nat) (x : Interferer) (e : BankEntry), l[k]? = some x → bank[k]? = some e →
        feq x.frequency e.freq = true := by
  induction l generalizing bank with
  | nil => cases bank <;> simp [sameFrequencies]
  | cons x l ih =>
    cases bank with
    | nil => simp [sameFrequencies]
    | cons e bank =>
      simp only [sameFrequencies, Bool.and_eq_true, ih, List.length_cons]
      constructor
      · rintro ⟨h1, h2, h3⟩
        refine ⟨by omega, fun k a b ha hb => ?_⟩
        cases k with
        | zero => simp at ha hb; subst ha hb; exact h1
        | succ k => exact h3 k a b (by simpa using ha) (by simpa using hb)
      · rintro ⟨h1, h2⟩
        exact ⟨h2 0 x e rfl rfl, by omega, fun k a b ha hb =>
          h2 (k + 1) a b (by simpa using ha) (by simpa using hb)⟩

theorem rebuiltBank_get (l : List Interferer) : ∀ n k : Nat,
    (rebuiltBank n l)[k]? = l[k]?.map (fun x =>
      ⟨x.frequency, x.amplitude, fmul cTwoPi (drawAt (n + k))⟩) := by
  induction l with
  | nil => intro n k; simp [rebuiltBank]
  | cons x l ih =>
    intro n k
    cases k with
    | zero => simp [rebuiltBank]
    | succ k => simp [rebuiltBank, ih, show n + 1 + k = n + (k + 1) by omega]

@[simp] theorem rebuiltBank_length (l : List Interferer) : ∀ n, (rebuiltBank n l).length = l.length := by
  induction l with
  | nil => intro n; rfl
  | cons x l ih => intro n; simp [rebuiltBank, ih]

/-- Everything `Install` can do: amplitudes in place and no draw, or a rebuilt bank and one draw for
each entry. -/
theorem State.install_cases (s : State) (l : List Interferer) :
    (sameFrequencies l s.chain.bank = true ∧
      s.install l = s.setBank (overwriteAmplitudes l s.chain.bank)) ∨
    (sameFrequencies l s.chain.bank = false ∧
      s.install l = (s.setBank (rebuiltBank s.free.drawPos l)).skipDraws l.length) := by
  unfold State.install
  split
  · rename_i h
    exact .inl ⟨h, rfl⟩
  · rename_i h
    exact .inr ⟨by simpa using h, rfl⟩

theorem State.install_frame (s : State) (l : List Interferer) :
    s.install l = { s with
      chain := { s.chain with bank := (s.install l).chain.bank }
      free := { s.free with drawPos := (s.install l).free.drawPos } } := by
  rcases s.install_cases l with ⟨-, h⟩ | ⟨-, h⟩ <;> rw [h] <;> rfl

theorem State.install_bank_length (s : State) (l : List Interferer) :
    (s.install l).chain.bank.length = l.length := by
  rcases s.install_cases l with ⟨h, e⟩ | ⟨-, e⟩
  · rw [e]
    simp [State.setBank, overwriteAmplitudes, ((sameFrequencies_iff _ _).mp h).1]
  · rw [e]; simp [State.skipDraws, State.setBank]

/-! ## The Gaussian source -/

theorem State.gaussNext_frame (s : State) (sigma : F64) :
    s.gaussNext sigma = { s with
      chain := { s.chain with
        hasSpare := (s.gaussNext sigma).chain.hasSpare
        spare := (s.gaussNext sigma).chain.spare }
      free := { s.free with drawPos := (s.gaussNext sigma).free.drawPos } } := by
  unfold State.gaussNext
  split
  · rfl
  · split <;> rfl

/-! ## Rings -/

@[simp] theorem ringView_length (c : Chan) (cap : Nat) (r : Ring) (k : Nat) :
    (ringView c cap r k).length = ringCount cap r k := by simp [ringView]

theorem ringElem_pushed_same (c : Chan) (cap : Nat) (r : Ring) (v : F64) :
    ringElem c (ringPushed cap r v) r.w = f64ToF32 v := by
  simp [ringElem, ringPushed, cellGet_cellSet_same]

theorem ringElem_pushed_other (c : Chan) (cap : Nat) (r : Ring) (v : F64) {k : Nat} (h : k ≠ r.w) :
    ringElem c (ringPushed cap r v) k = ringElem c r k := by
  simp [ringElem, ringPushed, cellGet_cellSet_other h]

/-- A decimated view with at most `P` points never has more than `P` elements. -/
theorem ringCount_le {cap p : Nat} {r : Ring} (hp : 1 ≤ p) (hc : p ≤ cap) (hn : r.n ≤ cap) :
    ringCount cap r p ≤ p := by
  unfold ringCount ringStride ceilDiv
  have h1 : cap ≤ (cap + p - 1) / p * p := by
    have := Nat.lt_mul_div_succ (cap + p - 1) (show 0 < p by omega)
    have e : p * ((cap + p - 1) / p + 1) = (cap + p - 1) / p * p + p := by ring
    omega
  have h2 : 1 ≤ (cap + p - 1) / p := (Nat.one_le_div_iff (by omega)).mpr (by omega)
  generalize (cap + p - 1) / p = st at *
  have : (r.n + st - 1) / st < p + 1 := by
    rw [Nat.div_lt_iff_lt_mul (by omega)]
    have : (p + 1) * st = st * p + st := by ring
    omega
  omega

/-! ## The snapshot -/

/-- The byte ranges of the channels of a block follow one another. -/
theorem elemAddr_eq (p : Nat) (blk : Block) (c : Chan) (k : Nat) :
    elemAddr p blk c k = 4 + blk.index * (52 * p) + c.index * (4 * p) + 4 * k := rfl

theorem State.storeViews_wf {s : State} {blk : Block} : ∀ {l : List Chan} {m m' : Memory},
    Memory.wf m → s.storeViews blk l m = some m' → Memory.wf m'
  | [], m, m', h, e => by cases e; exact h
  | c :: cs, m, m', h, e => by
    unfold State.storeViews at e
    split at e
    · rename_i m1 h1
      exact State.storeViews_wf (storeElems_wf h h1) e
    · cases e

/-- Outside the elements it stores, `storeViews` changes nothing. -/
theorem State.storeViews_frame {s : State} {blk : Block} {a : Nat} : ∀ {l : List Chan} {m m' : Memory},
    s.storeViews blk l m = some m' →
    (∀ c ∈ l, a < elemAddr s.ctl.snapshotPoints blk c 0 ∨
      elemAddr s.ctl.snapshotPoints blk c (s.chanView c).length ≤ a) →
    memRead m' a = memRead m a
  | [], m, m', e, _ => by cases e; rfl
  | c :: cs, m, m', e, h => by
    unfold State.storeViews at e
    split at e
    · rename_i m1 h1
      rw [State.storeViews_frame e (fun d hd => h d (List.mem_cons_of_mem _ hd))]
      have := h c (by simp)
      exact storeElems_frame h1 this
    · cases e

/-- Where every view fits its channel's range, `storeViews` succeeds and every element is stored. -/
theorem State.storeViews_total {s : State} {blk : Block} : ∀ {l : List Chan} {m : Memory},
    (∀ c ∈ l, elemAddr s.ctl.snapshotPoints blk c (s.chanView c).length ≤ s.build.shmBytes) →
    ∃ m', s.storeViews blk l m = some m'
  | [], m, _ => ⟨m, rfl⟩
  | c :: cs, m, h => by
    obtain ⟨m1, h1⟩ := storeElems_total (size := s.build.shmBytes) (l := s.chanView c) (m := m)
      (a := chanBase s.ctl.snapshotPoints blk c) (h c (by simp))
    obtain ⟨m2, h2⟩ := State.storeViews_total (s := s) (blk := blk) (l := cs) (m := m1)
      (fun d hd => h d (List.mem_cons_of_mem _ hd))
    exact ⟨m2, by simp [State.storeViews, h1, h2]⟩

theorem State.storeViews_elem {s : State} {blk : Block} : ∀ {l : List Chan} {m m' : Memory},
    s.storeViews blk l m = some m' → l.Nodup →
    (∀ c, (s.chanView c).length ≤ s.ctl.snapshotPoints) →
    ∀ c ∈ l, ∀ (k : Nat) (hk : k < (s.chanView c).length),
      memRead32 m' (elemAddr s.ctl.snapshotPoints blk c k) = (s.chanView c)[k]
  | [], m, m', _, _, _ => by simp
  | c :: cs, m, m', e, hn, hl => by
    unfold State.storeViews at e
    split at e
    · rename_i m1 h1
      obtain ⟨hc, hn⟩ := List.nodup_cons.mp hn
      intro d hd k hk
      rcases List.mem_cons.mp hd with rfl | hd
      · have : memRead32 m' (elemAddr s.ctl.snapshotPoints blk d k) =
            memRead32 m1 (elemAddr s.ctl.snapshotPoints blk d k) := by
          refine memRead32_congr fun b hb1 hb2 => State.storeViews_frame e fun x hx => ?_
          have hne : x.index ≠ d.index := fun h => hc (Chan.index_inj h ▸ hx)
          have h1 := hl d
          have h2 := hl x
          simp only [elemAddr_eq] at hb1 hb2 ⊢
          generalize s.ctl.snapshotPoints = p at *
          rcases Nat.lt_or_gt_of_ne hne with hlt | hgt
          · right
            have : (x.index + 1) * (4 * p) ≤ d.index * (4 * p) := Nat.mul_le_mul_right _ hlt
            rw [Nat.add_mul] at this
            omega
          · left
            have : (d.index + 1) * (4 * p) ≤ x.index * (4 * p) := Nat.mul_le_mul_right _ hgt
            rw [Nat.add_mul] at this
            omega
        rw [this]
        exact storeElems_elem h1 hk
      · exact State.storeViews_elem e hn hl d hd k hk
    · cases e

/-- Everything a snapshot can do. -/
theorem State.snapshot_cases {s t : State} (h : s.snapshot = .next t) :
    ∃ act m, 4 ≤ s.build.shmBytes ∧ s.activeBlock = some act ∧
      s.storeViews act.other Chan.all s.shm = some m ∧ t = s.published act.other m := by
  obtain ⟨act, h1, h2, h3⟩ := State.withFlag_cases h
  split at h3
  · rename_i m hm
    cases h3
    exact ⟨act, m, h1, h2, hm, rfl⟩
  · cases h3

/-- The sample phase writes the next sample time (R280). -/
@[simp] theorem State.tickSampled_lastSampleTime (s : State) (now : F64) :
    (s.tickSampled now).chain.lastSampleTime = s.nextSampleTime now := rfl

/-- A NaN is in `lastSampleTime` after a tick exactly where one was there or `now` is one (R343). -/
theorem State.nextSampleTime_isNaN (s : State) (now : F64) :
    isNaN (s.nextSampleTime now) = (isNaN s.chain.lastSampleTime || isNaN now) := by
  unfold State.nextSampleTime
  split <;> simp_all

/-- Everything the publish phase of a tick can do. -/
theorem State.publishPhase_cases {s t : State} {now : F64} (h : s.publishPhase now = .next t) :
    t = s ∨ ∃ u, s.snapshot = .next u ∧ t = u.setPublishTime now := by
  unfold State.publishPhase at h
  split at h
  · split at h
    · rename_i u hu
      cases h
      exact .inr ⟨u, hu, rfl⟩
    · cases h
    · cases h
  · cases h
    exact .inl rfl

end Sys2Proof.Machine
end

