-- ==== Sys2Proof/Laws/PerInstr.lean ====
section
/-!
SUPPORT. Laws stated of every instruction as syntax, with one lemma per constructor: its header's fields.
-/

namespace Sys2Proof.Laws

theorem mkHeader_op (op sel : BitVec 8) (n : Nat) : opField (mkHeader op sel n) = op := by
  unfold opField mkHeader; ext i hi
  simp only [BitVec.getElem_extractLsb', Nat.zero_add]
  rw [BitVec.getLsbD_append]; simp [hi]

theorem mkHeader_sel (op sel : BitVec 8) (n : Nat) : selField (mkHeader op sel n) = sel := by
  unfold selField mkHeader; ext i hi
  simp only [BitVec.getElem_extractLsb']
  rw [BitVec.getLsbD_append, BitVec.getLsbD_append]
  simp [hi, show ¬ (8 + i < 8) by omega]

theorem mkHeader_rsv (op sel : BitVec 8) (n : Nat) : rsvField (mkHeader op sel n) = 0#16 := by
  unfold rsvField mkHeader; ext i hi
  simp only [BitVec.getElem_extractLsb']
  rw [BitVec.getLsbD_append, BitVec.getLsbD_append, BitVec.getLsbD_append]
  simp [show ¬ (16 + i < 8) by omega, show ¬ (16 + i - 8 < 8) by omega,
    show 16 + i - 8 - 8 < 16 by omega]

theorem mkHeader_count (op sel : BitVec 8) (n : Nat) :
    countField (mkHeader op sel n) = n % 2 ^ 32 := by
  have h : (mkHeader op sel n).extractLsb' 32 32 = BitVec.ofNat 32 n := by
    unfold mkHeader; ext i hi
    simp only [BitVec.getElem_extractLsb']
    rw [BitVec.getLsbD_append, BitVec.getLsbD_append, BitVec.getLsbD_append]
    simp [hi, show ¬ (32 + i < 8) by omega, show ¬ (32 + i - 8 < 8) by omega,
      show ¬ (32 + i - 8 - 8 < 16) by omega, show 32 + i - 8 - 8 - 16 = i by omega]
  unfold countField; rw [h]; exact BitVec.toNat_ofNat _ _

/-- The header of an instruction holds its operation code, its selector, zero reserved bits and its
count modulo 2^32 (30_encoding.md R91). -/
def HeaderFields.Statement (i : Instr) : Prop :=
  opField (encode i).header = i.opcode.code ∧ selField (encode i).header = i.selector ∧
    rsvField (encode i).header = 0#16 ∧ countField (encode i).header = i.count % 2 ^ 32

theorem headerFields_all (i : Instr) : HeaderFields.Statement i :=
  ⟨mkHeader_op _ _ _, mkHeader_sel _ _ _, mkHeader_rsv _ _ _, mkHeader_count _ _ _⟩

theorem HeaderFields.init (bufferBytes snapshotPoints : Word) :
    HeaderFields.Statement (.init bufferBytes snapshotPoints) := headerFields_all _

theorem HeaderFields.start (now : F64) (records : List ParamRecord) :
    HeaderFields.Statement (.start now records) := headerFields_all _

theorem HeaderFields.stop :
    HeaderFields.Statement .stop := headerFields_all _

theorem HeaderFields.update (records : List ParamRecord) :
    HeaderFields.Statement (.update records) := headerFields_all _

theorem HeaderFields.tick (now : F64) :
    HeaderFields.Statement (.tick now) := headerFields_all _

theorem HeaderFields.sample :
    HeaderFields.Statement .sample := headerFields_all _

theorem HeaderFields.snap :
    HeaderFields.Statement .snap := headerFields_all _

theorem HeaderFields.oscPhase (osc : OscSel) :
    HeaderFields.Statement (.oscPhase osc) := headerFields_all _

theorem HeaderFields.oscPhaseof (osc : OscSel) (offset : F64) :
    HeaderFields.Statement (.oscPhaseof osc offset) := headerFields_all _

theorem HeaderFields.oscSine (osc : OscSel) (f a : F64) :
    HeaderFields.Statement (.oscSine osc f a) := headerFields_all _

theorem HeaderFields.oscSquare (osc : OscSel) (f a : F64) :
    HeaderFields.Statement (.oscSquare osc f a) := headerFields_all _

theorem HeaderFields.oscAdvance (osc : OscSel) (f : F64) :
    HeaderFields.Statement (.oscAdvance osc f) := headerFields_all _

theorem HeaderFields.oscReset (osc : OscSel) :
    HeaderFields.Statement (.oscReset osc) := headerFields_all _

theorem HeaderFields.noiseGauss (sigma : F64) :
    HeaderFields.Statement (.noiseGauss sigma) := headerFields_all _

theorem HeaderFields.noiseUniform :
    HeaderFields.Statement .noiseUniform := headerFields_all _

theorem HeaderFields.intfInstall (list : List Interferer) :
    HeaderFields.Statement (.intfInstall list) := headerFields_all _

theorem HeaderFields.intfGen :
    HeaderFields.Statement .intfGen := headerFields_all _

theorem HeaderFields.bqProc (bq : BqSel) (x : F64) :
    HeaderFields.Statement (.bqProc bq x) := headerFields_all _

theorem HeaderFields.bqReset (bq : BqSel) :
    HeaderFields.Statement (.bqReset bq) := headerFields_all _

theorem HeaderFields.bqRepl (bq : BqSel) (sections : List Coeffs) :
    HeaderFields.Statement (.bqRepl bq sections) := headerFields_all _

theorem HeaderFields.mix (mode : MixMode) (s theta aRef : F64) :
    HeaderFields.Statement (.mix mode s theta aRef) := headerFields_all _

theorem HeaderFields.dutGen :
    HeaderFields.Statement .dutGen := headerFields_all _

theorem HeaderFields.ringPush (ch : Chan) (v : F64) :
    HeaderFields.Statement (.ringPush ch v) := headerFields_all _

theorem HeaderFields.ringSnap (ch : Chan) (maxPoints : Word) :
    HeaderFields.Statement (.ringSnap ch maxPoints) := headerFields_all _

theorem HeaderFields.ringClear (ch : Chan) :
    HeaderFields.Statement (.ringClear ch) := headerFields_all _

theorem HeaderFields.dbAcqw :
    HeaderFields.Statement .dbAcqw := headerFields_all _

theorem HeaderFields.dbPub :
    HeaderFields.Statement .dbPub := headerFields_all _

theorem HeaderFields.dbAcqr :
    HeaderFields.Statement .dbAcqr := headerFields_all _

theorem HeaderFields.fftRun (fs : F64) (x : List F64) :
    HeaderFields.Statement (.fftRun fs x) := headerFields_all _

theorem HeaderFields.fftChan (ch : Chan) :
    HeaderFields.Statement (.fftChan ch) := headerFields_all _

end Sys2Proof.Laws
end

