-- ==== Sys2Proof/Laws/Spectrum.lean ====
section
/-!
SUPPORT. Laws of the spectrum (48_trigger_fft.md): the length rule, the lengths of the work arrays through the
transform, and everything FFT.RUN and FFT.CHAN can do.
-/

namespace Sys2Proof.Machine

theorem fftBits_le {len b : Nat} (h : fftBits len = some b) : b ≤ 10 ∧ 2 ^ b ≤ len := by
  unfold fftBits at h
  split at h
  · cases h
  · split at h
    · cases h
      omega
    · split at h
      · cases h
        omega
      · split at h
        · cases h
          omega
        · split at h <;> cases h <;> omega

/-- Two work arrays have the lengths of two others. -/
def Work.sameLength (v w : Work) : Prop := v.re.length = w.re.length ∧ v.im.length = w.im.length

theorem foldl_sameLength {α : Type} (f : Work → α → Work) (hf : ∀ w a, (f w a).sameLength w)
    (l : List α) : ∀ w, (l.foldl f w).sameLength w := by
  induction l with
  | nil => intro w; exact ⟨rfl, rfl⟩
  | cons a l ih =>
    intro w
    obtain ⟨h1, h2⟩ := ih (f w a)
    obtain ⟨h3, h4⟩ := hf w a
    exact ⟨h1.trans h3, h2.trans h4⟩

theorem bitReverse_sameLength (b : Nat) (w : Work) : (bitReverse b w).sameLength w := by
  refine foldl_sameLength _ (fun w i => ?_) _ w
  split
  · simp [Work.sameLength, swapAt]
  · exact ⟨rfl, rfl⟩

theorem butterfly_sameLength (size start : Nat) (w : Work) (k : Nat) :
    (butterfly size start w k).sameLength w := by simp [Work.sameLength, butterfly]

theorem fftLoop_sameLength (b : Nat) (w : Work) : (fftLoop b w).sameLength w := by
  refine foldl_sameLength _ (fun w j => ?_) _ w
  refine foldl_sameLength _ (fun w g => ?_) _ w
  exact foldl_sameLength _ (fun w k => butterfly_sameLength _ _ w k) _ w

theorem transform_length {b : Nat} {x : List F64} (h : 2 ^ b ≤ x.length) :
    (transform b x).re.length = 2 ^ b ∧ (transform b x).im.length = 2 ^ b := by
  obtain ⟨h1, h2⟩ := fftLoop_sameLength b (bitReverse b (loadWork (2 ^ b) x))
  obtain ⟨h3, h4⟩ := bitReverse_sameLength b (loadWork (2 ^ b) x)
  unfold transform
  rw [h1, h2, h3, h4]
  simp [loadWork]
  omega

/-- The work arrays keep their 1024 elements. -/
theorem State.runSpectrum_work {s : State} (h : s.cons.fftRe.length = 1024 ∧ s.cons.fftIm.length = 1024)
    (op : Opcode) (sel : BitVec 8) (fs : F64) (x : List F64) :
    (s.runSpectrum op sel fs x).cons.fftRe.length = 1024 ∧
      (s.runSpectrum op sel fs x).cons.fftIm.length = 1024 := by
  unfold State.runSpectrum
  split
  · simpa using h
  · rename_i b hb
    obtain ⟨h1, h2⟩ := fftBits_le hb
    obtain ⟨h3, h4⟩ := transform_length h2
    have h5 : 2 ^ b ≤ 2 ^ 10 := Nat.pow_le_pow_right (by omega) h1
    simp only [State.respond_cons, State.setWork, List.length_append, List.length_drop, h3, h4, h.1,
      h.2]
    omega

/-- Everything FFT.CHAN can do. -/
theorem execFftChan_cases {c : Chan} {s t : State} (h : execFftChan c s = .next t) :
    t = s.raise Opcode.fftChan.code .notInitialized ∨
      ∃ act, s.activeBlock = some act ∧
        (t = s.acquireLoad.latchTask (s.acquireLoad.newTask c act) ∨
          t = s.acquireLoad.finishTask (s.acquireLoad.newTask c act)) := by
  unfold execFftChan State.withInit at h
  split at h
  · unfold State.withFlag at h
    split at h
    · cases h
    · split at h
      · rename_i blk hb
        refine .inr ⟨blk, hb, ?_⟩
        split at h <;> cases h
        · exact .inl rfl
        · exact .inr rfl
      · cases h
  · cases h
    exact .inl rfl

end Sys2Proof.Machine
end

