-- ==== Sys2Proof/Tests/Slice0.lean ====
section
/-!
SUPPORT. Tests: ill-formed terms that WellFormed refuses, words written out from the spec's encodings and
decoded, single steps against the spec's vectors (95_test_vectors.md), and a witness for the hypotheses
of each statement.
-/

namespace Sys2Proof.Tests

set_option Elab.async false

open Sys2Proof Sys2Proof.Machine

/-! ## Helpers -/

/-- A small build: rings of 16, snapshots of 4, a region for exactly 4 points, two sections, two
interferers. -/
def smallBuild : Config.Build :=
  { ringCapMax := 16, snapMax := 4, shmBytes := 420, maxSections := 2, maxInterferers := 2 }

/-- The small block after reset. -/
def blank : State := { State.reset with build := smallBuild }

/-- The small block after `INIT 420, 4`. -/
def idle : State := blank.wired 420 4

/-- The small block running. -/
def live : State := { idle with ctl := { idle.ctl with running := true } }

/-- What a result holds, where it is a next state. -/
def obs {α : Type} (r : Result) (f : State → α) : Option α :=
  match r with
  | .next t => some (f t)
  | .fault _ => none
  | .refused _ => none

/-- The words of the producer's last response. -/
def lastResp (s : State) : List Word := (s.ports.pResp.getLast?.map Record.words).getD []

/-- The words of the consumer's last response. -/
def lastCResp (s : State) : List Word := (s.ports.cResp.getLast?.map Record.words).getD []

/-- The words of the last event. -/
def lastEvent (s : State) : List Word := (s.ports.events.getLast?.map Record.words).getD []

/-! ## WellFormed: one ill-formed term for each check -/

theorem test_ill_formed_start_count :
    Instr.WellFormed (.start pZero (List.replicate (2 ^ 32) (.scalar .phaseShift pZero))) = false := by
  simp [Instr.WellFormed, -List.reduceReplicate]

theorem test_ill_formed_start_list :
    Instr.WellFormed (.start pZero [.interferers (List.replicate (2 ^ 32) ⟨0#64, pZero, pZero⟩)]) = false := by
  simp [Instr.WellFormed, ParamRecord.WellFormed, -List.reduceReplicate]

theorem test_ill_formed_update_count :
    Instr.WellFormed (.update (List.replicate (2 ^ 32) (.scalar .phaseShift pZero))) = false := by
  simp [Instr.WellFormed, -List.reduceReplicate]

theorem test_ill_formed_update_list :
    Instr.WellFormed (.update [.interferers (List.replicate (2 ^ 32) ⟨0#64, pZero, pZero⟩)]) = false := by
  simp [Instr.WellFormed, ParamRecord.WellFormed, -List.reduceReplicate]

theorem test_ill_formed_install :
    Instr.WellFormed (.intfInstall (List.replicate (2 ^ 32) ⟨0#64, pZero, pZero⟩)) = false := by
  simp [Instr.WellFormed, -List.reduceReplicate]

theorem test_ill_formed_repl :
    Instr.WellFormed (.bqRepl .lpfI (List.replicate (2 ^ 32) ⟨pZero, pZero, pZero, pZero, pZero⟩)) = false := by
  simp [Instr.WellFormed, -List.reduceReplicate]

theorem test_ill_formed_fft_run :
    Instr.WellFormed (.fftRun pZero (List.replicate (2 ^ 32) pZero)) = false := by
  simp [Instr.WellFormed, -List.reduceReplicate]

/-! ## Decoding: every operation, its words written out from R91 to R96 -/

/-- V-ENC-2. -/
theorem test_decode_init :
    decode .producer ⟨0x0000000000000001#64, [0x00000000000FDE84#64, 0x0000000000002710#64]⟩ =
      .ok (.init 1040004#64 10000#64) := by decide +kernel

/-- V-ENC-2: `START 0.0, interferers=[(7, 50.0, 0.2)]`. -/
theorem test_decode_start :
    decode .producer ⟨0x0000000100000002#64, [0x0000000000000000#64, 0x0000000100000017#64, 7#64, 0x4049000000000000#64, 0x3FC999999999999A#64]⟩ =
      .ok (.start pZero [.interferers [⟨7#64, 0x4049000000000000#64, 0x3FC999999999999A#64⟩]]) := by decide +kernel

/-- V-ENC-2. -/
theorem test_decode_stop :
    decode .producer ⟨0x0000000000000003#64, []⟩ =
      .ok (.stop) := by decide +kernel

/-- V-ENC-2: `UPDATE bpfCenterFrequency=25000.0, phaseShift=45.0`. -/
theorem test_decode_update :
    decode .producer ⟨0x0000000200000004#64, [0x21#64, 0x40D86A0000000000#64, 0x14#64, 0x4046800000000000#64]⟩ =
      .ok (.update [.scalar .bpfCenterFrequency 0x40D86A0000000000#64,
        .scalar .phaseShift 0x4046800000000000#64]) := by decide +kernel

/-- V-ENC-2: `TICK 33.5`. -/
theorem test_decode_tick :
    decode .producer ⟨0x0000000000000005#64, [0x4040C00000000000#64]⟩ =
      .ok (.tick 0x4040C00000000000#64) := by decide +kernel

/-- R95. -/
theorem test_decode_sample :
    decode .producer ⟨0x0000000000000006#64, []⟩ =
      .ok (.sample) := by decide +kernel

/-- R95. -/
theorem test_decode_snap :
    decode .producer ⟨0x0000000000000007#64, []⟩ =
      .ok (.snap) := by decide +kernel

/-- R95, R96. -/
theorem test_decode_osc_phase :
    decode .producer ⟨0x0000000000000110#64, []⟩ =
      .ok (.oscPhase .mod) := by decide +kernel

/-- R95, R96. -/
theorem test_decode_osc_phaseof :
    decode .producer ⟨0x0000000000000011#64, [0x3FE0000000000000#64]⟩ =
      .ok (.oscPhaseof .ref 0x3FE0000000000000#64) := by decide +kernel

/-- V-OSC-2. -/
theorem test_decode_osc_sine :
    decode .producer ⟨0x0000000000000012#64, [0x4059000000000000#64, 0x3FF0000000000000#64]⟩ =
      .ok (.oscSine .ref 0x4059000000000000#64 0x3FF0000000000000#64) := by decide +kernel

/-- R95, R96. -/
theorem test_decode_osc_square :
    decode .producer ⟨0x0000000000000113#64, [0x4059000000000000#64, 0x3FF0000000000000#64]⟩ =
      .ok (.oscSquare .mod 0x4059000000000000#64 0x3FF0000000000000#64) := by decide +kernel

/-- R95, R96. -/
theorem test_decode_osc_advance :
    decode .producer ⟨0x0000000000000014#64, [0x4059000000000000#64]⟩ =
      .ok (.oscAdvance .ref 0x4059000000000000#64) := by decide +kernel

/-- R95, R96. -/
theorem test_decode_osc_reset :
    decode .producer ⟨0x0000000000000115#64, []⟩ =
      .ok (.oscReset .mod) := by decide +kernel

/-- V-NOI-1: `NOISE.GAUSS 2.0`. -/
theorem test_decode_noise_gauss :
    decode .producer ⟨0x0000000000000018#64, [0x4000000000000000#64]⟩ =
      .ok (.noiseGauss 0x4000000000000000#64) := by decide +kernel

/-- R95. -/
theorem test_decode_noise_uniform :
    decode .producer ⟨0x0000000000000019#64, []⟩ =
      .ok (.noiseUniform) := by decide +kernel

/-- R93 format LI, R95. -/
theorem test_decode_intf_install :
    decode .producer ⟨0x000000010000001A#64, [7#64, 0x4049000000000000#64, 0x3FC999999999999A#64]⟩ =
      .ok (.intfInstall [⟨7#64, 0x4049000000000000#64, 0x3FC999999999999A#64⟩]) := by decide +kernel

/-- R95. -/
theorem test_decode_intf_gen :
    decode .producer ⟨0x000000000000001B#64, []⟩ =
      .ok (.intfGen) := by decide +kernel

/-- R102: `BQ.PROC lpfQ, 1.0`. -/
theorem test_decode_bq_proc :
    decode .producer ⟨0x0000000000000220#64, [0x3FF0000000000000#64]⟩ =
      .ok (.bqProc .lpfQ 0x3FF0000000000000#64) := by decide +kernel

/-- R95, R96. -/
theorem test_decode_bq_reset :
    decode .producer ⟨0x0000000000000121#64, []⟩ =
      .ok (.bqReset .lpfI) := by decide +kernel

/-- R93 format LB: the words in the order b0, b1, b2, a1, a2. -/
theorem test_decode_bq_repl :
    decode .producer ⟨0x0000000100000122#64, [0x3FE0000000000000#64, 0x3FF0000000000000#64, 1#64, 2#64, 3#64]⟩ =
      .ok (.bqRepl .lpfI [⟨0x3FE0000000000000#64, 0x3FF0000000000000#64, 1#64, 2#64, 3#64⟩]) := by decide +kernel

/-- V-MIX-2, with another `A_ref`. -/
theorem test_decode_mix :
    decode .producer ⟨0x0000000000000128#64, [0x4000000000000000#64, 0x3FF0000000000000#64, 0x4008000000000000#64]⟩ =
      .ok (.mix .digital 0x4000000000000000#64 0x3FF0000000000000#64 0x4008000000000000#64) := by decide +kernel

/-- R95. -/
theorem test_decode_dut_gen :
    decode .producer ⟨0x0000000000000029#64, []⟩ =
      .ok (.dutGen) := by decide +kernel

/-- V-RING-4. -/
theorem test_decode_ring_push :
    decode .producer ⟨0x0000000000000C30#64, [0x3FB999999999999A#64]⟩ =
      .ok (.ringPush .time 0x3FB999999999999A#64) := by decide +kernel

/-- V-RING-2. -/
theorem test_decode_ring_snap :
    decode .producer ⟨0x0000000000000031#64, [2#64]⟩ =
      .ok (.ringSnap .reference 2#64) := by decide +kernel

/-- R95, R96, R22. -/
theorem test_decode_ring_clear :
    decode .producer ⟨0x0000000000000932#64, []⟩ =
      .ok (.ringClear .iOutput) := by decide +kernel

/-- R95. -/
theorem test_decode_db_acqw :
    decode .producer ⟨0x0000000000000038#64, []⟩ =
      .ok (.dbAcqw) := by decide +kernel

/-- R95. -/
theorem test_decode_db_pub :
    decode .producer ⟨0x0000000000000039#64, []⟩ =
      .ok (.dbPub) := by decide +kernel

/-- R95. -/
theorem test_decode_db_acqr :
    decode .consumer ⟨0x000000000000003A#64, []⟩ =
      .ok (.dbAcqr) := by decide +kernel

/-- R93 format LX, R95. -/
theorem test_decode_fft_run :
    decode .consumer ⟨0x0000000200000040#64, [0x4050000000000000#64, 1#64, 2#64]⟩ =
      .ok (.fftRun 0x4050000000000000#64 [1#64, 2#64]) := by decide +kernel

/-- R95, R96, R22. -/
theorem test_decode_fft_chan :
    decode .consumer ⟨0x0000000000000441#64, []⟩ =
      .ok (.fftChan .noise) := by decide +kernel

/-- V-ENC-1 and V-ERR-2. -/
theorem test_decode_illegal :
    decode .producer ⟨0x00000000000000FF#64, []⟩ = .error .unknownOp ∧
    decode .producer ⟨0x0000000000000310#64, []⟩ = .error .badSelector ∧
    decode .producer ⟨0x0000000000000D30#64, [0#64]⟩ = .error .badSelector ∧
    decode .producer ⟨0x0000000100000003#64, []⟩ = .error .unexpectedCount ∧
    decode .producer ⟨0x0000000000000005#64, []⟩ = .error .badLength ∧
    decode .producer ⟨0x0000000100000004#64, [0x99#64, 0#64]⟩ = .error .malformedRecord ∧
    decode .producer ⟨0x0000000100000004#64, [0x0000000100000014#64, 0#64]⟩ = .error .malformedRecord ∧
    decode .producer ⟨0x000000000000003A#64, []⟩ = .error .wrongPort ∧
    decode .consumer ⟨0x0000000000000005#64, [0#64]⟩ = .error .wrongPort ∧
    decode .producer ⟨0x0000000000010005#64, [0#64]⟩ = .error .reservedBits := by decide +kernel

/-! ## Single steps -/

/-- V-CTL-1, V-ERR-1. -/
theorem test_init_exact :
    obs (exec (.init 1040004#64 10000#64) State.reset) (fun t => t.ctl.initialised && decide (t.ctl.snapshotPoints = 10000)) =
      some (true) ∧
    obs (exec (.init 1040003#64 10000#64) State.reset) (fun t => (t.ctl.initialised, lastEvent t)) =
      some ((false, [0x00000001000001EE#64, 3#64])) := by decide +kernel

/-- V-ERR-1; R343. -/
theorem test_start_corner :
    obs (exec (.start pZero [.scalar .lpfCutoffFrequency 0x40DD4C0000000000#64]) idle) (fun t => (t.ctl.running, lastEvent t)) =
      some ((false, [0x00000001000002EE#64, 1#64])) ∧
    obs (exec (.start 0x4014000000000000#64 []) idle) (fun t => (t.ctl.running, t.chain.lastSampleTime, t.params.sampleRate)) =
      some ((true, 0x4014000000000000#64, 0x40E86A0000000000#64)) := by decide +kernel

/-- R345. -/
theorem test_stop_clears :
    obs (exec (.stop) { live with chain := { live.chain with oscRef := cOne, lpfI := [zeroSection ⟨cOne, cOne, cOne, cOne, cOne⟩] } }) (fun t => (t.ctl.running, t.chain.oscRef, t.chain.lpfI)) =
      some ((false, pZero, [])) := by decide +kernel

/-- V-VAL-1. -/
theorem test_update_phase_shift :
    obs (exec (.update [.scalar .phaseShift 0xC03E000000000000#64]) live) (fun t => t.params.phaseShift) =
      some (0x4074A00000000000#64) ∧
    obs (exec (.update [.scalar .phaseShift 0x4086A80000000000#64]) live) (fun t => t.params.phaseShift) =
      some (0x4014000000000000#64) ∧
    obs (exec (.update [.scalar .phaseShift 0x4076800000000000#64]) live) (fun t => t.params.phaseShift) =
      some (0x0000000000000000#64) ∧
    obs (exec (.update [.scalar .phaseShift 0xBBC79CA10C924223#64]) live) (fun t => t.params.phaseShift) =
      some (0x0000000000000000#64) := by decide +kernel

/-- V-ERR-1; nothing of a failed update is applied. -/
theorem test_update_corner :
    obs (exec (.update [.scalar .bpfCenterFrequency 0x40D86A0000000000#64, .scalar .phaseShift 0x4046800000000000#64]) live) (fun t => (t.params.phaseShift, lastEvent t)) =
      some ((pZero, [0x00000001000004EE#64, 1#64])) := by decide +kernel

/-- V-TICK-2, V-TICK-1. -/
theorem test_tick_due :
    live.tickSamples 0x3F947A9E2BCF91A3#64 = 0 ∧
    live.tickSamples 0x3F947AE147AE147B#64 = 1 ∧
    live.tickSamples 0x3FAEB851EB851EB8#64 = 2 ∧
    live.tickSamples 0x408F400000000000#64 = 2000 ∧
    live.publishDue 0x4040800000000000#64 = false ∧
    live.publishDue 0x4040AAAAAAAAAAAB#64 = true := by decide +kernel

/-- V-TICK-3, V-ERR-1. -/
theorem test_tick_lifecycle :
    obs (exec (.tick 0x4059000000000000#64) idle) (fun t => (t.chain.lastSampleTime, t.ports.events)) =
      some ((pZero, [])) ∧
    obs (exec (.tick 0x4059000000000000#64) blank) (fun t => lastEvent t) =
      some ([0x00000001000005EE#64, 2#64]) := by decide +kernel

/-- R272: the time channel is `sampleCount/fs` before the increment. -/
theorem test_sample_counts :
    obs (exec (.sample) { idle with chain := { idle.chain with sampleCount := 3#64 } }) (fun t => (t.chain.sampleCount, t.chain.avgCount, t.chain.v.time, t.rings.time.n, t.rings.reference.w)) =
      some ((4#64, 1#64, 0x3F0F75104D551D69#64, 1, 1)) := by decide +kernel

/-- V-SNAP-1 before the snapshot: full rings of eight, `fs = 8`. -/
def snapState : State :=
  { idle with
    params := { idle.params with ringCapacity := 8, sampleRate := 0x4020000000000000#64 }
    rings := PerChan.const { w := 0, n := 8, cells := (List.range 8).map (fun k =>
      (k, f64ToF32 (fdiv (natToF64 k) (natToF64 8)))) }
    chain := { idle.chain with iSum := cTwo, avgCount := 4#64 } }

/-- V-SNAP-1. -/
theorem test_snap_vector :
    obs (exec (.snap) snapState) (fun t => (lastEvent t, (List.range 4).map (fun k => memRead32 t.shm (elemAddr 4 .b .time k)),
      memRead32 t.shm 0, t.chain.avgCount, t.chain.iSum)) =
      some ([0x00000006000000E0#64, 0x3FE0000000000000#64, pZero, 0x3FE0000000000000#64, pZero, 0x4010000000000000#64, 4#64],
      [0x00000000#32, 0x3E800000#32, 0x3F000000#32, 0x3F400000#32], 1#32, 0#64, pZero) := by decide +kernel

/-- V-OSC-7. -/
theorem test_osc_phase :
    obs (exec (.oscPhase .ref) { idle with chain := { idle.chain with oscRef := cOne } }) (fun t => (lastResp t, t.chain.oscRef)) =
      some ([0x0000000100000010#64, cOne], cOne) := by decide +kernel

/-- V-OSC-7: not wrapped. -/
theorem test_osc_phaseof :
    obs (exec (.oscPhaseof .ref 0x4018000000000000#64) { idle with chain := { idle.chain with oscRef := cOne } }) (fun t => (lastResp t, t.chain.oscRef)) =
      some ([0x0000000100000011#64, 0x401C000000000000#64], cOne) := by decide +kernel

/-- V-OSC-1, V-OSC-2. -/
theorem test_osc_sine :
    obs (exec (.oscSine .ref 0x4059000000000000#64 cOne) idle) (fun t => (lastResp t, t.chain.oscRef)) =
      some ([0x0000000100000012#64, pZero], 0x3F89BC65B68B71C3#64) := by decide +kernel

/-- V-OSC-3, first sample. -/
theorem test_osc_square :
    obs (exec (.oscSquare .mod 0x4059000000000000#64 cOne) idle) (fun t => (lastResp t, t.chain.oscMod, t.chain.oscRef)) =
      some ([0x0000000100000113#64, pZero], 0x3F89BC65B68B71C3#64, pZero) := by decide +kernel

/-- V-OSC-5, V-OSC-1. -/
theorem test_osc_advance :
    obs (exec (.oscAdvance .ref 0x40FE848000000000#64) idle) (fun t => t.chain.oscRef) =
      some (0x400921FB54442D18#64) ∧
    obs (exec (.oscAdvance .ref 0xC059000000000000#64) idle) (fun t => t.chain.oscRef) =
      some (0x4019151D2168E75F#64) ∧
    obs (exec (.oscAdvance .ref pZero) { idle with chain := { idle.chain with oscRef := cOne } }) (fun t => t.chain.oscRef) =
      some (cOne) := by decide +kernel

/-- V-OSC-7. -/
theorem test_osc_reset :
    obs (exec (.oscReset .mod) { idle with chain := { idle.chain with oscRef := cOne, oscMod := cOne } }) (fun t => (t.chain.oscRef, t.chain.oscMod)) =
      some ((cOne, pZero)) := by decide +kernel

/-- V-OSC-4. -/
theorem test_wrap2Pi :
    wrap2Pi 0xBFE0000000000000#64 = 0x401721FB54442D18#64 ∧
    wrap2Pi 0x401C000000000000#64 = 0x3FE6F0255DDE9740#64 ∧
    wrap2Pi cTwoPi = pZero ∧
    wrap2Pi 0xBC670EF54646D497#64 = pZero ∧
    wrap2Pi nZero = pZero := by decide +kernel

/-- V-NOI-3. -/
theorem test_noise_gauss_zero :
    obs (exec (.noiseGauss nZero) { idle with chain := { idle.chain with hasSpare := true, spare := cOne } }) (fun t => (lastResp t, t.free.drawPos, t.chain.hasSpare, t.chain.spare)) =
      some ([0x0000000100000018#64, pZero], 0, true, cOne) := by decide +kernel

/-- V-NOI-1, second call. -/
theorem test_noise_gauss_spare :
    obs (exec (.noiseGauss 0x4008000000000000#64) { idle with chain := { idle.chain with hasSpare := true, spare := 0x3FEAA4499161CD47#64 } }) (fun t => (lastResp t, t.free.drawPos, t.chain.hasSpare)) =
      some ([0x0000000100000018#64, 0x4003FB372D0959F5#64], 0, false) := by decide +kernel

/-- R142: one draw, the spare kept. -/
theorem test_noise_uniform :
    obs (exec (.noiseUniform) { idle with chain := { idle.chain with hasSpare := true } }) (fun t => (t.ports.pResp.length, t.free.drawPos, t.chain.hasSpare)) =
      some ((1, 1, true)) := by decide +kernel

/-- V-INT-1: same frequency, another id. -/
theorem test_intf_install_in_place :
    obs (exec (.intfInstall [⟨9#64, 0x4049000000000000#64, 0x3FE0000000000000#64⟩]) { idle with chain := { idle.chain with bank := [⟨0x4049000000000000#64, 0x3FC999999999999A#64, cOne⟩] } }) (fun t => (t.chain.bank, t.free.drawPos)) =
      some ([⟨0x4049000000000000#64, 0x3FE0000000000000#64, cOne⟩], 0) := by decide +kernel

/-- V-INT-1: another frequency. -/
theorem test_intf_install_rebuild :
    obs (exec (.intfInstall [⟨9#64, 0x404E000000000000#64, 0x3FE0000000000000#64⟩]) { idle with chain := { idle.chain with bank := [⟨0x4049000000000000#64, 0x3FC999999999999A#64, cOne⟩] } }) (fun t => (t.chain.bank.map (fun e => (e.freq, e.amp)), t.free.drawPos)) =
      some ([(0x404E000000000000#64, 0x3FE0000000000000#64)], 1) := by decide +kernel

/-- V-INT-2, first call. -/
theorem test_intf_gen :
    obs (exec (.intfGen) { idle with
      params := { idle.params with sampleRate := 0x40AF400000000000#64 }
      chain := { idle.chain with bank := [⟨0x408F400000000000#64, 0x3FE0000000000000#64, pZero⟩] } }) (fun t => (lastResp t, t.chain.bank)) =
      some ([0x000000010000001B#64, pZero], [⟨0x408F400000000000#64, 0x3FE0000000000000#64, 0x3FF921FB54442D18#64⟩]) := by decide +kernel

/-- V-BQ-1, second sample. -/
theorem test_bq_proc :
    obs (exec (.bqProc .lpfI 0x0000000000000000#64) { idle with chain := { idle.chain with lpfI := [⟨⟨0x3FD0000000000000#64, 0x3FE0000000000000#64, 0x3FD0000000000000#64, 0xBFE0000000000000#64, 0x3FD0000000000000#64⟩, 0x3FF0000000000000#64, 0x0000000000000000#64, 0x3FD0000000000000#64, 0x0000000000000000#64⟩] } }) (fun t => (lastResp t, t.chain.lpfI)) =
      some ([0x0000000100000120#64, 0x3FE4000000000000#64],
      [⟨⟨0x3FD0000000000000#64, 0x3FE0000000000000#64, 0x3FD0000000000000#64, 0xBFE0000000000000#64, 0x3FD0000000000000#64⟩, 0x0000000000000000#64, 0x3FF0000000000000#64, 0x3FE4000000000000#64, 0x3FD0000000000000#64⟩]) := by decide +kernel

/-- R193. -/
theorem test_bq_reset :
    obs (exec (.bqReset .lpfI) { idle with chain := { idle.chain with lpfI := [⟨⟨0x3FF0000000000000#64, 0x0000000000000000#64, 0x0000000000000000#64, 0xBFE0000000000000#64, 0x0000000000000000#64⟩, 0x3FF0000000000000#64, 0x4000000000000000#64, 0x4008000000000000#64, 0x4010000000000000#64⟩] } }) (fun t => t.chain.lpfI) =
      some ([⟨⟨0x3FF0000000000000#64, 0x0000000000000000#64, 0x0000000000000000#64, 0xBFE0000000000000#64, 0x0000000000000000#64⟩, 0x0000000000000000#64, 0x0000000000000000#64, 0x0000000000000000#64, 0x0000000000000000#64⟩]) := by decide +kernel

/-- V-BQ-3: the count matches. -/
theorem test_bq_repl_keeps :
    obs (exec (.bqRepl .lpfI [⟨0x3FF0000000000000#64, 0x0000000000000000#64, 0x0000000000000000#64, 0x0000000000000000#64, 0x0000000000000000#64⟩]) { idle with chain := { idle.chain with lpfI := [⟨⟨0x3FD0000000000000#64, 0x3FE0000000000000#64, 0x3FD0000000000000#64, 0xBFE0000000000000#64, 0x3FD0000000000000#64⟩, 0x3FF0000000000000#64, 0x0000000000000000#64, 0x3FD0000000000000#64, 0x0000000000000000#64⟩] } }) (fun t => t.chain.lpfI) =
      some ([⟨⟨0x3FF0000000000000#64, 0x0000000000000000#64, 0x0000000000000000#64, 0x0000000000000000#64, 0x0000000000000000#64⟩, 0x3FF0000000000000#64, 0x0000000000000000#64, 0x3FD0000000000000#64, 0x0000000000000000#64⟩]) := by decide +kernel

/-- V-BQ-3: the count changes. -/
theorem test_bq_repl_rebuilds :
    obs (exec (.bqRepl .lpfI [⟨0x3FF0000000000000#64, 0x0000000000000000#64, 0x0000000000000000#64, 0x0000000000000000#64, 0x0000000000000000#64⟩, ⟨0x3FF0000000000000#64, 0x0000000000000000#64, 0x0000000000000000#64, 0x0000000000000000#64, 0x0000000000000000#64⟩]) { idle with chain := { idle.chain with lpfI := [⟨⟨0x3FD0000000000000#64, 0x3FE0000000000000#64, 0x3FD0000000000000#64, 0xBFE0000000000000#64, 0x3FD0000000000000#64⟩, 0x3FF0000000000000#64, 0x0000000000000000#64, 0x3FD0000000000000#64, 0x0000000000000000#64⟩] } }) (fun t => (t.chain.lpfI.map (fun z => (z.x1, z.y1)))) =
      some ([(pZero, pZero), (pZero, pZero)]) := by decide +kernel

/-- V-MIX-1. -/
theorem test_mix_analog :
    obs (exec (.mix .analog 0x4000000000000000#64 pZero pZero) idle) (fun t => lastResp t) =
      some ([0x0000000200000028#64, pZero, 0x4000000000000000#64]) := by decide +kernel

/-- V-MIX-2. -/
theorem test_mix_digital :
    obs (exec (.mix .digital 0x4000000000000000#64 pZero cOne) idle) (fun t => lastResp t) =
      some ([0x0000000200000128#64, pZero, 0x3FF45F306DC9C883#64]) ∧
    obs (exec (.mix .digital 0x4000000000000000#64 cOne cMinusOne) idle) (fun t => lastResp t) =
      some ([0x0000000200000128#64, pZero, pZero]) := by decide +kernel

/-- V-DUT-2: `osc[1]` advances though the index is 0. -/
theorem test_dut_gen :
    obs (exec (.dutGen) { idle with
      params := { idle.params with sampleRate := 0x40AF400000000000#64, modulatingFrequency := 0x408F400000000000#64, modulationIndex := pZero }
      chain := { idle.chain with oscMod := 0x3FF921FB54442D18#64 } }) (fun t => (lastResp t, t.chain.oscMod)) =
      some ([0x0000000400000029#64, pZero, pZero, pZero, pZero], cPi) := by decide +kernel

/-- V-RING-1: the oldest is overwritten. -/
theorem test_ring_push :
    obs (exec (.ringPush .reference 0x4014000000000000#64) { idle with
      params := { idle.params with ringCapacity := 4 }
      rings := idle.rings.set .reference { w := 0, n := 4, cells := [(0, 0x3F800000#32), (1, 0x40000000#32), (2, 0x40400000#32), (3, 0x40800000#32)] } }) (fun t => t.rings.reference) =
      some ({ w := 1, n := 4, cells := [(0, 0x40A00000#32), (1, 0x40000000#32), (2, 0x40400000#32), (3, 0x40800000#32)] }) := by decide +kernel

/-- V-RING-4. -/
theorem test_ring_push_rounds :
    f64ToF32 0x3FB999999999999A#64 = 0x3DCCCCCD#32 ∧
    f64ToF32 0x3FD5555555555555#64 = 0x3EAAAAAB#32 ∧
    f64ToF32 0x4170000010000000#64 = 0x4B800000#32 ∧
    f64ToF32 0x48078287F49C4A1D#64 = 0x7F800000#32 ∧
    f64ToF32 0x366244CE242C5561#64 = 0x00000000#32 ∧
    f64ToF32 0x8000000000000000#64 = 0x80000000#32 ∧
    f32ToF64 0x3DCCCCCD#32 = 0x3FB99999A0000000#64 := by decide +kernel

/-- V-RING-2, V-ENC-1. -/
theorem test_ring_snap :
    obs (exec (.ringSnap .reference 2#64) { idle with
      params := { idle.params with ringCapacity := 4 }
      rings := idle.rings.set .reference { w := 1, n := 4, cells := [(0, 0x40A00000#32), (1, 0x40000000#32), (2, 0x40400000#32), (3, 0x40800000#32)] } }) (fun t => lastResp t) =
      some ([0x0000000300000031#64, 2#64, 0x4000000000000000#64, 0x4010000000000000#64]) ∧
    obs (exec (.ringSnap .reference 3#64) { idle with
      params := { idle.params with ringCapacity := 4 }
      rings := idle.rings.set .reference { w := 1, n := 4, cells := [(0, 0x40A00000#32), (1, 0x40000000#32), (2, 0x40400000#32), (3, 0x40800000#32)] } }) (fun t => lastResp t) =
      some ([0x0000000300000031#64, 2#64, 0x4000000000000000#64, 0x4010000000000000#64]) ∧
    obs (exec (.ringSnap .reference 100#64) { idle with
      params := { idle.params with ringCapacity := 4 }
      rings := idle.rings.set .reference { w := 1, n := 4, cells := [(0, 0x40A00000#32), (1, 0x40000000#32), (2, 0x40400000#32), (3, 0x40800000#32)] } }) (fun t => lastResp t) =
      some ([0x0000000500000031#64, 4#64, 0x4000000000000000#64, 0x4008000000000000#64,
      0x4010000000000000#64, 0x4014000000000000#64]) ∧
    obs (exec (.ringSnap .reference 0#64) { idle with
      params := { idle.params with ringCapacity := 4 }
      rings := idle.rings.set .reference { w := 1, n := 4, cells := [(0, 0x40A00000#32), (1, 0x40000000#32), (2, 0x40400000#32), (3, 0x40800000#32)] } }) (fun t => lastEvent t) =
      some ([0x00000001000031EE#64, 4#64]) := by decide +kernel

/-- V-RING-5. -/
theorem test_ring_clear :
    obs (exec (.ringClear .reference) { idle with
      params := { idle.params with ringCapacity := 4 }
      rings := idle.rings.set .reference { w := 1, n := 4, cells := [(0, 0x40A00000#32), (1, 0x40000000#32), (2, 0x40400000#32), (3, 0x40800000#32)] } }) (fun t => (t.rings.reference.w, t.rings.reference.n)) =
      some ((0, 0)) := by decide +kernel

/-- V-DB-1, V-MEM-2. -/
theorem test_db_publish :
    obs (exec (.dbPub) (State.reset.wired 1040004 10000)) (fun t => t.shm) =
      some ([(0, 1#8)]) ∧
    obs (exec (.dbAcqw) (State.reset.wired 1040004 10000)) (fun t => lastResp t) =
      some ([0x0000000200000038#64, 1#64, 0x000000000007EF44#64]) ∧
    obs (exec (.dbAcqr) (State.reset.wired 1040004 10000)) (fun t => lastCResp t) =
      some ([0x000000020000003A#64, 0#64, 4#64]) := by decide +kernel

/-- V-MEM-1. -/
theorem test_layout :
    elemAddr 10000 .a .reference 0 = 4 ∧
    elemAddr 10000 .a .time 0 = 480004 ∧
    elemAddr 10000 .b .iOutput 9999 = 920000 ∧
    bytesNeeded 4 = 420 := by decide +kernel

/-- V-FFT-5; no INIT is needed. -/
theorem test_fft_run_short :
    obs (exec (.fftRun 0x4050000000000000#64 (List.replicate 63 cOne)) blank) (fun t => lastCResp t) =
      some ([0x0000000100000040#64, 0#64]) := by decide +kernel

/-- V-FFT-1, V-FFT-6, V-FFT-8. -/
theorem test_fft_run_length :
    obs (exec (.fftRun 0x4050000000000000#64 (List.replicate 64 cOne)) blank) (fun t => ((lastCResp t).take 2, (lastCResp t).length, t.cons.fftN)) =
      some ([0x0000004100000040#64, 32#64], 66, 64) ∧
    binFrequency 1024 0x40B3880000000000#64 511 = 0x40A37E3C00000000#64 ∧
    (revBits 6 3, revBits 6 6, revBits 10 3) = (48, 24, 768) := by decide +kernel

/-- V-FFT-7: before any FrameReady. -/
theorem test_fft_chan_empty :
    obs (exec (.fftChan .sensor) idle) (fun t => lastCResp t) =
      some ([0x0000000100000541#64, 0#64]) := by decide +kernel

/-- V-ERR-1. -/
theorem test_illegal_message :
    obs (runMessage .producer ⟨0x0000000000010003#64, []⟩ blank) lastEvent =
      some ([0x00000001000003EE#64, 4#64]) := by decide +kernel

/-- V-W180-1. -/
theorem test_wrap180 :
    wrap180 0x4066800000000000#64 = 0x4066800000000000#64 ∧
    wrap180 0xC066800000000000#64 = 0x4066800000000000#64 ∧
    wrap180 0x4066A00000000000#64 = 0xC066600000000000#64 ∧
    wrap180 0xC080E00000000000#64 = 0x4066800000000000#64 ∧
    wrap180 0x4076780000000000#64 = 0xBFE0000000000000#64 ∧
    wrap180 0xC080DF3333333333#64 = 0xC0667CCCCCCCCCCC#64 := by decide +kernel

/-- V-OSC-2, R324 (`log10(1e−10) = −10`) and the mathematical values: the accurate functions. -/
theorem test_accurate :
    refSin 0x3F89BC65B68B71C3#64 = 0x3F89BC3952B6BECC#64 ∧
    refSin pZero = pZero ∧ refCos pZero = cOne ∧ refCos cPi = cMinusOne ∧
    refAtan2 cOne cMinusOne = cThreeQuarterPi ∧ refLog10 cMagFloor = cMinusTen ∧
    refLn cTwo = 0x3FE62E42FEFA39EF#64 := by decide +kernel

/-- The tolerance of R12 at `sin(1)`, at `cos(PI/2)` and at `atan2(+0.5, −1e30)`, whose angle rounds to PI:
values off by half of it are accepted, values off by more, infinities and NaNs are not. -/
theorem test_tolerance :
    nearSin cOne 0x3FEAED5565C8A1C4#64 = true ∧ nearSin cOne 0x3FEAED56DD97E63A#64 = false ∧
    nearCos cHalfPi 0x3E9AD7F29ABCAF48#64 = true ∧ nearCos cHalfPi cOne = false ∧
    (sineOk pInf && nearCos cHalfPi pInf) = false ∧ nearCos cHalfPi 0x3C91A62633145C07#64 = true ∧
    refAtan2 cHalf 0xC6293E5939A08CEA#64 = cPi ∧
    inHalfTurn 0x400921FB89F4124D#64 = false ∧ nearTan cPi cOne = false := by decide +kernel

/-- R324: `log10` has no value below −10 from the floor on, and `+∞` at `+∞`. -/
theorem test_log10 : numLog10 cMagFloor = cMinusTen ∧ numLog10 pInf = pInf ∧
    log10Ok 0x3DDB7CE007F5A847#64 0xC0240000035AFE53#64 = false := by decide +kernel

/-- The channel of V-TRG-1. -/
def trgChannel : List F64 :=
  [
    0xBFF0000000000000#64, 0xBFE0000000000000#64, 0x0000000000000000#64,
    0x3FE0000000000000#64, 0xBFF0000000000000#64, 0x3FF0000000000000#64]

/-- The time channel of V-TRG-1. -/
def trgTime : List F64 :=
  [
    0x0000000000000000#64, 0x3FF0000000000000#64, 0x4000000000000000#64,
    0x4008000000000000#64, 0x4010000000000000#64, 0x4014000000000000#64]

/-- V-TRG-1. -/
theorem test_trig_search :
    trigSearch trgChannel trgTime 6 pZero 0x0000000000000000#64 0x4014000000000000#64 = some (2, 0x4000000000000000#64) ∧
    trigSearch trgChannel trgTime 6 pZero 0x4008000000000000#64 0x4014000000000000#64 = some (5, 0x4014000000000000#64) ∧
    trigSearch trgChannel trgTime 6 pZero 0x4008000000000000#64 0x4010000000000000#64 = none := by decide +kernel

/-! ## Witnesses: concrete states and operands that meet the hypotheses of the statements -/

/-- Messages waiting on the P-port. -/
def withP (s : State) (l : List Message) : State := { s with ports := { s.ports with pPort := l } }

theorem idle_inv : idle.Inv where
  build := by decide
  memory := by decide
  flag := by decide
  lifecycle := by decide
  views := by decide
  points := by decide
  room := by decide
  capacityMax := by decide
  capacity := by decide
  oscRef := by decide +kernel
  oscMod := by decide +kernel
  rings := by intro c; cases c <;> decide
  sections := by intro b; cases b <;> decide
  bank := by decide
  held := by decide
  params :=
    { sampleRate := by decide +kernel
      snapshotRate := by decide +kernel
      referenceFrequency := by decide +kernel
      referenceAmplitude := by decide +kernel
      modulatingFrequency := by decide +kernel
      modulationIndex := by decide +kernel
      phaseShift := by decide +kernel
      sensorOutputAmplitude := by decide +kernel
      whiteNoiseAmplitude := by decide +kernel
      interferers := by decide
      bpfCenterFrequency := by decide +kernel
      bpfBandwidth := by decide +kernel
      lpfCutoffFrequency := by decide +kernel }
  work := by decide +kernel

theorem live_inv : live.Inv := { idle_inv with lifecycle := fun _ => rfl }

/-- A result that can be observed is a next state. -/
theorem next_of_obs {r : Result} (h : obs r (fun _ => ()) = some ()) : ∃ t, r = .next t := by
  cases r with
  | next t => exact ⟨t, rfl⟩
  | fault f => cases h
  | refused f => cases h

theorem witness_withP_inv (l : List Message) : (withP live l).Inv :=
  { live_inv with lifecycle := fun _ => rfl }

/-- StepKeepsInv: a state with the invariant whose step answers a next state. -/
theorem witness_stepKeepsInv : (withP live [⟨0x15#64, []⟩]).Inv ∧
    ∃ t, step (withP live [⟨0x15#64, []⟩]) = .next t := 
  ⟨witness_withP_inv _, next_of_obs (by decide +kernel)⟩

/-- DecodeOfEncode. -/
theorem witness_decodeOfEncode : Instr.WellFormed (.update [.interferers [⟨1#64, cOne, cOne⟩]]) = true :=
  by decide

/-- EncodeOfDecode. -/
theorem witness_encodeOfDecode : decode .producer ⟨0x0000000000000C30#64, [pZero]⟩ =
    .ok (.ringPush .time pZero) := by decide +kernel

/-- IllegalHeaders: an unlisted code, reserved bits set (lowest and highest), and a wrong port. -/
theorem witness_illegalHeaders : (∀ op : Opcode, op.code ≠ opField 0x08#64) ∧
    rsvField 0x10003#64 ≠ 0#16 ∧ rsvField 0x80000003#64 ≠ 0#16 ∧
    Instr.WellFormed .dbAcqr = true ∧ Port.producer ≠ Instr.port .dbAcqr :=
  ⟨fun op => by cases op <;> decide, by decide, by decide, by decide, by decide⟩

/-- A consumer message waiting, the consumer on turn. -/
def cTurn : State :=
  { idle with
    ports := { idle.ports with cPort := [⟨0x3A#64, []⟩] }
    free := { idle.free with choice := { idle.free.choice with turn := .consumer } } }

/-- StepRunsDecoded, every clause: messages that decode, and messages that do not (a reserved code, the wrong port). -/
theorem witness_stepRunsDecoded :
    ((withP live [⟨0x03#64, []⟩]).free.choice.turn = .producer ∧
      (withP live [⟨0x03#64, []⟩]).ports.pPort = ⟨0x03#64, []⟩ :: [] ∧
      decode .producer ⟨0x03#64, []⟩ = .ok .stop) ∧
    (cTurn.free.choice.turn = .consumer ∧ cTurn.free.task = none ∧
      cTurn.ports.cPort = ⟨0x3A#64, []⟩ :: [] ∧ decode .consumer ⟨0x3A#64, []⟩ = .ok .dbAcqr) ∧
    decode .producer ⟨0x08#64, []⟩ = .error .unknownOp ∧
    decode .consumer ⟨0x03#64, []⟩ = .error .wrongPort := by
  decide +kernel

/-- IllegalMessageRaises. -/
theorem witness_illegalMessageRaises :
    decode .consumer ⟨0x05#64, [pZero]⟩ = .error .wrongPort := by decide +kernel

/-- An interferer. -/
def tone : Interferer := ⟨1#64, 0x4049000000000000#64, cOne⟩

/-- The coefficients of the identity. -/
def unit : Coeffs := ⟨cOne, pZero, pZero, pZero, pZero⟩

/-- IllegalOperandRaises: each check just beyond its limit. -/
theorem witness_illegalOperandRaises :
    operandsOk smallBuild (.init 420#64 0#64) = false ∧
    operandsOk smallBuild (.init 420#64 5#64) = false ∧
    operandsOk smallBuild (.intfInstall [tone, tone, tone]) = false ∧
    operandsOk smallBuild (.bqRepl .bpf [unit, unit, unit]) = false ∧
    operandsOk smallBuild (.ringSnap .time 0#64) = false := by decide

/-- NotInitializedRaises: the operands just inside their limits. -/
theorem witness_notInitializedRaises : blank.ctl.initialised = false ∧
    needsInit (.ringSnap .time 1#64) = true ∧ operandsOk blank.build (.ringSnap .time 1#64) = true ∧
    needsInit (.bqRepl .bpf [unit, unit]) = true ∧
    operandsOk blank.build (.bqRepl .bpf [unit, unit]) = true ∧
    needsInit (.intfInstall [tone, tone]) = true ∧
    operandsOk blank.build (.intfInstall [tone, tone]) = true := by decide

/-- LifecycleDrops: both clauses, `p` at both ends of its range. -/
theorem witness_lifecycleDrops : live.ctl.initialised = true ∧ live.ctl.running = true ∧
    (4#64 : Word) ≠ 0#64 ∧ (4#64 : Word).toNat ≤ live.build.snapMax ∧
    (1#64 : Word) ≠ 0#64 ∧ (1#64 : Word).toNat ≤ live.build.snapMax ∧
    idle.ctl.initialised = true ∧ idle.ctl.running = false := by decide

/-- InitWires: the smallest regions that fit one and four points. -/
theorem witness_initWires : blank.ctl.running = false ∧
    (4#64 : Word) ≠ 0#64 ∧ (4#64 : Word).toNat ≤ blank.build.snapMax ∧
    4 + 104 * (4#64 : Word).toNat ≤ min (420#64 : Word).toNat blank.build.shmBytes ∧
    4 + 104 * (1#64 : Word).toNat ≤ min (108#64 : Word).toNat blank.build.shmBytes := by decide

/-- InitRefusesSmallRegion: one byte less. -/
theorem witness_initRefusesSmallRegion : blank.ctl.running = false ∧
    (4#64 : Word) ≠ 0#64 ∧ (4#64 : Word).toNat ≤ blank.build.snapMax ∧
    min (419#64 : Word).toNat blank.build.shmBytes < 4 + 104 * (4#64 : Word).toNat ∧
    min (107#64 : Word).toNat blank.build.shmBytes < 4 + 104 * (1#64 : Word).toNat := by decide

/-- StartBuilds: the designs of the defaults succeed. -/
theorem witness_startBuilds : idle.ctl.initialised = true ∧ idle.ctl.running = false ∧
    ∃ bpf lpf,
      (let cand := startParams idle.build idle.ctl.snapshotPoints []
       designBPF cand.bpfCenterFrequency cand.bpfBandwidth cand.bpfOrder cand.sampleRate = some bpf ∧
       designLPF cand.lpfCutoffFrequency cand.lpfOrder cand.sampleRate = some lpf) :=
  ⟨rfl, rfl, _, _, rfl, rfl⟩

/-- ValidationLeavesLegal. -/
theorem witness_validationLeavesLegal : Params.default.Legal := { idle_inv.params with }

/-- A running block whose held band-pass centre is `fc`. -/
def withCentre (fc : F64) : State :=
  { live with params := { live.params with bpfCenterFrequency := fc } }

/-- InvalidCornerRefuses: START with each corner at `fs/2`; UPDATE with each corner at `fs/2`, and with a
centre of zero that no validation leaves. -/
theorem witness_invalidCornerRefuses :
    idle.ctl.initialised = true ∧ idle.ctl.running = false ∧ live.ctl.running = true ∧
    (let cand := startParams idle.build idle.ctl.snapshotPoints
       [.scalar .bpfCenterFrequency 0x40D86A0000000000#64]
     fle (fdiv cand.sampleRate cTwo) cand.bpfCenterFrequency = true) ∧
    (let cand := startParams idle.build idle.ctl.snapshotPoints
       [.scalar .lpfCutoffFrequency 0x40D86A0000000000#64]
     fle (fdiv cand.sampleRate cTwo) cand.lpfCutoffFrequency = true) ∧
    (let cand := applyRecords live.build live.ctl.snapshotPoints false live.params
       [.scalar .bpfCenterFrequency 0x40D86A0000000000#64]
     bpfChanged live.params cand = true ∧
       fle (fdiv live.params.sampleRate cTwo) cand.bpfCenterFrequency = true) ∧
    (let cand := applyRecords live.build live.ctl.snapshotPoints false live.params
       [.scalar .lpfCutoffFrequency 0x40D86A0000000000#64]
     lpfChanged live.params cand = true ∧
       fle (fdiv live.params.sampleRate cTwo) cand.lpfCutoffFrequency = true) ∧
    (let s := withCentre pZero
     let cand := applyRecords s.build s.ctl.snapshotPoints false s.params [.scalar .bpfOrder 4#64]
     bpfChanged s.params cand = true ∧ fle cand.bpfCenterFrequency pZero = true) := by
  decide +kernel

/-- StopTearsDown, SampleProduces, the oscillator, noise, interferer, mixer, DUT and ring statements: an
initialised block, running or not. -/
theorem witness_initialised : idle.ctl.initialised = true ∧ live.ctl.initialised = true := by decide

/-- A running block with one installed interferer. -/
def liveTone : State :=
  { live with
    params := { live.params with interferers := [tone] }
    chain := { live.chain with bank := [⟨tone.frequency, tone.amplitude, cOne⟩] } }

/-- The candidate parameters of an UPDATE of `liveTone`. -/
def candOf (rs : List ParamRecord) : Params :=
  applyRecords liveTone.build liveTone.ctl.snapshotPoints false liveTone.params rs

/-- UpdateApplies: a soft update (no list), an amplitude in place, a list with a NaN and one too long (both
dropped), a rebuilt list, and a changed filter
whose corner is valid (just under `fs/2`). -/
theorem witness_updateApplies :
    liveTone.ctl.initialised = true ∧ liveTone.ctl.running = true ∧
    bpfChanged liveTone.params (candOf [.scalar .phaseShift cOne]) = false ∧
    lpfChanged liveTone.params (candOf [.scalar .phaseShift cOne]) = false ∧
    resetClass liveTone.params (candOf [.scalar .phaseShift cOne]) false = false ∧
    ([{ tone with amplitude := cTwo }].length ≤ liveTone.build.maxInterferers ∧
      isNaN tone.frequency = false ∧ isNaN cTwo = false) ∧
    givesList liveTone.build (.interferers [{ tone with amplitude := 0x7FF8000000000000#64 }]) = false ∧
    givesList liveTone.build (.interferers [tone, tone, tone]) = false ∧
    sameFrequencies (candOf [.interferers [{ tone with amplitude := cTwo }]]).interferers
      liveTone.chain.bank = true ∧
    sameFrequencies (candOf [.interferers [tone, tone]]).interferers liveTone.chain.bank = false ∧
    bpfChanged liveTone.params (candOf [.scalar .bpfCenterFrequency 0x40D869C000000000#64]) = true ∧
    invalidCorner (candOf [.scalar .bpfCenterFrequency 0x40D869C000000000#64]).bpfCenterFrequency
      liveTone.params.sampleRate = false ∧
    lpfChanged liveTone.params (candOf [.scalar .lpfOrder 4#64]) = true ∧
    invalidCorner (candOf [.scalar .lpfOrder 4#64]).lpfCutoffFrequency
      liveTone.params.sampleRate = false := by decide +kernel

/-- The block with both counters one before their largest value. -/
def countersHigh : State :=
  { idle with chain := { idle.chain with
      sampleCount := 0xFFFFFFFFFFFFFFFE#64, avgCount := 0xFFFFFFFFFFFFFFFE#64 } }

/-- SampleProduces and SamplesCount: the counters at the end of their range. -/
theorem witness_counters : countersHigh.ctl.initialised = true ∧
    countersHigh.chain.avgCount.toNat + 1 < 2 ^ 64 ∧
    countersHigh.chain.sampleCount.toNat + 1 < 2 ^ 64 := by decide

theorem snapState_inv : snapState.Inv :=
  { idle_inv with
    capacityMax := by decide
    capacity := by decide
    rings := by intro c; cases c <;> decide
    params := { idle_inv.params with sampleRate := by decide +kernel } }

/-- SnapPublishes: full rings, samples accumulated; the last stored element and the first and last bytes
that stay. -/
theorem witness_snapPublishes : snapState.Inv ∧ snapState.ctl.initialised = true ∧
    snapState.activeBlock = some .a ∧ snapState.chain.avgCount ≠ 0#64 ∧
    3 < ((snapState.rings.get .time).n + 2 - 1) / 2 ∧
    ¬ (elemAddr 4 .b .reference 0 ≤ 4 ∧ 4 < elemAddr 4 .b .reference 4) ∧
    ¬ (elemAddr 4 .b .reference 0 ≤ 211 ∧ 211 < elemAddr 4 .b .reference 4) :=
  ⟨snapState_inv, by decide, by decide, by decide, by decide, by decide, by decide⟩

/-- The running block after a START whose `now` was a NaN. -/
def nanStart : State :=
  { live with chain := { live.chain with
      lastSampleTime := 0x7FF8000000000000#64, lastPublishTime := 0x7FF8000000000000#64 } }

/-- TickSampleCount: `due` at 0, 1, 1999 and 2000; a NaN on the clock, at the tick and before it. -/
theorem witness_tickSampleCount :
    (let due := fun now => ffloor (fmul (fdiv (fsub now live.chain.lastSampleTime) c1000)
       live.params.sampleRate)
     fle (due pZero) pZero = true ∧
     (flt pZero (due 0x3F947AE147AE147B#64) = true ∧ flt (due 0x3F947AE147AE147B#64) cTickCap = true) ∧
     (flt pZero (due 0x4043FEB851EB851F#64) = true ∧ flt (due 0x4043FEB851EB851F#64) cTickCap = true) ∧
     fle cTickCap (due 0x4044000000000000#64) = true) ∧
    isNaN 0x7FF8000000000000#64 = true ∧
    isNaN (live.setSampleTime 0x7FF8000000000000#64).chain.lastSampleTime = true := by decide +kernel

/-- R343, V-TICK-2: after a START or a TICK at a NaN the next tick leaves a NaN in `lastSampleTime`; a tick
of a run without one leaves `now` (R280), and 50 samples are due at 1 ms. -/
theorem test_tick_after_nan :
    isNaN (nanStart.tickSampled cOne).chain.lastSampleTime = true ∧
    isNaN ((live.tickSampled 0x7FF8000000000000#64).tickSampled cOne).chain.lastSampleTime = true ∧
    live.nextSampleTime cOne = cOne ∧ live.tickSamples cOne = 50 := by decide +kernel

/-- The running block with a STOP waiting and the choice that lets it cut in. -/
def cutState : State :=
  { withP live [⟨0x03#64, []⟩] with
    free := { live.free with choice := { live.free.choice with stopCut := true } } }

/-- TickRuns: publication not due (33 ms), due (33.34 ms), the cut, a START at a NaN, and a NaN `now` in a
state that has a number in `lastSampleTime`. -/
theorem witness_tickRuns : live.Inv ∧ live.ctl.running = true ∧ live.free.choice.stopCut = false ∧
    fle (fdiv c1000 live.params.snapshotRate)
      (fsub 0x4040800000000000#64 live.chain.lastPublishTime) = false ∧
    fle (fdiv c1000 live.params.snapshotRate)
      (fsub 0x4040AB851EB851EC#64 live.chain.lastPublishTime) = true ∧
    cutState.Inv ∧ cutState.ctl.running = true ∧ cutState.free.choice.stopCut = true ∧
    (nanStart.Inv ∧ nanStart.ctl.running = true ∧ isNaN nanStart.chain.lastPublishTime = true ∧
      isNaN nanStart.chain.lastSampleTime = true) ∧
    (isNaN live.chain.lastSampleTime = false ∧ isNaN 0x7FF8000000000000#64 = true) ∧
    ∃ m l, cutState.ports.pPort = m :: l ∧ decode .producer m = .ok .stop :=
  ⟨live_inv, rfl, rfl, by decide +kernel, by decide +kernel, { live_inv with lifecycle := fun _ => rfl },
   rfl, rfl, ⟨{ live_inv with lifecycle := fun _ => rfl }, rfl, by decide, by decide⟩, by decide, _, _, rfl,
   by decide +kernel⟩

/-- OscSamples: the largest number below 2^32, and one. -/
theorem witness_oscSamples : isFinite 0x41EFFFFFFFFFFFFF#64 = true ∧
    (toFix 0x41EFFFFFFFFFFFFF#64).natAbs < 2 ^ 128 ∧ isFinite cOne = true ∧
    (toFix cOne).natAbs < 2 ^ 128 := by decide +kernel

/-- MixMultiplies: the smallest numbers above and below zero, both zeros, a NaN. -/
theorem witness_mixMultiplies : flt pZero 1#64 = true ∧ flt 0x8000000000000001#64 pZero = true ∧
    feq nZero pZero = true ∧ feq pZero pZero = true ∧ isNaN 0x7FF0000000000001#64 = true := by
  decide

/-- RingWrites: the largest binary32 number, the smallest pattern that overflows, the one below it, a NaN. -/
theorem witness_ringWrites : isNaN (f32ToF64 0x7F7FFFFF#32) = false ∧
    f64ToF32 (f32ToF64 0x7F7FFFFF#32) = 0x7F7FFFFF#32 ∧ f64ToF32 (f32ToF64 1#32) = 1#32 ∧
    isNaN 0xC7EFFFFFF0000000#64 = false ∧ 0x47EFFFFFF0000000 ≤ magBits 0xC7EFFFFFF0000000#64 ∧
    f64ToF32 0xC7EFFFFFF0000000#64 = 0xFF800000#32 ∧
    magBits 0x47EFFFFFEFFFFFFF#64 < 0x47EFFFFFF0000000 ∧
    f64ToF32 0x47EFFFFFEFFFFFFF#64 = 0x7F7FFFFF#32 ∧ isNaN 0x7FF0000000000001#64 = true := by
  decide +kernel

/-- Wrap2PiRange and Wrap180Range: the largest finite number, and infinity; the ends of `[0, TWO_PI)`; a phase
whose formula lies in the interval. -/
theorem witness_wrapRange : isFinite 0x7FEFFFFFFFFFFFFF#64 = true ∧ isFinite nZero = true ∧
    isFinite pInf = false ∧ isFinite 0x7FF0000000000001#64 = false ∧
    fle pZero nZero = true ∧ flt nZero cTwoPi = true ∧
    fle pZero 0x401921FB54442D17#64 = true ∧ flt 0x401921FB54442D17#64 cTwoPi = true ∧
    flt (fneg c180) (wrap180Formula 0x4066A00000000000#64) = true ∧
    fle (wrap180Formula 0x4066A00000000000#64) c180 = true := by decide +kernel

/-- GaussDraws: the smallest `σ` that is not a zero, with and without a spare. -/
theorem witness_gaussDraws : idle.ctl.initialised = true ∧ feq 1#64 pZero = false ∧
    idle.chain.hasSpare = false ∧
    ({ idle with chain := { idle.chain with hasSpare := true } } : State).chain.hasSpare = true := by
  decide

/-- GaussOfZero: both zeros. -/
theorem witness_gaussOfZero : idle.ctl.initialised = true ∧ magBits pZero = 0 ∧ magBits nZero = 0 := by
  decide

/-- InstallBank: the longest list, the bank's own list and another one. -/
theorem witness_installBank : liveTone.ctl.initialised = true ∧
    [tone, tone].length ≤ liveTone.build.maxInterferers ∧
    sameFrequencies [tone] liveTone.chain.bank = true ∧
    sameFrequencies [tone, tone] liveTone.chain.bank = false ∧
    sameFrequencies [] liveTone.chain.bank = false := by decide +kernel

/-- BqWrites: as many sections as there are, the most there can be, and none. -/
theorem witness_bqWrites :
    (let s := { idle with chain := { idle.chain with lpfI := [zeroSection unit] } }
     s.ctl.initialised = true ∧ [unit].length = (s.cascade .lpfI).length ∧
     [unit, unit].length ≤ s.build.maxSections ∧ [unit, unit].length ≠ (s.cascade .lpfI).length ∧
     ([] : List Coeffs).length ≠ (s.cascade .lpfI).length) := by decide

/-- BqZeroStaysZero: a section in the zero state with zeros of both signs. -/
theorem witness_bqZeroStaysZero :
    (∀ z ∈ [(⟨unit, nZero, pZero, nZero, pZero⟩ : Section)],
      magBits z.x1 = 0 ∧ magBits z.x2 = 0 ∧ magBits z.y1 = 0 ∧ magBits z.y2 = 0 ∧
      isFinite z.c.b0 = true ∧ isFinite z.c.b1 = true ∧ isFinite z.c.b2 = true ∧
      isFinite z.c.a1 = true ∧ isFinite z.c.a2 = true) ∧
    (∀ y ∈ [pZero, nZero], magBits y = 0) ∧ magBits nZero = 0 := by
  refine ⟨fun z hz => ?_, fun y hy => ?_, by decide⟩
  · rw [List.mem_singleton] at hz
    subst hz
    decide
  · simp only [List.mem_cons, List.not_mem_nil, or_false] at hy
    rcases hy with rfl | rfl <;> decide

/-- RingSnapReads, RingWrites and RingHistory: `maxPoints` at both ends of its range, a ring of one
element and one of sixteen. -/
theorem witness_rings : idle.ctl.initialised = true ∧ 1 ≤ idle.params.ringCapacity ∧
    1 ≤ ({ idle with params := { idle.params with ringCapacity := 1 } } : State).params.ringCapacity ∧
    (1#64 : Word) ≠ 0#64 ∧ BitVec.allOnes 64 ≠ 0#64 ∧
    (idle.rings.get .time).w = 0 ∧ (idle.rings.get .time).n = 0 ∧
    1 ≠ (idle.rings.get .time).w := by decide

/-- The region of exactly the flag word. -/
def tight : State := { idle with build := { idle.build with shmBytes := 4 } }

/-- ViewsRespond and PublishFlips: either block active; the smallest region. -/
theorem witness_views : idle.ctl.initialised = true ∧ 4 ≤ idle.build.shmBytes ∧
    idle.activeBlock = some .a ∧ (idle.storeFlag .b).activeBlock = some .b ∧
    tight.ctl.initialised = true ∧ 4 ≤ tight.build.shmBytes ∧ tight.activeBlock = some .a := by decide

/-- ActiveBlockKept: a SNAP; the first and the last byte of the active block and the first byte beyond
both. -/
theorem witness_activeBlockKept : (withP live [⟨0x07#64, []⟩]).Inv ∧
    (withP live [⟨0x07#64, []⟩]).ctl.initialised = true ∧
    (withP live [⟨0x07#64, []⟩]).activeBlock = some .a ∧
    (∃ t, step (withP live [⟨0x07#64, []⟩]) = .next t) ∧
    inBlock 4 .a 4 ∧ inBlock 4 .a 211 ∧ 4 + 104 * live.ctl.snapshotPoints ≤ 420 :=
  ⟨witness_withP_inv _, rfl, by decide, next_of_obs (by decide +kernel), by decide, by decide, by decide⟩

/-- OtherInstructionsStoreNothing and AgentsOwnTheirState: an instruction of each port. -/
theorem witness_frames : (Instr.ringClear .time ≠ .snap ∧ (∀ now, Instr.ringClear .time ≠ .tick now) ∧
      Instr.ringClear .time ≠ .dbPub ∧ ∃ t, exec (.ringClear .time) idle = .next t) ∧
    Instr.port (.ringClear .time) = .producer ∧ Instr.port .dbAcqr = .consumer ∧
    ∃ t, exec .dbAcqr idle = .next t :=
  ⟨⟨by decide, by simp, by decide, next_of_obs (by decide +kernel)⟩, rfl, rfl,
    next_of_obs (by decide +kernel)⟩

/-- FrameReadyReceived. -/
theorem witness_frameReadyReceived :
    (let s := { idle with
       ports := { idle.ports with events := [⟨0xE0#8, 0#8, [cOne, cOne, cOne, cOne, cOne, 4#64]⟩] }
       free := { idle.free with choice := { idle.free.choice with turn := .receive } } }
     s.free.choice.turn = .receive ∧
     s.ports.events = ⟨0xE0#8, 0#8, [cOne, cOne, cOne, cOne, cOne, 4#64]⟩ :: []) := by decide

/-- FftLength and FftRunResponds: 63, 64, 1024 and more samples. -/
theorem witness_fft : (List.replicate 63 cOne).length < 64 ∧
    fftBits (List.replicate 64 cOne).length = some 6 ∧ 64 ≤ 64 ∧ 2 ^ 6 ≤ min 64 1024 ∧
    fftBits 1023 = some 9 ∧ fftBits 1024 = some 10 ∧ fftBits 10000 = some 10 := by decide

/-- BitReversalPermutes: the smallest arrays and two elements. -/
theorem witness_bitReversalPermutes :
    ([cOne] : List F64).length = 2 ^ 0 ∧ 0 < 2 ^ 0 ∧ ([cOne, cTwo] : List F64).length = 2 ^ 1 ∧
    1 < 2 ^ 1 ∧ 0 < 1 := by decide

/-- MagnitudeFloor: 64 zeros and their last bin, a zero bin, and the largest one below the floor of one
sample. -/
theorem witness_magnitudeFloor :
    (∀ y ∈ List.replicate 64 nZero, magBits y = 0) ∧
    fftBits (List.replicate 64 nZero).length = some 6 ∧ 31 < 2 ^ 6 / 2 ∧
    flt (fdiv (fsqrt (fadd (fmul pZero pZero) (fmul pZero pZero))) (natToF64 64)) cMagFloor = true ∧
    flt (fdiv (fsqrt (fadd (fmul 0x3DDB7CDFD9D7BDBA#64 0x3DDB7CDFD9D7BDBA#64) (fmul pZero pZero)))
      (natToF64 1)) cMagFloor = true :=
  ⟨fun y hy => by rw [(List.mem_replicate.1 hy).2]; decide, by decide, by decide, by decide +kernel,
    by decide +kernel⟩

/-- Four elements announced, block B active: the last channel ends at the end of the region. -/
def framed : State :=
  { idle with shm := [(0, 1#8)], cons := { idle.cons with dataLen := 4 } }

/-- FftChanReadsActiveBlock: the elements reach the last byte of the region. -/
theorem witness_fftChanReadsActiveBlock : framed.ctl.initialised = true ∧ 4 ≤ framed.build.shmBytes ∧
    framed.activeBlock = some .b ∧ framed.free.choice.overlap = false ∧ framed.free.relaid = false ∧
    elemAddr framed.ctl.snapshotPoints .b .time framed.cons.dataLen ≤ framed.build.shmBytes := by decide

/-- `framed` with the choice that an FFT.CHAN overlaps. -/
def overlapping : State :=
  { framed with free := { framed.free with choice := { framed.free.choice with overlap := true } } }

/-- The FFT.CHAN that `overlapping` latches. -/
def pendingTask : ChanTask :=
  { ch := .time, addr := 404, len := 4, rate := cOne, relaid := false }

/-- FftChanRace: the overlapping start, and a latched read that reaches the end of the region. -/
theorem witness_fftChanRace : overlapping.ctl.initialised = true ∧ 4 ≤ overlapping.build.shmBytes ∧
    overlapping.activeBlock = some .b ∧ overlapping.free.choice.overlap = true ∧
    (overlapping.latchTask pendingTask).free.task = some pendingTask ∧ pendingTask.relaid = false ∧
    pendingTask.addr + 4 * pendingTask.len ≤ overlapping.build.shmBytes := by decide

/-- TrigSearchFindsFirst: a hit and a window without one. -/
theorem witness_trigSearch :
    trigSearch trgChannel trgTime 6 pZero pZero cFive = some (2, cTwo) ∧
    trigSearch trgChannel trgTime 6 pZero cFive pZero = none := by decide +kernel

/-- TriggerHoldoff: one element; a trigger kept because the window still holds it; a trigger dropped
because the timeline went backward. -/
theorem witness_triggerHoldoff :
    (let c := { idle.cons with trigValid := true, trigTime := pZero, trigPrevLatest := cFive }
     1 < 2 ∧ 2 ≤ 6 ∧ c.trigValid = true ∧ flt (trgTime.getD 5 pZero) c.trigPrevLatest = false ∧
     fle (trgTime.getD 0 pZero) c.trigTime = true ∧ flt (trgTime.getD 1 pZero) c.trigPrevLatest = true) := by
  decide +kernel

/-- TriggerHoldoff, ValidationLeavesLegal: a NaN time scale; `P` at RING_CAP_MAX. -/
theorem witness_timeScale : isNaN 0x7FF8000000000000#64 = true ∧ 16 ≤ smallBuild.ringCapMax := by decide

/-- RecordsWriteTheirFields: phases that are dropped, kept, and rounded to a whole turn; a capacity of zero and
one above; a list at its limit and beyond it; a list with a NaN frequency, which leaves the parameters as they
are (log 44). -/
theorem witness_recordsWriteTheirFields :
    (let turn := fun w => fsub w (fmul c360 (ffloor (fdiv w c360)))
     isFinite pInf = false ∧ isFinite 0x4086A80000000000#64 = true ∧
     fle pZero (turn 0x4086A80000000000#64) = true ∧ flt (turn 0x4086A80000000000#64) c360 = true ∧
     isFinite 0xBBC79CA10C924223#64 = true ∧ turn 0xBBC79CA10C924223#64 = c360) ∧
    (0#64 : Word) = 0#64 ∧ (1#64 : Word) ≠ 0#64 ∧
    [tone, tone].length ≤ smallBuild.maxInterferers ∧
    ¬ [tone, tone, tone].length ≤ smallBuild.maxInterferers ∧
    isNaN tone.frequency = false ∧ isNaN tone.amplitude = false ∧
    ¬ isNaN ({ tone with frequency := 0x7FF8000000000000#64 } : Interferer).frequency = false ∧
    applyRecord smallBuild 4 false Params.default
      (.interferers [tone, { tone with frequency := 0x7FF8000000000000#64 }]) = Params.default := by
  decide +kernel

/-- DesignsFollowTheFormulas and DesignedGains: corners at `fs/2`, just under it and at 0.1 Hz (V-FD-6). -/
theorem witness_designs :
    invalidCorner 0x40D86A0000000000#64 (natToF64 50000) = true ∧
    invalidCorner pZero (natToF64 50000) = true ∧
    invalidCorner 0x7FF8000000000000#64 (natToF64 50000) = true ∧
    invalidCorner 0x40D869C000000000#64 (natToF64 50000) = false ∧
    invalidCorner cTenth (natToF64 50000) = false := by decide +kernel

/-- PlainReadsRace: the last word of the region, an unaligned one and one outside; a channel and the samples of
an FFT.CHAN that end at the end of the region; an instruction that acquires nothing; a SNAP; a load of one
word, then a load of another, then the first again. -/
theorem witness_plainReadsRace : framed.ctl.initialised = true ∧ 4 ≤ framed.build.shmBytes ∧
    framed.activeBlock = some .b ∧ 416 % 4 = 0 ∧ 416 + 4 ≤ framed.build.shmBytes ∧
    ¬ (418 % 4 = 0 ∧ 418 + 4 ≤ framed.build.shmBytes) ∧
    ¬ (420 % 4 = 0 ∧ 420 + 4 ≤ framed.build.shmBytes) ∧
    (let s := framed.acquire .b
     s.free.view.relaid = false ∧
     s.free.view.base + Chan.time.index * (4 * s.free.view.points) + 4 * 4 ≤ s.build.shmBytes) ∧
    (pendingTask.relaid = false ∧
      pendingTask.addr + 4 * pendingTask.len ≤ framed.build.shmBytes) ∧
    (Instr.dbPub ≠ .dbAcqr ∧ (∀ c, Instr.dbPub ≠ .fftChan c) ∧ ∃ t, exec .dbPub framed = .next t) ∧
    (∃ t, exec .snap snapState = .next t) ∧
    Relation.ReflTransGen PlainMove (framed.readRun 416 1) ((framed.readRun 416 1).readRun 412 1) :=
  ⟨rfl, by decide, by decide, by decide, by decide, by decide, by decide, by decide, by decide,
    ⟨by decide, fun _ => by simp, next_of_obs (by decide +kernel)⟩, next_of_obs (by decide +kernel),
    .single (.inr (.inl ⟨412, 1, rfl⟩))⟩

end Sys2Proof.Tests
end

section
/-!
PROOFS. The range of `Wrap2Pi` (40_oscillator.md R121): the remainder is below the divisor, the sum of two
finite numbers is their rounded sum, and so every wrapped phase is in `[0, TWO_PI)` or a NaN.
-/

namespace Sys2Proof

theorem pack_zero (n : Bool) (e : Int) : pack n 0 e = zeroOf n := by
  cases n <;> simp [pack, roundMag, zeroOf, nZero, pZero]

theorem sval_signedMant (n : Bool) (m k : Nat) (g : Int) :
    sval n m (k + g) = (signedMant n m k : ℚ) * 2 ^ g := by
  rw [signedMant_cast, sval, zpow_add₀ (by norm_num), zpow_natCast]
  cases n <;> simp [mul_assoc]

theorem sval_natAbs (x : Int) (g : Int) : sval (decide (x < 0)) x.natAbs g = (x : ℚ) * 2 ^ g := by
  have h : (x.natAbs : ℚ) = |(x : ℚ)| := by rw [Nat.cast_natAbs, Int.cast_abs]
  unfold sval
  rw [h]
  by_cases hx : x < 0
  · have : (x : ℚ) < 0 := by exact_mod_cast hx
    simp [hx, abs_of_neg this]
  · have : 0 ≤ (x : ℚ) := by exact_mod_cast not_lt.mp hx
    simp [hx, abs_of_nonneg this]

/-- The sum of two finite numbers is their exact sum, rounded once (R11). -/
theorem fadd_finite {a b : F64} (ha : isFinite a = true) (hb : isFinite b = true) :
    ∃ n m e, fadd a b = pack n m e ∧ sval n m e = fval a + fval b := by
  obtain ⟨m, e, hua, hva, -, -⟩ := unpack_finite ha
  obtain ⟨n, f, hub, hvb, -, -⟩ := unpack_finite hb
  have ea : sval (signBit a) m e = fval a := by unfold sval fval; rw [hva]
  have eb : sval (signBit b) n f = fval b := by unfold sval fval; rw [hvb]
  obtain ⟨i, hi⟩ := Int.eq_ofNat_of_zero_le (show 0 ≤ e - min e f by omega)
  obtain ⟨j, hj⟩ := Int.eq_ofNat_of_zero_le (show 0 ≤ f - min e f by omega)
  have hsum : fval a + fval b =
      ((signedMant (signBit a) m i + signedMant (signBit b) n j : Int) : ℚ) * 2 ^ min e f := by
    have sa := sval_signedMant (signBit a) m i (min e f)
    have sb := sval_signedMant (signBit b) n j (min e f)
    rw [show (i : Int) + min e f = e by omega, ea] at sa
    rw [show (j : Int) + min e f = f by omega, eb] at sb
    rw [sa, sb]
    push_cast
    ring
  rw [hsum]
  unfold fadd
  rw [hua, hub]
  simp only [addVal, hi, hj, Int.toNat_natCast]
  split
  · rename_i h0
    exact ⟨_, 0, 0, (pack_zero _ 0).symm, by simp [h0, sval]⟩
  · exact ⟨_, _, _, rfl, sval_natAbs _ _⟩

/-- The remainder of a finite number has the sign of the dividend and a magnitude below that of the
divisor (R121 `fmod`). -/
theorem ffmod_finite {a b : F64} (ha : isFinite a = true) (hb : isFinite b = true)
    (h0 : 0 < magValue (magBits b)) :
    ∃ m e, ffmod a b = pack (signBit a) m e ∧ (m : ℚ) * 2 ^ e < magValue (magBits b) := by
  obtain ⟨m, e, hua, -, -, -⟩ := unpack_finite ha
  obtain ⟨n, f, hub, hvb, -, -⟩ := unpack_finite hb
  have hn : n ≠ 0 := by
    rintro rfl
    simp [← hvb] at h0
  obtain ⟨j, hj⟩ := Int.eq_ofNat_of_zero_le (show 0 ≤ f - min e f by omega)
  refine ⟨(m * 2 ^ (e - min e f).toNat) % (n * 2 ^ j), min e f, ?_, ?_⟩
  · unfold ffmod
    rw [hua, hub]
    simp [fmodVal, hn, hj]
  · have hlt := Nat.mod_lt (m * 2 ^ (e - min e f).toNat) (show 0 < n * 2 ^ j by positivity)
    have hlt : (((m * 2 ^ (e - min e f).toNat) % (n * 2 ^ j) : Nat) : ℚ) < n * 2 ^ j := by
      exact_mod_cast hlt
    calc _ < (n : ℚ) * 2 ^ j * 2 ^ min e f := by gcongr
      _ = n * 2 ^ f := by
        rw [mul_assoc, ← zpow_natCast, ← zpow_add₀ (by norm_num)]
        congr 2
        omega
      _ = magValue (magBits b) := hvb

/-- Where the dividend or the divisor admits no remainder the result is a NaN (R11). -/
theorem ffmod_nan {a : F64} (b : F64) (ha : isFinite a = false) : isNaN (ffmod a b) = true := by
  have hu : unpack a = .nan ∨ ∃ n, unpack a = .inf n := by
    cases hn : isNaN a
    · cases hi : isInf a
      · exact absurd ((isFinite_iff a).mpr ⟨hn, hi⟩) (by simp [ha])
      · exact .inr ⟨_, unpack_inf hi⟩
    · exact .inl (unpack_nan hn)
  have hv : fmodVal (unpack a) (unpack b) = none := by
    rcases hu with h | ⟨n, h⟩ <;> rw [h] <;> cases unpack b <;> rfl
  simp [ffmod, hv]

theorem orderKey_natAbs (x : F64) : (orderKey x).natAbs = magBits x := by
  unfold orderKey
  split <;> omega

theorem finite_of_between {x lo hi : F64} (hlo : isFinite lo = true) (hhi : isFinite hi = true)
    (h1 : fle lo x = true) (h2 : fle x hi = true) : isFinite x = true := by
  simp only [isFinite, fle, Bool.and_eq_true, decide_eq_true_eq, ← orderKey_natAbs] at *
  omega

/-- `x` is a NaN or not below zero. -/
def notBelowZero (x : F64) : Prop := isNaN x = true ∨ fle pZero x = true

theorem fle_of_not_flt {x y : F64} (hx : isNaN x = false) (hy : isNaN y = false)
    (h : ¬ flt x y = true) : fle y x = true :=
  (fle_iff _ _).mpr ⟨hy, hx, not_lt.mp fun hc => h ((flt_iff _ _).mpr ⟨hx, hy, hc⟩)⟩

theorem flt_of_not_fle {x y : F64} (hx : isNaN x = false) (hy : isNaN y = false)
    (h : ¬ fle y x = true) : flt x y = true :=
  (flt_iff _ _).mpr ⟨hx, hy, not_le.mp fun hc => h ((fle_iff _ _).mpr ⟨hy, hx, hc⟩)⟩

/-- The second step of `Wrap2Pi`: after `TWO_PI` has been added to a negative remainder nothing is below
zero (R121). -/
theorem wrapStep_notBelowZero (p : F64) :
    notBelowZero (if flt (ffmod p cTwoPi) pZero then fadd (ffmod p cTwoPi) cTwoPi else ffmod p cTwoPi) := by
  have hm : 0 < magValue (magBits cTwoPi) := by
    rw [← magValue_zero]
    exact magValue_lt_iff.mpr (by decide)
  have hv : fval cTwoPi = magValue (magBits cTwoPi) := if_neg (by decide)
  have hl : fval (fneg cTwoPi) = -magValue (magBits cTwoPi) := by
    have hb : magBits (fneg cTwoPi) = magBits cTwoPi := by decide
    unfold fval
    rw [if_pos (by decide), hb]
  cases hp : isFinite p
  · have hn := ffmod_nan cTwoPi hp
    have : flt (ffmod p cTwoPi) pZero = false := by simp [flt, hn]
    rw [this]
    exact .inl hn
  · obtain ⟨m, e, hr, hlt⟩ := ffmod_finite hp (b := cTwoPi) (by decide) hm
    have hpos : (0 : ℚ) ≤ m * 2 ^ e := by positivity
    have hlow : fle (fneg cTwoPi) (ffmod p cTwoPi) = true := by
      rw [hr]
      refine le_pack (by decide) ?_
      rw [hl, sval]
      split <;> linarith
    have hhigh : fle (ffmod p cTwoPi) cTwoPi = true := by
      rw [hr]
      refine pack_le (by decide) ?_
      rw [hv, sval]
      split <;> linarith
    split
    · have hf := finite_of_between (by decide) (by decide) hlow hhigh
      obtain ⟨n, k, g, hs, hsum⟩ := fadd_finite hf (b := cTwoPi) (by decide)
      obtain ⟨-, -, hge⟩ := (fle_iff _ _).mp hlow
      refine .inr ?_
      rw [hs]
      refine le_pack (by decide) ?_
      rw [hsum, fval_pZero]
      linarith
    · rename_i h
      exact .inr (fle_of_not_flt ((fle_iff _ _).mp hlow).2.1 (by decide) h)

/-- Every wrapped phase is in `[0, TWO_PI)` or a NaN (R121, R43). -/
theorem wrap2Pi_phaseOk (p : F64) : Machine.phaseOk (wrap2Pi p) := by
  have h := wrapStep_notBelowZero p
  unfold wrap2Pi
  simp only
  generalize (if flt (ffmod p cTwoPi) pZero = true then fadd (ffmod p cTwoPi) cTwoPi
    else ffmod p cTwoPi) = r at h ⊢
  have zeroOk : Machine.phaseOk pZero := .inr (by decide)
  split
  · exact zeroOk
  · split
    · exact zeroOk
    · rename_i hr _
      rcases h with h | h
      · exact .inl h
      · exact .inr ⟨h, flt_of_not_fle ((fle_iff _ _).mp h).2.1 (by decide) hr⟩

end Sys2Proof
end

section
/-!
PROOFS. The invariants of R43 through every named update of the state: one lemma per update, then the composite
updates from them.
-/

namespace Sys2Proof.Machine

/-! ## Rings -/

theorem ringPushed_ok {cap : Nat} (h : 1 ≤ cap) (r : Ring) (v : F64) : (ringPushed cap r v).ok cap :=
  ⟨Nat.mod_lt _ h, Nat.min_le_right _ _⟩

theorem ringCleared_ok {cap : Nat} (h : 1 ≤ cap) (r : Ring) : (ringCleared r).ok cap :=
  ⟨h, Nat.zero_le _⟩

/-! ## Updates of one unit -/

section Updates

variable {s : State}

/-- The ring capacity is never zero. -/
theorem State.Inv.capacity_pos (h : s.Inv) : 1 ≤ s.params.ringCapacity :=
  h.capacity.1.trans h.capacity.2

/-- What the invariants see of a state: an update that keeps all of it keeps them. -/
theorem State.Inv.of_eq {t : State} (h : s.Inv) (build : t.build = s.build) (ctl : t.ctl = s.ctl)
    (params : t.params = s.params) (chain : t.chain = s.chain) (rings : t.rings = s.rings)
    (shm : t.shm = s.shm) (work : t.cons.fftRe.length = 1024 ∧ t.cons.fftIm.length = 1024) :
    t.Inv := by
  cases s
  cases t
  simp only at build ctl params chain rings shm
  subst build ctl params chain rings shm
  exact { h with work := work }

theorem State.Inv.emit (h : s.Inv) (r : Record) : (s.emit r).Inv := { h with }

theorem State.Inv.raise (h : s.Inv) (op : BitVec 8) (k : ErrorKind) : (s.raise op k).Inv := { h with }

theorem State.Inv.respond (h : s.Inv) (op : Opcode) (sel : BitVec 8) (l : List Word) :
    (s.respond op sel l).Inv :=
  h.of_eq (by simp) (by simp) (by simp) (by simp) (by simp) (by simp) (by simpa using h.work)

theorem State.Inv.setPorts (h : s.Inv) (p : Ports) : ({ s with ports := p } : State).Inv := { h with }

theorem State.Inv.setQueue (h : s.Inv) (p : Port) (l : List Message) : (s.setQueue p l).Inv := by
  cases p <;> exact h.setPorts _

theorem State.Inv.setFree (h : s.Inv) (f : Free) : ({ s with free := f } : State).Inv := { h with }

theorem State.Inv.skipDraws (h : s.Inv) (n : Nat) : (s.skipDraws n).Inv := h.setFree _

theorem State.Inv.acquireLoad (h : s.Inv) : s.acquireLoad.Inv := h.setFree _

theorem State.Inv.acquire (h : s.Inv) (blk : Block) : (s.acquire blk).Inv := h.setFree _

theorem State.Inv.readRun (h : s.Inv) (a n : Nat) : (s.readRun a n).Inv := h.setFree _

theorem State.Inv.latchTask (h : s.Inv) (t : ChanTask) : (s.latchTask t).Inv := h.setFree _

theorem State.Inv.endTask (h : s.Inv) : s.endTask.Inv := h.setFree _

theorem State.Inv.refreshChoice (h : s.Inv) : s.refreshChoice.Inv := h.setFree _

theorem State.Inv.setPhase (h : s.Inv) (o : OscSel) {p : F64} (hp : phaseOk p) : (s.setPhase o p).Inv := by
  cases o
  · exact { h with oscRef := hp }
  · exact { h with oscMod := hp }

theorem State.Inv.setCascade (h : s.Inv) (b : BqSel) {l : List Section}
    (hl : l.length ≤ s.build.maxSections) : (s.setCascade b l).Inv := by
  have hs : ∀ c, ((s.setCascade b l).cascade c).length ≤ s.build.maxSections := fun c => by
    by_cases hc : c = b
    · rw [hc, State.setCascade_cascade_same]
      exact hl
    · rw [State.setCascade_cascade_other s hc]
      exact h.sections c
  cases b <;> exact { h with sections := hs }

theorem State.Inv.setSpare (h : s.Inv) (has : Bool) (v : F64) : (s.setSpare has v).Inv := { h with }

theorem State.Inv.dropSpare (h : s.Inv) : s.dropSpare.Inv := { h with }

theorem State.Inv.setBank (h : s.Inv) {l : List BankEntry} (hl : l.length ≤ s.build.maxInterferers) :
    (s.setBank l).Inv := { h with bank := hl }

theorem State.Inv.setAcc (h : s.Inv) (i q : F64) (n : BitVec 64) : (s.setAcc i q n).Inv := { h with }

theorem State.Inv.zeroAcc (h : s.Inv) : s.zeroAcc.Inv := h.setAcc _ _ _

theorem State.Inv.setV (h : s.Inv) (v : PerChan F64) : (s.setV v).Inv := { h with }

theorem State.Inv.setSampleCount (h : s.Inv) (n : BitVec 64) : (s.setSampleCount n).Inv := { h with }

theorem State.Inv.setOffset (h : s.Inv) (v : F64) : (s.setOffset v).Inv := { h with }

theorem State.Inv.setSampleTime (h : s.Inv) (now : F64) : (s.setSampleTime now).Inv := { h with }

theorem State.Inv.setPublishTime (h : s.Inv) (now : F64) : (s.setPublishTime now).Inv := { h with }

theorem State.Inv.setRing (h : s.Inv) (c : Chan) {r : Ring} (hr : r.ok s.params.ringCapacity) :
    (s.setRing c r).Inv := by
  have hs : ∀ d, ((s.setRing c r).rings.get d).ok s.params.ringCapacity := fun d => by
    by_cases hd : d = c
    · rw [hd, State.setRing_get_same]
      exact hr
    · rw [State.setRing_get_other s hd]
      exact h.rings d
  exact { h with rings := hs }

theorem State.Inv.clearRings (h : s.Inv) : s.clearRings.Inv :=
  { h with
    rings := fun c => by
      rw [State.clearRings_get]
      exact ringCleared_ok h.capacity_pos _ }

theorem State.Inv.pushAll (h : s.Inv) (v : PerChan F64) : (s.pushAll v).Inv :=
  { h with
    rings := fun c => by
      rw [State.pushAll_get]
      exact ringPushed_ok h.capacity_pos _ _ }

theorem State.Inv.stopRunning (h : s.Inv) : (s.setRunning false).Inv :=
  { h with lifecycle := fun hr => by cases hr }

/-- New parameters of the same capacity. -/
theorem State.Inv.setParams (h : s.Inv) {p : Params} (hc : p.ringCapacity = s.params.ringCapacity)
    (hp : p.Legal) (hl : p.interferers.length ≤ s.build.maxInterferers) : (s.setParams p).Inv :=
  { h with
    params := hp
    held := hl
    capacityMax := by simpa [hc] using h.capacityMax
    capacity := by simpa [hc] using h.capacity
    rings := fun c => by simpa [hc] using h.rings c }

/-! ## SAMPLE (R272) -/

theorem advancedPhase_ok (fs phase f : F64) : phaseOk (advancedPhase fs phase f) := wrap2Pi_phaseOk _

theorem State.Inv.oscAdvanced (h : s.Inv) (o : OscSel) (f : F64) : (s.oscAdvanced o f).Inv :=
  h.setPhase o (advancedPhase_ok _ _ _)

theorem State.Inv.dutNext (h : s.Inv) : s.dutNext.Inv := (h.oscAdvanced _ _).oscAdvanced _ _

theorem State.Inv.gaussNext (h : s.Inv) (sigma : F64) : (s.gaussNext sigma).Inv := by
  unfold State.gaussNext
  split
  · exact h
  · split
    · exact h.dropSpare
    · exact (h.setSpare _ _).skipDraws _

theorem State.Inv.bankNext (h : s.Inv) : s.bankNext.Inv :=
  h.setBank (by simpa [bankAdvanced] using h.bank)

theorem State.Inv.cascadeProcessed (h : s.Inv) (b : BqSel) (x : F64) : (s.cascadeProcessed b x).Inv :=
  h.setCascade b (by simpa using h.sections b)

theorem State.Inv.bpfProcessed (h : s.Inv) (x : F64) : (s.bpfProcessed x).Inv := by
  unfold State.bpfProcessed
  split
  · exact h.cascadeProcessed _ _
  · exact h

theorem State.Inv.sampled (h : s.Inv) : s.sampled.Inv :=
  have chained := ((((h.dutNext.gaussNext s.params.whiteNoiseAmplitude).bankNext.bpfProcessed
    s.sensorValue).cascadeProcessed .lpfI s.mixPair.1).cascadeProcessed .lpfQ s.mixPair.2)
  (((chained.setV _).pushAll _).setAcc _ _ _).setSampleCount _

theorem State.Inv.sampledTimes (k : Nat) : ∀ {s : State}, s.Inv → (State.sampledTimes k s).Inv := by
  induction k with
  | zero => exact fun h => h
  | succ k ih => exact fun h => ih h.sampled

/-! ## SNAP and TICK (R280, R281) -/

/-- A publish keeps the invariants where the views left the region in its canonical form: the flag it stores
is that of a block. -/
theorem State.Inv.published (h : s.Inv) (blk : Block) {m : Memory} (hm : Memory.wf m) :
    (s.published blk m).Inv :=
  { h with
    memory := memWrite32_wf hm _ _
    flag := by
      have : (s.published blk m).activeBlock = some blk :=
        ((s.setShm m).zeroAcc.skipFree _).storeFlag_activeBlock blk
      simp [this] }

theorem State.Inv.storeFlag (h : s.Inv) (blk : Block) : (s.storeFlag blk).Inv :=
  { h with
    memory := memWrite32_wf h.memory _ _
    flag := by simp [State.storeFlag_activeBlock] }

theorem State.Inv.snapshot {t : State} (h : s.Inv) (e : s.snapshot = .next t) : t.Inv := by
  obtain ⟨act, m, -, -, hm, rfl⟩ := State.snapshot_cases e
  exact h.published _ (State.storeViews_wf h.memory hm)

theorem State.Inv.publishPhase {t : State} {now : F64} (h : s.Inv)
    (e : s.publishPhase now = .next t) : t.Inv := by
  obtain rfl | ⟨u, hu, rfl⟩ := State.publishPhase_cases e
  · exact h
  · exact (h.snapshot hu).setPublishTime now

theorem State.Inv.tickSampled (h : s.Inv) (now : F64) : (s.tickSampled now).Inv :=
  (h.sampledTimes _).setSampleTime _

/-! ## INIT, START, STOP and UPDATE (R341 to R347, R290) -/

theorem State.Inv.tornDown (h : s.Inv) : s.tornDown.Inv := by
  have zeroOk : phaseOk pZero := .inr (by decide)
  have stopped := (((h.stopRunning.zeroAcc.setPhase .ref zeroOk).setPhase .mod zeroOk).dropSpare.setBank
    (l := []) (Nat.zero_le _))
  have emptied := ((stopped.setCascade .bpf (l := []) (Nat.zero_le _)).setCascade .lpfI (l := [])
    (Nat.zero_le _)).setCascade .lpfQ (l := []) (Nat.zero_le _)
  exact (emptied.clearRings.setV _).setSampleCount _

theorem State.Inv.install (h : s.Inv) {l : List Interferer} (hl : l.length ≤ s.build.maxInterferers) :
    (s.install l).Inv := by
  have hb := s.install_bank_length l
  rcases s.install_cases l with ⟨-, e⟩ | ⟨-, e⟩ <;> rw [e] at hb ⊢
  · exact h.setBank (by simpa using hb.trans_le hl)
  · exact (h.setBank (by simpa using hl)).skipDraws _

theorem State.Inv.replaceIf (h : s.Inv) (b : BqSel) {o : Option (List Coeffs)}
    (ho : ∀ l, o = some l → l.length ≤ s.build.maxSections) : (s.replaceIf b o).Inv := by
  cases o with
  | none => exact h
  | some l => exact h.setCascade b (by simpa using ho l rfl)

theorem State.Inv.cascadeReset (h : s.Inv) (b : BqSel) :
    (s.setCascade b (cascadeReset (s.cascade b))).Inv :=
  h.setCascade b (by simpa using h.sections b)

theorem State.Inv.updateReset (h : s.Inv) : s.updateReset.Inv :=
  (((h.zeroAcc.cascadeReset .bpf).cascadeReset .lpfI).cascadeReset .lpfQ).clearRings.setOffset _

theorem State.Inv.updated (h : s.Inv) {cand : Params} (given : Bool) {b l : Option (List Coeffs)}
    (hc : cand.ringCapacity = s.params.ringCapacity) (hp : cand.Legal)
    (hi : cand.interferers.length ≤ s.build.maxInterferers)
    (hb : ∀ x, b = some x → x.length ≤ s.build.maxSections)
    (hl : ∀ x, l = some x → x.length ≤ s.build.maxSections) :
    (s.updated cand given b l).Inv := by
  have installed : (if given then (s.setParams cand).install cand.interferers
      else s.setParams cand).Inv := by
    split
    · exact (h.setParams hc hp hi).install hi
    · exact h.setParams hc hp hi
  have build : (if given then (s.setParams cand).install cand.interferers
      else s.setParams cand).build = s.build := by split <;> simp
  have replaced := ((installed.replaceIf .bpf (by simpa [build] using hb)).replaceIf .lpfI
    (by simpa [build] using hl)).replaceIf .lpfQ (by simpa [build] using hl)
  unfold State.updated
  simp only
  split
  · exact replaced.updateReset
  · exact replaced

end Updates

end Sys2Proof.Machine
end

section
/-!
PROOFS. Validation (10_state.md R34): what every record of START and UPDATE leaves, and what each of them writes.
-/

namespace Sys2Proof.Machine

/-! ## Legality -/

theorem default_legal : Params.default.Legal where
  sampleRate := by decide
  snapshotRate := by decide
  referenceFrequency := by decide
  referenceAmplitude := by decide
  modulatingFrequency := by decide
  modulationIndex := by decide
  phaseShift := by decide
  sensorOutputAmplitude := by decide
  whiteNoiseAmplitude := by decide
  interferers := by simp [Params.default]
  bpfCenterFrequency := by decide
  bpfBandwidth := by decide
  lpfCutoffFrequency := by decide

theorem recordKeeps_trans {b : Config.Build} {engine : Bool} {p q r : Params}
    (h : recordKeeps b engine p q) (h' : recordKeeps b engine q r) : recordKeeps b engine p r := by
  obtain ⟨-, list, group⟩ := h
  obtain ⟨legal, list', group'⟩ := h'
  refine ⟨legal, fun hp => list' (list hp), fun he => ?_⟩
  obtain ⟨rate, capacity, snap⟩ := group he
  obtain ⟨rate', capacity', snap'⟩ := group' he
  exact ⟨rate'.trans rate, capacity'.trans capacity, snap'.trans snap⟩

/-- A whole message keeps what each of its records keeps. -/
theorem applyRecords_keeps (b : Config.Build) (p : Nat) (engine : Bool) (rs : List ParamRecord) :
    ∀ {q : Params}, q.Legal → recordKeeps b engine q (applyRecords b p engine q rs) := by
  induction rs with
  | nil => exact fun h => recordKeeps_refl b engine h
  | cons r rs ih =>
    intro q h
    have first := applyRecord_keeps b p engine h r
    exact recordKeeps_trans first (ih first.1)

theorem clampCapacity_le (b : Config.Build) (p c : Nat) : clampCapacity b p c ≤ b.ringCapMax :=
  Nat.min_le_right _ _

theorem le_clampCapacity {b : Config.Build} {p : Nat} (h : p ≤ b.ringCapMax) (c : Nat) :
    p ≤ clampCapacity b p c :=
  le_min (Nat.le_max_right _ _) h

theorem startParams_legal (b : Config.Build) (p : Nat) (rs : List ParamRecord) :
    (startParams b p rs).Legal :=
  { (applyRecords_keeps b p true rs default_legal).1 with }

theorem startParams_interferers (b : Config.Build) (p : Nat) (rs : List ParamRecord) :
    (startParams b p rs).interferers.length ≤ b.maxInterferers :=
  (applyRecords_keeps b p true rs default_legal).2.1 (Nat.zero_le _)

/-- Settles O16: both candidates come from legal parameters by records that keep them legal, and START clamps
`C` last. -/
theorem validationLeavesLegal : Obligations.ValidationLeavesLegal := by
  intro b p rs
  refine ⟨startParams_legal b p rs, clampCapacity_le _ _ _, fun h => le_clampCapacity h _,
    fun q hq => ?_⟩
  obtain ⟨legal, -, group⟩ := applyRecords_keeps b p false rs hq
  exact ⟨legal, group rfl⟩

/-! ## What each record writes -/

theorem elim_ite_none {α β : Type} (c : Prop) [Decidable c] (a : α) (q : β) (f : α → β) :
    (if c then none else some a : Option α).elim q f = if c then q else f a := by
  split <;> rfl

theorem elim_ite_some {α β : Type} (c : Prop) [Decidable c] (a : α) (o : Option α) (q : β) (f : α → β) :
    (if c then some a else o).elim q f = if c then f a else o.elim q f := by
  split <;> rfl

/-- The normal form of a finite phase is in the turn, zero where the formula rounds to 360, and the formula
where it is in the turn (R34, log 9). -/
theorem normalizePhase_finite {w : F64} (h : isFinite w = true) :
    ∃ v, normalizePhase w = some v ∧ fle pZero v = true ∧ flt v c360 = true ∧
      (fsub w (fmul c360 (ffloor (fdiv w c360))) = c360 → v = pZero) ∧
      (fle pZero (fsub w (fmul c360 (ffloor (fdiv w c360)))) = true →
        flt (fsub w (fmul c360 (ffloor (fdiv w c360)))) c360 = true →
        v = fsub w (fmul c360 (ffloor (fdiv w c360)))) := by
  have e : normalizePhase w =
      some (keepIf inTurn (phaseFormula w) (keepIf inTurn (Config.phaseOutside w) pZero)) := if_pos h
  obtain ⟨low, high⟩ := normalizePhase_some e
  refine ⟨_, e, low, high, fun ht => ?_, fun h1 h2 => ?_⟩
  · have : phaseFormula w = pZero := if_pos ht
    rw [this]
    exact if_pos (by decide)
  · have hne : fsub w (fmul c360 (ffloor (fdiv w c360))) ≠ c360 := fun hc => by
      rw [hc] at h2
      exact absurd h2 (by decide)
    have : phaseFormula w = fsub w (fmul c360 (ffloor (fdiv w c360))) := if_neg hne
    rw [this]
    exact if_pos (by simp [inTurn, h1, h2])

/-- An interferer with both members clamped (R34). -/
def Interferer.clamped (i : Interferer) : Interferer :=
  ⟨i.id, fmax i.frequency cOne, fmax i.amplitude pZero⟩

/-- No NaN in an interferer. -/
def Interferer.numeric (i : Interferer) : Prop :=
  isNaN i.frequency = false ∧ isNaN i.amplitude = false

theorem clampInterferer_some {i : Interferer} (h : Interferer.numeric i) :
    clampInterferer i = some (Interferer.clamped i) := by
  obtain ⟨hf, ha⟩ := h
  simp [clampInterferer, clampLow, hf, ha, Interferer.clamped]

theorem clampInterferer_none {i : Interferer} (h : ¬ Interferer.numeric i) : clampInterferer i = none := by
  unfold clampInterferer clampLow
  by_cases hf : isNaN i.frequency = true
  · simp [hf]
  · have ha : isNaN i.amplitude = true := by
      by_contra ha
      exact h ⟨by simpa using hf, by simpa using ha⟩
    simp [hf, ha]

/-- A list is clamped entry by entry where it holds no NaN, and dropped whole where it does (R34, log 44). -/
theorem clampInterferers_numeric (l : List Interferer) :
    (∀ i ∈ l, Interferer.numeric i) → clampInterferers l = some (l.map Interferer.clamped) := by
  induction l with
  | nil => exact fun _ => rfl
  | cons i l ih =>
    intro h
    simp only [clampInterferers, clampInterferer_some (h i (by simp)),
      ih fun j hj => h j (List.mem_cons_of_mem _ hj), List.map_cons]

theorem clampInterferers_none {l : List Interferer} {i : Interferer} (hi : i ∈ l)
    (h : ¬ Interferer.numeric i) : clampInterferers l = none := by
  induction l with
  | nil => cases hi
  | cons j l ih =>
    rcases List.mem_cons.mp hi with rfl | hi
    · simp [clampInterferers, clampInterferer_none h]
    · simp only [clampInterferers, ih hi]
      split <;> simp_all

theorem validInterferers_numeric {b : Config.Build} {l : List Interferer} (hl : l.length ≤ b.maxInterferers)
    (hn : ∀ i ∈ l, Interferer.numeric i) : validInterferers b l = some (l.map Interferer.clamped) :=
  (if_pos hl).trans (clampInterferers_numeric l hn)

theorem validInterferers_none {b : Config.Build} {l : List Interferer}
    (h : ¬ (l.length ≤ b.maxInterferers ∧ ∀ i ∈ l, Interferer.numeric i)) : validInterferers b l = none := by
  by_cases hl : l.length ≤ b.maxInterferers
  · obtain ⟨i, hi, hn⟩ : ∃ i ∈ l, ¬ Interferer.numeric i := by
      by_contra hc
      exact h ⟨hl, fun i hi => by_contra fun hn => hc ⟨i, hi, hn⟩⟩
    exact (if_pos hl).trans (clampInterferers_none hi hn)
  · exact if_neg hl

/-! ### One lemma per form of field -/

section Fields

variable (b : Config.Build) (p : Nat) (engine : Bool) (q : Params) (w : Word)

theorem low_field (lo : F64) (f : F64 → Params) :
    (clampLow lo w).elim q f = if isNaN w then q else f (fmax w lo) := elim_ite_none _ _ _ _

theorem range_field (lo hi : F64) (f : F64 → Params) :
    (clampRange lo hi w).elim q f = if isNaN w then q else f (fmin (fmax w lo) hi) := elim_ite_none _ _ _ _

theorem rate_field (f : F64 → Params) :
    (if engine then (positiveRate w).elim q f else q) =
      if engine && isFinite w && flt pZero w then f w else q := by
  cases engine
  · rfl
  · exact elim_ite_some _ _ _ _ _

theorem order_field (f : FilterOrder → Params) :
    (filterOrderOf w).elim q f =
      if w = 1#64 then f .one else if w = 2#64 then f .two else if w = 4#64 then f .four else q := by
  unfold filterOrderOf
  rw [elim_ite_some, elim_ite_some, elim_ite_some]
  rfl

theorem bool_field (f : Bool → Params) :
    (boolOf w).elim q f = if w = 0#64 then f false else if w = 1#64 then f true else q := by
  unfold boolOf
  rw [elim_ite_some, elim_ite_some]
  rfl

theorem mode_field (f : MixMode → Params) :
    (modeOf w).elim q f = if w = 0#64 then f .analog else if w = 1#64 then f .digital else q := by
  unfold modeOf
  rw [elim_ite_some, elim_ite_some]
  rfl

theorem applyScalar_ringCapacity :
    applyScalar b p engine q .ringCapacity w =
      if engine = true ∧ w ≠ 0#64 then { q with ringCapacity := clampCapacity b p w.toNat } else q := by
  simp only [applyScalar, Bool.and_eq_true, decide_eq_true_eq]

theorem applyScalar_phaseShift_dropped (h : isFinite w = false) :
    applyScalar b p engine q .phaseShift w = q := by
  simp [applyScalar, normalizePhase, h]

theorem applyScalar_phaseShift {v : F64} (h : normalizePhase w = some v) :
    applyScalar b p engine q .phaseShift w = { q with phaseShift := v } := by
  simp [applyScalar, h]

theorem applyRecord_interferers (l : List Interferer) :
    applyRecord b p engine q (.interferers l) =
      if l.length ≤ b.maxInterferers ∧
          (∀ i ∈ l, isNaN i.frequency = false ∧ isNaN i.amplitude = false) then
        { q with interferers := l.map Interferer.clamped }
      else q := by
  by_cases h : l.length ≤ b.maxInterferers ∧ ∀ i ∈ l, Interferer.numeric i
  · obtain ⟨hl, hn⟩ := h
    simp only [applyRecord, validInterferers_numeric hl hn]
    exact (if_pos ⟨hl, hn⟩).symm
  · simp only [applyRecord, validInterferers_none h]
    exact (if_neg h).symm

end Fields

/-- Settles O57, field by field: each `pid` of R94 by the lemma of its form. -/
theorem recordsWriteTheirFields : Obligations.RecordsWriteTheirFields := by
  intro b p engine q w put low span rate turn
  refine ⟨?sampleRate, ?ringCapacity, ?snapshotRate, ?referenceFrequency, ?referenceAmplitude,
    ?modulatingFrequency, ?modulationIndex, ?phaseDropped, ?phaseShift, ?sensorOutputAmplitude,
    ?whiteNoiseAmplitude, ?bpfEnabled, ?bpfCenterFrequency, ?bpfBandwidth, ?bpfOrder,
    ?lpfCutoffFrequency, ?lpfOrder, ?mixerMode, ?interferers, ?none, ?append, ?start⟩
  case sampleRate => exact rate_field engine q w _
  case ringCapacity => exact applyScalar_ringCapacity b p engine q w
  case snapshotRate => exact rate_field engine q w _
  case referenceFrequency => exact range_field q w _ _ _
  case referenceAmplitude => exact low_field q w _ _
  case modulatingFrequency => exact low_field q w _ _
  case modulationIndex => exact range_field q w _ _ _
  case phaseDropped => exact applyScalar_phaseShift_dropped b p engine q w
  case phaseShift =>
    intro h
    obtain ⟨v, hv, facts⟩ := normalizePhase_finite h
    exact ⟨v, applyScalar_phaseShift b p engine q w hv, facts⟩
  case sensorOutputAmplitude => exact low_field q w _ _
  case whiteNoiseAmplitude => exact low_field q w _ _
  case bpfEnabled => exact bool_field q w _
  case bpfCenterFrequency => exact low_field q w _ _
  case bpfBandwidth => exact low_field q w _ _
  case bpfOrder => exact order_field q w _
  case lpfCutoffFrequency => exact low_field q w _ _
  case lpfOrder => exact order_field q w _
  case mixerMode => exact mode_field q w _
  case interferers => exact applyRecord_interferers b p engine q
  case none => rfl
  case append => exact fun rs r => List.foldl_concat _ _ _ _
  case start => exact fun rs => rfl

end Sys2Proof.Machine
end

section
/-!
PROOFS. The invariants of R43 at reset and through every step: INIT and START, which rewrite the parameters
together with the rings, every instruction, every message, every move.
-/

namespace Sys2Proof.Machine

/-! ## INIT (R341) -/

theorem State.Inv.wired {s : State} (h : s.Inv) {bytes p : Nat} (hp : 1 ≤ p) (hm : p ≤ s.build.snapMax)
    (hb : bytesNeeded p ≤ s.build.shmBytes) : (s.wired bytes p).Inv := by
  have hcap : p ≤ s.build.ringCapMax := hm.trans h.build.2.1
  have hc := le_clampCapacity (b := s.build) hcap s.params.ringCapacity
  exact { h with
    lifecycle := fun _ => rfl
    views := fun _ => hb
    points := fun _ => hm
    capacityMax := clampCapacity_le _ _ _
    capacity := ⟨hp, hc⟩
    rings := fun c => by
      unfold State.wired
      rw [State.clearRings_get]
      exact ringCleared_ok (hp.trans hc) _
    params := { h.params with } }

theorem execInit_keepsInv {s t : State} {bytes p : Word} (h : s.Inv)
    (e : execInit bytes p s = .next t) : t.Inv := by
  obtain ⟨-, rfl⟩ | ⟨hok, e⟩ := State.checkOperands_cases e
  · exact h.raise _ _
  · simp only [Bool.and_eq_true, decide_eq_true_eq] at hok
    obtain ⟨hp, hm⟩ := hok
    split at e
    · cases e
      exact h
    · split at e
      · cases e
        exact h.raise _ _
      · rename_i hb
        cases e
        have : p.toNat ≠ 0 := fun hz => hp (BitVec.eq_of_toNat_eq hz)
        exact h.wired (by omega) hm (by omega)

/-! ## START (R343) -/

@[simp] theorem State.started_ctl (s : State) (now : F64) (cand : Params) (bpf lpf : List Coeffs) :
    (s.started now cand bpf lpf).ctl = { s.ctl with running := true } := by
  simp [State.started, State.loadZeroed, State.setRunning]

@[simp] theorem State.started_params (s : State) (now : F64) (cand : Params) (bpf lpf : List Coeffs) :
    (s.started now cand bpf lpf).params = cand := by
  simp [State.started, State.loadZeroed]

@[simp] theorem State.started_oscRef (s : State) (now : F64) (cand : Params) (bpf lpf : List Coeffs) :
    (s.started now cand bpf lpf).chain.oscRef = pZero := by
  simp [State.started, State.loadZeroed]

@[simp] theorem State.started_oscMod (s : State) (now : F64) (cand : Params) (bpf lpf : List Coeffs) :
    (s.started now cand bpf lpf).chain.oscMod = pZero := by
  simp [State.started, State.loadZeroed]

/-- The coefficients of a cascade after START. -/
def startCoeffs (bpf lpf : List Coeffs) : BqSel → List Coeffs
  | .bpf => bpf
  | .lpfI => lpf
  | .lpfQ => lpf

@[simp] theorem State.started_cascade (s : State) (now : F64) (cand : Params) (bpf lpf : List Coeffs)
    (b : BqSel) :
    (s.started now cand bpf lpf).cascade b = (startCoeffs bpf lpf b).map zeroSection := by
  cases b <;> simp [State.started, State.loadZeroed, cascadeReset_replace, startCoeffs]

theorem State.started_bank_length (s : State) (now : F64) (cand : Params) (bpf lpf : List Coeffs) :
    (s.started now cand bpf lpf).chain.bank.length = cand.interferers.length := by
  simp [State.started, State.loadZeroed, State.install_bank_length]

@[simp] theorem State.started_rings (s : State) (now : F64) (cand : Params) (bpf lpf : List Coeffs)
    (c : Chan) : (s.started now cand bpf lpf).rings.get c = ringCleared (s.rings.get c) := by
  simp [State.started, State.loadZeroed]

/-- A design has at most two sections, which every build holds (R9, R165, R168). -/
theorem designLPF_length {fc fs : F64} {o : FilterOrder} {l : List Coeffs}
    (h : designLPF fc o fs = some l) : l.length ≤ 2 := by
  unfold designLPF at h
  split at h
  · cases h
  · cases o <;> cases h <;> simp

theorem designBPF_length {f0 bw fs : F64} {o : FilterOrder} {l : List Coeffs}
    (h : designBPF f0 bw o fs = some l) : l.length ≤ 2 := by
  unfold designBPF at h
  split at h
  · cases h
  · cases o <;> cases h <;> simp

theorem State.Inv.started {s : State} (h : s.Inv) (hi : s.ctl.initialised = true) (now : F64)
    {cand : Params} {bpf lpf : List Coeffs} (hp : cand.Legal)
    (hmax : cand.ringCapacity ≤ s.build.ringCapMax) (hcap : s.ctl.snapshotPoints ≤ cand.ringCapacity)
    (hl : cand.interferers.length ≤ s.build.maxInterferers) (hb : bpf.length ≤ 2)
    (hf : lpf.length ≤ 2) : (s.started now cand bpf lpf).Inv := by
  have two : 2 ≤ s.build.maxSections := h.build.2.2
  have zeroOk : phaseOk pZero := .inr (by decide)
  exact
    { build := by simpa using h.build
      memory := by simpa using h.memory
      flag := by simpa [State.activeBlock] using h.flag
      lifecycle := by simp [hi]
      views := by simpa using h.views
      points := by simpa using h.points
      room := by simpa using h.room
      capacityMax := by simpa using hmax
      capacity := by simpa using ⟨h.capacity.1, hcap⟩
      oscRef := by simpa using zeroOk
      oscMod := by simpa using zeroOk
      rings := fun c => by
        rw [State.started_rings, State.started_params]
        exact ringCleared_ok (h.capacity.1.trans hcap) _
      sections := fun b => by
        rw [State.started_cascade, State.started_build, List.length_map]
        cases b
        · exact hb.trans two
        · exact hf.trans two
        · exact hf.trans two
      bank := by simpa [State.started_bank_length] using hl
      held := by simpa using hl
      params := by simpa using hp
      work := by simpa using h.work }

theorem execStart_keepsInv {s t : State} {now : F64} {rs : List ParamRecord} (h : s.Inv)
    (e : execStart now rs s = .next t) : t.Inv := by
  obtain ⟨-, rfl⟩ | ⟨hi, e⟩ := State.withInit_cases e
  · exact h.raise _ _
  · split at e
    · cases e
      exact h
    · simp only at e
      split at e
      · rename_i bpf lpf hb hl
        cases e
        exact h.started hi now (startParams_legal _ _ _) (clampCapacity_le _ _ _)
          (le_clampCapacity ((h.points hi).trans h.build.2.1) _) (startParams_interferers _ _ _)
          (designBPF_length hb) (designLPF_length hl)
      · cases e
        exact h.raise _ _

/-! ## UPDATE (R290, R347) -/

/-- A design made on a change comes from the designer. -/
theorem redesign_some {changed : Bool} {d : Option (List Coeffs)} {o : Option (List Coeffs)}
    {l : List Coeffs} (h : redesign changed d = some o) (ho : o = some l) : d = some l := by
  subst ho
  unfold redesign at h
  split at h
  · simpa using h
  · cases h

theorem execUpdate_keepsInv {s t : State} {rs : List ParamRecord} (h : s.Inv)
    (e : execUpdate rs s = .next t) : t.Inv := by
  obtain ⟨-, rfl⟩ | ⟨-, e⟩ := State.withInit_cases e
  · exact h.raise _ _
  · have two : 2 ≤ s.build.maxSections := h.build.2.2
    obtain ⟨legal, list, group⟩ :=
      applyRecords_keeps s.build s.ctl.snapshotPoints false rs h.params
    obtain ⟨-, capacity, -⟩ := group rfl
    split at e
    · simp only at e
      split at e
      · rename_i newBpf newLpf hb hl
        cases e
        exact h.updated _ capacity legal (list h.held)
          (fun l hx => (designBPF_length (redesign_some hb hx)).trans two)
          (fun l hx => (designLPF_length (redesign_some hl hx)).trans two)
      · cases e
        exact h.raise _ _
    · cases e
      exact h

/-! ## TICK (R280, R283) -/

theorem State.Inv.stoppedInTick {s : State} (h : s.Inv) : s.stoppedInTick.Inv := (h.setPorts _).tornDown

theorem execTick_keepsInv {s t : State} {now : F64} (h : s.Inv) (e : execTick now s = .next t) :
    t.Inv := by
  obtain ⟨-, rfl⟩ | ⟨-, e⟩ := State.withInit_cases e
  · exact h.raise _ _
  · split at e
    · have sampled := h.tickSampled now
      simp only at e
      split at e
      · exact sampled.stoppedInTick.publishPhase e
      · exact sampled.publishPhase e
    · cases e
      exact h

/-! ## The spectrum (R320 to R326) -/

theorem State.Inv.runSpectrum {s : State} (h : s.Inv) (op : Opcode) (sel : BitVec 8) (fs : F64)
    (x : List F64) : (s.runSpectrum op sel fs x).Inv :=
  h.of_eq (by simp) (by simp) (by simp) (by simp) (by simp) (by simp) (s.runSpectrum_work h.work _ _ _ _)

theorem State.Inv.finishTask {s : State} (h : s.Inv) (t : ChanTask) : (s.finishTask t).Inv :=
  (h.readRun _ _).endTask.runSpectrum _ _ _ _

theorem execFftChan_keepsInv {s t : State} {c : Chan} (h : s.Inv) (e : execFftChan c s = .next t) :
    t.Inv := by
  obtain rfl | ⟨act, -, rfl | rfl⟩ := execFftChan_cases e
  · exact h.raise _ _
  · exact h.acquireLoad.latchTask _
  · exact h.acquireLoad.finishTask _

/-! ## Every instruction, message and move -/

/-- An operation behind the test of R382: an uninitialised block raises, which keeps the invariants. -/
theorem withInit_keepsInv {s t : State} {op : Opcode} {r : Result} (h : s.Inv)
    (e : s.withInit op r = .next t) (hr : r = .next t → t.Inv) : t.Inv := by
  obtain ⟨-, rfl⟩ | ⟨-, e⟩ := State.withInit_cases e
  · exact h.raise _ _
  · exact hr e

/-- The same for an operation that then answers one state. -/
theorem withInit_next_keepsInv {s t u : State} {op : Opcode} (h : s.Inv)
    (e : s.withInit op (.next u) = .next t) (hu : u.Inv) : t.Inv :=
  withInit_keepsInv h e fun e => by
    cases e
    exact hu

/-- An operation behind the operand checks of R97. -/
theorem checkOperands_keepsInv {s t : State} {op : Opcode} {ok : Bool} {r : Result} (h : s.Inv)
    (e : s.checkOperands op ok r = .next t) (hr : ok = true → r = .next t → t.Inv) : t.Inv := by
  obtain ⟨-, rfl⟩ | ⟨hok, e⟩ := State.checkOperands_cases e
  · exact h.raise _ _
  · exact hr hok e

/-- An operation behind the read of the flag (R63). -/
theorem withFlag_keepsInv {s t : State} {f : Block → State} (e : s.withFlag (fun blk => .next (f blk)) = .next t)
    (hf : ∀ blk, (f blk).Inv) : t.Inv := by
  obtain ⟨act, -, -, e⟩ := State.withFlag_cases e
  cases e
  exact hf act

theorem exec_keepsInv {i : Instr} {s t : State} (h : s.Inv) (e : exec i s = .next t) : t.Inv := by
  cases i with
  | init => exact execInit_keepsInv h e
  | start => exact execStart_keepsInv h e
  | stop => exact withInit_next_keepsInv h e h.tornDown
  | update => exact execUpdate_keepsInv h e
  | tick => exact execTick_keepsInv h e
  | sample => exact withInit_next_keepsInv h e h.sampled
  | snap => exact withInit_keepsInv h e h.snapshot
  | oscPhase => exact withInit_next_keepsInv h e (h.respond _ _ _)
  | oscPhaseof => exact withInit_next_keepsInv h e (h.respond _ _ _)
  | oscSine => exact withInit_next_keepsInv h e ((h.oscAdvanced _ _).respond _ _ _)
  | oscSquare => exact withInit_next_keepsInv h e ((h.oscAdvanced _ _).respond _ _ _)
  | oscAdvance => exact withInit_next_keepsInv h e (h.oscAdvanced _ _)
  | oscReset => exact withInit_next_keepsInv h e (h.setPhase _ (.inr (by decide)))
  | noiseGauss => exact withInit_next_keepsInv h e ((h.gaussNext _).respond _ _ _)
  | noiseUniform => exact withInit_next_keepsInv h e ((h.skipDraws _).respond _ _ _)
  | intfInstall =>
    exact checkOperands_keepsInv h e fun hok e =>
      withInit_next_keepsInv h e (h.install (of_decide_eq_true hok))
  | intfGen => exact withInit_next_keepsInv h e (h.bankNext.respond _ _ _)
  | bqProc => exact withInit_next_keepsInv h e ((h.cascadeProcessed _ _).respond _ _ _)
  | bqReset => exact withInit_next_keepsInv h e (h.cascadeReset _)
  | bqRepl =>
    exact checkOperands_keepsInv h e fun hok e =>
      withInit_next_keepsInv h e (h.setCascade _ (by simpa using of_decide_eq_true hok))
  | mix => exact withInit_next_keepsInv h e (h.respond _ _ _)
  | dutGen => exact withInit_next_keepsInv h e (h.dutNext.respond _ _ _)
  | ringPush =>
    exact withInit_next_keepsInv h e (h.setRing _ (ringPushed_ok h.capacity_pos _ _))
  | ringSnap =>
    exact checkOperands_keepsInv h e fun _ e => withInit_next_keepsInv h e (h.respond _ _ _)
  | ringClear =>
    exact withInit_next_keepsInv h e (h.setRing _ (ringCleared_ok h.capacity_pos _))
  | dbAcqw => exact withInit_keepsInv h e fun e => withFlag_keepsInv e fun _ => h.respond _ _ _
  | dbPub => exact withInit_keepsInv h e fun e => withFlag_keepsInv e fun _ => h.storeFlag _
  | dbAcqr =>
    exact withInit_keepsInv h e fun e => withFlag_keepsInv e fun _ => (h.acquire _).respond _ _ _
  | fftRun =>
    cases e
    exact h.runSpectrum _ _ _ _
  | fftChan => exact execFftChan_keepsInv h e

theorem runMessage_keepsInv {p : Port} {m : Message} {s t : State} (h : s.Inv)
    (e : runMessage p m s = .next t) : t.Inv := by
  unfold runMessage at e
  split at e
  · exact exec_keepsInv h e
  · cases e
    exact h.raise _ _

/-- The receipt of a record writes the last-frame registers alone, not the work arrays (R38). -/
theorem Consumer.received_work (c : Consumer) (r : Record) :
    (c.received r).fftRe = c.fftRe ∧ (c.received r).fftIm = c.fftIm := by
  unfold Consumer.received
  split
  · split <;> exact ⟨rfl, rfl⟩
  · exact ⟨rfl, rfl⟩

theorem State.Inv.receiveMove {s : State} (h : s.Inv) : s.receiveMove.Inv := by
  unfold State.receiveMove
  split
  · exact h
  · rename_i r l _
    obtain ⟨re, im⟩ := s.cons.received_work r
    exact { h with work := by simpa only [re, im] using h.work }

theorem State.Inv.producerMove {s t : State} (h : s.Inv) (e : s.producerMove = .next t) : t.Inv := by
  unfold State.producerMove at e
  split at e
  · cases e
    exact h
  · exact runMessage_keepsInv (h.setQueue _ _) e

theorem State.Inv.consumerMove {s t : State} (h : s.Inv) (e : s.consumerMove = .next t) : t.Inv := by
  unfold State.consumerMove at e
  split at e
  · cases e
    exact h.finishTask _
  · split at e
    · cases e
      exact h
    · exact runMessage_keepsInv (h.setQueue _ _) e

theorem State.Inv.move {s t : State} {turn : Config.Turn} (h : s.Inv) (e : s.move turn = .next t) :
    t.Inv := by
  cases turn with
  | producer => exact h.producerMove e
  | consumer => exact h.consumerMove e
  | receive =>
    cases e
    exact h.receiveMove

/-- Everything one step can do: nothing where nothing waits, else one move and the refresh of the
choices. -/
theorem step_cases {s t : State} (e : step s = .next t) :
    t = s ∨ ∃ turn u, s.move turn = .next u ∧ t = u.refreshChoice := by
  unfold step State.advance at e
  split at e
  · cases e
    exact .inl rfl
  · rename_i turn _
    split at e
    · rename_i u hu
      cases e
      exact .inr ⟨turn, u, hu, rfl⟩
    · cases e
    · cases e

/-- Settles O3: a step is one move, a move one message, and every instruction keeps the invariants. -/
theorem stepKeepsInv : Obligations.StepKeepsInv := by
  intro s t h e
  obtain rfl | ⟨turn, u, hu, rfl⟩ := step_cases e
  · exact h
  · exact (h.move hu).refreshChoice

/-! ## Reset (R42) -/

theorem reset_ring_ok (c : Chan) : (State.reset.rings.get c).ok State.reset.params.ringCapacity := by
  have : State.reset.rings.get c = { w := 0, n := 0, cells := [] } := PerChan.get_const _ _
  rw [this]
  decide

/-- Settles O2: every clause of the invariant at the values of `State.reset`. -/
theorem resetInv : Obligations.ResetInv where
  build := by decide
  memory := ⟨.nil, nofun⟩
  flag := by decide
  lifecycle := by decide
  views := fun h => by cases h
  points := fun h => by cases h
  room := by decide
  capacityMax := by decide
  capacity := by decide
  oscRef := .inr (by decide)
  oscMod := .inr (by decide)
  rings := reset_ring_ok
  sections := fun b => by cases b <;> exact Nat.zero_le _
  bank := Nat.zero_le _
  held := Nat.zero_le _
  params := default_legal
  work := ⟨List.length_replicate, List.length_replicate⟩

/-- The arithmetic of the defaults: each pattern is that of the number the spec names (R30 to R33). -/
theorem default_values : Params.default =
    { sampleRate := natToF64 50000, ringCapacity := 100000, snapshotRate := natToF64 30,
      referenceFrequency := natToF64 100, referenceAmplitude := natToF64 1,
      modulatingFrequency := natToF64 10,
      modulationIndex := fdiv (natToF64 1) (natToF64 2), phaseShift := natToF64 0,
      sensorOutputAmplitude := natToF64 1,
      whiteNoiseAmplitude := fdiv (natToF64 1) (natToF64 10), interferers := [],
      bpfEnabled := true, bpfCenterFrequency := natToF64 100, bpfBandwidth := natToF64 50,
      bpfOrder := .two, lpfCutoffFrequency := natToF64 10, lpfOrder := .two,
      mixerMode := .analog } := by decide +kernel

/-- Settles O1: the channels, cascades, rings and bytes one by one, every other register by evaluation. -/
theorem resetValues : Obligations.ResetValues := by
  refine ⟨rfl, default_values, fun c => PerChan.get_const _ _, rfl, rfl, rfl, fun b => ?cascade, rfl, rfl,
    rfl, rfl, rfl, rfl, rfl, rfl, fun c => ?ring, fun a => rfl, rfl, rfl, rfl, rfl, rfl, rfl, rfl, rfl,
    rfl⟩
  case cascade => cases b <;> rfl
  case ring =>
    have : State.reset.rings.get c = { w := 0, n := 0, cells := [] } := PerChan.get_const _ _
    exact this ▸ ⟨rfl, rfl⟩

end Sys2Proof.Machine
end

section
/-!
PROOFS. Repeated samples (R272), the receipt of a FrameReady (R38, R390), and what the instructions of each port
leave of the other agent's state (R20, R72, R394).
-/

namespace Sys2Proof.Machine

/-! ## Repeated samples -/

/-- A counter below its last value goes up by one, whatever follows the last value (U9, log 7). -/
theorem counter_next_toNat {n after : BitVec 64} (h : n.toNat + 1 < 2 ^ 64) :
    (if n = BitVec.allOnes 64 then after else n + 1#64).toNat = n.toNat + 1 := by
  have hn : n ≠ BitVec.allOnes 64 := by
    rintro rfl
    simp at h
  rw [if_neg hn, BitVec.toNat_add]
  exact Nat.mod_eq_of_lt h

/-- A register that one sample counts up counts up once for each of several. -/
theorem sampledTimes_counts {reg : State → BitVec 64}
    (one : ∀ s, (reg s).toNat + 1 < 2 ^ 64 → (reg s.sampled).toNat = (reg s).toNat + 1) (k : Nat) :
    ∀ s, (reg s).toNat + k < 2 ^ 64 → (reg (State.sampledTimes k s)).toNat = (reg s).toNat + k := by
  induction k with
  | zero => exact fun _ _ => rfl
  | succ k ih =>
    intro s h
    have first := one s (by omega)
    exact (ih s.sampled (by omega)).trans (by omega)

theorem sampled_sampleCount_toNat (s : State) (h : s.chain.sampleCount.toNat + 1 < 2 ^ 64) :
    s.sampled.chain.sampleCount.toNat = s.chain.sampleCount.toNat + 1 := by
  rw [State.sampled_chain_sampleCount]
  exact counter_next_toNat h

theorem sampled_avgCount_toNat (s : State) (h : s.chain.avgCount.toNat + 1 < 2 ^ 64) :
    s.sampled.chain.avgCount.toNat = s.chain.avgCount.toNat + 1 := by
  rw [State.sampled_chain_avgCount]
  exact counter_next_toNat h

/-- Settles O23: both counters are registers that a sample counts up by one. -/
theorem samplesCount : Obligations.SamplesCount := fun k s =>
  ⟨rfl, fun hi => ⟨s.sampled, State.withInit_true hi _ _, rfl⟩,
    sampledTimes_counts (reg := fun s => s.chain.sampleCount) sampled_sampleCount_toNat k s,
    sampledTimes_counts (reg := fun s => s.chain.avgCount) sampled_avgCount_toNat k s⟩

/-! ## The receipt of a FrameReady -/

/-- Where an event waits and the choice names the receipt, the step is the receipt. -/
theorem step_receive {s : State} {r : Record} {l : List Record} (ht : s.free.choice.turn = .receive)
    (he : s.ports.events = r :: l) : step s = .next s.receiveMove.refreshChoice := by
  have turn : s.nextTurn = some .receive := by simp [State.nextTurn, State.canMove, ht, he]
  simp [step, State.advance, turn, State.move]

/-- Settles O47: the step is the receipt, and a FrameReady has six payload words. -/
theorem frameReadyReceived : Obligations.FrameReadyReceived := by
  intro s l i q signed phase rate len ht he
  rw [step_receive ht he]
  simp only [State.receiveMove, he]
  rfl

/-! ## What each port leaves of the other agent's state -/

/-- The build and everything the consumer owns (R20, R394). -/
def SameConsumer (s t : State) : Prop :=
  t.build = s.build ∧ t.cons = s.cons ∧ t.ports.cPort = s.ports.cPort ∧ t.ports.cResp = s.ports.cResp

/-- The build and everything the producer owns, the shared region and the draws with it (R20, R72). -/
def SameProducer (s t : State) : Prop :=
  t.build = s.build ∧ t.ctl = s.ctl ∧ t.params = s.params ∧ t.chain = s.chain ∧ t.rings = s.rings ∧
    t.shm = s.shm ∧ t.ports.pPort = s.ports.pPort ∧ t.ports.pResp = s.ports.pResp ∧
    t.free.drawPos = s.free.drawPos

theorem SameConsumer.refl (s : State) : SameConsumer s s := ⟨rfl, rfl, rfl, rfl⟩

theorem SameConsumer.trans {s t u : State} (h : SameConsumer s t) (h' : SameConsumer t u) :
    SameConsumer s u := by
  obtain ⟨build, cons, queue, resp⟩ := h
  obtain ⟨build', cons', queue', resp'⟩ := h'
  exact ⟨build'.trans build, cons'.trans cons, queue'.trans queue, resp'.trans resp⟩

/-- An update that touches neither the consumer's registers nor any stream. -/
theorem SameConsumer.of_ports {s t : State} (build : t.build = s.build) (cons : t.cons = s.cons)
    (ports : t.ports = s.ports) : SameConsumer s t := ⟨build, cons, by rw [ports], by rw [ports]⟩

theorem SameConsumer.raise (s : State) (op : BitVec 8) (k : ErrorKind) : SameConsumer s (s.raise op k) :=
  ⟨rfl, rfl, rfl, rfl⟩

theorem SameConsumer.respond {s t : State} (h : SameConsumer s t) {op : Opcode} (hp : op.port = .producer)
    (sel : BitVec 8) (l : List Word) : SameConsumer s (t.respond op sel l) :=
  h.trans ⟨by simp, by simp, by simp, by simp [State.respond, hp]⟩

theorem SameConsumer.gaussNext (s : State) (sigma : F64) : SameConsumer s (s.gaussNext sigma) :=
  .of_ports (by simp) (by simp) (by simp)

theorem SameConsumer.oscAdvanced (s : State) (o : OscSel) (f : F64) : SameConsumer s (s.oscAdvanced o f) :=
  .of_ports (by simp) (by simp) (by simp)

theorem SameConsumer.setCascade (s : State) (b : BqSel) (l : List Section) :
    SameConsumer s (s.setCascade b l) := .of_ports (by simp) (by simp) (by simp)

theorem SameConsumer.snapshot {s t : State} (e : s.snapshot = .next t) : SameConsumer s t := by
  obtain ⟨act, m, -, -, -, rfl⟩ := State.snapshot_cases e
  exact ⟨by simp, by simp, by simp [State.published], by simp [State.published]⟩

theorem SameConsumer.publishPhase {s t : State} {now : F64} (e : s.publishPhase now = .next t) :
    SameConsumer s t := by
  obtain rfl | ⟨u, hu, rfl⟩ := State.publishPhase_cases e
  · exact .refl _
  · exact (SameConsumer.snapshot hu).trans ⟨rfl, rfl, rfl, rfl⟩

theorem SameConsumer.tickSampled (s : State) (now : F64) : SameConsumer s (s.tickSampled now) :=
  .of_ports (by simp [State.tickSampled]) (by simp [State.tickSampled]) (by simp [State.tickSampled])

theorem SameConsumer.tornDown (s : State) : SameConsumer s s.tornDown :=
  .of_ports s.tornDown_build s.tornDown_cons s.tornDown_ports

/-- The STOP that cuts a tick is taken off the P-port alone (R283). -/
theorem SameConsumer.stoppedInTick (s : State) : SameConsumer s s.stoppedInTick :=
  have taken : SameConsumer s { s with ports := { s.ports with pPort := s.ports.pPort.tail } } :=
    ⟨rfl, rfl, rfl, rfl⟩
  taken.trans (.tornDown _)

/-- An operation behind the test of R382. -/
theorem withInit_sameConsumer {s t : State} {op : Opcode} {r : Result} (e : s.withInit op r = .next t)
    (hr : r = .next t → SameConsumer s t) : SameConsumer s t := by
  obtain ⟨-, rfl⟩ | ⟨-, e⟩ := State.withInit_cases e
  · exact .raise _ _ _
  · exact hr e

/-- The same for an operation that then answers one state. -/
theorem withInit_next_sameConsumer {s t u : State} {op : Opcode} (e : s.withInit op (.next u) = .next t)
    (hu : SameConsumer s u) : SameConsumer s t :=
  withInit_sameConsumer e fun e => by
    cases e
    exact hu

/-- An operation behind the operand checks of R97. -/
theorem checkOperands_sameConsumer {s t : State} {op : Opcode} {ok : Bool} {r : Result}
    (e : s.checkOperands op ok r = .next t) (hr : r = .next t → SameConsumer s t) : SameConsumer s t := by
  obtain ⟨-, rfl⟩ | ⟨-, e⟩ := State.checkOperands_cases e
  · exact .raise _ _ _
  · exact hr e

/-- An operation behind the read of the flag (R63). -/
theorem withFlag_sameConsumer {s t : State} {f : Block → State}
    (e : s.withFlag (fun blk => .next (f blk)) = .next t) (hf : ∀ blk, SameConsumer s (f blk)) :
    SameConsumer s t := by
  obtain ⟨act, -, -, e⟩ := State.withFlag_cases e
  cases e
  exact hf act

theorem execInit_sameConsumer {s t : State} {bytes p : Word} (e : execInit bytes p s = .next t) :
    SameConsumer s t :=
  checkOperands_sameConsumer e fun e => by
    split at e
    · cases e
      exact .refl _
    · split at e <;> cases e
      · exact .raise _ _ _
      · exact ⟨rfl, rfl, rfl, rfl⟩

theorem execStart_sameConsumer {s t : State} {now : F64} {rs : List ParamRecord}
    (e : execStart now rs s = .next t) : SameConsumer s t :=
  withInit_sameConsumer e fun e => by
    split at e
    · cases e
      exact .refl _
    · simp only at e
      split at e <;> cases e
      · exact .of_ports (by simp) (by simp) (by simp)
      · exact .raise _ _ _

theorem execUpdate_sameConsumer {s t : State} {rs : List ParamRecord} (e : execUpdate rs s = .next t) :
    SameConsumer s t :=
  withInit_sameConsumer e fun e => by
    split at e
    · simp only at e
      split at e <;> cases e
      · exact .of_ports (by simp) (by simp) (by simp)
      · exact .raise _ _ _
    · cases e
      exact .refl _

theorem execTick_sameConsumer {s t : State} {now : F64} (e : execTick now s = .next t) :
    SameConsumer s t :=
  withInit_sameConsumer e fun e => by
    split at e
    · have sampled := SameConsumer.tickSampled s now
      simp only at e
      split at e
      · exact (sampled.trans (.stoppedInTick _)).trans (.publishPhase e)
      · exact sampled.trans (.publishPhase e)
    · cases e
      exact .refl _

/-- No instruction of the P-port changes what the consumer owns. -/
theorem exec_sameConsumer {i : Instr} {s t : State} (hp : i.port = .producer)
    (e : exec i s = .next t) : SameConsumer s t := by
  have unchanged := SameConsumer.refl s
  cases i with
  | init => exact execInit_sameConsumer e
  | start => exact execStart_sameConsumer e
  | stop => exact withInit_next_sameConsumer e (.tornDown s)
  | update => exact execUpdate_sameConsumer e
  | tick => exact execTick_sameConsumer e
  | sample => exact withInit_next_sameConsumer e (.of_ports (by simp) (by simp) (by simp))
  | snap => exact withInit_sameConsumer e .snapshot
  | oscPhase => exact withInit_next_sameConsumer e (unchanged.respond rfl _ _)
  | oscPhaseof => exact withInit_next_sameConsumer e (unchanged.respond rfl _ _)
  | oscSine => exact withInit_next_sameConsumer e ((SameConsumer.oscAdvanced s _ _).respond rfl _ _)
  | oscSquare => exact withInit_next_sameConsumer e ((SameConsumer.oscAdvanced s _ _).respond rfl _ _)
  | oscAdvance => exact withInit_next_sameConsumer e (.oscAdvanced s _ _)
  | oscReset => exact withInit_next_sameConsumer e (.of_ports (by simp) (by simp) (by simp))
  | noiseGauss => exact withInit_next_sameConsumer e ((SameConsumer.gaussNext s _).respond rfl _ _)
  | noiseUniform =>
    exact withInit_next_sameConsumer e (SameConsumer.respond ⟨rfl, rfl, rfl, rfl⟩ rfl _ _)
  | intfInstall =>
    exact checkOperands_sameConsumer e fun e =>
      withInit_next_sameConsumer e (.of_ports (by simp) (by simp) (by simp))
  | intfGen => exact withInit_next_sameConsumer e (SameConsumer.respond ⟨rfl, rfl, rfl, rfl⟩ rfl _ _)
  | bqProc => exact withInit_next_sameConsumer e ((SameConsumer.setCascade s _ _).respond rfl _ _)
  | bqReset => exact withInit_next_sameConsumer e (.setCascade s _ _)
  | bqRepl =>
    exact checkOperands_sameConsumer e fun e => withInit_next_sameConsumer e (.setCascade s _ _)
  | mix => exact withInit_next_sameConsumer e (unchanged.respond rfl _ _)
  | dutGen =>
    exact withInit_next_sameConsumer e
      (((SameConsumer.oscAdvanced s _ _).trans (.oscAdvanced _ _ _)).respond rfl _ _)
  | ringPush => exact withInit_next_sameConsumer e ⟨rfl, rfl, rfl, rfl⟩
  | ringSnap =>
    exact checkOperands_sameConsumer e fun e => withInit_next_sameConsumer e (unchanged.respond rfl _ _)
  | ringClear => exact withInit_next_sameConsumer e ⟨rfl, rfl, rfl, rfl⟩
  | dbAcqw =>
    exact withInit_sameConsumer e fun e => withFlag_sameConsumer e fun _ => unchanged.respond rfl _ _
  | dbPub =>
    exact withInit_sameConsumer e fun e => withFlag_sameConsumer e fun _ => ⟨rfl, rfl, rfl, rfl⟩
  | dbAcqr => cases hp
  | fftRun => cases hp
  | fftChan => cases hp

theorem SameProducer.raise (s : State) (op : BitVec 8) (k : ErrorKind) : SameProducer s (s.raise op k) :=
  ⟨rfl, rfl, rfl, rfl, rfl, rfl, rfl, rfl, rfl⟩

theorem SameProducer.respond {s t : State} (h : SameProducer s t) {op : Opcode} (hp : op.port = .consumer)
    (sel : BitVec 8) (l : List Word) : SameProducer s (t.respond op sel l) := by
  obtain ⟨build, ctl, params, chain, rings, shm, queue, resp, draws⟩ := h
  exact ⟨by simpa using build, by simpa using ctl, by simpa using params, by simpa using chain,
    by simpa using rings, by simpa using shm, by simpa using queue,
    by simpa [State.respond, hp] using resp, by simpa using draws⟩

theorem SameProducer.acquire (s : State) (blk : Block) : SameProducer s (s.acquire blk) :=
  ⟨rfl, rfl, rfl, rfl, rfl, rfl, rfl, rfl, rfl⟩

/-- The spectrum answers on the consumer's stream and writes its work arrays. -/
theorem SameProducer.runSpectrum (s : State) {op : Opcode} (hp : op.port = .consumer) (sel : BitVec 8)
    (fs : F64) (x : List F64) : SameProducer s (s.runSpectrum op sel fs x) := by
  have unchanged : SameProducer s s := ⟨rfl, rfl, rfl, rfl, rfl, rfl, rfl, rfl, rfl⟩
  have worked : ∀ n w, SameProducer s (s.setWork n w) := fun _ _ =>
    ⟨rfl, rfl, rfl, rfl, rfl, rfl, rfl, rfl, rfl⟩
  unfold State.runSpectrum
  split
  · exact unchanged.respond hp _ _
  · exact (worked _ _).respond hp _ _

theorem SameProducer.finishTask (s : State) (k : ChanTask) : SameProducer s (s.finishTask k) :=
  SameProducer.runSpectrum (s.readRun k.addr k.len).endTask (op := .fftChan) rfl _ _ _

/-- No instruction of the C-port changes what the producer owns. -/
theorem exec_sameProducer {i : Instr} {s t : State} (hp : i.port = .consumer)
    (e : exec i s = .next t) : SameProducer s t := by
  cases i with
  | dbAcqr =>
    obtain ⟨-, rfl⟩ | ⟨-, e⟩ := State.withInit_cases e
    · exact .raise _ _ _
    · obtain ⟨act, -, -, e⟩ := State.withFlag_cases e
      cases e
      exact (SameProducer.acquire s act).respond rfl _ _
  | fftRun =>
    cases e
    exact .runSpectrum s rfl _ _ _
  | fftChan =>
    obtain rfl | ⟨act, -, rfl | rfl⟩ := execFftChan_cases e
    · exact .raise _ _ _
    · exact ⟨rfl, rfl, rfl, rfl, rfl, rfl, rfl, rfl, rfl⟩
    · exact SameProducer.finishTask s.acquireLoad _
  | _ => cases hp

/-- Settles O46, port by port; the build is in both frames. -/
theorem agentsOwnTheirState : Obligations.AgentsOwnTheirState := by
  intro i s t e
  refine ⟨?build, fun hp => (exec_sameProducer hp e).2, fun hp => (exec_sameConsumer hp e).2⟩
  cases hp : i.port with
  | producer => exact (exec_sameConsumer hp e).1
  | consumer => exact (exec_sameProducer hp e).1

end Sys2Proof.Machine
end

section
/-!
PROOFS. What the consumer's plain reads see (20_memory.md R70 to R74, R420): what every operation adds to the
contents a read may see, the oldest of them that a word still admits, and an FFT.CHAN that races the producer.
-/

namespace Sys2Proof.Machine

/-! ## The contents a read may see, through every operation -/

theorem State.contents_congr {s t : State} (shm : t.shm = s.shm)
    (past : t.free.view.past = s.free.view.past) : t.contents = s.contents := by
  rw [State.contents, State.contents, shm, past]

/-- The region, what came before it, and the record of the reads. -/
def SameReads (s t : State) : Prop :=
  t.shm = s.shm ∧ t.free.view.past = s.free.view.past ∧ t.free.view.seen = s.free.view.seen

theorem SameReads.of_view {s t : State} (shm : t.shm = s.shm) (view : t.free.view = s.free.view) :
    SameReads s t := ⟨shm, by rw [view], by rw [view]⟩

theorem SameReads.refl (s : State) : SameReads s s := ⟨rfl, rfl, rfl⟩

theorem SameReads.trans {s t u : State} (h : SameReads s t) (h' : SameReads t u) : SameReads s u := by
  obtain ⟨shm, past, seen⟩ := h
  obtain ⟨shm', past', seen'⟩ := h'
  exact ⟨shm'.trans shm, past'.trans past, seen'.trans seen⟩

theorem SameReads.raise (s : State) (op : BitVec 8) (k : ErrorKind) : SameReads s (s.raise op k) :=
  ⟨rfl, rfl, rfl⟩

theorem SameReads.respond {s t : State} (h : SameReads s t) (op : Opcode) (sel : BitVec 8)
    (l : List Word) : SameReads s (t.respond op sel l) :=
  h.trans (.of_view (by simp) (by simp))

theorem SameReads.gaussNext (s : State) (sigma : F64) : SameReads s (s.gaussNext sigma) :=
  .of_view (by simp) (by simp)

theorem SameReads.oscAdvanced (s : State) (o : OscSel) (f : F64) : SameReads s (s.oscAdvanced o f) :=
  .of_view (by simp) (by simp)

theorem SameReads.setCascade (s : State) (b : BqSel) (l : List Section) :
    SameReads s (s.setCascade b l) := .of_view (by simp) (by simp)

theorem SameReads.tickSampled (s : State) (now : F64) : SameReads s (s.tickSampled now) :=
  .of_view (by simp [State.tickSampled]) (by rw [State.tickSampled, State.setSampleTime_free]; simp)

theorem SameReads.stoppedInTick (s : State) : SameReads s s.stoppedInTick := ⟨rfl, rfl, rfl⟩

/-- The publish of a snapshot: one content with its elements stored, then one with its flag stored; no element
lies in the bytes of the flag (R281). -/
def AddsSnapshot (s t : State) : Prop :=
  t.free.view.seen = s.free.view.seen ∧ ∃ m : Memory, t.contents = s.contents ++ [m, t.shm] ∧
    ∀ a, memRead m a = if a < 4 then memRead s.shm a else memRead t.shm a

theorem AddsSnapshot.of_same {s t u : State} (h : SameReads s t) (h' : AddsSnapshot t u) :
    AddsSnapshot s u := by
  obtain ⟨shm, past, seen⟩ := h
  obtain ⟨seen', m, added, bytes⟩ := h'
  exact ⟨seen'.trans seen, m, by rw [added, State.contents_congr shm past], by rw [← shm]; exact bytes⟩

/-- A publish adds the region with the elements and the region with the flag, whatever the elements are. -/
theorem State.published_contents (s : State) (blk : Block) (m : Memory) :
    (s.published blk m).contents = s.contents ++ [m, (s.published blk m).shm] := by
  simp [State.contents]

theorem AddsSnapshot.snapshot {s t : State} (e : s.snapshot = .next t) : AddsSnapshot s t := by
  obtain ⟨act, m, -, -, stored, rfl⟩ := State.snapshot_cases e
  refine ⟨rfl, m, s.published_contents _ _, fun a => ?_⟩
  split
  · refine State.storeViews_frame stored fun c _ => .inl ?_
    rw [elemAddr_eq]
    omega
  · exact (memRead_memWrite32_other m (.inr (by omega)) _).symm

/-- What an operation that acquires nothing does to the contents: nothing, or what DB.PUB, SNAP and TICK store
(R251, R280, R281). -/
def ReadEffect (i : Instr) (s t : State) : Prop :=
  t.free.view.seen = s.free.view.seen ∧
    (t.contents = s.contents ∨
      (i = .dbPub ∧ t.contents = s.contents ++ [t.shm] ∧
        ∀ a, 4 ≤ a → memRead t.shm a = memRead s.shm a) ∨
      ((i = .snap ∨ ∃ now, i = .tick now) ∧ ∃ m : Memory, t.contents = s.contents ++ [m, t.shm] ∧
        ∀ a, memRead m a = if a < 4 then memRead s.shm a else memRead t.shm a))

theorem SameReads.effect {s t : State} (h : SameReads s t) (i : Instr) : ReadEffect i s t := by
  obtain ⟨shm, past, seen⟩ := h
  exact ⟨seen, .inl (State.contents_congr shm past)⟩

theorem AddsSnapshot.effect {i : Instr} {s t : State} (h : AddsSnapshot s t)
    (hi : i = .snap ∨ ∃ now, i = .tick now) : ReadEffect i s t := by
  obtain ⟨seen, added⟩ := h
  exact ⟨seen, .inr (.inr ⟨hi, added⟩)⟩

theorem State.storeFlag_effect (s : State) (blk : Block) : ReadEffect .dbPub s (s.storeFlag blk) :=
  ⟨rfl, .inr (.inl ⟨rfl, rfl, fun _ ha => s.storeFlag_frame blk ha⟩)⟩

/-- What an operation does to the reads behind the test of R382: the error changes nothing of them. -/
theorem withInit_effect {i : Instr} {s t : State} {op : Opcode} {r : Result}
    (e : s.withInit op r = .next t) (hr : r = .next t → ReadEffect i s t) : ReadEffect i s t := by
  obtain ⟨-, rfl⟩ | ⟨-, e⟩ := State.withInit_cases e
  · exact (SameReads.raise _ _ _).effect i
  · exact hr e

/-- The same for an operation that then answers one state. -/
theorem withInit_next_effect {i : Instr} {s t u : State} {op : Opcode}
    (e : s.withInit op (.next u) = .next t) (hu : SameReads s u) : ReadEffect i s t :=
  withInit_effect e fun e => by
    cases e
    exact hu.effect i

/-- What an operation does to the reads behind the operand checks of R97. -/
theorem checkOperands_effect {i : Instr} {s t : State} {op : Opcode} {ok : Bool} {r : Result}
    (e : s.checkOperands op ok r = .next t) (hr : r = .next t → ReadEffect i s t) :
    ReadEffect i s t := by
  obtain ⟨-, rfl⟩ | ⟨-, e⟩ := State.checkOperands_cases e
  · exact (SameReads.raise _ _ _).effect i
  · exact hr e

/-- What an operation does to the reads behind the read of the flag (R63). -/
theorem withFlag_effect {i : Instr} {s t : State} {f : Block → State}
    (e : s.withFlag (fun blk => .next (f blk)) = .next t) (hf : ∀ blk, ReadEffect i s (f blk)) :
    ReadEffect i s t := by
  obtain ⟨act, -, -, e⟩ := State.withFlag_cases e
  cases e
  exact hf act

/-- The publish phase of a tick stores a snapshot or nothing, after samples that store nothing (R280). -/
theorem publishPhase_effect {s t u : State} {now : F64} (h : SameReads s u)
    (e : u.publishPhase now = .next t) : ReadEffect (.tick now) s t := by
  obtain rfl | ⟨v, hv, rfl⟩ := State.publishPhase_cases e
  · exact h.effect _
  · have stored : AddsSnapshot s v := .of_same h (.snapshot hv)
    have published : AddsSnapshot s (v.setPublishTime now) := stored
    exact published.effect (.inr ⟨now, rfl⟩)

theorem execInit_effect {s t : State} {bytes p : Word} (e : execInit bytes p s = .next t) :
    ReadEffect (.init bytes p) s t :=
  checkOperands_effect e fun e => by
    split at e
    · cases e
      exact (SameReads.refl s).effect _
    · split at e <;> cases e
      · exact (SameReads.raise _ _ _).effect _
      · exact SameReads.effect ⟨rfl, rfl, rfl⟩ _

theorem execStart_effect {s t : State} {now : F64} {rs : List ParamRecord}
    (e : execStart now rs s = .next t) : ReadEffect (.start now rs) s t :=
  withInit_effect e fun e => by
    split at e
    · cases e
      exact (SameReads.refl s).effect _
    · simp only at e
      split at e <;> cases e
      · exact (SameReads.of_view (by simp) (by simp)).effect _
      · exact (SameReads.raise _ _ _).effect _

theorem execUpdate_effect {s t : State} {rs : List ParamRecord} (e : execUpdate rs s = .next t) :
    ReadEffect (.update rs) s t :=
  withInit_effect e fun e => by
    split at e
    · simp only at e
      split at e <;> cases e
      · exact (SameReads.of_view (by simp) (by simp)).effect _
      · exact (SameReads.raise _ _ _).effect _
    · cases e
      exact (SameReads.refl s).effect _

theorem execTick_effect {s t : State} {now : F64} (e : execTick now s = .next t) :
    ReadEffect (.tick now) s t :=
  withInit_effect e fun e => by
    split at e
    · have sampled := SameReads.tickSampled s now
      simp only at e
      split at e
      · exact publishPhase_effect (sampled.trans (.stoppedInTick _)) e
      · exact publishPhase_effect sampled e
    · cases e
      exact (SameReads.refl s).effect _

/-- Every operation that acquires nothing, one by one. -/
theorem exec_effect {i : Instr} {s t : State} (noAcqr : i ≠ .dbAcqr) (noChan : ∀ c, i ≠ .fftChan c)
    (e : exec i s = .next t) : ReadEffect i s t := by
  have unchanged := SameReads.refl s
  cases i with
  | init => exact execInit_effect e
  | start => exact execStart_effect e
  | stop => exact withInit_next_effect e ⟨rfl, rfl, rfl⟩
  | update => exact execUpdate_effect e
  | tick => exact execTick_effect e
  | sample => exact withInit_next_effect e (.of_view (by simp) s.sampled_free_view)
  | snap => exact withInit_effect e fun e => (AddsSnapshot.snapshot e).effect (.inl rfl)
  | oscPhase => exact withInit_next_effect e (unchanged.respond _ _ _)
  | oscPhaseof => exact withInit_next_effect e (unchanged.respond _ _ _)
  | oscSine => exact withInit_next_effect e ((SameReads.oscAdvanced s _ _).respond _ _ _)
  | oscSquare => exact withInit_next_effect e ((SameReads.oscAdvanced s _ _).respond _ _ _)
  | oscAdvance => exact withInit_next_effect e (.oscAdvanced s _ _)
  | oscReset => exact withInit_next_effect e (.of_view (by simp) (by simp))
  | noiseGauss => exact withInit_next_effect e ((SameReads.gaussNext s _).respond _ _ _)
  | noiseUniform => exact withInit_next_effect e (SameReads.respond ⟨rfl, rfl, rfl⟩ _ _ _)
  | intfInstall =>
    exact checkOperands_effect e fun e => withInit_next_effect e (.of_view (by simp) (by simp))
  | intfGen => exact withInit_next_effect e (SameReads.respond ⟨rfl, rfl, rfl⟩ _ _ _)
  | bqProc => exact withInit_next_effect e ((SameReads.setCascade s _ _).respond _ _ _)
  | bqReset => exact withInit_next_effect e (.setCascade s _ _)
  | bqRepl =>
    exact checkOperands_effect e fun e => withInit_next_effect e (.setCascade s _ _)
  | mix => exact withInit_next_effect e (unchanged.respond _ _ _)
  | dutGen =>
    exact withInit_next_effect e
      (((SameReads.oscAdvanced s _ _).trans (.oscAdvanced _ _ _)).respond _ _ _)
  | ringPush => exact withInit_next_effect e ⟨rfl, rfl, rfl⟩
  | ringSnap =>
    exact checkOperands_effect e fun e => withInit_next_effect e (unchanged.respond _ _ _)
  | ringClear => exact withInit_next_effect e ⟨rfl, rfl, rfl⟩
  | dbAcqw =>
    exact withInit_effect e fun e => withFlag_effect e fun _ => (unchanged.respond _ _ _).effect _
  | dbPub => exact withInit_effect e fun e => withFlag_effect e fun _ => s.storeFlag_effect _
  | dbAcqr => exact absurd rfl noAcqr
  | fftRun =>
    cases e
    exact (SameReads.of_view (by simp) (by simp)).effect _
  | fftChan c => exact absurd rfl (noChan c)

theorem ReadEffect.contents_grow {i : Instr} {s t : State} (h : ReadEffect i s t) :
    s.contents <+: t.contents := by
  obtain ⟨-, kept | ⟨-, added, -⟩ | ⟨-, m, added, -⟩⟩ := h
  · rw [kept]
  · rw [added]
    exact ⟨_, rfl⟩
  · rw [added]
    exact ⟨_, rfl⟩

/-- The receipt of an event reads and stores nothing of the region (log 42). -/
theorem SameReads.receiveMove (s : State) : SameReads s s.receiveMove := by
  unfold State.receiveMove
  split <;> exact ⟨rfl, rfl, rfl⟩

/-! ## The oldest content that a word still admits -/

/-- A read of the word at byte `a` sees none of the contents before this one. -/
def State.oldest (s : State) (a : Nat) : Nat := min (s.seenAt a) (s.contents.length - 1)

theorem State.pickVersion_range (s : State) (k a : Nat) :
    s.oldest a ≤ s.pickVersion k a ∧ s.pickVersion k a < s.contents.length := by
  obtain ⟨low, high⟩ := s.pickVersion_bounds k a
  rw [State.oldest, State.contents_length]
  exact ⟨low, Nat.lt_succ_of_le high⟩

theorem State.readRun_contents (s : State) (b n : Nat) : (s.readRun b n).contents = s.contents := rfl

/-- After a read of a word the oldest content it admits is the one it has just seen. -/
theorem State.readRun_oldest (s : State) {b n j : Nat} (h : j < n) :
    (s.readRun b n).oldest (b + 4 * j) = s.pickVersion j (b + 4 * j) := by
  obtain ⟨-, high⟩ := s.pickVersion_range j (b + 4 * j)
  rw [State.oldest, State.readRun_seenAt s h, State.readRun_contents]
  omega

/-- The contents only grow, and no word goes back to one it had left behind (R72 (a), (d)). -/
def OnlyForward (s t : State) : Prop :=
  t.build = s.build ∧ s.contents <+: t.contents ∧ ∀ a, s.oldest a ≤ t.oldest a

theorem OnlyForward.refl (s : State) : OnlyForward s s := ⟨rfl, by rfl, fun _ => le_rfl⟩

theorem OnlyForward.trans {s t u : State} (h : OnlyForward s t) (h' : OnlyForward t u) :
    OnlyForward s u := by
  obtain ⟨build, grown, forward⟩ := h
  obtain ⟨build', grown', forward'⟩ := h'
  exact ⟨build'.trans build, grown.trans grown', fun a => (forward a).trans (forward' a)⟩

theorem OnlyForward.of_seen {s t : State} (build : t.build = s.build) (grown : s.contents <+: t.contents)
    (seen : t.free.view.seen = s.free.view.seen) : OnlyForward s t := by
  refine ⟨build, grown, fun a => ?_⟩
  have longer := grown.length_le
  rw [State.oldest, State.oldest, State.seenAt, State.seenAt, seen]
  omega

theorem OnlyForward.of_view {s t : State} (build : t.build = s.build) (shm : t.shm = s.shm)
    (view : t.free.view = s.free.view) : OnlyForward s t :=
  .of_seen build (by rw [State.contents_congr shm (by rw [view])]) (by rw [view])

theorem OnlyForward.exec {i : Instr} {s t : State} (noAcqr : i ≠ .dbAcqr) (noChan : ∀ c, i ≠ .fftChan c)
    (e : exec i s = .next t) : OnlyForward s t := by
  have effect := exec_effect noAcqr noChan e
  have ⟨seen, _⟩ := effect
  obtain ⟨build, -⟩ := agentsOwnTheirState i s t e
  exact .of_seen build effect.contents_grow seen

/-- A word read moves up to what it saw; a word not read stays. -/
theorem OnlyForward.readRun (s : State) (b n : Nat) : OnlyForward s (s.readRun b n) := by
  refine ⟨rfl, by rfl, fun a => ?_⟩
  by_cases read : ∃ j, j < n ∧ a = b + 4 * j
  · obtain ⟨j, hj, rfl⟩ := read
    rw [s.readRun_oldest hj]
    exact (s.pickVersion_range _ _).1
  · have notRead : ∀ j, j < n → a ≠ b + 4 * j := fun j hj ha => read ⟨j, hj, ha⟩
    rw [State.oldest, State.oldest, s.readRun_seenAt_other notRead, State.readRun_contents]

@[simp] theorem State.finishTask_view (s : State) (k : ChanTask) :
    (s.finishTask k).free.view = (s.readRun k.addr k.len).free.view := by simp [State.finishTask]

@[simp] theorem State.finishTask_shm (s : State) (k : ChanTask) : (s.finishTask k).shm = s.shm := by
  simp [State.finishTask]

theorem State.finishTask_contents (s : State) (k : ChanTask) : (s.finishTask k).contents = s.contents :=
  State.contents_congr (by simp) (by rw [State.finishTask_view]; rfl)

theorem OnlyForward.finishTask (s : State) (k : ChanTask) : OnlyForward s (s.finishTask k) :=
  have ended : OnlyForward (s.readRun k.addr k.len) (s.finishTask k) :=
    .of_view (by simp [State.finishTask]) (by simp) (by simp)
  (OnlyForward.readRun s k.addr k.len).trans ended

/-- A move that acquires nothing, kind by kind. -/
theorem PlainMove.onlyForward {s t : State} (h : PlainMove s t) : OnlyForward s t := by
  obtain ⟨i, noAcqr, noChan, e⟩ | ⟨a, n, rfl⟩ | ⟨k, -, rfl⟩ | ⟨build, shm, view⟩ := h
  · exact .exec noAcqr noChan e
  · exact .readRun s a n
  · exact .finishTask s k
  · exact .of_view build shm view

theorem plainMoves_onlyForward {s t : State} (h : Relation.ReflTransGen PlainMove s t) :
    OnlyForward s t := by
  induction h with
  | refl => exact .refl s
  | tail _ move ih => exact ih.trans move.onlyForward

/-! ## The acquire loads -/

theorem State.acquireLoad_contents (s : State) : s.acquireLoad.contents = [s.shm] := rfl

theorem execDbAcqr_active {s : State} {act : Block} (hi : s.ctl.initialised = true)
    (hr : 4 ≤ s.build.shmBytes) (ha : s.activeBlock = some act) :
    execDbAcqr s =
      .next ((s.acquire act).respond .dbAcqr 0#8 (viewWords s.ctl.snapshotPoints act)) := by
  rw [execDbAcqr, State.withInit_true hi, State.withFlag_of_active hr ha]

theorem execFftChan_active {s : State} {act : Block} (c : Chan) (hi : s.ctl.initialised = true)
    (hr : 4 ≤ s.build.shmBytes) (ha : s.activeBlock = some act) :
    execFftChan c s = .next
      (if s.free.choice.overlap then s.acquireLoad.latchTask (s.acquireLoad.newTask c act)
        else s.acquireLoad.finishTask (s.acquireLoad.newTask c act)) := by
  rw [execFftChan, State.withInit_true hi, State.withFlag_of_active hr ha]
  split <;> rfl

theorem execDbAcqr_contents {s : State} {act : Block} (hi : s.ctl.initialised = true)
    (hr : 4 ≤ s.build.shmBytes) (ha : s.activeBlock = some act) :
    ∃ t, exec .dbAcqr s = .next t ∧ t.contents = [s.shm] :=
  ⟨_, execDbAcqr_active hi hr ha, rfl⟩

/-- The reads of an FFT.CHAN that does not overlap leave the contents as its acquire load made them. -/
theorem execFftChan_contents {s : State} {act : Block} (c : Chan) (hi : s.ctl.initialised = true)
    (hr : 4 ≤ s.build.shmBytes) (ha : s.activeBlock = some act) :
    ∃ t, exec (.fftChan c) s = .next t ∧ t.contents = [s.shm] := by
  refine ⟨_, execFftChan_active c hi hr ha, ?_⟩
  split
  · rfl
  · rw [State.finishTask_contents]
    exact s.acquireLoad_contents

/-! ## What one plain read sees -/

theorem State.racedWord_eq (s : State) (k a : Nat) :
    s.racedWord k a = memRead32 (s.contents.getD (s.pickVersion k a) []) a := by
  obtain ⟨-, high⟩ := s.pickVersion_bounds k a
  rw [State.contents_getD high]
  rfl

/-- Elements of one channel in place and inside the region are raced words (R64, R74). -/
theorem State.racedElems_eq (s : State) {addr len : Nat} (h : addr + 4 * len ≤ s.build.shmBytes) :
    (List.range len).map (fun j => f32ToF64 (s.racedElem false j (addr + 4 * j))) =
      (List.range len).map (fun j => f32ToF64
        (memRead32 (s.contents.getD (s.pickVersion j (addr + 4 * j)) []) (addr + 4 * j))) := by
  refine List.map_congr_left fun j hj => ?_
  have inside : addr + 4 * j + 4 ≤ s.build.shmBytes := by
    have := List.mem_range.mp hj
    omega
  rw [State.racedElem_of_inside inside, State.racedWord_eq]

theorem State.taskSamples_eq (s : State) {k : ChanTask} (placed : k.relaid = false)
    (inside : k.addr + 4 * k.len ≤ s.build.shmBytes) :
    s.taskSamples k = (List.range k.len).map (fun j => f32ToF64
      (memRead32 (s.contents.getD (s.pickVersion j (k.addr + 4 * j)) []) (k.addr + 4 * j))) := by
  simp only [State.taskSamples, State.taskElem, placed]
  exact s.racedElems_eq inside

theorem State.viewChannel_eq (s : State) {c : Chan} {len : Nat} (placed : s.free.view.relaid = false)
    (inside : s.viewAddr c + 4 * len ≤ s.build.shmBytes) :
    s.viewChannel c len = (List.range len).map (fun j => f32ToF64
      (memRead32 (s.contents.getD (s.pickVersion j (s.viewAddr c + 4 * j)) []) (s.viewAddr c + 4 * j))) := by
  simp only [State.viewChannel, placed]
  exact s.racedElems_eq inside

theorem consumerLoad_outside {s : State} {a : Nat} (h : ¬ (a % 4 = 0 ∧ a + 4 ≤ s.build.shmBytes)) :
    consumerLoad s a = none := if_neg h

theorem consumerLoad_inside {s : State} {a : Nat} (aligned : a % 4 = 0)
    (inside : a + 4 ≤ s.build.shmBytes) :
    consumerLoad s a =
      some (memRead32 (s.contents.getD (s.pickVersion 0 a) []) a, s.readRun a 1) := by
  rw [consumerLoad, if_pos ⟨aligned, inside⟩, State.racedWord_eq]

/-- Settles O60, from the effect of each operation on the contents and from `OnlyForward` along the moves. -/
theorem plainReadsRace : Obligations.PlainReadsRace := by
  refine ⟨?acquires, ?adds, ?snap, ?receipt, ?range, ?records, ?forward, ?load, ?channel, ?task,
    fun s c t timeScale => rfl⟩
  case acquires =>
    exact fun s act c hi hr ha => ⟨execDbAcqr_contents hi hr ha, execFftChan_contents c hi hr ha⟩
  case adds => exact fun i s t noAcqr noChan e => exec_effect noAcqr noChan e
  case snap =>
    intro s t hi e
    have snapped : s.snapshot = .next t := (State.withInit_true hi _ _).symm.trans e
    obtain ⟨act, m, -, active, stored, rfl⟩ := State.snapshot_cases snapped
    exact ⟨act, m, active, stored, rfl, s.published_contents _ _⟩
  case receipt =>
    intro s
    obtain ⟨shm, past, seen⟩ := SameReads.receiveMove s
    exact ⟨State.contents_congr shm past, seen⟩
  case range => exact State.pickVersion_range
  case records =>
    exact fun s b n => ⟨rfl, s.readRun_contents b n, fun j hj => s.readRun_seenAt hj,
      fun w hw => s.readRun_seenAt_other hw⟩
  case forward =>
    intro s u b n j hj moves
    obtain ⟨build, grown, forward⟩ := plainMoves_onlyForward moves
    refine ⟨build, grown, fun k => ?_⟩
    calc s.pickVersion j (b + 4 * j) = (s.readRun b n).oldest (b + 4 * j) := (s.readRun_oldest hj).symm
      _ ≤ u.oldest (b + 4 * j) := forward _
      _ ≤ u.pickVersion k (b + 4 * j) := (u.pickVersion_range _ _).1
  case load => exact fun s a => ⟨consumerLoad_outside, consumerLoad_inside⟩
  case channel => exact fun s c len placed inside => ⟨s.viewChannel_eq placed inside, rfl⟩
  case task =>
    exact fun s k placed inside =>
      ⟨s.taskSamples_eq placed inside, s.finishTask_contents k, by rw [State.finishTask_view]⟩

/-! ## An FFT.CHAN that races the producer -/

/-- The payload of a spectrum is a function of the rate and the samples alone (R324). -/
theorem runSpectrum_response (fs : F64) (x : List F64) : ∃ payload, ∀ (s : State) (op : Opcode)
    (sel : BitVec 8), op.port = .consumer → (s.runSpectrum op sel fs x).ports.cResp =
      s.ports.cResp ++ [⟨op.code, sel, payload⟩] := by
  unfold State.runSpectrum
  split
  · exact ⟨_, fun s op sel hp => by rw [State.respond, hp]⟩
  · exact ⟨_, fun s op sel hp => by rw [State.respond, hp]; rfl⟩

/-- The work arrays after a spectrum are a function of the consumer's registers before it (R37). -/
theorem runSpectrum_cons {s t : State} (h : s.cons = t.cons) (op op' : Opcode) (sel sel' : BitVec 8)
    (fs : F64) (x : List F64) :
    (s.runSpectrum op sel fs x).cons = (t.runSpectrum op' sel' fs x).cons := by
  unfold State.runSpectrum
  split
  · simpa using h
  · simp [State.setWork, h]

/-- Every sample of an FFT.CHAN in place is an element of a content since its acquire load, or of the present
one (R74, U3). -/
theorem State.taskSamples_cases (s : State) {t : ChanTask} (placed : t.relaid = false)
    (inside : t.addr + 4 * t.len ≤ s.build.shmBytes) {k : Nat} {y : F64}
    (h : (s.taskSamples t)[k]? = some y) : ∃ m : Memory, (m ∈ s.free.view.past ∨ m = s.shm) ∧
      y = f32ToF64 (memRead32 m (t.addr + 4 * k)) := by
  obtain ⟨hk, hy⟩ := List.getElem?_eq_some_iff.mp h
  have inside : t.addr + 4 * k + 4 ≤ s.build.shmBytes := by
    simp only [State.taskSamples, List.length_map, List.length_range] at hk
    omega
  obtain ⟨m, held, word⟩ := s.racedWord_cases k (t.addr + 4 * k)
  refine ⟨m, held, ?_⟩
  rw [← word, ← State.racedElem_of_inside inside, ← placed, ← hy]
  simp [State.taskSamples, State.taskElem]

/-- Settles O53: the latched start, then the spectrum of the raced samples beside that of FFT.RUN. -/
theorem fftChanRace : Obligations.FftChanRace := by
  refine ⟨fun s act c hi hr ha overlaps => ?start, fun s t held placed inside => ?finish⟩
  case start =>
    refine (execFftChan_active c hi hr ha).trans ?_
    rw [if_pos overlaps]
    rfl
  case finish =>
    obtain ⟨payload, response⟩ := runSpectrum_response t.rate (s.taskSamples t)
    have moved : s.consumerMove = .next (s.finishTask t) := by rw [State.consumerMove, held]
    have cleared : (s.finishTask t).free.task = none := by simp [State.finishTask]
    have registers : (s.finishTask t).cons =
        (s.runSpectrum .fftRun 0#8 t.rate (s.taskSamples t)).cons :=
      runSpectrum_cons (s := (s.readRun t.addr t.len).endTask) (t := s) rfl _ _ _ _ _ _
    exact ⟨s.taskSamples t, by simp [State.taskSamples],
      fun k y => s.taskSamples_cases placed inside, s.finishTask t, moved, cleared,
      s.finishTask_shm t, s.runSpectrum .fftRun 0#8 t.rate (s.taskSamples t), rfl, registers,
      payload, response s .fftRun 0#8 rfl,
      response (s.readRun t.addr t.len).endTask .fftChan t.ch.code rfl⟩

end Sys2Proof.Machine
end

section
/-!
PROOFS. The encoding (30_encoding.md R91 to R97): what each part of the decoder accepts is said once, as the
condition on the words under which it answers; a message decodes to an instruction exactly where it is the
encoding of that instruction and its lists fit their count fields.
-/

namespace Sys2Proof

-- One declaration at a time, as in Tests: each proof elaborated in parallel reserves a thread's stack, and the
-- check's memory limit admits only a few of them.
set_option Elab.async false

/-! ## Header and tag fields (R91, R94) -/

theorem mkHeader_fields {h : Word} (rsv : rsvField h = 0#16) :
    mkHeader (opField h) (selField h) (countField h) = h := by
  unfold mkHeader opField selField countField
  rw [← rsv, rsvField, BitVec.ofNat_toNat, BitVec.setWidth_eq,
    BitVec.extractLsb'_append_extractLsb'_eq_extractLsb' (by rfl),
    BitVec.extractLsb'_append_extractLsb'_eq_extractLsb' (by rfl),
    BitVec.extractLsb'_append_extractLsb'_eq_extractLsb' (by rfl)]
  exact BitVec.extractLsb'_eq_self

theorem countField_lt (h : Word) : countField h < 2 ^ 32 := BitVec.isLt _

theorem mkTag_fields {t : Word} (zero : tagZero t = 0#24) : mkTag (tagPid t) (tagCount t) = t := by
  unfold mkTag tagPid tagCount
  rw [← zero, tagZero, BitVec.ofNat_toNat, BitVec.setWidth_eq,
    BitVec.extractLsb'_append_extractLsb'_eq_extractLsb' (by rfl),
    BitVec.extractLsb'_append_extractLsb'_eq_extractLsb' (by rfl)]
  exact BitVec.extractLsb'_eq_self

theorem tagCount_lt (t : Word) : tagCount t < 2 ^ 32 := BitVec.isLt _

@[simp] theorem tagPid_mkTag (pid : BitVec 8) (m : Nat) : tagPid (mkTag pid m) = pid := by
  unfold tagPid mkTag
  rw [BitVec.extractLsb'_append_eq_of_add_le (by decide), BitVec.extractLsb'_eq_self]

@[simp] theorem tagZero_mkTag (pid : BitVec 8) (m : Nat) : tagZero (mkTag pid m) = 0#24 := by
  unfold tagZero mkTag
  rw [BitVec.extractLsb'_append_eq_of_le (by decide),
    BitVec.extractLsb'_append_eq_of_add_le (by decide)]
  rfl

theorem tagCount_mkTag (pid : BitVec 8) {m : Nat} (h : m < 2 ^ 32) : tagCount (mkTag pid m) = m := by
  unfold tagCount mkTag
  rw [BitVec.extractLsb'_append_eq_of_le (by decide), BitVec.extractLsb'_append_eq_left,
    BitVec.toNat_ofNat, Nat.mod_eq_of_lt h]

/-! ## Codes (R94 to R96) -/

/-- A table in which every entry is found under its own code is read exactly at the codes. -/
theorem find_code_eq_some_iff {α : Type} {code : α → BitVec 8} {table : List α}
    (found : ∀ a, table.find? (fun x => code x == code a) = some a) {b : BitVec 8} {a : α} :
    table.find? (fun x => code x == b) = some a ↔ code a = b := by
  constructor
  · intro h
    simpa using List.find?_some h
  · rintro rfl
    exact found a

theorem Opcode.ofCode_eq_some_iff {b : BitVec 8} {op : Opcode} :
    Opcode.ofCode b = some op ↔ op.code = b :=
  find_code_eq_some_iff fun op => by cases op <;> decide

@[simp] theorem OscSel.ofCode_eq_some_iff {b : BitVec 8} {o : OscSel} :
    OscSel.ofCode b = some o ↔ o.code = b :=
  find_code_eq_some_iff fun o => by cases o <;> decide

@[simp] theorem BqSel.ofCode_eq_some_iff {b : BitVec 8} {q : BqSel} :
    BqSel.ofCode b = some q ↔ q.code = b :=
  find_code_eq_some_iff fun q => by cases q <;> decide

@[simp] theorem MixMode.ofCode_eq_some_iff {b : BitVec 8} {m : MixMode} :
    MixMode.ofCode b = some m ↔ m.code = b :=
  find_code_eq_some_iff fun m => by cases m <;> decide

@[simp] theorem Chan.ofCode_eq_some_iff {b : BitVec 8} {c : Chan} :
    Chan.ofCode b = some c ↔ c.code = b :=
  find_code_eq_some_iff fun c => by cases c <;> decide

theorem Pid.ofCode_eq_some_iff {b : BitVec 8} {p : Pid} : Pid.ofCode b = some p ↔ p.code = b :=
  find_code_eq_some_iff fun p => by cases p <;> decide

theorem Pid.code_ne_pidInterferers (p : Pid) : p.code ≠ pidInterferers := by cases p <;> decide

/-! ## Formats (R93) -/

@[simp] theorem noSel_eq_ok_iff {sel : BitVec 8} {r : Except Reject Instr} {i : Instr} :
    noSel sel r = .ok i ↔ sel = 0#8 ∧ r = .ok i := by
  unfold noSel
  split <;> simp [*]

@[simp] theorem noList_eq_ok_iff {n : Nat} {r : Except Reject Instr} {i : Instr} :
    noList n r = .ok i ↔ n = 0 ∧ r = .ok i := by
  unfold noList
  split <;> simp [*]

@[simp] theorem withSel_eq_ok_iff {α : Type} {o : Option α} {k : α → Except Reject Instr} {i : Instr} :
    withSel o k = .ok i ↔ ∃ a, o = some a ∧ k a = .ok i := by
  cases o <;> simp [withSel]

@[simp] theorem formZ_eq_ok_iff {ws : List Word} {j i : Instr} :
    formZ ws j = .ok i ↔ ws = [] ∧ j = i := by
  cases ws <;> simp [formZ]

@[simp] theorem formF1_eq_ok_iff {ws : List Word} {k : Word → Instr} {i : Instr} :
    formF1 ws k = .ok i ↔ ∃ a, ws = [a] ∧ k a = i := by
  unfold formF1
  split <;> simp_all

@[simp] theorem formF2_eq_ok_iff {ws : List Word} {k : Word → Word → Instr} {i : Instr} :
    formF2 ws k = .ok i ↔ ∃ a b, ws = [a, b] ∧ k a b = i := by
  unfold formF2
  split <;> simp_all

@[simp] theorem formF3_eq_ok_iff {ws : List Word} {k : Word → Word → Word → Instr} {i : Instr} :
    formF3 ws k = .ok i ↔ ∃ a b c, ws = [a, b, c] ∧ k a b c = i := by
  unfold formF3
  split <;> simp_all

@[simp] theorem formList_eq_ok_iff {α : Type} {n : Nat} {o : Option (List α)} {k : List α → Instr}
    {i : Instr} : formList n o k = .ok i ↔ ∃ l, o = some l ∧ l.length = n ∧ k l = i := by
  cases o with
  | none => simp [formList]
  | some l => by_cases len : l.length = n <;> simp [formList, len]

/-! ## Lists of groups -/

@[simp] theorem decodeTriples_eq_some_iff {ws : List Word} {l : List Interferer} :
    decodeTriples ws = some l ↔ l.flatMap Interferer.words = ws := by
  constructor
  · intro h
    induction ws using decodeTriples.induct generalizing l with
    | case1 =>
      cases h
      rfl
    | case2 a b c ws ih =>
      obtain ⟨l, hl, rfl⟩ := Option.map_eq_some_iff.mp h
      rw [List.flatMap_cons, ih hl]
      rfl
    | case3 => simp_all [decodeTriples]
  · rintro rfl
    induction l with
    | nil => rfl
    | cons x l ih => simp [Interferer.words, decodeTriples, ih]

@[simp] theorem decodeSections_eq_some_iff {ws : List Word} {l : List Coeffs} :
    decodeSections ws = some l ↔ l.flatMap Coeffs.words = ws := by
  constructor
  · intro h
    induction ws using decodeSections.induct generalizing l with
    | case1 =>
      cases h
      rfl
    | case2 a b c d e ws ih =>
      obtain ⟨l, hl, rfl⟩ := Option.map_eq_some_iff.mp h
      rw [List.flatMap_cons, ih hl]
      rfl
    | case3 => simp_all [decodeSections]
  · rintro rfl
    induction l with
    | nil => rfl
    | cons x l ih => simp [Coeffs.words, decodeSections, ih]

theorem length_flatMap_interfererWords (l : List Interferer) :
    (l.flatMap Interferer.words).length = 3 * l.length := by
  simp [List.length_flatMap, Interferer.words, Nat.mul_comm]

/-! ## Parameter records (R94) -/

theorem decodeRecord_words_append {r : ParamRecord} (wf : r.WellFormed = true) (ws : List Word) :
    decodeRecord (r.words ++ ws) = .ok (r, ws) := by
  cases r with
  | scalar p v =>
    have named : Pid.ofCode p.code = some p := Pid.ofCode_eq_some_iff.mpr rfl
    have none : tagCount (mkTag p.code 0) = 0 := tagCount_mkTag _ (by decide)
    simp [ParamRecord.words, decodeRecord, p.code_ne_pidInterferers, named, none]
  | interferers l =>
    have count : tagCount (mkTag pidInterferers l.length) = l.length :=
      tagCount_mkTag _ (by simpa [ParamRecord.WellFormed] using wf)
    have read : decodeTriples (l.flatMap Interferer.words) = some l :=
      decodeTriples_eq_some_iff.mpr rfl
    simp [ParamRecord.words, decodeRecord, count, ← length_flatMap_interfererWords, read,
      -decodeTriples_eq_some_iff]

/-- Two of the decoder's branches answer: a whole list of triples, and a scalar with its value. -/
theorem decodeRecord_eq_ok {ws ws' : List Word} {r : ParamRecord} (h : decodeRecord ws = .ok (r, ws')) :
    r.words ++ ws' = ws ∧ r.WellFormed = true := by
  revert h
  fun_cases decodeRecord ws <;> intro h <;> cases h
  case case4.refl t ws zero pid long l read =>
    have words := decodeTriples_eq_some_iff.mp read
    have count : l.length = tagCount t := by
      have len := congrArg List.length words
      rw [length_flatMap_interfererWords, List.length_take] at len
      omega
    have tag : mkTag pidInterferers (tagCount t) = t := pid ▸ mkTag_fields (not_not.mp zero)
    exact ⟨by simp [ParamRecord.words, words, count, tag],
      by simpa [ParamRecord.WellFormed, count] using tagCount_lt t⟩
  case case9.refl t zero _ p named none v =>
    have code := Pid.ofCode_eq_some_iff.mp named
    have tag : mkTag p.code 0 = t := by rw [code, ← not_not.mp none, mkTag_fields (not_not.mp zero)]
    exact ⟨by simp [ParamRecord.words, tag], rfl⟩

/-- The records of a message: `n` of them, each well formed, and no word left over. -/
theorem decodeRecords_eq_ok_iff {n : Nat} {ws : List Word} {rs : List ParamRecord} :
    decodeRecords n ws = .ok rs ↔
      rs.length = n ∧ rs.all ParamRecord.WellFormed = true ∧ rs.flatMap ParamRecord.words = ws := by
  induction n generalizing ws rs with
  | zero => cases ws <;> cases rs <;> simp [decodeRecords]
  | succ n ih =>
    constructor
    · intro h
      unfold decodeRecords at h
      split at h
      · cases h
      · rename_i r ws' first
        split at h
        · cases h
        · rename_i rs rest
          cases h
          obtain ⟨words, wf⟩ := decodeRecord_eq_ok first
          obtain ⟨len, wfs, rfl⟩ := ih.mp rest
          exact ⟨by simp [len], by simp [wf, wfs], by simpa using words⟩
    · rintro ⟨len, wf, rfl⟩
      cases rs with
      | nil => simp at len
      | cons r rs =>
        rw [List.all_cons, Bool.and_eq_true] at wf
        obtain ⟨wf, wfs⟩ := wf
        have rest := ih.mpr ⟨Nat.succ.inj len, wfs, rfl⟩
        simp [decodeRecords, decodeRecord_words_append wf, rest]

@[simp] theorem formRecords_eq_ok_iff {n : Nat} {ws : List Word} {k : List ParamRecord → Instr} {i : Instr} :
    formRecords n ws k = .ok i ↔
      ∃ rs, (rs.length = n ∧ rs.all ParamRecord.WellFormed = true ∧
        rs.flatMap ParamRecord.words = ws) ∧ k rs = i := by
  simp only [← decodeRecords_eq_ok_iff]
  unfold formRecords
  split <;> simp [*]

/-! ## Bodies (R93, R95, R96) -/

theorem decodeBody_start_eq_ok_iff {sel : BitVec 8} {n : Nat} {ws : List Word} {i : Instr} :
    decodeBody .start sel n ws = .ok i ↔
      sel = 0#8 ∧ ∃ now ws', ws = now :: ws' ∧ formRecords n ws' (.start now) = .ok i := by
  cases ws <;> simp [decodeBody]

theorem decodeBody_fftRun_eq_ok_iff {sel : BitVec 8} {n : Nat} {ws : List Word} {i : Instr} :
    decodeBody .fftRun sel n ws = .ok i ↔
      sel = 0#8 ∧ ∃ fs xs, ws = fs :: xs ∧ xs.length = n ∧ .fftRun fs xs = i := by
  cases ws <;> simp [decodeBody]

/-- Where the body of a message decodes, its operation, selector, count and payload are those of the
instruction. -/
theorem decodeBody_eq_ok {op : Opcode} {sel : BitVec 8} {n : Nat} {ws : List Word} {i : Instr}
    (hn : n < 2 ^ 32) (h : decodeBody op sel n ws = .ok i) :
    (i.opcode = op ∧ i.selector = sel ∧ i.count = n ∧ i.payload = ws) ∧ i.WellFormed = true := by
  cases op
  case start =>
    obtain ⟨rfl, now, ws', rfl, body⟩ := decodeBody_start_eq_ok_iff.mp h
    obtain ⟨rs, ⟨rfl, wf, rfl⟩, rfl⟩ := formRecords_eq_ok_iff.mp body
    exact ⟨⟨rfl, rfl, rfl, rfl⟩, by simpa [Instr.WellFormed, wf] using hn⟩
  case fftRun =>
    obtain ⟨rfl, fs, xs, rfl, rfl, rfl⟩ := decodeBody_fftRun_eq_ok_iff.mp h
    exact ⟨⟨rfl, rfl, rfl, rfl⟩, decide_eq_true hn⟩
  all_goals
    simp only [decodeBody, noSel_eq_ok_iff, noList_eq_ok_iff, withSel_eq_ok_iff, formZ_eq_ok_iff,
      formF1_eq_ok_iff, formF2_eq_ok_iff, formF3_eq_ok_iff, formList_eq_ok_iff,
      formRecords_eq_ok_iff, decodeTriples_eq_some_iff, decodeSections_eq_some_iff,
      OscSel.ofCode_eq_some_iff, BqSel.ofCode_eq_some_iff, MixMode.ofCode_eq_some_iff,
      Chan.ofCode_eq_some_iff] at h
  case update =>
    obtain ⟨rfl, rs, ⟨rfl, wf, rfl⟩, rfl⟩ := h
    exact ⟨⟨rfl, rfl, rfl, rfl⟩, by simpa [Instr.WellFormed, wf] using hn⟩
  case intfInstall =>
    obtain ⟨rfl, l, rfl, rfl, rfl⟩ := h
    exact ⟨⟨rfl, rfl, rfl, rfl⟩, decide_eq_true hn⟩
  case bqRepl =>
    obtain ⟨bq, rfl, l, rfl, rfl, rfl⟩ := h
    exact ⟨⟨rfl, rfl, rfl, rfl⟩, decide_eq_true hn⟩
  case stop | sample | snap | noiseUniform | intfGen | dutGen | dbAcqw | dbPub | dbAcqr =>
    obtain ⟨rfl, rfl, rfl, rfl⟩ := h
    exact ⟨⟨rfl, rfl, rfl, rfl⟩, rfl⟩
  case tick | noiseGauss =>
    obtain ⟨rfl, rfl, a, rfl, rfl⟩ := h
    exact ⟨⟨rfl, rfl, rfl, rfl⟩, rfl⟩
  case init =>
    obtain ⟨rfl, rfl, a, b, rfl, rfl⟩ := h
    exact ⟨⟨rfl, rfl, rfl, rfl⟩, rfl⟩
  case oscPhase | oscReset | bqReset | ringClear | fftChan =>
    obtain ⟨rfl, which, rfl, rfl, rfl⟩ := h
    exact ⟨⟨rfl, rfl, rfl, rfl⟩, rfl⟩
  case oscPhaseof | oscAdvance | bqProc | ringPush | ringSnap =>
    obtain ⟨rfl, which, rfl, a, rfl, rfl⟩ := h
    exact ⟨⟨rfl, rfl, rfl, rfl⟩, rfl⟩
  case oscSine | oscSquare =>
    obtain ⟨rfl, which, rfl, a, b, rfl, rfl⟩ := h
    exact ⟨⟨rfl, rfl, rfl, rfl⟩, rfl⟩
  case mix =>
    obtain ⟨rfl, mode, rfl, a, b, c, rfl, rfl⟩ := h
    exact ⟨⟨rfl, rfl, rfl, rfl⟩, rfl⟩

theorem decodeBody_of_wellFormed {i : Instr} (wf : i.WellFormed = true) :
    decodeBody i.opcode i.selector i.count i.payload = .ok i := by
  cases i
  case start now rs =>
    obtain ⟨-, records⟩ := (Bool.and_eq_true _ _).mp wf
    exact decodeBody_start_eq_ok_iff.mpr
      ⟨rfl, now, _, rfl, formRecords_eq_ok_iff.mpr ⟨rs, ⟨rfl, records, rfl⟩, rfl⟩⟩
  case update rs =>
    obtain ⟨-, records⟩ := (Bool.and_eq_true _ _).mp wf
    exact noSel_eq_ok_iff.mpr ⟨rfl, formRecords_eq_ok_iff.mpr ⟨rs, ⟨rfl, records, rfl⟩, rfl⟩⟩
  case fftRun fs xs => exact decodeBody_fftRun_eq_ok_iff.mpr ⟨rfl, fs, xs, rfl, rfl, rfl⟩
  case intfInstall l =>
    have read : decodeTriples (l.flatMap Interferer.words) = some l :=
      decodeTriples_eq_some_iff.mpr rfl
    exact noSel_eq_ok_iff.mpr ⟨rfl, formList_eq_ok_iff.mpr ⟨l, read, rfl, rfl⟩⟩
  case bqRepl bq l =>
    have read : decodeSections (l.flatMap Coeffs.words) = some l :=
      decodeSections_eq_some_iff.mpr rfl
    exact withSel_eq_ok_iff.mpr
      ⟨bq, BqSel.ofCode_eq_some_iff.mpr rfl, formList_eq_ok_iff.mpr ⟨l, read, rfl, rfl⟩⟩
  case oscPhase | oscPhaseof | oscSine | oscSquare | oscAdvance | oscReset =>
    exact noList_eq_ok_iff.mpr
      ⟨rfl, withSel_eq_ok_iff.mpr ⟨_, OscSel.ofCode_eq_some_iff.mpr rfl, rfl⟩⟩
  case bqProc | bqReset =>
    exact noList_eq_ok_iff.mpr
      ⟨rfl, withSel_eq_ok_iff.mpr ⟨_, BqSel.ofCode_eq_some_iff.mpr rfl, rfl⟩⟩
  case mix =>
    exact noList_eq_ok_iff.mpr
      ⟨rfl, withSel_eq_ok_iff.mpr ⟨_, MixMode.ofCode_eq_some_iff.mpr rfl, rfl⟩⟩
  case ringPush | ringSnap | ringClear | fftChan =>
    exact noList_eq_ok_iff.mpr
      ⟨rfl, withSel_eq_ok_iff.mpr ⟨_, Chan.ofCode_eq_some_iff.mpr rfl, rfl⟩⟩
  case init | stop | tick | sample | snap | noiseGauss | noiseUniform | intfGen | dutGen |
      dbAcqw | dbPub | dbAcqr =>
    rfl

/-! ## Messages -/

theorem Instr.count_lt {i : Instr} (wf : i.WellFormed = true) : i.count < 2 ^ 32 := by
  cases i <;> simp_all [Instr.WellFormed, Instr.count]

@[simp] theorem encode_payload (i : Instr) : (encode i).payload = i.payload := rfl

theorem decodeMessage_encode {i : Instr} (wf : i.WellFormed = true) :
    decodeMessage (encode i) = .ok i := by
  obtain ⟨op, sel, rsv, count⟩ := Laws.headerFields_all i
  rw [Nat.mod_eq_of_lt (Instr.count_lt wf)] at count
  have known := Opcode.ofCode_eq_some_iff.mpr op.symm
  simpa [decodeMessage, known, sel, rsv, count] using decodeBody_of_wellFormed wf

theorem encode_of_decodeMessage {m : Message} {i : Instr} (h : decodeMessage m = .ok i) :
    encode i = m ∧ i.WellFormed = true := by
  unfold decodeMessage at h
  split at h
  · cases h
  · rename_i op known
    split at h
    · cases h
    · rename_i rsv
      obtain ⟨⟨rfl, sel, count, payload⟩, wf⟩ := decodeBody_eq_ok (countField_lt _) h
      have code := Opcode.ofCode_eq_some_iff.mp known
      refine ⟨?_, wf⟩
      rw [encode, code, sel, count, payload, mkHeader_fields (not_not.mp rsv)]

/-- A message decodes to an instruction exactly where it is the encoding of that instruction, the
instruction fits its count fields and the port accepts it. -/
theorem decode_eq_ok_iff {p : Port} {m : Message} {i : Instr} :
    decode p m = .ok i ↔ encode i = m ∧ i.port = p ∧ i.WellFormed = true := by
  constructor
  · intro h
    unfold decode at h
    split at h
    · cases h
    · rename_i j read
      split at h
      · rename_i port
        cases h
        obtain ⟨words, wf⟩ := encode_of_decodeMessage read
        exact ⟨words, port, wf⟩
      · cases h
  · rintro ⟨rfl, rfl, wf⟩
    simp [decode, decodeMessage_encode wf]

/-! ## The statements -/

/-- Settles O4, from what each format of R93 accepts. -/
theorem decodeOfEncode : Obligations.DecodeOfEncode :=
  fun _ wf => decode_eq_ok_iff.mpr ⟨rfl, rfl, wf⟩

/-- Settles O5: every field of the header and every word of the payload is one of the instruction's. -/
theorem encodeOfDecode : Obligations.EncodeOfDecode :=
  fun _ _ _ => decode_eq_ok_iff.mp

/-- Settles O7: a message that decodes is an encoding, whose code is listed and whose reserved bits are zero. -/
theorem illegalHeaders : Obligations.IllegalHeaders := by
  refine ⟨fun p m bad => ?_, fun p i wf other => ?_⟩
  · cases read : decode p m with
    | error e => exact ⟨e, rfl⟩
    | ok i =>
      obtain ⟨rfl, -, -⟩ := decode_eq_ok_iff.mp read
      obtain ⟨op, -, rsv, -⟩ := Laws.headerFields_all i
      obtain unlisted | reserved := bad
      · exact absurd op.symm (unlisted i.opcode)
      · exact absurd rsv reserved
  · simp [decode, decodeMessage_encode wf, other.symm]

/-- Settles O6: each message is the encoding, evaluated, of the instruction R102 writes beside it. -/
theorem workedEncodings : Obligations.WorkedEncodings := by
  simp only [Obligations.WorkedEncodings, decode_eq_ok_iff]
  decide +kernel

namespace Machine

/-! ## One step (R90, R385) -/

/-- The choices of a result's next state refreshed; a fault or a refusal as it is. -/
def refreshResult (r : Result) : Result :=
  match r with
  | .next t => .next t.refreshChoice
  | .fault f => .fault f
  | .refused q => .refused q

theorem step_of_nextTurn {s : State} {turn : Config.Turn} (h : s.nextTurn = some turn) :
    step s = refreshResult (s.move turn) := by
  rw [step, State.advance, h]
  rfl

theorem step_producer {s : State} {m : Message} {l : List Message}
    (ht : s.free.choice.turn = .producer) (hq : s.ports.pPort = m :: l) :
    step s = refreshResult (runMessage .producer m (s.setQueue .producer l)) := by
  have turn : s.nextTurn = some .producer := by simp [State.nextTurn, State.canMove, ht, hq]
  rw [step_of_nextTurn turn, State.move, State.producerMove, hq]

theorem step_consumer {s : State} {m : Message} {l : List Message}
    (ht : s.free.choice.turn = .consumer) (hk : s.free.task = none) (hq : s.ports.cPort = m :: l) :
    step s = refreshResult (runMessage .consumer m (s.setQueue .consumer l)) := by
  have turn : s.nextTurn = some .consumer := by simp [State.nextTurn, State.canMove, ht, hq]
  rw [step_of_nextTurn turn, State.move, State.consumerMove, hk, hq]

theorem runMessage_of_decode {p : Port} {m : Message} {i : Instr} (h : decode p m = .ok i) (s : State) :
    runMessage p m s = exec i s := by
  rw [runMessage, h]

theorem runMessage_of_reject {p : Port} {m : Message} {e : Reject} (h : decode p m = .error e) (s : State) :
    runMessage p m s = .next (s.raise (opField m.header) .illegalCommand) := by
  rw [runMessage, h]

/-- Settles O8: the agent on turn takes the oldest message of its port, and the message is executed. -/
theorem stepRunsDecoded : Obligations.StepRunsDecoded := by
  intro s m l i
  refine ⟨fun ht hq read => ?_, fun ht hk hq read => ?_, fun e ht hq bad => ?_,
    fun e ht hk hq bad => ?_⟩
  · rw [step_producer ht hq, runMessage_of_decode read]
    rfl
  · rw [step_consumer ht hk hq, runMessage_of_decode read]
    rfl
  · exact ⟨_, runMessage_of_reject bad _, rfl,
      by rw [step_producer ht hq, runMessage_of_reject bad]; rfl⟩
  · exact ⟨_, runMessage_of_reject bad _, rfl,
      by rw [step_consumer ht hk hq, runMessage_of_reject bad]; rfl⟩

end Machine

end Sys2Proof
end

section
/-!
PROOFS. The oscillators (40_oscillator.md R121 to R127): `Wrap2Pi` is one rule about the remainder of its operand,
the tolerance of the sine and the cosine is 1e−6 of the whole, and each operation is an update of the selected
phase, a response, or both.
-/

namespace Sys2Proof

-- One declaration at a time, as in Tests: proofs elaborated in parallel each reserve a thread's stack.
set_option Elab.async false

/-! ## Remainders (R121 `fmod`) -/

theorem magBits_lt_of_isFinite {x : F64} (h : isFinite x = true) : magBits x < infMag64 :=
  of_decide_eq_true h

/-- A remainder of a finite number is finite. -/
theorem ffmod_isFinite {a b : F64} (ha : isFinite a = true) (hb : isFinite b = true)
    (h0 : 0 < magValue (magBits b)) : isFinite (ffmod a b) = true := by
  obtain ⟨m, e, hr, hlt⟩ := ffmod_finite ha hb h0
  have hle : magBits (ffmod a b) ≤ magBits b := by
    rw [hr, pack_mag]
    exact roundMag_le hlt.le
  exact decide_eq_true (hle.trans_lt (magBits_lt_of_isFinite hb))

/-- A value written at an exponent that is lower by `k`. -/
theorem mant_rescale (m : Nat) {k : Nat} {e g : Int} (h : e - g = k) :
    (m : ℚ) * 2 ^ e = ((m * 2 ^ k : Nat) : ℚ) * 2 ^ g := by
  rw [show e = k + g by omega, zpow_add₀ (by norm_num), zpow_natCast]
  push_cast
  ring

/-- A number below the divisor in magnitude is its own remainder: nothing is taken off, and rounding keeps
it. -/
theorem ffmod_of_magBits_lt {a b : F64} (hb : isFinite b = true) (h : magBits a < magBits b) :
    ffmod a b = a := by
  have ha : isFinite a = true := decide_eq_true (h.trans (magBits_lt_of_isFinite hb))
  obtain ⟨m, e, hua, hva, -, -⟩ := unpack_finite ha
  obtain ⟨n, f, hub, hvb, -, -⟩ := unpack_finite hb
  have hlt : (m : ℚ) * 2 ^ e < n * 2 ^ f := by
    rw [hva, hvb]
    exact magValue_lt_iff.mpr h
  have hn : n ≠ 0 := by
    rintro rfl
    have : (0 : ℚ) ≤ m * 2 ^ e := by positivity
    simp at hlt
    linarith
  obtain ⟨i, hi⟩ := Int.eq_ofNat_of_zero_le (show 0 ≤ e - min e f by omega)
  obtain ⟨j, hj⟩ := Int.eq_ofNat_of_zero_le (show 0 ≤ f - min e f by omega)
  have hsmall : m * 2 ^ i < n * 2 ^ j := by
    rw [mant_rescale m hi, mant_rescale n hj] at hlt
    exact_mod_cast lt_of_mul_lt_mul_right hlt (by positivity)
  have hrem : ffmod a b = pack (signBit a) (m * 2 ^ i) (min e f) := by
    simp [ffmod, hua, hub, fmodVal, hn, hi, hj, Nat.mod_eq_of_lt hsmall]
  rw [hrem]
  exact pack_exact (not_nan_of_finite ha) ((mant_rescale m hi).symm.trans hva)

/-! ## Wrap2Pi (R121) -/

theorem cTwoPi_isFinite : isFinite cTwoPi = true := by decide

theorem cTwoPi_value_pos : 0 < magValue (magBits cTwoPi) := by
  rw [← magValue_zero]
  exact magValue_lt_iff.mpr (by decide)

/-- The remainder by TWO_PI, with TWO_PI added where it is negative: `Wrap2Pi` before its last step. -/
def turnRemainder (p : F64) : F64 :=
  if flt (ffmod p cTwoPi) pZero then fadd (ffmod p cTwoPi) cTwoPi else ffmod p cTwoPi

/-- The two replacements at the end of `Wrap2Pi` are one, for `+0` is not `−0`. -/
theorem wrap2Pi_eq (p : F64) :
    wrap2Pi p = if fle cTwoPi (turnRemainder p) = true ∨ turnRemainder p = nZero then pZero
      else turnRemainder p := by
  have hz : pZero ≠ nZero := by decide
  simp only [wrap2Pi]
  rw [← turnRemainder]
  by_cases hge : fle cTwoPi (turnRemainder p) = true
  · simp [hge, hz]
  · simp [hge]

theorem turnRemainder_not_nan {p : F64} (h : isFinite p = true) : isNaN (turnRemainder p) = false := by
  have hr := ffmod_isFinite h cTwoPi_isFinite cTwoPi_value_pos
  unfold turnRemainder
  split
  · obtain ⟨n, m, e, hs, -⟩ := fadd_finite hr cTwoPi_isFinite
    rw [hs]
    exact pack_not_nan n m e
  · exact not_nan_of_finite hr

/-- The wrapped phase of a finite number is a number of `[0, TWO_PI)`. -/
theorem wrap2Pi_range {p : F64} (h : isFinite p = true) :
    fle pZero (wrap2Pi p) = true ∧ flt (wrap2Pi p) cTwoPi = true := by
  have hn : isNaN (wrap2Pi p) = false := by
    rw [wrap2Pi_eq]
    split
    · decide
    · exact turnRemainder_not_nan h
  exact (wrap2Pi_phaseOk p).resolve_left (by simp [hn])

/-- A phase of `[0, TWO_PI)` is wrapped already, but for the sign of a zero. -/
theorem wrap2Pi_of_mem {p : F64} (h0 : fle pZero p = true) (h1 : flt p cTwoPi = true) :
    wrap2Pi p = if p = nZero then pZero else p := by
  obtain ⟨-, hp, hlow⟩ := (fle_iff _ _).mp h0
  obtain ⟨-, hc, hhigh⟩ := (flt_iff _ _).mp h1
  have hmag : magBits p < magBits cTwoPi := by
    have hz : orderKey pZero = 0 := by decide
    have ht : orderKey cTwoPi = magBits cTwoPi := by decide
    simp only [fle, flt, Bool.and_eq_true, decide_eq_true_eq, hz, ht] at h0 h1
    rw [← orderKey_natAbs p]
    omega
  have hrem : turnRemainder p = p := by
    have hnot : ¬ flt p pZero = true := fun hc => ((flt_iff _ _).mp hc).2.2.not_ge hlow
    rw [turnRemainder, ffmod_of_magBits_lt cTwoPi_isFinite hmag, if_neg hnot]
  have hnot : ¬ fle cTwoPi p = true := fun hc => ((fle_iff _ _).mp hc).2.2.not_gt hhigh
  rw [wrap2Pi_eq, hrem]
  simp [hnot]

/-- Nothing is compared with or added to a remainder that is a NaN. -/
theorem wrap2Pi_nan {p : F64} (h : isFinite p = false) : isNaN (wrap2Pi p) = true := by
  have hn := ffmod_nan cTwoPi h
  have hr : turnRemainder p = ffmod p cTwoPi := by simp [turnRemainder, flt, hn]
  have hne : ffmod p cTwoPi ≠ nZero := by
    intro hc
    rw [hc] at hn
    exact absurd hn (by decide)
  have hlt : fle cTwoPi (ffmod p cTwoPi) = false := by simp [fle, hn]
  rw [wrap2Pi_eq, hr]
  simpa [hne, hlt] using hn

/-- Settles O28: the formula, the range and the two exceptional cases; the phases of V-OSC-4 are evaluated. -/
theorem wrap2PiRange : Obligations.Wrap2PiRange :=
  ⟨fun p => ⟨fun h => ⟨wrap2Pi_eq p, wrap2Pi_range h⟩, wrap2Pi_of_mem, wrap2Pi_nan⟩, by decide +kernel⟩

/-! ## The tolerance of the sine and the cosine (R12) -/

/-- The last places that `nearSin` and `nearCos` leave to rounding are less than 1e−6 of the scale. -/
theorem tolerance_of_near {d t : Nat} (h : d ≤ max (t / 10 ^ 6) (2 ^ 44)) (ht : t ≤ 2 ^ 96) :
    d * 10 ^ 6 ≤ 2 ^ 96 := by
  omega

theorem fixSin_natAbs (x : Int) : (fixSin x).natAbs ≤ 2 ^ 96 := by
  obtain ⟨hlow, hhigh⟩ := abs_le.mp (fixSin_abs x)
  have hone : fixOne = 2 ^ 96 := rfl
  omega

theorem fixSin_square_natAbs (x : Int) : (fixSin x * fixSin x / fixOne).natAbs ≤ 2 ^ 96 := by
  have hone : 0 < fixOne := by decide
  have h : fixSin x * fixSin x ≤ fixOne * fixOne := abs_le_iff_mul_self_le.mp (by
    rw [abs_of_pos hone]
    exact fixSin_abs x)
  have hlow : 0 ≤ fixSin x * fixSin x / fixOne := Int.ediv_nonneg (mul_self_nonneg _) hone.le
  have hhigh : fixSin x * fixSin x / fixOne ≤ fixOne := Int.ediv_le_of_le_mul hone h
  have hval : fixOne = 2 ^ 96 := rfl
  omega

theorem numSin_tolerance {x : F64} (h : isFinite x = true) (reach : (toFix x).natAbs < 2 ^ 128) :
    (toFix (numSin x) - fixSin (toFix x)).natAbs * 10 ^ 6 ≤ 2 ^ 96 := by
  have near := numSin_near h
  simp only [nearSin, inReach, decide_eq_true reach, Bool.not_true, Bool.false_or, decide_eq_true_eq] at near
  exact tolerance_of_near near (fixSin_natAbs _)

theorem numCos_tolerance {x : F64} (h : isFinite x = true) (reach : (toFix x).natAbs < 2 ^ 128) :
    (toFix (numCos x) - fixCos (toFix x)).natAbs * 10 ^ 6 ≤ 2 ^ 96 := by
  have near := numCos_near h
  simp only [nearCos, inReach, decide_eq_true reach, Bool.not_true, Bool.false_or, decide_eq_true_eq] at near
  exact tolerance_of_near near (fixSin_square_natAbs _)

theorem sineOk_iff (v : F64) :
    sineOk v = true ↔ fle (fneg cSineBound) v = true ∧ fle v cSineBound = true := by
  simp [sineOk]

namespace Machine

/-! ## What the oscillator operations do once initialised (R122 to R127) -/

section Operations

variable {s : State} (h : s.ctl.initialised = true)

include h

theorem exec_oscPhase (o : OscSel) :
    exec (.oscPhase o) s = .next (s.respond .oscPhase o.code [s.phase o]) :=
  State.withInit_true h _ _

theorem exec_oscPhaseof (o : OscSel) (offset : F64) :
    exec (.oscPhaseof o offset) s = .next (s.respond .oscPhaseof o.code [fadd (s.phase o) offset]) :=
  State.withInit_true h _ _

theorem exec_oscSine (o : OscSel) (f a : F64) :
    exec (.oscSine o f a) s =
      .next ((s.oscAdvanced o f).respond .oscSine o.code [s.oscSineValue o a]) :=
  State.withInit_true h _ _

theorem exec_oscSquare (o : OscSel) (f a : F64) :
    exec (.oscSquare o f a) s =
      .next ((s.oscAdvanced o f).respond .oscSquare o.code [s.oscSquareValue o a]) :=
  State.withInit_true h _ _

theorem exec_oscAdvance (o : OscSel) (f : F64) :
    exec (.oscAdvance o f) s = .next (s.oscAdvanced o f) :=
  State.withInit_true h _ _

theorem exec_oscReset (o : OscSel) : exec (.oscReset o) s = .next (s.setPhase o pZero) :=
  State.withInit_true h _ _

end Operations

/-- Settles O25: the response is the only update of either operation. -/
theorem oscReads : Obligations.OscReads := by
  intro s o offset h
  rw [exec_oscPhase h, exec_oscPhaseof h]
  cases o <;> exact ⟨rfl, rfl⟩

/-- Settles O26: the values R12 names, the tolerance, and the two operations as an advance and a response. -/
theorem oscSamples : Obligations.OscSamples := by
  refine ⟨numSin_pZero, numCos_pZero, numCos_nZero, fun x h => ⟨?_, ?_, fun reach => ?_⟩,
    fun s o f a h => ?_⟩
  · exact (sineOk_iff _).mp (numSin_bound h)
  · exact (sineOk_iff _).mp (numCos_bound h)
  · exact ⟨numSin_tolerance h reach, numCos_tolerance h reach⟩
  · rw [exec_oscSine h, exec_oscSquare h]
    cases o <;> exact ⟨rfl, rfl⟩

/-- Settles O27: an advance and a reset set the one selected phase. -/
theorem oscWrites : Obligations.OscWrites := by
  intro s f h
  rw [exec_oscAdvance h, exec_oscAdvance h, exec_oscReset h, exec_oscReset h]
  exact ⟨rfl, rfl, rfl, rfl⟩

end Machine

end Sys2Proof
end

section
/-!
PROOFS. The noise generator and the interferer bank (41_noise_interferer.md R140 to R147): one equation for each
branch of `Gauss` and of `Install`, and each operation as one update of the state with its response.
-/

namespace Sys2Proof.Machine

/-! ## The uniform source (R140) -/

theorem drawAt_range (k : Nat) : fle pZero (drawAt k) = true ∧ flt (drawAt k) cOne = true := by
  unfold drawAt
  split
  · rename_i h
    exact (Bool.and_eq_true _ _).mp h
  · decide

/-! ## Gauss (R141, R143) -/

/-- The zeros of both signs are the numbers equal to `+0`. -/
theorem feq_pZero_iff (x : F64) : feq x pZero = true ↔ magBits x = 0 := by
  have hz : orderKey pZero = 0 := by decide
  have hn : isNaN pZero = false := by decide
  have hk := orderKey_natAbs x
  have hx : isNaN x = false ↔ magBits x ≤ infMag64 := by simp [isNaN]
  simp only [feq, hn, hz, Bool.and_eq_true, Bool.not_eq_true', Bool.not_false, and_true, hx,
    decide_eq_true_eq]
  omega

theorem State.gauss_of_zero {s : State} {sigma : F64} (h : feq sigma pZero = true) :
    s.gaussValue sigma = pZero ∧ s.gaussNext sigma = s := by
  simp [State.gaussValue, State.gaussNext, h]

theorem State.gauss_of_spare {s : State} {sigma : F64} (h : feq sigma pZero = false)
    (hs : s.chain.hasSpare = true) :
    s.gaussValue sigma = fmul sigma s.chain.spare ∧ s.gaussNext sigma = s.dropSpare := by
  simp [State.gaussValue, State.gaussNext, h, hs]

theorem State.gauss_of_no_spare {s : State} {sigma : F64} (h : feq sigma pZero = false)
    (hs : s.chain.hasSpare = false) :
    let z := boxMuller (drawAt s.free.drawPos) (drawAt (s.free.drawPos + 1))
    s.gaussValue sigma = fmul sigma z.1 ∧
      s.gaussNext sigma = (s.setSpare true z.2).skipDraws 2 := by
  simp [State.gaussValue, State.gaussNext, h, hs]

/-! ## Install (R146) -/

theorem overwriteAmplitudes_get {l : List Interferer} {bank : List BankEntry} {k : Nat} {x : Interferer}
    {e : BankEntry} (hx : l[k]? = some x) (he : bank[k]? = some e) :
    (overwriteAmplitudes l bank)[k]? = some ⟨e.freq, x.amplitude, e.phase⟩ := by
  simp [overwriteAmplitudes, List.getElem?_zipWith, hx, he]

theorem State.install_of_same {s : State} {l : List Interferer}
    (h : sameFrequencies l s.chain.bank = true) :
    s.install l = s.setBank (overwriteAmplitudes l s.chain.bank) :=
  if_pos h

theorem State.install_of_different {s : State} {l : List Interferer}
    (h : ¬ sameFrequencies l s.chain.bank = true) :
    s.install l = (s.setBank (rebuiltBank s.free.drawPos l)).skipDraws l.length :=
  if_neg h

/-! ## IntfGenerate (R147) -/

/-- Summing while the bank is read is summing the list of the interferers' values. -/
theorem bankSum_eq (bank : List BankEntry) :
    bankSum bank = (bank.map (fun e => fmul e.amp (numSin e.phase))).foldl fadd pZero :=
  List.foldl_map.symm

/-! ## What the operations do once initialised -/

theorem State.checkOperands_true {s : State} {ok : Bool} (h : ok = true) (op : Opcode) (r : Result) :
    s.checkOperands op ok r = r :=
  if_pos h

section Operations

variable {s : State} (h : s.ctl.initialised = true)

include h

theorem exec_noiseGauss (sigma : F64) :
    exec (.noiseGauss sigma) s =
      .next ((s.gaussNext sigma).respond .noiseGauss 0#8 [s.gaussValue sigma]) :=
  State.withInit_true h _ _

theorem exec_noiseUniform :
    exec .noiseUniform s =
      .next ((s.skipDraws 1).respond .noiseUniform 0#8 [drawAt s.free.drawPos]) :=
  State.withInit_true h _ _

theorem exec_intfInstall {l : List Interferer} (hl : l.length ≤ s.build.maxInterferers) :
    exec (.intfInstall l) s = .next (s.install l) :=
  (State.checkOperands_true (decide_eq_true hl) _ _).trans (State.withInit_true h _ _)

theorem exec_intfGen :
    exec .intfGen s = .next (s.bankNext.respond .intfGen 0#8 [bankSum s.chain.bank]) :=
  State.withInit_true h _ _

end Operations

/-- Settles O32: the installed bank, entry by entry, in either branch of `Install`. -/
theorem installBank : Obligations.InstallBank := by
  intro s l h hl same
  have hsame : sameFrequencies l s.chain.bank = true ↔ same := sameFrequencies_iff l s.chain.bank
  refine ⟨(s.install l).chain.bank, s.install_bank_length l, ?frame, fun hs => ?kept, fun hs => ?rebuilt⟩
  case frame =>
    rw [exec_intfInstall h hl]
    exact congrArg _ (s.install_frame l)
  case kept =>
    rw [State.install_of_same (hsame.mpr hs)]
    exact ⟨rfl, fun _ _ _ hx he => overwriteAmplitudes_get hx he⟩
  case rebuilt =>
    rw [State.install_of_different (fun hc => hs (hsame.mp hc))]
    refine ⟨rfl, fun k x hx => ?_⟩
    have entry := rebuiltBank_get l s.free.drawPos k
    rw [hx] at entry
    exact entry

/-- Settles O29: the two branches of `Gauss` for a `σ` that is not a zero. -/
theorem gaussDraws : Obligations.GaussDraws := by
  intro s sigma h hz d1 d2 r a
  rw [exec_noiseGauss h]
  constructor
  · intro hs
    obtain ⟨hv, hn⟩ := State.gauss_of_spare hz hs
    rw [hv, hn]
    rfl
  · intro hs
    obtain ⟨hv, hn⟩ := State.gauss_of_no_spare hz hs
    rw [hv, hn]
    rfl

/-- Settles O30: both zeros equal `+0`, so `Gauss` stops at its first line. -/
theorem gaussOfZero : Obligations.GaussOfZero := by
  intro s sigma h hz
  obtain ⟨hv, hn⟩ := State.gauss_of_zero (s := s) ((feq_pZero_iff sigma).mpr hz)
  rw [exec_noiseGauss h, hv, hn]
  rfl

/-- Settles O31: the response is the draw at the read position. -/
theorem uniformDraws : Obligations.UniformDraws := by
  intro s h
  obtain ⟨low, high⟩ := drawAt_range s.free.drawPos
  exact ⟨_, rfl, low, high, exec_noiseUniform h⟩

/-- Settles O33: the sum is taken from the bank before the advance. -/
theorem intfGenSums : Obligations.IntfGenSums := by
  intro s h
  rw [exec_intfGen h, bankSum_eq]
  rfl

end Sys2Proof.Machine
end

section
/-!
PROOFS. The filter designs (42_filterdesign.md R162 to R172): each design is one equation per order behind the
corner test, a cascade is read off section by section, and the gains of R172 are evaluated at every tangent, sine
and cosine that the statement names.
-/

namespace Sys2Proof.Machine

-- One declaration at a time, as in Tests: proofs elaborated in parallel each reserve a thread's stack.
set_option Elab.async false

/-! ## The designs behind the corner test (R162 to R168) -/

section Designs

variable {fc fs : F64}

theorem designs_of_invalidCorner (h : invalidCorner fc fs = true) (bw : F64) (o : FilterOrder) :
    designLPF fc o fs = none ∧ designHPF fc o fs = none ∧ designBPF fc bw o fs = none :=
  ⟨if_pos h, if_pos h, if_pos h⟩

theorem designLPF_one (h : invalidCorner fc fs = false) :
    designLPF fc .one fs = some [lp1Of (prewarp fc fs)] :=
  if_neg (Bool.eq_false_iff.mp h)

theorem designLPF_two (h : invalidCorner fc fs = false) :
    designLPF fc .two fs = some [lp2Of (prewarp fc fs) cSqrtHalf] :=
  if_neg (Bool.eq_false_iff.mp h)

theorem designLPF_four (h : invalidCorner fc fs = false) :
    designLPF fc .four fs = some [lp2Of (prewarp fc fs) cQ4a, lp2Of (prewarp fc fs) cQ4b] :=
  if_neg (Bool.eq_false_iff.mp h)

theorem designHPF_one (h : invalidCorner fc fs = false) : designHPF fc .one fs = some [hp1 fc fs] :=
  if_neg (Bool.eq_false_iff.mp h)

theorem designHPF_two (h : invalidCorner fc fs = false) :
    designHPF fc .two fs = some [hp2 fc cSqrtHalf fs] :=
  if_neg (Bool.eq_false_iff.mp h)

theorem designHPF_four (h : invalidCorner fc fs = false) :
    designHPF fc .four fs = some [hp2 fc cQ4a fs, hp2 fc cQ4b fs] :=
  if_neg (Bool.eq_false_iff.mp h)

theorem designBPF_one (h : invalidCorner fc fs = false) (bw : F64) :
    designBPF fc bw .one fs = some [bp fc bw fs] :=
  if_neg (Bool.eq_false_iff.mp h)

theorem designBPF_two (h : invalidCorner fc fs = false) (bw : F64) :
    designBPF fc bw .two fs = some [bp fc bw fs] :=
  if_neg (Bool.eq_false_iff.mp h)

theorem designBPF_four (h : invalidCorner fc fs = false) (bw : F64) :
    designBPF fc bw .four fs = some (List.replicate 2 (bp fc (fmul cBpf4Bw bw) fs)) :=
  if_neg (Bool.eq_false_iff.mp h)

end Designs

/-! ## Cascades (R171, R172) -/

theorem cascadedPhase_append_singleton (l : List Coeffs) (c : Coeffs) (f fs : F64) :
    cascadedPhase (l ++ [c]) f fs = fadd (cascadedPhase l f fs) (phaseResponse c f fs) :=
  List.foldl_concat _ _ _ _

theorem cascadedMagnitude_append_singleton (l : List Coeffs) (c : Coeffs) (f fs : F64) :
    cascadedMagnitude (l ++ [c]) f fs = fmul (cascadedMagnitude l f fs) (magnitudeResponse c f fs) :=
  List.foldl_concat _ _ _ _

/-- Settles O58: the corner test decides between no design and the formulas, which the sections' definitions
are; a cascade takes one section after the other. -/
theorem designsFollowTheFormulas : Obligations.DesignsFollowTheFormulas := by
  intro fc fs bad k norm a1 a2 low high pole first firstHigh band
  refine ⟨?refused, ?designed, ?phase, ?magnitude, ?cascades⟩
  case refused => exact designs_of_invalidCorner
  case designed =>
    exact fun h => ⟨designLPF_one h, designLPF_two h, designLPF_four h, designHPF_one h, designHPF_two h,
      designHPF_four h, fun bw => ⟨designBPF_one h bw, designBPF_two h bw, designBPF_four h bw⟩⟩
  case phase => exact fun _ _ => rfl
  case magnitude => exact fun _ _ => rfl
  case cascades =>
    exact fun l c f => ⟨rfl, cascadedPhase_append_singleton l c f fs, rfl,
      cascadedMagnitude_append_singleton l c f fs⟩

/-!
## The gains at 50 000 samples per second (R172)

The sine and the cosine of a frequency are evaluated once, in `harmonics_dc` and its neighbours; what is left of a
gain is arithmetic on them, which the kernel evaluates for one tangent, or one sine, at a time: all of
them in one evaluation would hold gigabytes of intermediate terms.
-/

/-- The accurate cosine and sine of the angular frequency and of twice it: what a magnitude response takes from
its frequency. -/
structure Harmonics where
  c1 : F64
  s1 : F64
  c2 : F64
  s2 : F64

/-- The harmonics of the frequency `f` at 50 000 samples per second. -/
def harmonics (f : F64) : Harmonics :=
  let w := angularFrequency f (natToF64 50000)
  ⟨refCos w, refSin w, refCos (fmul cTwo w), refSin (fmul cTwo w)⟩

namespace Harmonics

/-- The magnitude of a section (R170, R172). -/
def magnitude (h : Harmonics) (c : Coeffs) : F64 :=
  let nr := fadd (fadd c.b0 (fmul c.b1 h.c1)) (fmul c.b2 h.c2)
  let ni := fneg (fadd (fmul c.b1 h.s1) (fmul c.b2 h.s2))
  let dr := fadd (fadd cOne (fmul c.a1 h.c1)) (fmul c.a2 h.c2)
  let di := fneg (fadd (fmul c.a1 h.s1) (fmul c.a2 h.s2))
  fdiv (fsqrt (fadd (fmul nr nr) (fmul ni ni))) (fsqrt (fadd (fmul dr dr) (fmul di di)))

/-- The magnitude of a cascade (R172). -/
def cascade (h : Harmonics) (l : List Coeffs) : F64 :=
  l.foldl (fun m c => fmul m (h.magnitude c)) cOne

/-- The magnitude of a cascade is between `lo` and `hi`. -/
def gainWithin (h : Harmonics) (l : List Coeffs) (lo hi : F64) : Bool :=
  fle lo (h.cascade l) && fle (h.cascade l) hi

/-- The band-pass of quality `q` has magnitude `1 ± 1e−2`, and two sections of quality `q4` have
`1 ± 5e−2`. -/
def bandPassGains (h : Harmonics) (q q4 sinW cosW : F64) : Bool :=
  h.gainWithin [bpOf q sinW cosW] 0x3FEFAE147AE147AE#64 0x3FF028F5C28F5C29#64 &&
  h.gainWithin (List.replicate 2 (bpOf q4 sinW cosW)) 0x3FEE666666666666#64 0x3FF0CCCCCCCCCCCD#64

end Harmonics

/-- At DC every cosine is 1 and every sine is `+0`. -/
def dcHarmonics : Harmonics := ⟨cOne, pZero, cOne, pZero⟩

/-- The low-pass of each order that is designed from the tangent `k` has magnitude `1 ± 1e−6` at DC. -/
def lowPassGains (k : F64) : Bool :=
  dcHarmonics.gainWithin [lp1Of k] 0x3FEFFFFDE7210BE9#64 0x3FF000010C6F7A0B#64 &&
  dcHarmonics.gainWithin [lp2Of k cSqrtHalf] 0x3FEFFFFDE7210BE9#64 0x3FF000010C6F7A0B#64 &&
  dcHarmonics.gainWithin [lp2Of k cQ4a, lp2Of k cQ4b] 0x3FEFFFFDE7210BE9#64 0x3FF000010C6F7A0B#64

theorem magnitudeResponse_eq_magnitude (c : Coeffs) (f : F64) :
    magnitudeResponse c f (natToF64 50000) = (harmonics f).magnitude c := by
  simp only [magnitudeResponse, transfer, Harmonics.magnitude, harmonics]

theorem cascadedMagnitude_eq_cascade (l : List Coeffs) (f : F64) :
    cascadedMagnitude l f (natToF64 50000) = (harmonics f).cascade l := by
  simp only [cascadedMagnitude, Harmonics.cascade, magnitudeResponse_eq_magnitude]

theorem harmonics_eq {f c1 s1 c2 s2 : F64}
    (hw : refCos (angularFrequency f (natToF64 50000)) = c1 ∧
      refSin (angularFrequency f (natToF64 50000)) = s1 ∧
      refCos (fmul cTwo (angularFrequency f (natToF64 50000))) = c2 ∧
      refSin (fmul cTwo (angularFrequency f (natToF64 50000))) = s2) :
    harmonics f = ⟨c1, s1, c2, s2⟩ := by
  obtain ⟨rfl, rfl, rfl, rfl⟩ := hw
  rfl

theorem harmonics_dc : harmonics pZero = dcHarmonics := harmonics_eq (by decide +kernel)

theorem harmonics_100 : harmonics (natToF64 100) =
    ⟨0x3FEFFF5A6AEE007F#64, 0x3F89BC3952B6BECC#64, 0x3FEFFD69B26999FC#64, 0x3F99BBB4284C47EB#64⟩ :=
  harmonics_eq (by decide +kernel)

/-- The centre `fs/4`. -/
theorem harmonics_12500 : harmonics (natToF64 12500) =
    ⟨0x3C91A62633145C00#64, 0x3FF0000000000000#64, 0xBFF0000000000000#64, 0x3CA1A62633145600#64⟩ :=
  harmonics_eq (by decide +kernel)

theorem harmonics_1 : harmonics (natToF64 1) =
    ⟨0x3FEFFFFFFBC2D355#64, 0x3F20789303761911#64, 0x3FEFFFFFEF0B4D57#64, 0x3F307893014789DB#64⟩ :=
  harmonics_eq (by decide +kernel)

/-- The centre just below `fs/2`. -/
theorem harmonics_24999 : harmonics (natToF64 24999) =
    ⟨0xBFEFFFFFFBC2D355#64, 0x3F207893037621E9#64, 0x3FEFFFFFEF0B4D57#64, 0xBF307893014792B3#64⟩ :=
  harmonics_eq (by decide +kernel)

/-- The magnitude at `f` of the cascade `l` is between `lo` and `hi`. -/
def GainBetween (l : List Coeffs) (f lo hi : F64) : Prop :=
  fle lo (cascadedMagnitude l f (natToF64 50000)) = true ∧
    fle (cascadedMagnitude l f (natToF64 50000)) hi = true

theorem gainBetween_of_gainWithin {l : List Coeffs} {f lo hi : F64} {h : Harmonics}
    (hf : harmonics f = h) (hg : h.gainWithin l lo hi = true) : GainBetween l f lo hi := by
  rw [GainBetween, cascadedMagnitude_eq_cascade, hf]
  exact Bool.and_eq_true_iff.mp hg

theorem lowPass_gains {k : F64} (hk : lowPassGains k = true) :
    GainBetween [lp1Of k] pZero 0x3FEFFFFDE7210BE9#64 0x3FF000010C6F7A0B#64 ∧
    GainBetween [lp2Of k cSqrtHalf] pZero 0x3FEFFFFDE7210BE9#64 0x3FF000010C6F7A0B#64 ∧
    GainBetween [lp2Of k cQ4a, lp2Of k cQ4b] pZero 0x3FEFFFFDE7210BE9#64 0x3FF000010C6F7A0B#64 := by
  simp only [lowPassGains, Bool.and_eq_true] at hk
  obtain ⟨⟨one, two⟩, four⟩ := hk
  exact ⟨gainBetween_of_gainWithin harmonics_dc one, gainBetween_of_gainWithin harmonics_dc two,
    gainBetween_of_gainWithin harmonics_dc four⟩

theorem bandPass_gains {centre q q4 sinW cosW : F64} {h : Harmonics} (hf : harmonics centre = h)
    (hg : h.bandPassGains q q4 sinW cosW = true) :
    GainBetween [bpOf q sinW cosW] centre 0x3FEFAE147AE147AE#64 0x3FF028F5C28F5C29#64 ∧
    GainBetween (List.replicate 2 (bpOf q4 sinW cosW)) centre
      0x3FEE666666666666#64 0x3FF0CCCCCCCCCCCD#64 := by
  obtain ⟨one, four⟩ := Bool.and_eq_true_iff.mp hg
  exact ⟨gainBetween_of_gainWithin hf one, gainBetween_of_gainWithin hf four⟩

/-- Settles O59: the designs are their equations, and the gains at every tangent, sine and cosine that the
statement names are evaluated. -/
theorem designedGains : Obligations.DesignedGains := by
  unfold Obligations.DesignedGains
  intro fs gain
  refine ⟨?designs, ?tangentUnits, ?sineUnits, ?tangentEnds, ?sineEnds⟩
  case designs =>
    exact fun fc bw h => ⟨designLPF_one h, designLPF_two h, designLPF_four h, designBPF_two h bw,
      designBPF_four h bw⟩
  case tangentUnits =>
    refine fun corner d => lowPass_gains ?_
    fin_cases corner <;> fin_cases d <;> decide +kernel
  case sineUnits =>
    refine fun d e => bandPass_gains harmonics_100 ?_
    fin_cases d <;> decide +revert +kernel
  case tangentEnds =>
    refine fun d => lowPass_gains ?_
    fin_cases d <;> decide +kernel
  case sineEnds =>
    intro site d e
    match site with
    | 0 =>
      refine bandPass_gains harmonics_100 ?_
      fin_cases d <;> decide +revert +kernel
    | 1 =>
      refine bandPass_gains harmonics_12500 ?_
      fin_cases d <;> decide +revert +kernel
    | 2 =>
      refine bandPass_gains harmonics_1 ?_
      fin_cases d <;> decide +revert +kernel
    | 3 =>
      refine bandPass_gains harmonics_24999 ?_
      fin_cases d <;> decide +revert +kernel

end Sys2Proof.Machine
end

section
/-!
PROOFS. The mixer and the DUT generator (44_mixer_dut.md R212, R215): the sign by the class of its operand, `Mix`
by its mode and the gate on `A_ref`, and each operation as one update of the state with its response.
-/

namespace Sys2Proof

-- One declaration at a time, as in Tests: proofs elaborated in parallel each reserve a thread's stack.
set_option Elab.async false

/-! ## The sign (R14) -/

theorem fsign_of_nan {x : F64} (h : isNaN x = true) : isNaN (fsign x) = true := by
  rw [fsign, if_pos h]
  exact nanOf_isNaN _ _ _

theorem fsign_of_pos {x : F64} (h : flt pZero x = true) : fsign x = cOne := by
  obtain ⟨-, hnum, -⟩ := (flt_iff _ _).mp h
  rw [fsign, if_neg (Bool.eq_false_iff.mp hnum), if_pos h]

theorem fsign_of_neg {x : F64} (h : flt x pZero = true) : fsign x = cMinusOne := by
  obtain ⟨hnum, -, hneg⟩ := (flt_iff _ _).mp h
  have hnpos : ¬ flt pZero x = true := fun hc => ((flt_iff _ _).mp hc).2.2.not_gt hneg
  rw [fsign, if_neg (Bool.eq_false_iff.mp hnum), if_neg hnpos, if_pos h]

theorem fsign_of_zero {x : F64} (h : feq x pZero = true) : fsign x = Config.signAtZero := by
  obtain ⟨hnum, -, hzero⟩ := (feq_iff _ _).mp h
  have hnpos : ¬ flt pZero x = true := fun hc => ((flt_iff _ _).mp hc).2.2.ne' hzero
  have hnneg : ¬ flt x pZero = true := fun hc => ((flt_iff _ _).mp hc).2.2.ne hzero
  rw [fsign, if_neg (Bool.eq_false_iff.mp hnum), if_neg hnpos, if_neg hnneg]

namespace Machine

/-! ## The values of `Mix` (R212) -/

theorem mixValue_digital_of_pos {aRef : F64} (h : flt pZero aRef = true) (x theta : F64) :
    mixValue .digital x theta aRef =
      (fmul (fmul x (fsign (numSin theta))) cTwoOverPi,
       fmul (fmul x (fsign (numCos theta))) cTwoOverPi) :=
  if_pos h

theorem mixValue_digital_of_not_pos {aRef : F64} (h : ¬ flt pZero aRef = true) (x theta : F64) :
    mixValue .digital x theta aRef = (pZero, pZero) :=
  if_neg h

/-! ## What the two operations do once initialised -/

theorem exec_mix {s : State} (h : s.ctl.initialised = true) (mode : MixMode) (x theta aRef : F64) :
    exec (.mix mode x theta aRef) s = .next (s.respond .mix mode.code
      [(mixValue mode x theta aRef).1, (mixValue mode x theta aRef).2]) :=
  State.withInit_true h _ _

theorem exec_dutGen {s : State} (h : s.ctl.initialised = true) :
    exec .dutGen s = .next (s.dutNext.respond .dutGen 0#8
      [s.dutOut.reference, s.dutOut.modulatingSignal, s.dutOut.sensorClean, s.dutOut.thetaRef]) :=
  State.withInit_true h _ _

/-- Settles O37: the sign by the class of its operand; the response is the only update, and the gate on `A_ref`
is looked at in the digital mode alone. -/
theorem mixMultiplies : Obligations.MixMultiplies := by
  have one : natToF64 1 = cOne := by decide
  have minusOne : fneg (natToF64 1) = cMinusOne := by decide
  have atZero : natToF64 0 = Config.signAtZero := by decide
  refine ⟨fun x => ?sign, fun s x theta aRef h => ⟨?analog, ?digital⟩⟩
  case sign =>
    rw [minusOne, one, atZero]
    exact ⟨fsign_of_pos, fsign_of_neg, fsign_of_zero, fsign_of_nan⟩
  case analog =>
    rw [exec_mix h]
    rfl
  case digital =>
    rw [exec_mix h]
    by_cases hgate : flt pZero aRef = true
    · rw [mixValue_digital_of_pos hgate, if_pos hgate]
      rfl
    · rw [mixValue_digital_of_not_pos hgate, if_neg hgate]
      rfl

/-- Settles O38: the values are read before `dutNext`, which moves the two phases alone. -/
theorem dutGenerates : Obligations.DutGenerates := by
  intro s h
  rw [exec_dutGen h, State.dutNext_eq]
  rfl

end Machine

end Sys2Proof
end

section
/-!
PROOFS. The binary32 conversions (00_scope.md R11): rounding depends on the value alone, so widening, which keeps
every binary32 value, is undone by narrowing; and narrowing reaches infinity exactly at the tie above the largest
finite number.
-/

namespace Sys2Proof

-- One declaration at a time, as in Tests: proofs elaborated in parallel each reserve a thread's stack.
set_option Elab.async false

/-! ## Rounding in any format (R11) -/

/-- A number below the next power of two at exponent `q`, and not below the power before unless `q` is the
smallest exponent, is rounded at exponent `q`. -/
theorem roundExp_eq {fb m t : Nat} {emin e q : Int} (hm : m ≠ 0) (hv : (m : ℚ) * 2 ^ e = t * 2 ^ q)
    (hlt : t < 2 ^ (fb + 1)) (hq : emin ≤ q) (hnorm : emin < q → 2 ^ fb ≤ t) :
    max ((Nat.log2 m : Int) + e - fb) emin = q := by
  obtain ⟨low, high⟩ := value_bounds hm e
  have hp : (0 : ℚ) < 2 ^ q := by positivity
  have upper : (Nat.log2 m : Int) + e < fb + 1 + q := by
    refine (zpow_lt_zpow_iff_right₀ (one_lt_two : (1 : ℚ) < 2)).mp (low.trans_lt ?_)
    rw [hv, zpow_add₀ two_ne_zero]
    exact mul_lt_mul_of_pos_right (by exact_mod_cast hlt) hp
  have lower : emin < q → (fb : Int) + q < Nat.log2 m + e + 1 := fun h => by
    refine (zpow_lt_zpow_iff_right₀ (one_lt_two : (1 : ℚ) < 2)).mp (lt_of_le_of_lt ?_ high)
    rw [hv, zpow_add₀ two_ne_zero]
    exact mul_le_mul_of_nonneg_right (by exact_mod_cast hnorm h) hp.le
  omega

/-- Rounding keeps a value of the format: the magnitude bits are those of the exponent and the mantissa. -/
theorem roundMag_of_value {fb m t inf : Nat} {emin e q : Int} (hv : (m : ℚ) * 2 ^ e = t * 2 ^ q)
    (hlt : t < 2 ^ (fb + 1)) (hq : emin ≤ q) (hnorm : emin < q → 2 ^ fb ≤ t) :
    roundMag fb emin inf m e = min ((q - emin).toNat * 2 ^ fb + t) inf := by
  have hpow : (2 : ℚ) ^ q ≠ 0 := by positivity
  by_cases hm : m = 0
  · have ht : t = 0 := by simpa [hm, hpow, eq_comm] using hv
    have hmin : q = emin := by
      by_contra hne
      have := hnorm (by omega)
      have : 0 < 2 ^ fb := by positivity
      omega
    simp [roundMag, hm, ht, hmin]
  · have hround : roundedMant m e q = t := le_antisymm (roundedMant_le hv.le) (le_roundedMant hv.ge)
    unfold roundedMant at hround
    simp only [roundMag, if_neg hm, roundExp_eq hm hv hlt hq hnorm, hround]

/-! ## Binary32 patterns -/

/-- The sign bit of a binary32 pattern. -/
def signBit32 (x : F32) : Bool := decide (2 ^ 31 ≤ x.toNat)

/-- The binary32 pattern without its sign bit. -/
def magBits32 (x : F32) : Nat := x.toNat % 2 ^ 31

/-- The binary32 pattern of a sign and magnitude bits. -/
def pattern32 (neg : Bool) (M : Nat) : F32 := BitVec.ofNat 32 ((if neg then 2 ^ 31 else 0) + M)

theorem magBits32_pattern32 (neg : Bool) {M : Nat} (h : M < 2 ^ 31) : magBits32 (pattern32 neg M) = M := by
  unfold magBits32 pattern32
  rw [BitVec.toNat_ofNat]
  cases neg <;> simp <;> omega

theorem pattern32_signBit32_magBits32 (x : F32) : pattern32 (signBit32 x) (magBits32 x) = x := by
  apply BitVec.eq_of_toNat_eq
  have := x.isLt
  unfold pattern32 signBit32 magBits32
  rw [BitVec.toNat_ofNat]
  by_cases h : 2 ^ 31 ≤ x.toNat
  · simp only [h, decide_true, if_true]
    omega
  · simp only [h, decide_false, Bool.false_eq_true, if_false]
    omega

theorem unpack32_nan {x : F32} (h : 0x7F800000 < magBits32 x) : unpack32 x = .nan := if_pos h

theorem unpack32_inf {x : F32} (h : magBits32 x = 0x7F800000) : unpack32 x = .inf (signBit32 x) :=
  (if_neg (not_lt.mpr h.le)).trans (if_pos h)

/-- What `unpack32` gives of a finite pattern has the pattern's sign and, from its exponent and mantissa, the
pattern's magnitude bits. -/
theorem unpack32_finite {x : F32} (h : magBits32 x < 0x7F800000) :
    ∃ m e, unpack32 x = .fin (signBit32 x) m e ∧ m < 2 ^ 24 ∧ -149 ≤ e ∧ e ≤ 104 ∧
      (-149 < e → 2 ^ 23 ≤ m) ∧ magBits32 x = (e + 149).toNat * 2 ^ 23 + m := by
  have hval : unpack32 x = if magBits32 x / 2 ^ 23 = 0 then .fin (signBit32 x) (magBits32 x) (-149)
      else .fin (signBit32 x) (magBits32 x % 2 ^ 23 + 2 ^ 23) ((magBits32 x / 2 ^ 23 : Nat) - 150) :=
    (if_neg h.not_gt).trans (if_neg h.ne)
  generalize magBits32 x = M at h hval ⊢
  by_cases hs : M / 2 ^ 23 = 0
  · exact ⟨M, -149, hval.trans (if_pos hs), by omega, by omega, by omega, by omega, by omega⟩
  · exact ⟨_, _, hval.trans (if_neg hs), by omega, by omega, by omega, by omega, by omega⟩

/-! ## Widening is exact (R11) -/

/-- A mantissa of at most 53 bits at an exponent in range is the value of a finite pattern. -/
theorem exists_magValue {m : Nat} {e : Int} (hm : m < 2 ^ 53) (low : -1074 ≤ e) (high : e ≤ 971) :
    ∃ M, M < infMag64 ∧ magValue M = m * 2 ^ e := by
  obtain ⟨k, hk⟩ := Int.eq_ofNat_of_zero_le (show 0 ≤ e + 1074 by omega)
  induction k generalizing m e with
  | zero =>
    obtain rfl : e = -1074 := by omega
    by_cases hs : m / 2 ^ 52 = 0
    · exact ⟨m, by unfold infMag64; omega, by simp only [magValue, magMant, magExp, if_pos hs]⟩
    · refine ⟨m, by unfold infMag64; omega, ?_⟩
      have hone : m / 2 ^ 52 = 1 := by omega
      have hmant : m % 2 ^ 52 + 2 ^ 52 = m := by omega
      simp only [magValue, magMant, magExp, hmant, hone]
      norm_num
  | succ k ih =>
    by_cases hs : m < 2 ^ 52
    · obtain ⟨M, hM, hv⟩ := ih (m := m * 2 ^ 1) (e := e - 1) (by omega) (by omega) (by omega) (by omega)
      exact ⟨M, hM, hv.trans (mant_rescale m (k := 1) (by omega)).symm⟩
    · have hdiv : ((k + 1) * 2 ^ 52 + m) / 2 ^ 52 = k + 2 := by omega
      have hmant : ((k + 1) * 2 ^ 52 + m) % 2 ^ 52 + 2 ^ 52 = m := by omega
      have hexp : ((k + 2 : Nat) : Int) - 1075 = e := by omega
      refine ⟨(k + 1) * 2 ^ 52 + m, by unfold infMag64; omega, ?_⟩
      simp only [magValue, magMant, magExp, hdiv, hmant, hexp, if_neg (Nat.succ_ne_zero _)]

/-- Packing such a value gives a finite number that has it. -/
theorem pack_representable (neg : Bool) {m : Nat} {e : Int} (hm : m < 2 ^ 53) (low : -1074 ≤ e)
    (high : e ≤ 971) : isFinite (pack neg m e) = true ∧ magValue (magBits (pack neg m e)) = m * 2 ^ e := by
  obtain ⟨M, hM, hv⟩ := exists_magValue hm low high
  have hmag : magBits (pack neg m e) = M := (pack_mag neg m e).trans (roundMag_exact hM.le hv.symm)
  exact ⟨decide_eq_true (hmag ▸ hM), by rw [hmag, hv]⟩

theorem f32ToF64_nan {x : F32} (h : 0x7F800000 < magBits32 x) : isNaN (f32ToF64 x) = true := by
  rw [f32ToF64, unpack32_nan h]
  exact quietNaN_isNaN _

theorem f32ToF64_isFinite {x : F32} (h : magBits32 x < 0x7F800000) : isFinite (f32ToF64 x) = true := by
  obtain ⟨m, e, hu, hm, low, high, -, -⟩ := unpack32_finite h
  rw [f32ToF64, hu]
  exact (pack_representable _ (by omega) (by omega) (by omega)).1

/-! ## Narrowing (R11) -/

theorem unpack_infOf (neg : Bool) : unpack (infOf neg) = .inf neg := by cases neg <;> decide

theorem f64ToF32_of_fin {x : F64} {neg : Bool} {m : Nat} {e : Int} (h : unpack x = .fin neg m e) :
    f64ToF32 x = pattern32 neg (roundMag 23 (-149) 0x7F800000 m e) := by
  rw [f64ToF32, h]
  rfl

theorem f64ToF32_of_inf {x : F64} {neg : Bool} (h : unpack x = .inf neg) :
    f64ToF32 x = pattern32 neg 0x7F800000 := by
  rw [f64ToF32, h]
  rfl

theorem f64ToF32_of_nan {x : F64} (h : isNaN x = true) : isNaN (f32ToF64 (f64ToF32 x)) = true := by
  have hpat : f64ToF32 x = pattern32 (Config.nanNarrow x).msb
      (0x7FC00000 + (Config.nanNarrow x).toNat % 2 ^ 22) := by
    rw [f64ToF32, unpack_nan h]
    exact congrArg (BitVec.ofNat 32) (Nat.add_assoc _ _ _)
  refine f32ToF64_nan ?_
  rw [hpat, magBits32_pattern32 _ (by omega)]
  omega

/-- Narrowing undoes widening. -/
theorem f64ToF32_f32ToF64 {x : F32} (h : isNaN (f32ToF64 x) = false) : f64ToF32 (f32ToF64 x) = x := by
  rcases lt_trichotomy (magBits32 x) 0x7F800000 with hfin | hinf | hnan
  · obtain ⟨m, e, hu, hm, low, high, hnorm, hmag⟩ := unpack32_finite hfin
    have hwide : f32ToF64 x = pack (signBit32 x) m e := by rw [f32ToF64, hu]
    obtain ⟨hf, hv⟩ := pack_representable (signBit32 x) (m := m) (e := e) (by omega) (by omega) (by omega)
    obtain ⟨m', e', hu', hv', -, -⟩ := unpack_finite hf
    have hround : roundMag 23 (-149) 0x7F800000 m' e' = magBits32 x := by
      rw [roundMag_of_value (hv'.trans hv) hm low hnorm, hmag]
      omega
    rw [hwide, f64ToF32_of_fin hu', pack_sign, hround, pattern32_signBit32_magBits32]
  · have hwide : f32ToF64 x = infOf (signBit32 x) := by rw [f32ToF64, unpack32_inf hinf]
    rw [hwide, f64ToF32_of_inf (unpack_infOf _), ← hinf, pattern32_signBit32_magBits32]
  · exact absurd (f32ToF64_nan hnan) (by simp [h])

/-- The mantissa and the exponent of a finite number from its magnitude bits. -/
theorem unpack_of_isFinite {x : F64} (h : isFinite x = true) :
    unpack x = .fin (signBit x) (magMant (magBits x)) (magExp (magBits x)) := by
  have hf := magBits_lt_of_isFinite h
  unfold unpack magMant magExp
  simp only [if_neg hf.not_gt, if_neg hf.ne]
  split <;> rfl

/-- From the smallest normal binary32 number on, narrowing rounds 29 bits off the mantissa. -/
theorem roundMag_narrow {M : Nat} (h : 897 ≤ M / 2 ^ 52) :
    roundMag 23 (-149) 0x7F800000 (magMant M) (magExp M) =
      min ((M / 2 ^ 52 - 897) * 2 ^ 23 + roundShift (M % 2 ^ 52 + 2 ^ 52) 29) 0x7F800000 := by
  have hmant : magMant M = M % 2 ^ 52 + 2 ^ 52 := if_neg (by omega)
  have hexp : magExp M = (M / 2 ^ 52 : Nat) - 1075 := if_neg (by omega)
  have hlog : Nat.log2 (M % 2 ^ 52 + 2 ^ 52) = 52 := (Nat.log2_eq_iff (by omega)).mpr (by omega)
  have hq : max ((52 : Nat) + magExp M - (23 : Nat)) (-149) = magExp M + 29 := by omega
  have hshift : (magExp M + 29 - magExp M).toNat = 29 := by omega
  have hdiff : (magExp M + 29 - -149).toNat = M / 2 ^ 52 - 897 := by omega
  rw [roundMag, if_neg (by omega), hmant, hlog]
  simp only [hq, if_neg (show ¬ magExp M + 29 ≤ magExp M by omega), hshift, hdiff]

/-- Below the smallest normal binary32 number narrowing does not pass it. -/
theorem roundMag_narrow_le {M : Nat} (h : M / 2 ^ 52 < 897) :
    roundMag 23 (-149) 0x7F800000 (magMant M) (magExp M) ≤ 2 ^ 23 := by
  have hexp : magExp M ≤ -179 := by unfold magExp; split <;> omega
  have hmant := magMant_lt M
  unfold roundMag
  split
  · exact Nat.zero_le _
  · rename_i hm
    have hlog : Nat.log2 (magMant M) < 53 := (Nat.log2_lt hm).mpr hmant
    have hq : max ((Nat.log2 (magMant M) : Int) + magExp M - (23 : Nat)) (-149) = -149 := by omega
    have hround : roundShift (magMant M) (-149 - magExp M).toNat ≤ 2 ^ 23 := by
      refine roundShift_le (hmant.le.trans ?_)
      calc 2 ^ 53 = 2 ^ 23 * 2 ^ 30 := by norm_num
        _ ≤ 2 ^ 23 * 2 ^ (-149 - magExp M).toNat := by gcongr <;> omega
    simp only [hq, if_neg (show ¬ (-149 : Int) ≤ magExp M by omega)]
    omega

/-- At the tie above the largest finite binary32 number the mantissa rounds up to even, into infinity. -/
theorem roundMag_overflow {M : Nat} (h : 0x47EFFFFFF0000000 ≤ M) :
    roundMag 23 (-149) 0x7F800000 (magMant M) (magExp M) = 0x7F800000 := by
  rw [roundMag_narrow (by omega)]
  by_cases htop : M / 2 ^ 52 = 1150
  · have : 2 ^ 24 ≤ roundShift (M % 2 ^ 52 + 2 ^ 52) 29 := by
      unfold roundShift
      simp only
      split <;> omega
    omega
  · have : 2 ^ 23 ≤ roundShift (M % 2 ^ 52 + 2 ^ 52) 29 := le_roundShift (by omega)
    omega

/-- Below that tie narrowing stays below infinity. -/
theorem roundMag_no_overflow {M : Nat} (h : M < 0x47EFFFFFF0000000) :
    roundMag 23 (-149) 0x7F800000 (magMant M) (magExp M) < 0x7F800000 := by
  by_cases hnorm : 897 ≤ M / 2 ^ 52
  · rw [roundMag_narrow hnorm]
    have hround : roundShift (M % 2 ^ 52 + 2 ^ 52) 29 ≤ 2 ^ 24 := roundShift_le (by omega)
    by_cases htop : M / 2 ^ 52 = 1150
    · have : roundShift (M % 2 ^ 52 + 2 ^ 52) 29 < 2 ^ 24 := by
        unfold roundShift
        simp only
        split <;> omega
      omega
    · omega
  · have := roundMag_narrow_le (not_le.mp hnorm)
    omega

theorem f64ToF32_overflow {x : F64} (hx : isNaN x = false) (h : 0x47EFFFFFF0000000 ≤ magBits x) :
    f64ToF32 x = pattern32 (signBit x) 0x7F800000 := by
  cases hi : isInf x
  · rw [f64ToF32_of_fin (unpack_of_isFinite ((isFinite_iff x).mpr ⟨hx, hi⟩)), roundMag_overflow h]
  · exact f64ToF32_of_inf (unpack_inf hi)

theorem f64ToF32_isFinite {x : F64} (h : magBits x < 0x47EFFFFFF0000000) :
    isFinite (f32ToF64 (f64ToF32 x)) = true := by
  have hf : isFinite x = true := decide_eq_true (by unfold infMag64; omega)
  have hlt := roundMag_no_overflow h
  refine f32ToF64_isFinite ?_
  rwa [f64ToF32_of_fin (unpack_of_isFinite hf), magBits32_pattern32 _ (by omega)]

end Sys2Proof
end

section
/-!
PROOFS. The ring buffer (45_ringbuffer.md R230 to R236): each operation as one update of the state, and what a ring
holds after a list of pushes, from which the decimated view is read off.
-/

namespace Sys2Proof.Machine

-- One declaration at a time, as in Tests: proofs elaborated in parallel each reserve a thread's stack.
set_option Elab.async false

/-! ## What the operations do once initialised -/

section Operations

variable {s : State} (h : s.ctl.initialised = true) (c : Chan)

include h

theorem exec_ringPush (v : F64) : exec (.ringPush c v) s = .next (s.pushed c v) :=
  State.withInit_true h _ _

theorem exec_ringClear :
    exec (.ringClear c) s = .next (s.setRing c (ringCleared (s.rings.get c))) :=
  State.withInit_true h _ _

theorem exec_ringSnap {maxPoints : Word} (hp : maxPoints ≠ 0#64) :
    exec (.ringSnap c maxPoints) s = .next (s.respond .ringSnap c.code
      (BitVec.ofNat 64 (ringCount s.params.ringCapacity (s.rings.get c) maxPoints.toNat) ::
        (ringView c s.params.ringCapacity (s.rings.get c) maxPoints.toNat).map f32ToF64)) :=
  (State.checkOperands_true (decide_eq_true hp) _ _).trans (State.withInit_true h _ _)

end Operations

/-! ## A ring after a list of pushes (R231, R235) -/

/-- Ring `c` holds the last values of `vs` that fit, value `j` at `j mod C`. -/
structure RingHolds (c : Chan) (cap : Nat) (r : Ring) (vs : List F64) : Prop where
  w : r.w = vs.length % cap
  n : r.n = min vs.length cap
  elem : ∀ j, vs.length - cap ≤ j → j < vs.length → ringElem c r (j % cap) = f64ToF32 (vs.getD j pZero)

theorem RingHolds.of_cleared {c : Chan} {cap : Nat} {r : Ring} (hw : r.w = 0) (hn : r.n = 0) :
    RingHolds c cap r [] where
  w := by simp [hw]
  n := by simp [hn]
  elem := by simp

/-- Different indices less than `cap` apart have different places in a ring of `cap` elements. -/
theorem mod_ne_of_within {cap i j : Nat} (h : i < j) (within : j < i + cap) : i % cap ≠ j % cap := by
  intro heq
  have hdvd : cap ∣ j - i := (Nat.modEq_iff_dvd' h.le).mp heq
  have := Nat.le_of_dvd (by omega) hdvd
  omega

theorem RingHolds.pushed {c : Chan} {cap : Nat} {r : Ring} {vs : List F64} (h : RingHolds c cap r vs)
    (v : F64) : RingHolds c cap (ringPushed cap r v) (vs ++ [v]) where
  w := by simp [ringPushed, h.w]
  n := by
    simp only [ringPushed, h.n, List.length_append, List.length_singleton]
    omega
  elem := by
    intro j hlow hj
    rw [List.length_append, List.length_singleton] at hlow hj
    rcases Nat.lt_or_eq_of_le (Nat.le_of_lt_succ hj) with hlt | rfl
    · have hne : j % cap ≠ r.w := h.w ▸ mod_ne_of_within hlt (by omega)
      rw [ringElem_pushed_other _ _ _ _ hne, h.elem j (by omega) hlt, List.getD_append _ _ _ _ hlt]
    · rw [← h.w, ringElem_pushed_same]
      simp

/-- Element `k` of the decimated view of such a ring is at the index of value `max(0, N − C) + k·stride`. -/
theorem RingHolds.ringIndex_eq {c : Chan} {cap : Nat} {r : Ring} {vs : List F64}
    (h : RingHolds c cap r vs) (d : Nat) :
    (r.w + cap - r.n + d) % cap = (vs.length - cap + d) % cap := by
  rw [h.w, h.n]
  rcases Nat.lt_or_ge vs.length cap with hlt | hge
  · rw [Nat.mod_eq_of_lt hlt, Nat.min_eq_left hlt.le, Nat.sub_eq_zero_of_le hlt.le,
      Nat.add_sub_cancel_left, Nat.zero_add, Nat.add_mod_left]
  · obtain ⟨i, hi⟩ := Nat.exists_eq_add_of_le hge
    rw [Nat.min_eq_right hge, Nat.add_sub_cancel, Nat.mod_add_mod, hi, Nat.add_sub_cancel_left,
      Nat.add_assoc, Nat.add_mod_left]

theorem mul_lt_of_lt_ceilDiv {n stride k : Nat} (hs : 1 ≤ stride) (h : k < (n + stride - 1) / stride) :
    k * stride < n := by
  have := (Nat.le_div_iff_mul_le hs).mp h
  rw [Nat.succ_mul] at this
  omega

theorem one_le_ceilDiv {a b : Nat} (ha : 1 ≤ a) (hb : 1 ≤ b) : 1 ≤ (a + b - 1) / b :=
  (Nat.one_le_div_iff hb).mpr (by omega)

/-- The decimated view of such a ring gives the values it still holds in insertion order. -/
theorem RingHolds.view {c : Chan} {cap : Nat} {r : Ring} {vs : List F64} (h : RingHolds c cap r vs)
    {stride : Nat} (hs : 1 ≤ stride) :
    (List.range ((r.n + stride - 1) / stride)).map
        (fun k => f32ToF64 (ringElem c r ((r.w + cap - r.n + k * stride) % cap))) =
      (List.range ((r.n + stride - 1) / stride)).map
        (fun k => f32ToF64 (f64ToF32 (vs.getD ((vs.length - cap) + k * stride) pZero))) := by
  refine List.map_congr_left fun k hk => ?_
  have hlt : k * stride < min vs.length cap := h.n ▸ mul_lt_of_lt_ceilDiv hs (List.mem_range.mp hk)
  rw [h.ringIndex_eq, h.elem _ (by omega) (by omega)]

/-- One push after an outcome that is a next state; a fault or a refusal as it is. -/
def pushNext (c : Chan) (o : Result) (v : F64) : Result :=
  match o with
  | .next u => exec (.ringPush c v) u
  | .fault f => .fault f
  | .refused r => .refused r

/-- Pushes into a cleared ring complete, and the ring then holds them. -/
theorem pushes_hold {s : State} {c : Chan} (h : s.ctl.initialised = true) (hw : (s.rings.get c).w = 0)
    (hn : (s.rings.get c).n = 0) (vs : List F64) :
    ∃ t : State, vs.foldl (pushNext c) (.next s) = .next t ∧ t.ctl = s.ctl ∧ t.params = s.params ∧
      RingHolds c s.params.ringCapacity (t.rings.get c) vs := by
  induction vs using List.reverseRecOn with
  | nil => exact ⟨s, rfl, rfl, rfl, .of_cleared hw hn⟩
  | append_singleton vs v ih =>
    obtain ⟨t, hfold, hctl, hparams, hholds⟩ := ih
    refine ⟨t.pushed c v, ?_, hctl, hparams, ?_⟩
    · rw [List.foldl_append, hfold]
      exact exec_ringPush (by rw [hctl, h]) c v
    · rw [State.pushed, State.setRing_get_same, hparams]
      exact hholds.pushed v

/-! ## The obligations -/

/-- Settles O40: the response is the only update, and the view is the one of R232. -/
theorem ringSnapReads : Obligations.RingSnapReads := by
  intro s c maxPoints h hp
  simp only [exec_ringSnap h c hp, ringView, List.map_map]
  rfl

/-- Settles O39: the conversions from the values of the patterns, the operations from `ringPushed` and
`ringCleared`, which replace one ring. -/
theorem ringWrites : Obligations.RingWrites := by
  refine ⟨fun _ => f64ToF32_f32ToF64, fun x hx => ⟨fun hbig => ?overflow, f64ToF32_isFinite⟩,
    fun _ => f64ToF32_of_nan, by decide +kernel, fun s c v h => ⟨?push, ?clear⟩⟩
  case overflow =>
    rw [f64ToF32_overflow hx hbig]
    cases signBit x <;> rfl
  case push =>
    refine ⟨s.pushed c v, exec_ringPush h c v, ?_⟩
    rw [State.pushed, State.setRing_get_same]
    exact ⟨ringElem_pushed_same _ _ _ _, fun _ hk => ringElem_pushed_other _ _ _ _ hk, rfl, rfl,
      fun _ hd => s.setRing_get_other hd _, rfl⟩
  case clear =>
    refine ⟨_, exec_ringClear h c, ?_⟩
    rw [State.setRing_get_same]
    exact ⟨fun _ => rfl, rfl, rfl, fun _ hd => s.setRing_get_other hd _, rfl⟩

/-- Settles O41, by induction on the pushes: the ring holds the last `C` of them, and element `k` of the view is
value `max(0, N − C) + k·stride`. -/
theorem ringHistory : Obligations.RingHistory := by
  intro s c vs maxPoints h hcap hp hw hn
  obtain ⟨t, hfold, hctl, hparams, hholds⟩ := pushes_hold h hw hn vs
  have hpos : 1 ≤ maxPoints.toNat := Nat.one_le_iff_ne_zero.mpr fun h0 => hp (BitVec.eq_of_toNat_eq h0)
  rw [← hparams] at hcap hholds ⊢
  refine ⟨t, hfold, ?_⟩
  rw [← hholds.n, ← hholds.view (one_le_ceilDiv hcap hpos)]
  exact ringSnapReads t c maxPoints (by rw [hctl, h]) hp

end Sys2Proof.Machine
end

section
/-!
PROOFS. The double buffer (46_doublebuffer.md R250 to R256): which operations store into the shared region, the
flag and the views, and the active block through every step.
-/

namespace Sys2Proof.Machine

-- One declaration at a time, as in Tests: proofs elaborated in parallel each reserve a thread's stack.
set_option Elab.async false

/-! ## The operations that store nothing (R253, R72) -/

/-- The region is the last of the contents a read may see. -/
theorem State.shm_of_contents {s t : State} (h : t.contents = s.contents) : t.shm = s.shm := by
  obtain ⟨-, last⟩ := List.append_inj' h rfl
  exact List.singleton_inj.mp last

/-- Which instructions store: one that acquires nothing adds a content only where it stores, and one that acquires
is the consumer's, which does not own the region. -/
theorem exec_shm_cases {i : Instr} {s t : State} (e : exec i s = .next t) :
    i = .snap ∨ (∃ now, i = .tick now) ∨ i = .dbPub ∨ t.shm = s.shm := by
  cases hp : i.port with
  | consumer =>
    obtain ⟨-, -, -, -, -, shm, -⟩ := exec_sameProducer hp e
    exact .inr (.inr (.inr shm))
  | producer =>
    have noAcqr : i ≠ .dbAcqr := by
      rintro rfl
      cases hp
    have noChan : ∀ c, i ≠ .fftChan c := by
      rintro c rfl
      cases hp
    obtain ⟨-, kept | ⟨pub, -⟩ | ⟨snap | tick, -⟩⟩ := exec_effect noAcqr noChan e
    · exact .inr (.inr (.inr (State.shm_of_contents kept)))
    · exact .inr (.inr (.inl pub))
    · exact .inl snap
    · exact .inr (.inl tick)

/-- Settles O45: of the four cases only the last is left, and there the whole region is as it was. -/
theorem otherInstructionsStoreNothing : Obligations.OtherInstructionsStoreNothing := by
  intro i s t noSnap noTick noPub e a
  obtain snap | ⟨now, tick⟩ | pub | shm := exec_shm_cases e
  · exact absurd snap noSnap
  · exact absurd tick (noTick now)
  · exact absurd pub noPub
  · rw [shm]

/-! ## The views and the flag (R250 to R252) -/

section Operations

variable {s : State} {act : Block} (hi : s.ctl.initialised = true) (hr : 4 ≤ s.build.shmBytes)
  (ha : s.activeBlock = some act)

include hi hr ha

theorem exec_dbAcqw :
    exec .dbAcqw s =
      .next (s.respond .dbAcqw 0#8 (viewWords s.ctl.snapshotPoints act.other)) :=
  (State.withInit_true hi _ _).trans (State.withFlag_of_active hr ha _)

theorem exec_dbPub : exec .dbPub s = .next (s.storeFlag act.other) :=
  (State.withInit_true hi _ _).trans (State.withFlag_of_active hr ha _)

end Operations

theorem blockBase_a (p : Nat) : blockBase p .a = 4 := by simp [blockBase, Block.index]

theorem blockBase_b (p : Nat) : blockBase p .b = 4 + 52 * p := by
  simp [blockBase, Block.index, blockBytes]

/-- Settles O42: each operation is its response, DB.ACQR's after the acquire load, and the bases are those of
R61. -/
theorem viewsRespond : Obligations.ViewsRespond := by
  intro s act hi hr ha view
  have words : ∀ blk, viewWords s.ctl.snapshotPoints blk = view blk := by
    intro blk
    cases blk with
    | a => rw [viewWords, blockBase_a]; rfl
    | b => rw [viewWords, blockBase_b]; rfl
  refine ⟨?acqw, ?acqr⟩
  case acqw =>
    rw [exec_dbAcqw hi hr ha, words]
    rfl
  case acqr =>
    have acquired := execDbAcqr_active hi hr ha
    rw [words, State.acquire] at acquired
    cases act with
    | a => rw [blockBase_a] at acquired; exact acquired
    | b => rw [blockBase_b] at acquired; exact acquired

theorem State.storeFlag_word (s : State) (blk : Block) :
    memRead32 (s.storeFlag blk).shm 0 = blk.flagWord :=
  memRead32_memWrite32_same _ _ _

/-- Settles O43: DB.PUB is one store of the other block's flag word, and the other block's other is the first. -/
theorem publishFlips : Obligations.PublishFlips := by
  intro s act hi hr ha
  have flipped : (s.storeFlag act.other).activeBlock = some act.other := s.storeFlag_activeBlock _
  have again : exec .dbPub (s.storeFlag act.other) = .next ((s.storeFlag act.other).storeFlag act) :=
    (exec_dbPub (s := s.storeFlag act.other) hi hr flipped).trans (by rw [Block.other_other])
  refine ⟨_, _, exec_dbPub hi hr ha, again, flipped, State.storeFlag_activeBlock _ _, ?word,
    fun a four => s.storeFlag_frame _ four, rfl⟩
  case word =>
    rw [State.storeFlag_word]
    cases act <;> rfl

/-! ## The active block (R254) -/

/-- Byte `a` is one that no producer may store while `act` is active: of that block, or beyond both (R254,
R69). -/
def Guarded (p : Nat) (act : Block) (a : Nat) : Prop := inBlock p act a ∨ 4 + 104 * p ≤ a

/-- The flag's bytes are not guarded. -/
theorem Guarded.four_le {p : Nat} {act : Block} {a : Nat} (h : Guarded p act a) : 4 ≤ a := by
  simp only [Guarded, inBlock, blockBase] at h
  omega

/-- The thirteen channels of a block fill it and no more (R61, R64). -/
theorem chan_range_le (p : Nat) (c : Chan) : c.index * (4 * p) + 4 * p ≤ 52 * p :=
  calc c.index * (4 * p) + 4 * p = (c.index + 1) * (4 * p) := by ring
    _ ≤ 13 * (4 * p) := Nat.mul_le_mul_right _ c.index_lt
    _ = 52 * p := by ring

/-- No channel of the inactive block reaches a guarded byte. -/
theorem Guarded.outside_channel {p : Nat} {act : Block} {a len : Nat} (h : Guarded p act a) (c : Chan)
    (hl : len ≤ p) : a < elemAddr p act.other c 0 ∨ elemAddr p act.other c len ≤ a := by
  have range := chan_range_le p c
  simp only [Guarded, inBlock, elemAddr_eq, blockBase, blockBytes] at h ⊢
  cases act with
  | a => simp only [Block.other, Block.index] at h ⊢; omega
  | b => simp only [Block.other, Block.index] at h ⊢; omega

/-- The active block of `s` reads in `t` as in `s`, and so does every byte beyond both blocks. -/
def KeepsActive (s t : State) : Prop :=
  ∀ act a, s.activeBlock = some act → Guarded s.ctl.snapshotPoints act a →
    memRead t.shm a = memRead s.shm a

theorem KeepsActive.of_shm {s t : State} (h : t.shm = s.shm) : KeepsActive s t :=
  fun _ _ _ _ => by rw [h]

/-- What is kept from a state with the same region and the same layout. -/
theorem KeepsActive.of_same {s u t : State} (shm : u.shm = s.shm)
    (points : u.ctl.snapshotPoints = s.ctl.snapshotPoints) (h : KeepsActive u t) : KeepsActive s t := by
  simpa only [KeepsActive, State.activeBlock, shm, points] using h

theorem KeepsActive.storeFlag (s : State) (blk : Block) : KeepsActive s (s.storeFlag blk) :=
  fun _ _ _ guarded => s.storeFlag_frame blk guarded.four_le

/-- A view has at most `P` elements, which is its channel's range (R281). -/
theorem State.Inv.chanView_length_le {s : State} (h : s.Inv) (c : Chan) :
    (s.chanView c).length ≤ s.ctl.snapshotPoints := by
  obtain ⟨one, capacity⟩ := h.capacity
  obtain ⟨-, count⟩ := h.rings c
  rw [State.chanView, ringView_length]
  exact ringCount_le one capacity count

/-- A snapshot stores into the inactive block and the flag alone. -/
theorem KeepsActive.snapshot {s t : State} (h : s.Inv) (e : s.snapshot = .next t) : KeepsActive s t := by
  intro act a active guarded
  obtain ⟨act', m, -, active', stored, rfl⟩ := State.snapshot_cases e
  obtain rfl : act' = act := Option.some.inj (active'.symm.trans active)
  calc memRead (s.published act'.other m).shm a
      = memRead m a := memRead_memWrite32_other m (.inr guarded.four_le) _
    _ = memRead s.shm a :=
        State.storeViews_frame stored fun c _ => guarded.outside_channel c (h.chanView_length_le c)

theorem KeepsActive.publishPhase {s t : State} {now : F64} (h : s.Inv)
    (e : s.publishPhase now = .next t) : KeepsActive s t := by
  obtain rfl | ⟨u, hu, rfl⟩ := State.publishPhase_cases e
  · exact .of_shm rfl
  · have stored : KeepsActive s u := .snapshot h hu
    exact stored

/-- A tick that a STOP has cut publishes nothing (R283). -/
theorem State.publishPhase_stoppedInTick (s : State) (now : F64) :
    s.stoppedInTick.publishPhase now = .next s.stoppedInTick := by
  have stopped : s.stoppedInTick.ctl.running = false := rfl
  exact if_neg (by simp [stopped])

theorem KeepsActive.execTick {s t : State} {now : F64} (h : s.Inv) (e : execTick now s = .next t) :
    KeepsActive s t := by
  have sampled := SameReads.tickSampled s now
  have points : (s.tickSampled now).ctl.snapshotPoints = s.ctl.snapshotPoints := by
    simp [State.tickSampled]
  obtain ⟨-, rfl⟩ | ⟨-, e⟩ := State.withInit_cases e
  · exact .of_shm rfl
  · split at e
    · simp only at e
      split at e
      · rw [State.publishPhase_stoppedInTick] at e
        cases e
        obtain ⟨shm, -⟩ := sampled.trans (.stoppedInTick _)
        exact .of_shm shm
      · obtain ⟨shm, -⟩ := sampled
        exact .of_same shm points (.publishPhase (h.tickSampled now) e)
    · cases e
      exact .of_shm rfl

/-- The three operations that store, one by one, and the others, which leave the region. -/
theorem exec_keepsActive {i : Instr} {s t : State} (h : s.Inv) (e : exec i s = .next t) :
    KeepsActive s t := by
  obtain rfl | ⟨now, rfl⟩ | rfl | shm := exec_shm_cases e
  · obtain ⟨-, rfl⟩ | ⟨-, e⟩ := State.withInit_cases e
    · exact .of_shm rfl
    · exact .snapshot h e
  · exact .execTick h e
  · obtain ⟨-, rfl⟩ | ⟨-, e⟩ := State.withInit_cases e
    · exact .of_shm rfl
    · obtain ⟨act, -, -, e⟩ := State.withFlag_cases e
      cases e
      exact .storeFlag s _
  · exact .of_shm shm

theorem runMessage_keepsActive {p : Port} {m : Message} {s t : State} (h : s.Inv)
    (e : runMessage p m s = .next t) : KeepsActive s t := by
  unfold runMessage at e
  split at e
  · exact exec_keepsActive h e
  · cases e
    exact .of_shm rfl

/-- The oldest message taken off its port and executed. -/
theorem takeMessage_keepsActive {p : Port} {m : Message} {l : List Message} {s t : State} (h : s.Inv)
    (e : runMessage p m (s.setQueue p l) = .next t) : KeepsActive s t :=
  .of_same (s.setQueue_shm p l) (by rw [State.setQueue_ctl]) (runMessage_keepsActive (h.setQueue p l) e)

theorem KeepsActive.move {s t : State} {turn : Config.Turn} (h : s.Inv) (e : s.move turn = .next t) :
    KeepsActive s t := by
  cases turn with
  | producer =>
    simp only [State.move, State.producerMove] at e
    split at e
    · cases e
      exact .of_shm rfl
    · exact takeMessage_keepsActive h e
  | consumer =>
    simp only [State.move, State.consumerMove] at e
    split at e
    · cases e
      exact .of_shm (s.finishTask_shm _)
    · split at e
      · cases e
        exact .of_shm rfl
      · exact takeMessage_keepsActive h e
  | receive =>
    cases e
    obtain ⟨shm, -⟩ := SameReads.receiveMove s
    exact .of_shm shm

/-- Settles O44: a step is one move of one agent, and every move keeps the guarded bytes. -/
theorem activeBlockKept : Obligations.ActiveBlockKept := by
  intro s t act a h _ active e guarded
  obtain rfl | ⟨turn, u, hu, rfl⟩ := step_cases e
  · rfl
  · exact KeepsActive.move h hu act a active guarded

end Sys2Proof.Machine
end

section
/-!
PROOFS. The range of `Wrap180` (47_chainrunner.md R282) and the pacing of a tick (R280, R300): a NaN goes through
every operation of `due`, and `due` is an integer, so converting it to a count and back loses nothing.
-/

namespace Sys2Proof

-- One declaration at a time, as in Tests: proofs elaborated in parallel each reserve a thread's stack.
set_option Elab.async false

/-! ## Wrap180 (R282) -/

theorem wrap180_of_isFinite {p : F64} (h : isFinite p = true) :
    wrap180 p =
      keepIf inWrap180 (wrap180Formula p) (keepIf inWrap180 (Config.wrapOutside p) c180) :=
  if_pos h

theorem wrap180_of_not_isFinite {p : F64} (h : isFinite p = false) : wrap180 p = nanOf .wrap p p :=
  if_neg (Bool.eq_false_iff.mp h)

theorem inWrap180_iff (r : F64) :
    inWrap180 r = true ↔ flt (fneg c180) r = true ∧ fle r c180 = true :=
  Bool.and_eq_true_iff

/-- The last resort of `Wrap180` is in the interval, so every finite phase is taken into it. -/
theorem wrap180_range {p : F64} (h : isFinite p = true) : inWrap180 (wrap180 p) = true := by
  have last : inWrap180 c180 = true := by decide
  rw [wrap180_of_isFinite h]
  exact keepIf_ok (keepIf_ok last)

theorem wrap180_of_formula_inside {p : F64} (h : isFinite p = true)
    (inside : inWrap180 (wrap180Formula p) = true) : wrap180 p = wrap180Formula p :=
  (wrap180_of_isFinite h).trans (if_pos inside)

theorem wrap180_nan {p : F64} (h : isFinite p = false) : isNaN (wrap180 p) = true := by
  rw [wrap180_of_not_isFinite h]
  exact nanOf_isNaN _ _ _

/-- Settles O54: the range and the formula from the two tests of `Wrap180`; the phases R282 lists are
evaluated. -/
theorem wrap180Range : Obligations.Wrap180Range :=
  ⟨fun p => ⟨fun h => (inWrap180_iff _).mp (wrap180_range h), wrap180_nan,
    fun h above below => wrap180_of_formula_inside h ((inWrap180_iff _).mpr ⟨above, below⟩)⟩,
    by decide +kernel⟩

/-! ## A NaN operand gives a NaN (R11) -/

theorem fsub_nan {a b : F64} (h : isNaN a = true ∨ isNaN b = true) : isNaN (fsub a b) = true := by
  have hv : addVal (unpack a) (unpack (fneg b)) = none := by
    rcases h with h | h
    · rw [unpack_nan h]
      rfl
    · have hmag : magBits (fneg b) = magBits b := by
        unfold magBits fneg
        rw [BitVec.toNat_xor, ← Nat.and_two_pow_sub_one_eq_mod, ← Nat.and_two_pow_sub_one_eq_mod,
          Nat.and_xor_distrib_right]
        simp
      have hn : isNaN (fneg b) = true := by
        rw [isNaN, hmag]
        exact h
      rw [unpack_nan hn]
      cases unpack a <;> rfl
  rw [fsub, hv]
  exact nanOf_isNaN _ _ _

theorem fdiv_nan_left {a : F64} (h : isNaN a = true) (b : F64) : isNaN (fdiv a b) = true := by
  rw [fdiv, unpack_nan h]
  exact nanOf_isNaN _ _ _

theorem fmul_nan_left {a : F64} (h : isNaN a = true) (b : F64) : isNaN (fmul a b) = true := by
  rw [fmul, unpack_nan h]
  exact nanOf_isNaN _ _ _

theorem ffloor_nan {a : F64} (h : isNaN a = true) : isNaN (ffloor a) = true := by
  rw [ffloor, unpack_nan h]
  exact nanOf_isNaN _ _ _

theorem fle_nan_right {b : F64} (h : isNaN b = true) (a : F64) : fle a b = false := by
  simp [fle, h]

/-! ## Integers (R11, R300) -/

theorem signBit_of_pos {x : F64} (h : flt pZero x = true) : signBit x = false := by
  obtain ⟨-, -, pos⟩ := (flt_iff _ _).mp h
  rw [fval_pZero] at pos
  by_contra neg
  rw [fval, if_pos (by simpa using neg)] at pos
  have := magValue_nonneg (magBits x)
  linarith

theorem fval_of_pos {x : F64} (h : flt pZero x = true) : fval x = magValue (magBits x) :=
  if_neg (Bool.eq_false_iff.mp (signBit_of_pos h))

/-- A positive number whose value is the natural number `n` converts to `n`. -/
theorem f64ToNat_of_value {x : F64} {n : Nat} (hf : isFinite x = true) (hp : flt pZero x = true)
    (hv : fval x = n) : f64ToNat x = n := by
  obtain ⟨m, e, hu, hm, -, -⟩ := unpack_finite hf
  rw [signBit_of_pos hp] at hu
  rw [← fval_of_pos hp, hv] at hm
  rw [f64ToNat, hu]
  simp only
  split
  · rename_i he
    obtain ⟨k, rfl⟩ := Int.eq_ofNat_of_zero_le he
    rw [zpow_natCast] at hm
    exact_mod_cast hm
  · obtain ⟨k, hk⟩ := Int.eq_ofNat_of_zero_le (show 0 ≤ -e by omega)
    have hmant : m = n * 2 ^ k := by
      rw [show e = -(k : Int) by omega, zpow_neg, zpow_natCast, ← div_eq_mul_inv,
        div_eq_iff (by positivity)] at hm
      exact_mod_cast hm
    rw [hk, Int.toNat_natCast, hmant]
    exact Nat.mul_div_cancel _ (by positivity)

/-- A positive number whose value is the natural number `n` is what `n` converts to. -/
theorem natToF64_of_value {x : F64} {n : Nat} (hp : flt pZero x = true) (hv : fval x = n) :
    natToF64 n = x := by
  obtain ⟨-, hn, -⟩ := (flt_iff _ _).mp hp
  have packed : pack (signBit x) n 0 = x := pack_exact hn (by rw [← fval_of_pos hp, hv]; simp)
  rw [signBit_of_pos hp] at packed
  exact packed

/-- A NaN and an infinity have no finite floor. -/
theorem ffloor_not_isFinite {x : F64} (h : isFinite x = false) : isFinite (ffloor x) = false := by
  cases hn : isNaN x with
  | true =>
    refine Bool.eq_false_iff.mpr fun hf => ?_
    simpa [ffloor_nan hn] using not_nan_of_finite hf
  | false =>
    have hi : isInf x = true := by
      by_contra hi
      simp [(isFinite_iff x).mpr ⟨hn, by simpa using hi⟩] at h
    rw [ffloor, unpack_inf hi]
    exact h

/-- A positive finite floor is a natural number. -/
theorem ffloor_value {x : F64} (hf : isFinite (ffloor x) = true) (hp : flt pZero (ffloor x) = true) :
    ∃ n : Nat, fval (ffloor x) = n := by
  rw [fval_of_pos hp]
  cases hx : isFinite x with
  | false =>
    exact absurd hf (Bool.eq_false_iff.mp (ffloor_not_isFinite hx))
  | true =>
    obtain ⟨m, e, hu, hm, hlt, -⟩ := unpack_finite hx
    have hfl : ffloor x = if 0 ≤ e then x else pack (signBit x) (cutFraction m e (signBit x)) 0 := by
      rw [ffloor, hu]
    rw [hfl] at hp ⊢
    split at hp
    · rename_i he
      obtain ⟨k, rfl⟩ := Int.eq_ofNat_of_zero_le he
      refine ⟨m * 2 ^ k, ?_⟩
      rw [if_pos he, ← hm, zpow_natCast]
      push_cast
      rfl
    · rename_i he
      have hs : signBit x = false := by rw [← pack_sign (signBit x)]; exact signBit_of_pos hp
      have hcut : cutFraction m e (signBit x) ≤ m := by
        rw [hs]
        exact Nat.div_le_self _ _
      obtain ⟨-, value⟩ := pack_representable (signBit x) (hcut.trans_lt hlt) (e := 0) (by omega)
        (by omega)
      exact ⟨cutFraction m e (signBit x), by rw [if_neg he, value]; simp⟩

theorem fval_cTickCap : fval cTickCap = (2000 : Nat) := by
  have sign : ¬ signBit cTickCap = true := by decide
  have mant : magMant (magBits cTickCap) = 2000 * 2 ^ 42 := by decide
  have exp : magExp (magBits cTickCap) = -42 := by decide
  rw [fval, if_neg sign, magValue, mant, exp]
  norm_num

/-- What is not below a positive upper bound is cut to the bound. -/
theorem fmin_of_le {v hi : F64} (pos : flt pZero hi = true) (h : fle hi v = true) : fmin v hi = hi := by
  unfold fmin
  split
  · rfl
  · rename_i above
    obtain ⟨hh, hv, le⟩ := (fle_iff _ _).mp h
    have equal : fval v = fval hi :=
      le_antisymm (not_lt.mp fun lt => above ((flt_iff _ _).mpr ⟨hh, hv, lt⟩)) le
    have vpos : flt pZero v = true := by
      obtain ⟨hz, -, lt⟩ := (flt_iff _ _).mp pos
      exact (flt_iff _ _).mpr ⟨hz, hv, equal ▸ lt⟩
    rw [fval_of_pos vpos, fval_of_pos pos] at equal
    exact eq_of_sign_mag ((signBit_of_pos vpos).trans (signBit_of_pos pos).symm)
      (magValue_strictMono.injective equal)

theorem fmin_of_lt {v hi : F64} (h : flt v hi = true) : fmin v hi = v := by
  obtain ⟨-, -, lt⟩ := (flt_iff _ _).mp h
  exact if_neg fun above => ((flt_iff _ _).mp above).2.2.not_gt lt

theorem flt_of_lt_of_le {a b c : F64} (h : flt a b = true) (h' : fle b c = true) : flt a c = true := by
  obtain ⟨ha, -, lt⟩ := (flt_iff _ _).mp h
  obtain ⟨-, hc, le⟩ := (fle_iff _ _).mp h'
  exact (flt_iff _ _).mpr ⟨ha, hc, lt.trans_le le⟩

/-- A positive number below a finite bound is finite. -/
theorem isFinite_of_pos_of_lt {x hi : F64} (hh : isFinite hi = true) (pos : flt pZero x = true)
    (h : flt x hi = true) : isFinite x = true := by
  obtain ⟨hz, hx, low⟩ := (flt_iff _ _).mp pos
  obtain ⟨-, hn, high⟩ := (flt_iff _ _).mp h
  exact finite_of_between (by decide) hh ((fle_iff _ _).mpr ⟨hz, hx, low.le⟩)
    ((fle_iff _ _).mpr ⟨hx, hn, high.le⟩)

end Sys2Proof

namespace Sys2Proof.Machine

set_option Elab.async false

/-! ## The pacing of a tick (R280, R300) -/

theorem State.tickSamples_of_not_due {s : State} {now : F64}
    (h : isNaN (s.due now) = true ∨ fle (s.due now) pZero = true) : s.tickSamples now = 0 :=
  if_pos (Bool.or_eq_true_iff.mpr h)

theorem State.tickSamples_of_due {s : State} {now : F64} (h : flt pZero (s.due now) = true) :
    s.tickSamples now = f64ToNat (fmin (s.due now) cTickCap) := by
  obtain ⟨-, hn, pos⟩ := (flt_iff _ _).mp h
  have hle : fle (s.due now) pZero = false :=
    Bool.eq_false_iff.mpr fun hc => ((fle_iff _ _).mp hc).2.2.not_gt pos
  exact if_neg (by simp [hn, hle])

/-- A NaN at a tick, or one that `lastSampleTime` holds, makes `due` a NaN (R343). -/
theorem State.due_nan {s : State} {now : F64}
    (h : isNaN now = true ∨ isNaN s.chain.lastSampleTime = true) : isNaN (s.due now) = true :=
  ffloor_nan (fmul_nan_left (fdiv_nan_left (fsub_nan h) _) _)

theorem State.tickSamples_nan {s : State} {now : F64}
    (h : isNaN now = true ∨ isNaN s.chain.lastSampleTime = true) : s.tickSamples now = 0 :=
  State.tickSamples_of_not_due (.inl (State.due_nan h))

theorem State.tickSamples_of_cap {s : State} {now : F64} (h : fle cTickCap (s.due now) = true) :
    s.tickSamples now = 2000 := by
  have cap : flt pZero cTickCap = true := by decide
  rw [State.tickSamples_of_due (flt_of_lt_of_le cap h), fmin_of_le cap h]
  exact f64ToNat_of_value (by decide) cap fval_cTickCap

/-- Between the two bounds `due` is the number of samples. -/
theorem State.tickSamples_value {s : State} {now : F64} (pos : flt pZero (s.due now) = true)
    (below : flt (s.due now) cTickCap = true) :
    fval (s.due now) = s.tickSamples now := by
  have fin : isFinite (s.due now) = true := isFinite_of_pos_of_lt (by decide) pos below
  obtain ⟨n, hn⟩ := ffloor_value fin pos
  rw [State.tickSamples_of_due pos, fmin_of_lt below, f64ToNat_of_value fin pos hn]
  exact hn

/-- Settles O22: `due` below the bound is a natural number, and the conversions keep it. -/
theorem tickSampleCount : Obligations.TickSampleCount := by
  intro s now due
  refine ⟨State.tickSamples_of_not_due, State.tickSamples_nan, State.tickSamples_of_cap,
    fun pos below => ?_⟩
  have value : fval due = s.tickSamples now := State.tickSamples_value pos below
  obtain ⟨-, -, lt⟩ := (flt_iff _ _).mp below
  rw [value, fval_cTickCap] at lt
  exact ⟨by exact_mod_cast lt, natToF64_of_value pos value⟩

end Sys2Proof.Machine
end

section
/-!
PROOFS. The sequencer (47_chainrunner.md R272 to R284): SAMPLE register by register, SNAP as the stored views and
then the flag, TICK as repeated samples followed by at most one of a STOP and a snapshot.
-/

namespace Sys2Proof.Machine

-- One declaration at a time, as in Tests: proofs elaborated in parallel each reserve a thread's stack.
set_option Elab.async false

/-! ## SAMPLE (R272) -/

theorem exec_sample {s : State} (h : s.ctl.initialised = true) : exec .sample s = .next s.sampled :=
  State.withInit_true h _ _

/-- A counter below its last value goes up by one, whatever follows the last value (U9, log 7). -/
theorem counter_next {n after : BitVec 64} (h : n.toNat + 1 < 2 ^ 64) :
    (if n = BitVec.allOnes 64 then after else n + 1#64) = n + 1#64 := by
  refine if_neg ?_
  rintro rfl
  simp at h

/-- Settles O20: every register by the lemma that says what a sample writes to it. -/
theorem sampleProduces : Obligations.SampleProduces := by
  intro s h p phi theta reference m carrier clean modulating noise sensor afterBpf mixed i q v
  have vector : s.sampleVector = v := rfl
  refine ⟨s.sampled, exec_sample h, ?_⟩
  refine ⟨s.sampled_chain_v, fun c => ?ring, s.sampled_chain_oscRef, s.sampled_chain_oscMod,
    s.sampled_chain_bpf, s.sampled_chain_lpfI, s.sampled_chain_lpfQ, s.sampled_chain_bank,
    s.sampled_chain_hasSpare, s.sampled_chain_spare, s.sampled_free, s.sampled_chain_iSum,
    s.sampled_chain_qSum, fun hn => ?avgCount, fun hn => ?sampleCount,
    s.sampled_chain_bpfPhaseOffset, s.sampled_chain_lastSampleTime, s.sampled_chain_lastPublishTime,
    s.sampled_build, s.sampled_ctl, s.sampled_params, s.sampled_cons, s.sampled_ports,
    fun a => by rw [s.sampled_shm]⟩
  case ring => exact (s.sampled_rings_get c).trans (by rw [vector]; rfl)
  case avgCount => exact s.sampled_chain_avgCount.trans (counter_next hn)
  case sampleCount => exact s.sampled_chain_sampleCount.trans (counter_next hn)

/-! ## SNAP (R281, R284) -/

/-- The views of a block of an initialised state end inside the region (R341). -/
theorem State.Inv.view_fits {s : State} (h : s.Inv) (hi : s.ctl.initialised = true) (blk : Block)
    (c : Chan) :
    elemAddr s.ctl.snapshotPoints blk c (s.chanView c).length ≤ s.build.shmBytes := by
  have room := h.views hi
  have range := chan_range_le s.ctl.snapshotPoints c
  have len := h.chanView_length_le c
  rw [elemAddr_eq]
  unfold bytesNeeded blockBytes at room
  cases blk with
  | a => simp only [Block.index]; omega
  | b => simp only [Block.index]; omega

/-- A snapshot of such a state completes. -/
theorem State.Inv.exec_snap {s : State} {act : Block} (h : s.Inv) (hi : s.ctl.initialised = true)
    (ha : s.activeBlock = some act) :
    ∃ m, s.storeViews act.other Chan.all s.shm = some m ∧
      exec .snap s = .next (s.published act.other m) := by
  obtain ⟨m, hm⟩ := State.storeViews_total (s := s) (blk := act.other) (m := s.shm)
    fun c (_ : c ∈ Chan.all) => h.view_fits hi act.other c
  refine ⟨m, hm, (State.withInit_true hi _ _).trans ?_⟩
  rw [State.snapshot, State.withFlag_of_active h.room ha, hm]

/-- A publish writes no byte but the flag's after the views are stored. -/
theorem State.published_frame (s : State) (blk : Block) (m : Memory) {a : Nat} (h : 4 ≤ a) :
    memRead (s.published blk m).shm a = memRead m a :=
  memRead_memWrite32_other m (.inr (by omega)) _

theorem State.published_activeBlock (s : State) (blk : Block) (m : Memory) :
    (s.published blk m).activeBlock = some blk :=
  ((s.setShm m).zeroAcc.skipFree _).storeFlag_activeBlock blk

theorem four_le_elemAddr (p : Nat) (blk : Block) (c : Chan) (k : Nat) : 4 ≤ elemAddr p blk c k := by
  rw [elemAddr_eq]
  omega

theorem chanView_get (s : State) (c : Chan) {k : Nat} (hk : k < (s.chanView c).length) :
    (s.chanView c)[k] = ringElem c (s.rings.get c)
      (ringIndex s.params.ringCapacity (s.rings.get c) s.ctl.snapshotPoints k) := by
  simp [State.chanView, ringView]

theorem State.frameOut_of_samples {s : State} (h : s.chain.avgCount ≠ 0#64) :
    s.frameOut = frameOf s.params.phaseShift s.chain.bpfPhaseOffset
      (fdiv s.chain.iSum (natToF64 s.chain.avgCount.toNat))
      (fdiv s.chain.qSum (natToF64 s.chain.avgCount.toNat)) :=
  if_neg h

/-- Settles O21: the views are stored element by element and nothing else is, the flag follows, and the record
carries the outputs of the averages. -/
theorem snapPublishes : Obligations.SnapPublishes := by
  intro s act h hi ha points cap stride count phi iAvg qAvg
  obtain ⟨m, stored, executed⟩ := h.exec_snap hi ha
  have length : ∀ c, (s.chanView c).length = count c := fun c => ringView_length _ _ _ _
  refine ⟨s.published act.other m, s.frameOut.i, s.frameOut.q, s.frameOut.signed, s.frameOut.phase,
    executed, ?outputs, ?elements, ?frame, s.published_activeBlock _ _, rfl, rfl, rfl, rfl, rfl, rfl,
    rfl, rfl⟩
  case outputs =>
    intro samples
    rw [State.frameOut_of_samples samples]
    exact ⟨rfl, rfl, rfl, rfl⟩
  case elements =>
    intro c k hk
    have hlen : k < (s.chanView c).length := (length c).symm ▸ hk
    have four := four_le_elemAddr points act.other c k
    calc memRead32 (s.published act.other m).shm (elemAddr points act.other c k)
        = memRead32 m (elemAddr points act.other c k) :=
          memRead32_congr fun b low _ => s.published_frame _ m (four.trans low)
      _ = (s.chanView c)[k] :=
          State.storeViews_elem stored Chan.all_nodup h.chanView_length_le c c.mem_all k hlen
      _ = _ := chanView_get s c hlen
  case frame =>
    intro a four outside
    calc memRead (s.published act.other m).shm a
        = memRead m a := s.published_frame _ m four
      _ = memRead s.shm a := State.storeViews_frame stored fun c _ => by
          have := outside c
          rw [length]
          change a < elemAddr points act.other c 0 ∨ elemAddr points act.other c (count c) ≤ a
          omega

/-! ## TICK (R280, R283) -/

@[simp] theorem State.tickSampled_ctl (s : State) (now : F64) : (s.tickSampled now).ctl = s.ctl := by
  simp [State.tickSampled]

@[simp] theorem State.tickSampled_ports (s : State) (now : F64) :
    (s.tickSampled now).ports = s.ports := by
  simp [State.tickSampled]

/-- The cadence does not look at what the samples write. -/
theorem State.tickSampled_publishDue (s : State) (now : F64) :
    (s.tickSampled now).publishDue now = s.publishDue now := by
  simp [State.publishDue, State.tickSampled]

theorem exec_stop {s : State} (h : s.ctl.initialised = true) : exec .stop s = .next s.tornDown :=
  State.withInit_true h _ _

/-- A STOP waits behind the tick and the choice lets it cut in (R283, log 17). -/
def State.StopWaits (s : State) : Prop :=
  s.free.choice.stopCut = true ∧ ∃ m l, s.ports.pPort = m :: l ∧ decode .producer m = .ok .stop

theorem toOption_eq_some_iff {e : Except Reject Instr} {i : Instr} : e.toOption = some i ↔ e = .ok i := by
  cases e <;> simp [Except.toOption]

theorem State.stopCuts_iff (s : State) : s.stopCuts = true ↔ s.StopWaits := by
  unfold State.stopCuts State.StopWaits
  cases s.ports.pPort with
  | nil => simp
  | cons m l => simp [toOption_eq_some_iff]

theorem State.tickSampled_stopCuts (s : State) (now : F64) :
    (s.tickSampled now).stopCuts = true ↔ s.StopWaits := by
  have kept : (s.tickSampled now).free.choice = s.free.choice := by simp [State.tickSampled]
  rw [State.stopCuts_iff, State.StopWaits, kept, State.tickSampled_ports]
  rfl

theorem exec_tick {s : State} {now : F64} (hi : s.ctl.initialised = true) (hr : s.ctl.running = true) :
    exec (.tick now) s =
      (if (s.tickSampled now).stopCuts then (s.tickSampled now).stoppedInTick
        else s.tickSampled now).publishPhase now :=
  (State.withInit_true hi _ _).trans (if_pos hr)

/-- A tick that no STOP cuts: the sample phase, then the publish phase (R280). -/
theorem exec_tick_of_not_cut {s : State} {now : F64} (hi : s.ctl.initialised = true)
    (hr : s.ctl.running = true) (cut : ¬ s.StopWaits) :
    exec (.tick now) s = (s.tickSampled now).publishPhase now := by
  rw [exec_tick hi hr, if_neg fun hc => cut ((s.tickSampled_stopCuts now).mp hc)]

/-- A tick that a STOP cuts ends with the STOP (R283). -/
theorem exec_tick_of_cut {s : State} {now : F64} (hi : s.ctl.initialised = true)
    (hr : s.ctl.running = true) (cut : s.StopWaits) :
    exec (.tick now) s = .next (s.tickSampled now).stoppedInTick := by
  rw [exec_tick hi hr, if_pos ((s.tickSampled_stopCuts now).mpr cut),
    State.publishPhase_stoppedInTick]

theorem State.publishPhase_of_not_due {s : State} {now : F64} (h : s.publishDue now = false) :
    s.publishPhase now = .next s :=
  if_neg (by simp [h])

theorem State.publishPhase_of_due {s t : State} {now : F64} (hr : s.ctl.running = true)
    (h : s.publishDue now = true) (e : s.snapshot = .next t) :
    s.publishPhase now = .next (t.setPublishTime now) := by
  unfold State.publishPhase
  rw [if_pos (by simp [hr, h]), e]

/-- Settles O24: the state after the sample phase meets the invariants, so its snapshot completes; what decides
between the cases is what it was before the samples. -/
theorem tickRuns : Obligations.TickRuns := by
  intro s now h hr mid due cut
  have hi : s.ctl.initialised = true := h.lifecycle hr
  have sampled : mid = s.tickSampled now := rfl
  have dueEq : mid.publishDue now = due := s.tickSampled_publishDue now
  have init : mid.ctl.initialised = true := by rw [sampled, State.tickSampled_ctl, hi]
  refine ⟨?notDue, ?publishes, ?nan, ?start, ?stops⟩
  case notDue =>
    intro notCut notDue
    exact (exec_tick_of_not_cut hi hr notCut).trans
      (State.publishPhase_of_not_due (dueEq.trans notDue))
  case publishes =>
    intro notCut isDue
    have inv : mid.Inv := h.tickSampled now
    obtain ⟨act, active⟩ := Option.ne_none_iff_exists'.mp inv.flag
    obtain ⟨m, -, executed⟩ := inv.exec_snap init active
    have snapped : mid.snapshot = .next (mid.published act.other m) :=
      (State.withInit_true init _ _).symm.trans executed
    have running : mid.ctl.running = true := by rw [sampled, State.tickSampled_ctl, hr]
    exact ⟨_, executed, (exec_tick_of_not_cut hi hr notCut).trans
      (State.publishPhase_of_due running (dueEq.trans isDue) snapped)⟩
  case nan =>
    intro nan
    have none : s.tickSamples now = 0 := State.tickSamples_nan nan.symm
    refine ⟨?_, ?_⟩
    · rw [sampled, State.tickSampled_lastSampleTime, State.nextSampleTime_isNaN]
      simpa using nan
    · simp only [mid, none]
      rfl
  case start => exact fun nan => fle_nan_right (fsub_nan (.inr nan)) _
  case stops =>
    intro isCut
    have stopped : exec .stop { mid with ports := { mid.ports with pPort := mid.ports.pPort.tail } } =
        .next mid.stoppedInTick := exec_stop init
    exact ⟨_, stopped, exec_tick_of_cut hi hr isCut⟩

end Sys2Proof.Machine
end

section
/-!
PROOFS. UPDATE (47_chainrunner.md R290 to R293): the list installed, the designs replaced, and where the class of the
update asks for it the reset; what each of the three stages writes is said once, and the statement is read off.
-/

namespace Sys2Proof.Machine

-- One declaration at a time, as in Tests: proofs elaborated in parallel each reserve a thread's stack.
set_option Elab.async false

/-! ## What the records give (R34, R290) -/

theorem validInterferers_isSome_iff (b : Config.Build) (l : List Interferer) :
    (validInterferers b l).isSome = true ↔
      l.length ≤ b.maxInterferers ∧ ∀ i ∈ l, Interferer.numeric i := by
  by_cases h : l.length ≤ b.maxInterferers ∧ ∀ i ∈ l, Interferer.numeric i
  · obtain ⟨short, numeric⟩ := h
    exact iff_of_true (by rw [validInterferers_numeric short numeric]; rfl) ⟨short, numeric⟩
  · exact iff_of_false (by simp [validInterferers_none h]) h

/-- A record gives a list where its list is within the limit and holds no NaN (log 44). -/
theorem givesList_interferers (b : Config.Build) (l : List Interferer) :
    givesList b (.interferers l) = (decide (l.length ≤ b.maxInterferers) &&
      l.all (fun i => !isNaN i.frequency && !isNaN i.amplitude)) := by
  rw [Bool.eq_iff_iff, givesList, validInterferers_isSome_iff]
  simp [Interferer.numeric]

/-! ## The designs (R290) -/

theorem exists_designBPF {f0 fs : F64} (h : invalidCorner f0 fs = false) (bw : F64) (o : FilterOrder) :
    ∃ l, designBPF f0 bw o fs = some l := by
  cases o with
  | one => exact ⟨_, designBPF_one h bw⟩
  | two => exact ⟨_, designBPF_two h bw⟩
  | four => exact ⟨_, designBPF_four h bw⟩

theorem exists_designLPF {fc fs : F64} (h : invalidCorner fc fs = false) (o : FilterOrder) :
    ∃ l, designLPF fc o fs = some l := by
  cases o with
  | one => exact ⟨_, designLPF_one h⟩
  | two => exact ⟨_, designLPF_two h⟩
  | four => exact ⟨_, designLPF_four h⟩

/-- The design that UPDATE loads: a new one where the parameters changed. -/
def designIf (changed : Bool) (d : Option (List Coeffs)) : Option (List Coeffs) :=
  if changed then d else none

theorem redesign_eq {changed : Bool} {d : Option (List Coeffs)} (h : changed = true → ∃ l, d = some l) :
    redesign changed d = some (designIf changed d) := by
  cases changed with
  | false => rfl
  | true =>
    obtain ⟨l, rfl⟩ := h rfl
    rfl

theorem exec_update {s : State} {rs : List ParamRecord} {cand : Params} (hi : s.ctl.initialised = true)
    (hr : s.ctl.running = true)
    (hc : applyRecords s.build s.ctl.snapshotPoints false s.params rs = cand)
    (bpf : bpfChanged s.params cand = true →
      invalidCorner cand.bpfCenterFrequency s.params.sampleRate = false)
    (lpf : lpfChanged s.params cand = true →
      invalidCorner cand.lpfCutoffFrequency s.params.sampleRate = false) :
    exec (.update rs) s = .next (s.updated cand (rs.any (givesList s.build))
      (designIf (bpfChanged s.params cand) (designBPF cand.bpfCenterFrequency cand.bpfBandwidth
        cand.bpfOrder s.params.sampleRate))
      (designIf (lpfChanged s.params cand) (designLPF cand.lpfCutoffFrequency cand.lpfOrder
        s.params.sampleRate))) := by
  refine (State.withInit_true hi _ _).trans ((if_pos hr).trans ?_)
  simp only [hc, redesign_eq fun h => exists_designBPF (bpf h) _ _,
    redesign_eq fun h => exists_designLPF (lpf h) _]

/-! ## The three stages of an update -/

/-- The first stage: the candidate held, the list installed where one was given. -/
def State.listInstalled (s : State) (cand : Params) (given : Bool) : State :=
  if given then (s.setParams cand).install cand.interferers else s.setParams cand

/-- The second stage: the designs replaced. -/
def State.redesigned (s : State) (bpf lpf : Option (List Coeffs)) : State :=
  ((s.replaceIf .bpf bpf).replaceIf .lpfI lpf).replaceIf .lpfQ lpf

/-- The design that each cascade is replaced by. -/
def newDesign (bpf lpf : Option (List Coeffs)) : BqSel → Option (List Coeffs)
  | .bpf => bpf
  | .lpfI => lpf
  | .lpfQ => lpf

section Stages

variable (s : State) (cand : Params) (given : Bool) (bpf lpf : Option (List Coeffs))

theorem State.updated_eq :
    s.updated cand given bpf lpf =
      if resetClass s.params cand (given && !sameFrequencies cand.interferers s.chain.bank) then
        ((s.listInstalled cand given).redesigned bpf lpf).updateReset
      else (s.listInstalled cand given).redesigned bpf lpf := rfl

/-- An installed list writes the bank and the draw position, and holding the candidate the parameters. -/
theorem State.listInstalled_frame :
    s.listInstalled cand given = { s with
      params := cand
      chain := { s.chain with bank := (s.listInstalled cand given).chain.bank }
      free := { s.free with drawPos := (s.listInstalled cand given).free.drawPos } } := by
  cases given with
  | false => rfl
  | true => exact (s.setParams cand).install_frame cand.interferers

theorem State.replaceIf_cascade_same (b : BqSel) (o : Option (List Coeffs)) :
    (s.replaceIf b o).cascade b = o.elim (s.cascade b) (cascadeReplace (s.cascade b)) := by
  cases o with
  | none => rfl
  | some l => exact s.setCascade_cascade_same b _

theorem State.replaceIf_cascade_other {b c : BqSel} (h : c ≠ b) (o : Option (List Coeffs)) :
    (s.replaceIf b o).cascade c = s.cascade c := by
  cases o with
  | none => rfl
  | some l => exact s.setCascade_cascade_other h _

theorem State.redesigned_cascade (c : BqSel) :
    (s.redesigned bpf lpf).cascade c =
      (newDesign bpf lpf c).elim (s.cascade c) (cascadeReplace (s.cascade c)) := by
  unfold State.redesigned
  cases c with
  | bpf =>
    rw [State.replaceIf_cascade_other _ (by decide), State.replaceIf_cascade_other _ (by decide),
      State.replaceIf_cascade_same]
    rfl
  | lpfI =>
    rw [State.replaceIf_cascade_other _ (by decide), State.replaceIf_cascade_same,
      State.replaceIf_cascade_other _ (by decide)]
    rfl
  | lpfQ =>
    rw [State.replaceIf_cascade_same, State.replaceIf_cascade_other _ (by decide),
      State.replaceIf_cascade_other _ (by decide)]
    rfl

theorem State.redesigned_coeffs (c : BqSel) :
    ((s.redesigned bpf lpf).cascade c).map (fun x => x.c) =
      (newDesign bpf lpf c).getD ((s.cascade c).map (fun x => x.c)) := by
  rw [State.redesigned_cascade]
  cases newDesign bpf lpf c with
  | none => rfl
  | some l => exact cascadeReplace_coeffs _ l

/-- The reset zeroes every cascade and keeps its coefficients. -/
theorem State.updateReset_cascade (c : BqSel) : s.updateReset.cascade c = cascadeReset (s.cascade c) := by
  cases c <;> rfl

end Stages

/-! ## The list -/

theorem State.listInstalled_of_same {s : State} {cand : Params}
    (h : sameFrequencies cand.interferers s.chain.bank = true) :
    s.listInstalled cand true =
      (s.setParams cand).setBank (overwriteAmplitudes cand.interferers s.chain.bank) :=
  State.install_of_same h

theorem State.listInstalled_of_different {s : State} {cand : Params}
    (h : ¬ sameFrequencies cand.interferers s.chain.bank = true) :
    s.listInstalled cand true =
      ((s.setParams cand).setBank (rebuiltBank s.free.drawPos cand.interferers)).skipDraws
        cand.interferers.length :=
  State.install_of_different h

/-- A rebuilt bank takes one draw for each interferer, and nothing else moves the draw position. -/
theorem State.listInstalled_free (s : State) (cand : Params) (given : Bool) :
    (s.listInstalled cand given).free = { s.free with drawPos := s.free.drawPos +
      (if given && !sameFrequencies cand.interferers s.chain.bank then cand.interferers.length
        else 0) } := by
  cases given with
  | false => rfl
  | true =>
    by_cases same : sameFrequencies cand.interferers s.chain.bank = true
    · rw [State.listInstalled_of_same same, same]
      rfl
    · rw [State.listInstalled_of_different same, Bool.eq_false_iff.mpr same]
      rfl

/-! ## The whole update -/

section Updated

variable (s : State) (cand : Params) (given : Bool) (bpf lpf : Option (List Coeffs))

theorem State.listInstalled_cascade (c : BqSel) :
    (s.listInstalled cand given).cascade c = s.cascade c := by
  rw [State.listInstalled_frame]
  cases c <;> rfl

/-- The later stages write neither the parameters nor the bank nor the free sequences. -/
theorem State.updated_kept :
    (s.updated cand given bpf lpf).params = cand ∧
      (s.updated cand given bpf lpf).chain.bank = (s.listInstalled cand given).chain.bank ∧
      (s.updated cand given bpf lpf).free = (s.listInstalled cand given).free := by
  have params : (s.listInstalled cand given).params = cand := by rw [State.listInstalled_frame]
  rw [State.updated_eq]
  split <;> simp [State.updateReset, State.redesigned, params]

theorem State.updated_coeffs (c : BqSel) :
    ((s.updated cand given bpf lpf).cascade c).map (fun x => x.c) =
      (newDesign bpf lpf c).getD ((s.cascade c).map (fun x => x.c)) := by
  have replaced := (s.listInstalled cand given).redesigned_coeffs bpf lpf c
  rw [State.listInstalled_cascade] at replaced
  rw [State.updated_eq]
  split
  · rw [State.updateReset_cascade, cascadeReset_coeffs, replaced]
  · exact replaced

/-- An update of class R zeroes what the samples accumulate and computes the phase offset anew (R290, R293). -/
theorem State.updated_of_resetClass
    (h : resetClass s.params cand (given && !sameFrequencies cand.interferers s.chain.bank) = true) :
    (s.updated cand given bpf lpf).chain.iSum = pZero ∧
      (s.updated cand given bpf lpf).chain.qSum = pZero ∧
      (s.updated cand given bpf lpf).chain.avgCount = 0#64 ∧
      (∀ c, ∀ x ∈ (s.updated cand given bpf lpf).cascade c,
        x.x1 = pZero ∧ x.x2 = pZero ∧ x.y1 = pZero ∧ x.y2 = pZero) ∧
      (s.updated cand given bpf lpf).rings = PerChan.ofFn (fun c => ringCleared (s.rings.get c)) ∧
      (s.updated cand given bpf lpf).chain.bpfPhaseOffset =
        phaseOffset cand (((s.updated cand given bpf lpf).cascade .bpf).map (fun x => x.c)) := by
  have params : (s.listInstalled cand given).params = cand := by rw [State.listInstalled_frame]
  have rings : (s.listInstalled cand given).rings = s.rings := by rw [State.listInstalled_frame]
  rw [State.updated_eq, if_pos h]
  refine ⟨rfl, rfl, rfl, fun c x hx => ?cascade, ?rings, ?offset⟩
  case cascade =>
    rw [State.updateReset_cascade] at hx
    obtain ⟨y, -, rfl⟩ := List.mem_map.mp hx
    exact ⟨rfl, rfl, rfl, rfl⟩
  case rings => simp [State.updateReset, State.redesigned, State.clearRings, rings]
  case offset =>
    rw [State.updateReset_cascade, cascadeReset_coeffs]
    simp [State.updateReset, State.redesigned, params]

/-- An update of no reset class loads no design and keeps what the samples accumulate (R290). -/
theorem State.updated_of_not_resetClass
    (h : resetClass s.params cand (given && !sameFrequencies cand.interferers s.chain.bank) = false) :
    s.updated cand given none none = s.listInstalled cand given := by
  rw [State.updated_eq, if_neg (Bool.eq_false_iff.mp h)]
  rfl

end Updated

theorem designs_of_not_resetClass {held cand : Params} {rebuild : Bool}
    (h : resetClass held cand rebuild = false) :
    bpfChanged held cand = false ∧ lpfChanged held cand = false := by
  simp only [resetClass, Bool.or_eq_false_iff] at h
  obtain ⟨⟨⟨-, bpf⟩, lpf⟩, -⟩ := h
  exact ⟨bpf, lpf⟩

theorem some_designIf_getD {changed : Bool} {d : Option (List Coeffs)} {l : List Coeffs}
    (hc : changed = true) (h : changed = true → ∃ l, d = some l) :
    some ((designIf changed d).getD l) = d := by
  obtain ⟨k, rfl⟩ := h hc
  subst hc
  rfl

theorem designIf_unchanged {changed : Bool} (d : Option (List Coeffs)) (hc : changed = false) :
    designIf changed d = none :=
  if_neg (Bool.eq_false_iff.mp hc)

/-- Settles O19: the update is the three stages, and each clause is what one of them writes. -/
theorem updateApplies : Obligations.UpdateApplies := by
  intro s rs hi hr held cand bpfNew lpfNew given rebuild classR validBpf validLpf
  have givenEq : rs.any (givesList s.build) = given := by
    refine congrArg rs.any (funext fun r => ?_)
    cases r with
    | scalar pid w => rfl
    | interferers l => exact givesList_interferers s.build l
  obtain ⟨bpf, hbpf⟩ : ∃ d, d = designIf bpfNew (designBPF cand.bpfCenterFrequency cand.bpfBandwidth
    cand.bpfOrder held.sampleRate) := ⟨_, rfl⟩
  obtain ⟨lpf, hlpf⟩ : ∃ d, d = designIf lpfNew (designLPF cand.lpfCutoffFrequency cand.lpfOrder
    held.sampleRate) := ⟨_, rfl⟩
  have executed : exec (.update rs) s = .next (s.updated cand given bpf lpf) := by
    rw [← givenEq, hbpf, hlpf]
    exact exec_update hi hr rfl validBpf validLpf
  obtain ⟨params, bank, free⟩ := s.updated_kept cand given bpf lpf
  have coeffs := s.updated_coeffs cand given bpf lpf
  refine ⟨_, executed, params, ?noList, ?overwritten, ?rebuilt, ?draws, ?newBpf, ?newLpf, ?oldBpf,
    ?oldLpf, ?reset, ?kept, by simp, by simp, by simp, by simp, by simp, by simp, by simp, by simp,
    by simp, by simp, by simp, by simp, fun a => by simp⟩
  case noList =>
    intro notGiven
    rw [bank, notGiven]
    rfl
  case overwritten =>
    intro isGiven same
    have same : sameFrequencies cand.interferers s.chain.bank = true := by
      simpa [rebuild, isGiven] using same
    rw [bank, isGiven, State.listInstalled_of_same same]
    rfl
  case rebuilt =>
    intro isRebuild
    obtain ⟨isGiven, different⟩ : given = true ∧ _ := Bool.and_eq_true_iff.mp isRebuild
    rw [bank, isGiven, State.listInstalled_of_different (by simpa using different)]
    rfl
  case draws => exact free.trans (s.listInstalled_free cand given)
  case newBpf =>
    intro changed
    rw [← State.cascade_bpf, coeffs, newDesign, hbpf]
    exact some_designIf_getD changed fun h => exists_designBPF (validBpf h) _ _
  case newLpf =>
    intro changed
    rw [← State.cascade_lpfI, ← State.cascade_lpfQ, coeffs, coeffs, newDesign, newDesign, hlpf]
    exact ⟨some_designIf_getD changed fun h => exists_designLPF (validLpf h) _,
      some_designIf_getD changed fun h => exists_designLPF (validLpf h) _⟩
  case oldBpf =>
    intro unchanged
    rw [← State.cascade_bpf, coeffs, newDesign, hbpf, designIf_unchanged _ unchanged]
    rfl
  case oldLpf =>
    intro unchanged
    rw [← State.cascade_lpfI, ← State.cascade_lpfQ, coeffs, coeffs, newDesign, newDesign, hlpf,
      designIf_unchanged _ unchanged]
    exact ⟨rfl, rfl⟩
  case reset => exact State.updated_of_resetClass s cand given bpf lpf
  case kept =>
    intro notReset
    obtain ⟨bpfSame, lpfSame⟩ := designs_of_not_resetClass (held := held) (cand := cand) notReset
    have noBpf : bpf = none := hbpf.trans (designIf_unchanged _ bpfSame)
    have noLpf : lpf = none := hlpf.trans (designIf_unchanged _ lpfSame)
    rw [noBpf, noLpf, State.updated_of_not_resetClass s cand given notReset, State.listInstalled_frame]
    exact ⟨rfl, fun b => by cases b <;> rfl, rfl, rfl, rfl, rfl⟩

end Sys2Proof.Machine
end

section
/-!
PROOFS. The errors and the lifecycle (49_control.md R340 to R345, 60_exceptions.md R380 to R389): each control
operation is one equation per branch, and a refusal is one record on the event port.
-/

namespace Sys2Proof.Machine

-- One declaration at a time, as in Tests: proofs elaborated in parallel each reserve a thread's stack.
set_option Elab.async false

/-! ## What comes before every operation (R382, R388) -/

theorem State.checkOperands_false {s : State} {ok : Bool} (h : ok = false) (op : Opcode) (r : Result) :
    s.checkOperands op ok r = .next (s.raise op.code .illegalCommand) :=
  if_neg (Bool.eq_false_iff.mp h)

/-- Settles O9: the one record that `runMessage` raises. -/
theorem illegalMessageRaises : Obligations.IllegalMessageRaises :=
  fun _ _ s _ rejected => runMessage_of_reject rejected s

/-- Settles O10: four operations check their operands, and that check comes first. -/
theorem illegalOperandRaises : Obligations.IllegalOperandRaises := by
  intro i s illegal
  cases i with
  | init => exact State.checkOperands_false illegal _ _
  | intfInstall => exact State.checkOperands_false illegal _ _
  | bqRepl => exact State.checkOperands_false illegal _ _
  | ringSnap => exact State.checkOperands_false illegal _ _
  | _ => cases illegal

/-- Settles O11: once its operands pass, every operation but two begins with the test of `initialised`. -/
theorem notInitializedRaises : Obligations.NotInitializedRaises := by
  intro i s uninitialised needs legal
  cases i with
  | init => cases needs
  | fftRun => cases needs
  | intfInstall =>
    exact (State.checkOperands_true legal _ _).trans (State.withInit_false uninitialised _ _)
  | bqRepl =>
    exact (State.checkOperands_true legal _ _).trans (State.withInit_false uninitialised _ _)
  | ringSnap =>
    exact (State.checkOperands_true legal _ _).trans (State.withInit_false uninitialised _ _)
  | _ => exact State.withInit_false uninitialised _ _

/-! ## The control operations, branch by branch (R340) -/

section Control

variable {s : State}

theorem exec_init {bytes p : Word} (positive : p ≠ 0#64) (small : p.toNat ≤ s.build.snapMax) :
    exec (.init bytes p) s =
      if s.ctl.running then .next s
      else if min bytes.toNat s.build.shmBytes < bytesNeeded p.toNat then
        .next (s.raise Opcode.init.code .shapeMismatch)
      else .next (s.wired bytes.toNat p.toNat) :=
  State.checkOperands_true (by simp [positive, small]) _ _

theorem exec_init_running {bytes p : Word} (positive : p ≠ 0#64) (small : p.toNat ≤ s.build.snapMax)
    (running : s.ctl.running = true) : exec (.init bytes p) s = .next s :=
  (exec_init positive small).trans (if_pos running)

theorem exec_start_running (hi : s.ctl.initialised = true) (running : s.ctl.running = true) (now : F64)
    (rs : List ParamRecord) : exec (.start now rs) s = .next s :=
  (State.withInit_true hi _ _).trans (if_pos running)

theorem exec_update_idle (hi : s.ctl.initialised = true) (idle : s.ctl.running = false)
    (rs : List ParamRecord) : exec (.update rs) s = .next s :=
  (State.withInit_true hi _ _).trans (if_neg (Bool.eq_false_iff.mp idle))

theorem exec_tick_idle (hi : s.ctl.initialised = true) (idle : s.ctl.running = false) (now : F64) :
    exec (.tick now) s = .next s :=
  (State.withInit_true hi _ _).trans (if_neg (Bool.eq_false_iff.mp idle))

/-- The two outcomes of a START in the idle state (R343, R381). -/
theorem exec_start_idle (hi : s.ctl.initialised = true) (idle : s.ctl.running = false) (now : F64)
    {rs : List ParamRecord} {cand : Params} (hc : startParams s.build s.ctl.snapshotPoints rs = cand) :
    exec (.start now rs) s =
      match designBPF cand.bpfCenterFrequency cand.bpfBandwidth cand.bpfOrder cand.sampleRate,
            designLPF cand.lpfCutoffFrequency cand.lpfOrder cand.sampleRate with
      | some bpf, some lpf => .next (s.started now cand bpf lpf)
      | _, _ => .next (s.raise Opcode.start.code .invalidCorner) := by
  subst hc
  exact (State.withInit_true hi _ _).trans (if_neg (Bool.eq_false_iff.mp idle))

end Control

/-- Settles O12: the four branches that leave the state. -/
theorem lifecycleDrops : Obligations.LifecycleDrops := fun _ hi =>
  ⟨fun running => ⟨fun _ _ positive small => exec_init_running positive small running,
      exec_start_running hi running⟩,
    fun idle => ⟨exec_update_idle hi idle, exec_tick_idle hi idle⟩⟩

/-! ## INIT (R341, R383) -/

theorem bytesNeeded_eq (p : Nat) : bytesNeeded p = 4 + 104 * p := by
  unfold bytesNeeded blockBytes
  omega

/-- Settles O13: the last branch of INIT. -/
theorem initWires : Obligations.InitWires := by
  intro s bytes p positive small idle room
  rw [exec_init positive small, if_neg (Bool.eq_false_iff.mp idle),
    if_neg (by rw [bytesNeeded_eq]; omega), ← idle]
  rfl

/-- Settles O14: the branch of INIT that raises. -/
theorem initRefusesSmallRegion : Obligations.InitRefusesSmallRegion := by
  intro s bytes p positive small idle short
  rw [exec_init positive small, if_neg (Bool.eq_false_iff.mp idle),
    if_pos (by rw [bytesNeeded_eq]; exact short)]
  rfl

/-! ## START (R343) -/

/-- On an empty bank `Install` rebuilds: the empty list is rebuilt without a draw. -/
theorem State.install_of_empty (s : State) (l : List Interferer) :
    (s.setBank []).install l = (s.setBank (rebuiltBank s.free.drawPos l)).skipDraws l.length := by
  cases l with
  | nil => exact State.install_of_same rfl
  | cons i l => exact State.install_of_different Bool.false_ne_true

/-- A cascade loaded at START is the designed sections in the zero state (R343). -/
theorem State.loadZeroed_eq (s : State) (b : BqSel) (l : List Coeffs) :
    s.loadZeroed b l = s.setCascade b (l.map zeroSection) :=
  congrArg (s.setCascade b) (cascadeReset_replace _ _)

/-- Settles O15: the graph as START builds it, the bank and the cascades by their final values. -/
theorem startBuilds : Obligations.StartBuilds := by
  intro s now rs bpf lpf hi idle cand bpfDesigned lpfDesigned
  rw [exec_start_idle (cand := cand) hi idle now (rs := rs) rfl, bpfDesigned, lpfDesigned]
  simp only [State.started, State.loadZeroed_eq, State.install_of_empty]
  simp only [State.setParams, State.setPhase, State.dropSpare, State.setBank, State.skipDraws,
    State.setCascade, State.clearRings, State.zeroAcc, State.setAcc, State.setSampleCount, State.setV,
    State.setOffset, State.setSampleTime, State.setPublishTime, State.setRunning]
  rfl

/-! ## The corner test (R162, R381) -/

theorem invalidCorner_iff (fc fs : F64) : invalidCorner fc fs = true ↔
    isNaN fc = true ∨ fle fc pZero = true ∨ fle (fdiv fs cTwo) fc = true := by
  simp [invalidCorner, or_assoc]

/-- A START with a corner that either design refuses. -/
theorem exec_start_invalidCorner {s : State} (hi : s.ctl.initialised = true)
    (idle : s.ctl.running = false) (now : F64) {rs : List ParamRecord} {cand : Params}
    (hc : startParams s.build s.ctl.snapshotPoints rs = cand)
    (bad : invalidCorner cand.bpfCenterFrequency cand.sampleRate = true ∨
      invalidCorner cand.lpfCutoffFrequency cand.sampleRate = true) :
    exec (.start now rs) s = .next (s.raise Opcode.start.code .invalidCorner) := by
  rw [exec_start_idle hi idle now hc]
  rcases bad with bad | bad
  · obtain ⟨-, -, refused⟩ := designs_of_invalidCorner bad cand.bpfBandwidth cand.bpfOrder
    rw [refused]
  · obtain ⟨refused, -, -⟩ := designs_of_invalidCorner bad cand.bpfBandwidth cand.lpfOrder
    rw [refused]
    cases designBPF cand.bpfCenterFrequency cand.bpfBandwidth cand.bpfOrder cand.sampleRate <;> rfl

/-- An UPDATE while running with a changed filter whose corner the design refuses. -/
theorem exec_update_invalidCorner {s : State} (hi : s.ctl.initialised = true)
    (running : s.ctl.running = true) {rs : List ParamRecord} {cand : Params}
    (hc : applyRecords s.build s.ctl.snapshotPoints false s.params rs = cand)
    (bad : (bpfChanged s.params cand = true ∧
        invalidCorner cand.bpfCenterFrequency s.params.sampleRate = true) ∨
      (lpfChanged s.params cand = true ∧
        invalidCorner cand.lpfCutoffFrequency s.params.sampleRate = true)) :
    exec (.update rs) s = .next (s.raise Opcode.update.code .invalidCorner) := by
  refine (State.withInit_true hi _ _).trans ((if_pos running).trans ?_)
  simp only [hc]
  rcases bad with ⟨changed, bad⟩ | ⟨changed, bad⟩
  · obtain ⟨-, -, refused⟩ := designs_of_invalidCorner bad cand.bpfBandwidth cand.bpfOrder
    rw [refused, changed]
    rfl
  · obtain ⟨refused, -, -⟩ := designs_of_invalidCorner bad cand.bpfBandwidth cand.lpfOrder
    rw [refused, changed]
    cases redesign (bpfChanged s.params cand) (designBPF cand.bpfCenterFrequency cand.bpfBandwidth
      cand.bpfOrder s.params.sampleRate) <;> rfl

/-- Settles O17: a refused design is the error branch of START and of UPDATE. -/
theorem invalidCornerRefuses : Obligations.InvalidCornerRefuses := by
  intro s now rs hi bad
  simp only [bad, ← invalidCorner_iff]
  exact ⟨fun idle refused => exec_start_invalidCorner hi idle now rfl refused,
    fun running refused => exec_update_invalidCorner hi running rfl refused⟩

/-! ## STOP (R345) -/

/-- Settles O18: the teardown, register by register. -/
theorem stopTearsDown : Obligations.StopTearsDown := by
  intro s hi
  rw [exec_stop hi]
  rfl

end Sys2Proof.Machine
end

section
/-!
PROOFS. The trigger detector (48_trigger_fft.md R311 to R316): the search finds the least index of a list of tests, and
the caller's procedure keeps the trigger or searches.
-/

namespace Sys2Proof.Machine

-- One declaration at a time, as in Tests: proofs elaborated in parallel each reserve a thread's stack.
set_option Elab.async false

/-! ## The search (R311) -/

/-- A search of the numbers below `n` stops at the least one that answers. -/
theorem findSome?_range_eq_some_iff {α : Type} {f : Nat → Option α} {n : Nat} {a : α} :
    (List.range n).findSome? f = some a ↔ ∃ i, i < n ∧ f i = some a ∧ ∀ j, j < i → f j = none := by
  induction n with
  | zero => simp
  | succ n ih =>
    rw [List.range_succ, List.findSome?_append, Option.or_eq_some_iff, ih]
    constructor
    · rintro (⟨i, hi, found, first⟩ | ⟨none, found⟩)
      · exact ⟨i, by omega, found, first⟩
      · rw [List.findSome?_eq_none_iff] at none
        exact ⟨n, by omega, by simpa using found, fun j hj => none j (List.mem_range.mpr hj)⟩
    · rintro ⟨i, hi, found, first⟩
      rcases Nat.lt_or_eq_of_le (Nat.le_of_lt_succ hi) with hi | rfl
      · exact .inl ⟨i, hi, found, first⟩
      · refine .inr ⟨?_, by simpa using found⟩
        exact List.findSome?_eq_none_iff.mpr fun j hj => first j (List.mem_range.mp hj)

/-- The test at index `i`: the time in the closed window and an upward crossing of the threshold (R311). -/
def Crossing (channel time : List F64) (len : Nat) (t tStart tEnd : F64) (i : Nat) : Prop :=
  1 ≤ i ∧ i < len ∧ fle tStart (time.getD i pZero) = true ∧ fle (time.getD i pZero) tEnd = true ∧
    flt (channel.getD (i - 1) pZero) t = true ∧ fle t (channel.getD i pZero) = true

/-- What the search answers at the position before index `j + 1`. -/
def crossingAt (channel time : List F64) (t tStart tEnd : F64) (j : Nat) : Option (Nat × F64) :=
  if fle tStart (time.getD (j + 1) pZero) && fle (time.getD (j + 1) pZero) tEnd &&
      flt (channel.getD j pZero) t && fle t (channel.getD (j + 1) pZero) then
    some (j + 1, time.getD (j + 1) pZero)
  else none

section Search

variable {channel time : List F64} {len : Nat} {t tStart tEnd : F64}

theorem trigSearch_eq : trigSearch channel time len t tStart tEnd =
    (List.range (len - 1)).findSome? (crossingAt channel time t tStart tEnd) := rfl

theorem Crossing.exists_pred {i : Nat} (h : Crossing channel time len t tStart tEnd i) :
    ∃ j, j < len - 1 ∧ i = j + 1 := by
  obtain ⟨positive, inside, -⟩ := h
  exact ⟨i - 1, by omega, by omega⟩

theorem crossingAt_eq_some_iff {j : Nat} {r : Nat × F64} (h : j < len - 1) :
    crossingAt channel time t tStart tEnd j = some r ↔
      Crossing channel time len t tStart tEnd (j + 1) ∧ r = (j + 1, time.getD (j + 1) pZero) := by
  simp [crossingAt, Crossing, and_assoc, eq_comm (a := r), show j + 1 < len by omega]

theorem crossingAt_eq_none_iff {j : Nat} (h : j < len - 1) :
    crossingAt channel time t tStart tEnd j = none ↔
      ¬ Crossing channel time len t tStart tEnd (j + 1) := by
  rw [Option.eq_none_iff_forall_ne_some]
  simp [crossingAt_eq_some_iff h]

/-- No index below `i` crosses where no position before it answers. -/
theorem no_crossing_below_iff {i : Nat} (h : i < len) :
    (∀ k, k < i → ¬ Crossing channel time len t tStart tEnd k) ↔
      ∀ j, j < i - 1 → crossingAt channel time t tStart tEnd j = none := by
  constructor
  · intro none j hj
    exact (crossingAt_eq_none_iff (by omega)).mpr (none (j + 1) (by omega))
  · intro none k hk crossing
    obtain ⟨j, hj, rfl⟩ := crossing.exists_pred
    exact (crossingAt_eq_none_iff hj).mp (none j (by omega)) crossing

theorem trigSearch_eq_some_iff {i : Nat} {ti : F64} :
    trigSearch channel time len t tStart tEnd = some (i, ti) ↔
      Crossing channel time len t tStart tEnd i ∧
        (∀ k, k < i → ¬ Crossing channel time len t tStart tEnd k) ∧ ti = time.getD i pZero := by
  rw [trigSearch_eq, findSome?_range_eq_some_iff]
  constructor
  · rintro ⟨j, hj, found, first⟩
    obtain ⟨crossing, pair⟩ := (crossingAt_eq_some_iff hj).mp found
    obtain ⟨rfl, rfl⟩ := Prod.mk.inj pair
    exact ⟨crossing, (no_crossing_below_iff (by omega)).mpr first, rfl⟩
  · rintro ⟨crossing, none, rfl⟩
    obtain ⟨j, hj, rfl⟩ := crossing.exists_pred
    exact ⟨j, hj, (crossingAt_eq_some_iff hj).mpr ⟨crossing, rfl⟩,
      (no_crossing_below_iff (by omega)).mp none⟩

theorem trigSearch_eq_none_iff : trigSearch channel time len t tStart tEnd = none ↔
    ∀ i, ¬ Crossing channel time len t tStart tEnd i := by
  rw [trigSearch_eq, List.findSome?_eq_none_iff]
  simp only [List.mem_range]
  constructor
  · intro none i crossing
    obtain ⟨j, hj, rfl⟩ := crossing.exists_pred
    exact (crossingAt_eq_none_iff hj).mp (none j hj) crossing
  · exact fun none j hj => (crossingAt_eq_none_iff hj).mpr (none (j + 1))

end Search

/-- Settles O55: the least index whose position answers is the first crossing. -/
theorem trigSearchFindsFirst : Obligations.TrigSearchFindsFirst :=
  fun _ _ _ _ _ _ => ⟨fun _ _ => trigSearch_eq_some_iff, trigSearch_eq_none_iff⟩

/-! ## The caller's procedure (R313 to R316) -/

/-- The trigger found in the window of R316. -/
def windowSearch (channel time : List F64) (len : Nat) (t first last w : F64) : Option (Nat × F64) :=
  trigSearch channel time len t (searchWindow first last w).1 (searchWindow first last w).2

/-- The two forms of the window: the first tenth of a short buffer, else all but the last `w`. -/
theorem windowSearch_eq (channel time : List F64) (len : Nat) (t first last w : F64) :
    windowSearch channel time len t first last w =
      if flt (fsub last first) w then
        trigSearch channel time len t first (fadd first (fmul cTenth (fsub last first)))
      else trigSearch channel time len t first (fsub last w) := by
  by_cases short : flt (fsub last first) w = true
  · simp [windowSearch, searchWindow, short]
  · simp [windowSearch, searchWindow, short]

/-- A trigger found is stored; where none is found the registers stay. -/
def Consumer.store (c : Consumer) : Option (Nat × F64) → Consumer
  | some r => { c with trigValid := true, trigIndex := r.1, trigTime := r.2 }
  | none => c

theorem Consumer.search_eq (c : Consumer) (channel time : List F64) (len : Nat) (t first last w : F64) :
    c.search channel time len t first last w =
      c.store (windowSearch channel time len t first last w) := rfl

/-- The held trigger is valid on a timeline that has not gone backward, and in holdoff or still inside the
snapshot (R314, R315). -/
def Consumer.Keeps (c : Consumer) (first last w : F64) : Prop :=
  c.trigValid = true ∧ flt last c.trigPrevLatest = false ∧
    (flt last (fadd c.trigTime w) = true ∨ fle first c.trigTime = true)

section Update

variable {c : Consumer} {channel time : List F64} {len : Nat} {t timeScale : F64}

theorem Consumer.triggerUpdate_of_short (h : len < 2) :
    c.triggerUpdate channel time len t timeScale = c := if_pos h

theorem Consumer.triggerUpdate_of_keeps (h : 2 ≤ len)
    (keeps : c.Keeps (time.getD 0 pZero) (time.getD (len - 1) pZero) (displayWindow timeScale)) :
    c.triggerUpdate channel time len t timeScale =
      { c with trigPrevLatest := time.getD (len - 1) pZero } := by
  obtain ⟨valid, forward, holdoff⟩ := keeps
  rw [Consumer.triggerUpdate, if_neg (by omega)]
  simp only [forward, valid, if_true, Bool.false_eq_true, if_false]
  split
  · rfl
  · rename_i elapsed
    exact if_pos (holdoff.resolve_left elapsed)

theorem Consumer.triggerUpdate_of_not_keeps (h : 2 ≤ len)
    (drops : ¬ c.Keeps (time.getD 0 pZero) (time.getD (len - 1) pZero) (displayWindow timeScale)) :
    c.triggerUpdate channel time len t timeScale =
      Consumer.store { c with trigPrevLatest := time.getD (len - 1) pZero, trigValid := false }
        (windowSearch channel time len t (time.getD 0 pZero) (time.getD (len - 1) pZero)
          (displayWindow timeScale)) := by
  rw [← Consumer.search_eq, Consumer.triggerUpdate, if_neg (by omega)]
  simp only
  cases backward : flt (time.getD (len - 1) pZero) c.trigPrevLatest with
  | true => rfl
  | false =>
    cases valid : c.trigValid with
    | false => rfl
    | true =>
      have lapsed := fun holdoff => drops ⟨valid, backward, holdoff⟩
      simp only [Bool.false_eq_true, if_false, if_true]
      rw [if_neg fun early => lapsed (.inl early), if_neg fun inside => lapsed (.inr inside)]

end Update

/-- Settles O56: the three cases of the procedure. -/
theorem triggerHoldoff : Obligations.TriggerHoldoff := by
  intro c channel time len t timeScale first last w kept found
  refine ⟨Consumer.triggerUpdate_of_short, Consumer.triggerUpdate_of_keeps, fun long drops => ?_⟩
  refine (Consumer.triggerUpdate_of_not_keeps long drops).trans ?_
  have same : windowSearch channel time len t first last w = found := windowSearch_eq _ _ _ _ _ _ _
  rw [show displayWindow timeScale = w from rfl, same]
  cases found <;> rfl

end Sys2Proof.Machine
end

section
/-!
PROOFS. The spectrum (48_trigger_fft.md R320 to R326): the length rule, the bit-reversal permutation as a list of
exchanges, and the two operations as one transform of their samples.
-/

namespace Sys2Proof.Machine

-- One declaration at a time, as in Tests: proofs elaborated in parallel each reserve a thread's stack.
set_option Elab.async false

/-! ## The length rule (R320) -/

theorem fftBits_of_short {len : Nat} (h : len < 64) : fftBits len = none := if_pos h

/-- From 64 samples on the exponent is that of the power of two at or next below the limit. -/
theorem exists_fftBits {len : Nat} (h : 64 ≤ len) :
    ∃ b, fftBits len = some b ∧ 2 ^ b ≤ min len 1024 ∧ min len 1024 < 2 ^ (b + 1) := by
  unfold fftBits
  rw [if_neg (by omega)]
  split
  · exact ⟨6, rfl, by omega, by omega⟩
  · split
    · exact ⟨7, rfl, by omega, by omega⟩
    · split
      · exact ⟨8, rfl, by omega, by omega⟩
      · split
        · exact ⟨9, rfl, by omega, by omega⟩
        · exact ⟨10, rfl, by omega, by omega⟩

/-- Settles O48: no power of two lies between `2 ^ b` and `2 ^ (b + 1)`. -/
theorem fftLength : Obligations.FftLength := by
  refine fun len => ⟨fftBits_of_short, fun h => ?_⟩
  obtain ⟨b, hb, low, high⟩ := exists_fftBits h
  refine ⟨b, hb, low, fun k hk => ?_⟩
  have below : k < b + 1 := (Nat.pow_lt_pow_iff_right (by decide)).mp (hk.trans_lt high)
  exact Nat.pow_le_pow_right (by decide) (by omega)

/-! ## The reversal of bits (R322) -/

theorem revBits_lt (b : Nat) : ∀ i, revBits b i < 2 ^ b := by
  induction b with
  | zero => intro i; simp [revBits]
  | succ b ih =>
    intro i
    have tail := ih (i / 2)
    have head : i % 2 * 2 ^ b ≤ 1 * 2 ^ b := Nat.mul_le_mul_right _ (by omega)
    rw [revBits, Nat.pow_succ]
    omega

theorem testBit_revBits {b j : Nat} : ∀ {i}, j < b → (revBits b i).testBit j = i.testBit (b - 1 - j) := by
  induction b with
  | zero => intro i h; omega
  | succ b ih =>
    intro i h
    rw [revBits, Nat.mul_comm, Nat.testBit_two_pow_mul_add _ (revBits_lt b _)]
    split
    · rename_i low
      rw [ih low, Nat.testBit_div_two]
      congr 1
      omega
    · obtain rfl : j = b := by omega
      simp [Nat.testBit_zero]

theorem revBits_revBits {b i : Nat} (h : i < 2 ^ b) : revBits b (revBits b i) = i := by
  refine Nat.eq_of_testBit_eq fun j => ?_
  by_cases inside : j < b
  · rw [testBit_revBits inside, testBit_revBits (by omega)]
    congr 1
    omega
  · have wide : 2 ^ b ≤ 2 ^ j := Nat.pow_le_pow_right (by decide) (by omega)
    rw [Nat.testBit_lt_two_pow ((revBits_lt b _).trans_le wide),
      Nat.testBit_lt_two_pow (h.trans_le wide)]

/-! ## The exchanges (R322) -/

@[simp] theorem swapAt_length (l : List F64) (i j : Nat) : (swapAt l i j).length = l.length := by
  simp [swapAt]

theorem swapAt_getElem? {l : List F64} {i j : Nat} (hi : i < l.length) (hj : j < l.length) (k : Nat) :
    (swapAt l i j)[k]? = if k = j then l[i]? else if k = i then l[j]? else l[k]? := by
  rcases eq_or_ne k j with rfl | hkj
  · simp [swapAt, hi, hj]
  · rcases eq_or_ne k i with rfl | hki
    · simp [swapAt, hi, hj, hkj, hkj.symm]
    · simp [swapAt, hkj, hkj.symm, hki, hki.symm]

/-- The exchanges at the positions below `m`, on one list. -/
def exchanged (r : Nat → Nat) (m : Nat) (l : List F64) : List F64 :=
  (List.range m).foldl (fun l i => if i < r i then swapAt l i (r i) else l) l

theorem exchanged_succ (r : Nat → Nat) (m : Nat) (l : List F64) :
    exchanged r (m + 1) l = if m < r m then swapAt (exchanged r m l) m (r m) else exchanged r m l := by
  simp [exchanged, List.range_succ]

@[simp] theorem exchanged_length (r : Nat → Nat) (m : Nat) (l : List F64) :
    (exchanged r m l).length = l.length := by
  induction m with
  | zero => rfl
  | succ m ih => rw [exchanged_succ]; split <;> simp [ih]

/-- Both work arrays go through the same exchanges. -/
theorem bitReverse_eq (b : Nat) (w : Work) :
    bitReverse b w = ⟨exchanged (revBits b) (2 ^ b) w.re, exchanged (revBits b) (2 ^ b) w.im⟩ := by
  unfold bitReverse
  generalize 2 ^ b = m
  induction m with
  | zero => rfl
  | succ m ih =>
    rw [List.range_succ, List.foldl_append, ih, exchanged_succ, exchanged_succ]
    simp only [List.foldl_cons, List.foldl_nil]
    split <;> rfl

/-- Where `r` is its own inverse, each pair is exchanged once, at its smaller member. -/
theorem exchanged_getElem? {r : Nat → Nat} {n : Nat} {l : List F64} (hl : l.length = n)
    (inside : ∀ i, i < n → r i < n) (inverse : ∀ i, i < n → r (r i) = i) {m : Nat} (hm : m ≤ n) {i : Nat}
    (hi : i < n) : (exchanged r m l)[i]? = if min i (r i) < m then l[r i]? else l[i]? := by
  induction m generalizing i with
  | zero => rfl
  | succ m ih =>
    have back := inverse m (by omega)
    have back' := inverse i hi
    have rest := ih (by omega) hi
    rw [exchanged_succ]
    split
    · rename_i up
      have here : (exchanged r m l)[m]? = l[m]? := (ih (by omega) (by omega)).trans (if_neg (by omega))
      have there : (exchanged r m l)[r m]? = l[r m]? :=
        (ih (by omega) (inside m (by omega))).trans (if_neg (by omega))
      rw [swapAt_getElem? (by simp; omega) (by simpa [hl] using inside m (by omega)), here, there, rest]
      split
      · rename_i upper
        rw [upper, back, if_pos (by omega)]
      · split
        · rename_i lower
          rw [lower, if_pos (by omega)]
        · have apart : r i ≠ m := fun eq => by rw [eq] at back'; omega
          have same : min i (r i) < m ↔ min i (r i) < m + 1 := by omega
          simp only [same]
    · rename_i down
      rw [rest]
      by_cases new : min i (r i) = m
      · have fixed : r i = i := by
          rcases Nat.le_total i (r i) with le | le
          · obtain rfl : i = m := by omega
            omega
          · have eq : r i = m := by omega
            rw [eq] at back'
            omega
        simp [fixed]
      · have same : min i (r i) < m ↔ min i (r i) < m + 1 := by omega
        simp only [same]

theorem bitReverse_getElem? {b : Nat} {w : Work} (hre : w.re.length = 2 ^ b) (him : w.im.length = 2 ^ b)
    {i : Nat} (hi : i < 2 ^ b) :
    (bitReverse b w).re[i]? = w.re[revBits b i]? ∧ (bitReverse b w).im[i]? = w.im[revBits b i]? := by
  have inside : ∀ i, i < 2 ^ b → revBits b i < 2 ^ b := fun i _ => revBits_lt b i
  have inverse : ∀ i, i < 2 ^ b → revBits b (revBits b i) = i := fun i => revBits_revBits
  have reached : min i (revBits b i) < 2 ^ b := by omega
  rw [bitReverse_eq]
  simp only [exchanged_getElem? hre inside inverse le_rfl hi,
    exchanged_getElem? him inside inverse le_rfl hi, if_pos reached, and_self]

/-- Settles O50: the bits of `rev(i)`, and the exchanges of an involution. -/
theorem bitReversalPermutes : Obligations.BitReversalPermutes := fun b _ hre him i hi =>
  ⟨revBits_lt b i, fun _ hj => testBit_revBits hj, revBits_revBits hi, bitReverse_getElem? hre him hi⟩

/-! ## The transform (R321, R323) -/

theorem loadWork_length {n : Nat} {x : List F64} (h : n ≤ x.length) :
    (loadWork n x).re.length = n ∧ (loadWork n x).im.length = n := by
  simp [loadWork]
  omega

theorem loadWork_getElem? {n : Nat} {x : List F64} (h : n ≤ x.length) {k : Nat} (hk : k < n) :
    (loadWork n x).re[k]? = some (fmul (x.getD (x.length - n + k) pZero) (hann n k)) ∧
      (loadWork n x).im[k]? = some pZero := by
  have inside : x.length - n + k < x.length := by omega
  simp [loadWork, List.getElem?_zipWith, hk, inside, List.getD_eq_getElem?_getD]

/-- The butterfly loop with half of each group written as a power (R323). -/
theorem fftLoop_eq (b : Nat) (w : Work) :
    fftLoop b w = (List.range b).foldl (fun w j => (List.range (2 ^ b / 2 ^ (j + 1))).foldl (fun w g =>
      (List.range (2 ^ j)).foldl (butterfly (2 ^ (j + 1)) (g * 2 ^ (j + 1))) w) w) w := by
  have half : ∀ j, 2 ^ (j + 1) / 2 = 2 ^ j := fun j => by rw [Nat.pow_succ]; omega
  simp only [fftLoop, fftPass, half]

theorem butterfly_eq (j start : Nat) : butterfly (2 ^ (j + 1)) start = fun w k =>
    let ang := fdiv (fmul (fneg cTwoPi) (natToF64 k)) (natToF64 (2 ^ (j + 1)))
    let lo := start + k
    let hi := lo + 2 ^ j
    let tr := fsub (fmul (w.re.getD hi pZero) (numCos ang)) (fmul (w.im.getD hi pZero) (numSin ang))
    let ti := fadd (fmul (w.re.getD hi pZero) (numSin ang)) (fmul (w.im.getD hi pZero) (numCos ang))
    { re := (w.re.set hi (fsub (w.re.getD lo pZero) tr)).set lo (fadd (w.re.getD lo pZero) tr)
      im := (w.im.set hi (fsub (w.im.getD lo pZero) ti)).set lo (fadd (w.im.getD lo pZero) ti) } := by
  have half : 2 ^ (j + 1) / 2 = 2 ^ j := by rw [Nat.pow_succ]; omega
  funext w k
  simp only [butterfly, half]

/-! ## FFT.RUN (R324, R325) -/

theorem exec_fftRun (fs : F64) (x : List F64) (s : State) :
    exec (.fftRun fs x) s = .next (s.runSpectrum .fftRun 0#8 fs x) := rfl

theorem State.runSpectrum_of_none {x : List F64} (h : fftBits x.length = none) (s : State) (op : Opcode)
    (sel : BitVec 8) (fs : F64) : s.runSpectrum op sel fs x = s.respond op sel [0#64] := by
  simp [State.runSpectrum, h]

theorem State.runSpectrum_of_some {x : List F64} {b : Nat} (h : fftBits x.length = some b) (s : State)
    (op : Opcode) (sel : BitVec 8) (fs : F64) :
    s.runSpectrum op sel fs x = (s.setWork (2 ^ b) (transform b x)).respond op sel
      (spectrumWords (2 ^ b) fs (transform b x)) := by
  simp [State.runSpectrum, h]

/-- Settles O49: the loaded arrays, the loop, and the response with the arrays stored. -/
theorem fftRunResponds : Obligations.FftRunResponds := by
  intro s fs x
  constructor
  · intro short
    rw [exec_fftRun, State.runSpectrum_of_none (fftBits_of_short short)]
    rfl
  · intro b hb n w load
    obtain ⟨-, enough⟩ := fftBits_le hb
    obtain ⟨re, im⟩ := transform_length enough
    obtain ⟨loadRe, loadIm⟩ := loadWork_length enough
    refine ⟨re, im, loadRe, loadIm, fun k => loadWork_getElem? enough, ?loop, ?response⟩
    case loop =>
      refine (fftLoop_eq b (bitReverse b load)).trans ?_
      simp only [butterfly_eq]
      rfl
    case response =>
      rw [exec_fftRun, State.runSpectrum_of_some hb]
      rfl

/-! ## FFT.CHAN without overlap (R326) -/

/-- A spectrum appends one response of its operation and selector; the payload depends on the rate and the
samples alone, and no other stream changes (R324). -/
theorem runSpectrum_ports (fs : F64) (x : List F64) : ∃ payload, ∀ (s : State) (op : Opcode)
    (sel : BitVec 8), op.port = .consumer → (s.runSpectrum op sel fs x).ports =
      { s.ports with cResp := s.ports.cResp ++ [⟨op.code, sel, payload⟩] } := by
  unfold State.runSpectrum
  split
  · exact ⟨_, fun s op sel hp => by rw [State.respond, hp]⟩
  · exact ⟨_, fun s op sel hp => by rw [State.respond, hp]; rfl⟩

/-- With no content left from before, the samples are the elements that the region holds. -/
theorem State.taskSamples_acquired {s : State} {t : ChanTask} (acquired : s.free.view.past = [])
    (placed : t.relaid = false) (inside : t.addr + 4 * t.len ≤ s.build.shmBytes) :
    s.taskSamples t = (List.range t.len).map (fun k => f32ToF64 (memRead32 s.shm (t.addr + 4 * k))) := by
  refine List.map_congr_left fun k hk => ?_
  have below := List.mem_range.mp hk
  rw [State.taskElem, placed, State.racedElem_of_inside (by omega), State.racedWord_acquired acquired]

/-- Settles O52: the acquired samples beside FFT.RUN of the same list. -/
theorem fftChanReadsActiveBlock : Obligations.FftChanReadsActiveBlock := by
  intro s act c hi hr ha alone placed inside x
  obtain ⟨payload, response⟩ := runSpectrum_ports s.cons.effRate x
  have samples : s.acquireLoad.taskSamples (s.acquireLoad.newTask c act) = x :=
    State.taskSamples_acquired rfl placed inside
  have executed : exec (.fftChan c) s =
      .next (((s.acquireLoad.readRun (chanBase s.ctl.snapshotPoints act c) s.cons.dataLen).endTask
        ).runSpectrum .fftChan c.code s.cons.effRate x) := by
    rw [← samples]
    refine (execFftChan_active c hi hr ha).trans ?_
    rw [if_neg (Bool.eq_false_iff.mp alone)]
    rfl
  refine ⟨_, _, payload, executed, exec_fftRun _ _ _, response s .fftRun 0#8 rfl,
    response _ .fftChan c.code rfl, ?registers, ?frame⟩
  case registers => exact runSpectrum_cons (by rfl) _ _ _ _ _ _
  case frame => simp [State.endTask, State.readRun, State.acquireLoad]

end Sys2Proof.Machine
end

section
/-!
PROOFS. The floor of the magnitudes (48_trigger_fft.md R324, R325, 60_exceptions.md R384): finite operands below a power
of two in magnitude give finite results, so no window factor and no twiddle factor is infinite, and zeros stay zeros
through the transform.
-/

namespace Sys2Proof

-- One declaration at a time, as in Tests: proofs elaborated in parallel each reserve a thread's stack.
set_option Elab.async false

/-! ## Signed values -/

theorem abs_fval (x : F64) : |fval x| = magValue (magBits x) := by
  have nonneg := magValue_nonneg (magBits x)
  unfold fval
  split
  · rw [abs_neg, abs_of_nonneg nonneg]
  · exact abs_of_nonneg nonneg

theorem abs_sval (n : Bool) (m : Nat) (e : Int) : |sval n m e| = m * 2 ^ e := by
  have nonneg : (0 : ℚ) ≤ m * 2 ^ e := by positivity
  unfold sval
  split
  · rw [abs_neg, abs_of_nonneg nonneg]
  · exact abs_of_nonneg nonneg

theorem magBits_fneg (x : F64) : magBits (fneg x) = magBits x := by
  unfold magBits fneg
  rw [BitVec.toNat_xor, Nat.xor_mod_two_pow]
  exact Nat.xor_zero _

theorem isFinite_fneg (x : F64) : isFinite (fneg x) = isFinite x := by
  unfold isFinite
  rw [magBits_fneg]

/-! ## The operations on finite operands (R11) -/

/-- The product of two finite numbers is their exact product, rounded once. -/
theorem fmul_finite {a b : F64} (ha : isFinite a = true) (hb : isFinite b = true) :
    ∃ n m e, fmul a b = pack n m e ∧ sval n m e = fval a * fval b := by
  obtain ⟨m, e, hua, hva, -, -⟩ := unpack_finite ha
  obtain ⟨n, f, hub, hvb, -, -⟩ := unpack_finite hb
  refine ⟨signBit a ^^ signBit b, m * n, e + f, by simp only [fmul, hua, hub, mulVal, Option.getD_some], ?_⟩
  have product : ((m * n : Nat) : ℚ) * 2 ^ (e + f) = magValue (magBits a) * magValue (magBits b) := by
    rw [← hva, ← hvb, zpow_add₀ (by norm_num)]
    push_cast
    ring
  unfold sval fval
  rw [product]
  cases signBit a <;> cases signBit b <;> simp

/-- What rounds to the quotient of two finite numbers is at most twice the exact quotient. -/
theorem fdiv_finite {a b : F64} (ha : isFinite a = true) (hb : isFinite b = true) (h0 : magBits b ≠ 0) :
    ∃ n m e, fdiv a b = pack n m e ∧
      (m : ℚ) * 2 ^ e * magValue (magBits b) ≤ 2 * magValue (magBits a) := by
  obtain ⟨m, e, hua, hva, -, -⟩ := unpack_finite ha
  obtain ⟨n, f, hub, hvb, hn, -⟩ := unpack_finite hb
  have positive : n ≠ 0 := by
    rintro rfl
    have : magValue (magBits b) ≤ magValue 0 := by rw [← hvb, magValue_zero]; simp
    have := magValue_le_iff.mp this
    omega
  obtain ⟨sticky, hs⟩ : ∃ c, c = if m * 2 ^ 110 % n = 0 then 0 else 1 := ⟨_, rfl⟩
  refine ⟨signBit a ^^ signBit b, 2 * (m * 2 ^ 110 / n) + sticky, e - f - 111, ?_, ?_⟩
  · rw [fdiv, hua, hub, hs]
    simp only [divVal, if_neg positive, Option.getD_some]
  · have floor : m * 2 ^ 110 / n * n ≤ m * 2 ^ 110 := Nat.div_mul_le_self _ _
    have cut : sticky * n ≤ m * 2 ^ 111 := by
      rw [hs]
      split
      · omega
      · rename_i rest
        have : m ≠ 0 := by rintro rfl; simp at rest
        omega
    have total : (2 * (m * 2 ^ 110 / n) + sticky) * n ≤ m * 2 ^ 112 := by
      rw [Nat.add_mul, Nat.mul_assoc]
      omega
    have scale : (2 : ℚ) ^ (e - f - 111) * 2 ^ f = 2 ^ e / 2 ^ 111 := by
      rw [← zpow_add₀ (by norm_num), show e - f - 111 + f = e - (111 : Nat) by push_cast; omega,
        zpow_sub₀ (by norm_num), zpow_natCast]
    rw [← hva, ← hvb]
    calc ((2 * (m * 2 ^ 110 / n) + sticky : Nat) : ℚ) * 2 ^ (e - f - 111) * (n * 2 ^ f)
        = (((2 * (m * 2 ^ 110 / n) + sticky) * n : Nat) : ℚ) * (2 ^ (e - f - 111) * 2 ^ f) := by
          push_cast; ring
      _ ≤ ((m * 2 ^ 112 : Nat) : ℚ) * (2 ^ (e - f - 111) * 2 ^ f) := by gcongr
      _ = 2 * (m * 2 ^ e) := by rw [scale]; push_cast; ring

/-- A difference of finite numbers is the sum with the negated one. -/
theorem fsub_finite {a b : F64} (ha : isFinite a = true) (hb : isFinite b = true) :
    fsub a b = fadd a (fneg b) := by
  obtain ⟨m, e, hua, -⟩ := unpack_finite ha
  obtain ⟨n, f, hub, -⟩ := unpack_finite (show isFinite (fneg b) = true by rwa [isFinite_fneg])
  unfold fsub fadd
  rw [hua, hub]
  simp only [addVal]
  split <;> simp only [Option.getD_some]

theorem fmul_nan_right (a : F64) {b : F64} (h : isNaN b = true) : isNaN (fmul a b) = true := by
  have none : mulVal (unpack a) .nan = none := by cases unpack a <;> rfl
  rw [fmul, unpack_nan h, none]
  exact nanOf_isNaN _ _ _

/-! ## Zeros -/

theorem isFinite_of_zero {x : F64} (h : magBits x = 0) : isFinite x = true :=
  decide_eq_true (by rw [h]; decide)

theorem magBits_pack_of_zero {n : Bool} {m : Nat} {e : Int} (h : (m : ℚ) * 2 ^ e ≤ 0) :
    magBits (pack n m e) = 0 := by
  rw [pack_mag]
  exact Nat.le_zero.mp (roundMag_le (by rwa [magValue_zero]))

theorem fval_of_zero {x : F64} (h : magBits x = 0) : fval x = 0 := by
  rw [← abs_eq_zero, abs_fval, h, magValue_zero]

theorem fmul_zero_left {a b : F64} (ha : magBits a = 0) (hb : isFinite b = true) :
    magBits (fmul a b) = 0 := by
  obtain ⟨n, m, e, product, value⟩ := fmul_finite (isFinite_of_zero ha) hb
  rw [product]
  refine magBits_pack_of_zero ?_
  rw [← abs_sval n, value, fval_of_zero ha]
  simp

theorem fadd_zeros {a b : F64} (ha : magBits a = 0) (hb : magBits b = 0) : magBits (fadd a b) = 0 := by
  obtain ⟨n, m, e, sum, value⟩ := fadd_finite (isFinite_of_zero ha) (isFinite_of_zero hb)
  rw [sum]
  refine magBits_pack_of_zero ?_
  rw [← abs_sval n, value, fval_of_zero ha, fval_of_zero hb]
  simp

theorem fsub_zeros {a b : F64} (ha : magBits a = 0) (hb : magBits b = 0) : magBits (fsub a b) = 0 := by
  rw [fsub_finite (isFinite_of_zero ha) (isFinite_of_zero hb)]
  exact fadd_zeros ha (by rwa [magBits_fneg])

theorem fsqrt_of_zero {x : F64} (h : magBits x = 0) : magBits (fsqrt x) = 0 := by
  obtain ⟨m, e, hu, hv, -, -⟩ := unpack_finite (isFinite_of_zero h)
  have mant : m = 0 := by
    rw [h, magValue_zero] at hv
    have scale : (2 : ℚ) ^ e ≠ 0 := by positivity
    exact_mod_cast (mul_eq_zero.mp hv).resolve_right scale
  have root : fsqrt x = zeroOf (signBit x) := by
    rw [fsqrt, hu]
    simp [sqrtVal, mant]
  rw [root]
  cases signBit x <;> decide

theorem fdiv_zero_left {a b : F64} (ha : magBits a = 0) (hb : isFinite b = true)
    (h0 : magBits b ≠ 0) : magBits (fdiv a b) = 0 := by
  obtain ⟨n, m, e, quotient, bound⟩ := fdiv_finite (isFinite_of_zero ha) hb h0
  rw [ha, magValue_zero, mul_zero] at bound
  have positive : 0 < magValue (magBits b) := by
    rw [← magValue_zero]
    exact magValue_lt_iff.mpr (by omega)
  rw [quotient]
  exact magBits_pack_of_zero (nonpos_of_mul_nonpos_left bound positive)

/-! ## Numbers within a power of two -/

/-- The magnitude bits of `2 ^ k`. -/
def powMag (k : Nat) : Nat := (1023 + k) * 2 ^ 52

theorem magValue_powMag (k : Nat) : magValue (powMag k) = 2 ^ k := by
  have quotient : powMag k / 2 ^ 52 = 1023 + k := Nat.mul_div_cancel _ (by decide)
  have rest : powMag k % 2 ^ 52 = 0 := Nat.mul_mod_left _ _
  have mant : magMant (powMag k) = 2 ^ 52 := by
    rw [magMant, quotient, rest, if_neg (by omega), Nat.zero_add]
  have exp : magExp (powMag k) = (k : Int) - (52 : Nat) := by
    rw [magExp, quotient, if_neg (by omega)]
    push_cast
    omega
  rw [magValue, mant, exp, zpow_sub₀ (by norm_num), zpow_natCast, zpow_natCast]
  push_cast
  field_simp
  norm_num

theorem powMag_lt {k : Nat} (h : k ≤ 1023) : powMag k < infMag64 := by
  unfold powMag infMag64
  omega

/-- `x` is at most `2 ^ k` in magnitude, where `2 ^ k` is itself finite. -/
abbrev Within (k : Nat) (x : F64) : Prop := k ≤ 1023 ∧ magBits x ≤ powMag k

section Bounds

variable {j k : Nat} {a b : F64}

theorem Within.isFinite (h : Within k a) : Sys2Proof.isFinite a = true :=
  decide_eq_true (h.2.trans_lt (powMag_lt h.1))

theorem Within.value (h : Within k a) : magValue (magBits a) ≤ 2 ^ k := by
  rw [← magValue_powMag]
  exact magValue_le_iff.mpr h.2

theorem within_pack {n : Bool} {m : Nat} {e : Int} (hk : k ≤ 1023) (h : (m : ℚ) * 2 ^ e ≤ 2 ^ k) :
    Within k (pack n m e) := by
  refine ⟨hk, ?_⟩
  rw [pack_mag]
  exact roundMag_le (by rwa [magValue_powMag])

theorem Within.fmul (ha : Within j a) (hb : Within k b) (h : j + k ≤ 1023) :
    Within (j + k) (fmul a b) := by
  obtain ⟨n, m, e, product, value⟩ := fmul_finite ha.isFinite hb.isFinite
  rw [product]
  refine within_pack h ?_
  rw [← abs_sval n, value, abs_mul, abs_fval, abs_fval, pow_add]
  exact mul_le_mul ha.value hb.value (magValue_nonneg _) (by positivity)

theorem Within.fdiv (ha : Within j a) (hb : Sys2Proof.isFinite b = true)
    (one : 1 ≤ magValue (magBits b)) (h : j + 1 ≤ 1023) : Within (j + 1) (fdiv a b) := by
  have nonzero : magBits b ≠ 0 := by
    intro zero
    rw [zero, magValue_zero] at one
    norm_num at one
  obtain ⟨n, m, e, quotient, bound⟩ := fdiv_finite ha.isFinite hb nonzero
  rw [quotient]
  refine within_pack h ?_
  have nonneg : (0 : ℚ) ≤ m * 2 ^ e := by positivity
  calc (m : ℚ) * 2 ^ e ≤ m * 2 ^ e * magValue (magBits b) := le_mul_of_one_le_right nonneg one
    _ ≤ 2 * magValue (magBits a) := bound
    _ ≤ 2 ^ (j + 1) := by rw [pow_succ']; exact mul_le_mul_of_nonneg_left ha.value (by norm_num)

theorem Within.fneg (h : Within k a) : Within k (fneg a) := by
  unfold Within
  rw [magBits_fneg]
  exact h

theorem Within.fsub (ha : Within k a) (hb : Within k b) (h : k + 1 ≤ 1023) :
    Within (k + 1) (fsub a b) := by
  rw [fsub_finite ha.isFinite hb.isFinite]
  obtain ⟨n, m, e, sum, value⟩ := fadd_finite ha.isFinite hb.fneg.isFinite
  rw [sum]
  refine within_pack h ?_
  rw [← abs_sval n, value, pow_succ', two_mul]
  refine (abs_add_le _ _).trans (add_le_add ?_ ?_)
  · rw [abs_fval]
    exact ha.value
  · rw [abs_fval]
    exact hb.fneg.value

theorem within_natToF64 {n : Nat} (hk : k ≤ 1023) (h : n ≤ 2 ^ k) : Within k (natToF64 n) :=
  within_pack hk (by simpa using (by exact_mod_cast h : (n : ℚ) ≤ 2 ^ k))

theorem one_le_natToF64 {n : Nat} (h : 1 ≤ n) : 1 ≤ magValue (magBits (natToF64 n)) := by
  have one : magValue (powMag 0) = 1 := by rw [magValue_powMag, pow_zero]
  rw [natToF64, pack_mag, ← one]
  refine magValue_le_iff.mpr (le_roundMag (powMag_lt (by decide)).le ?_)
  rw [one]
  simpa using (by exact_mod_cast h : (1 : ℚ) ≤ n)

theorem Within.of_sineOk (h : sineOk a = true) : Within 1 a := by
  have low : orderKey (Sys2Proof.fneg cSineBound) = -0x3FF000010C6F7A0B := by decide
  have high : orderKey cSineBound = 0x3FF000010C6F7A0B := by decide
  obtain ⟨below, above⟩ := (sineOk_iff a).mp h
  simp only [fle, Bool.and_eq_true, decide_eq_true_eq, low, high] at below above
  refine ⟨by decide, ?_⟩
  rw [← orderKey_natAbs]
  unfold powMag
  omega

end Bounds

/-! ## The logarithm from the floor on (R324, R384) -/

theorem isFinite_of_pos {x : F64} (pos : flt pZero x = true) (h : x ≠ pInf) : isFinite x = true := by
  obtain ⟨-, notNaN, -⟩ := (flt_iff _ _).mp pos
  refine (isFinite_iff x).mpr ⟨notNaN, Bool.eq_false_iff.mpr fun infinite => h ?_⟩
  have mag : magBits x = infMag64 := by simpa [isInf] using infinite
  exact eq_of_sign_mag (signBit_of_pos pos) mag

theorem numLog10_nan {x : F64} (h : isNaN x = true) : isNaN (numLog10 x) = true := by
  rw [numLog10, if_pos h]
  exact nanOf_isNaN _ _ _

theorem numLog10_floor : numLog10 cMagFloor = cMinusTen := by
  rw [numLog10, if_neg (by decide), if_pos rfl]

theorem numLog10_pInf : numLog10 pInf = pInf := by
  rw [numLog10, if_neg (by decide), if_neg (by decide), if_pos rfl]

/-- From the floor on, the logarithm of a finite number is finite and not below −10. -/
theorem numLog10_ge {x : F64} (h : fle cMagFloor x = true) (finite : x ≠ pInf) :
    isFinite (numLog10 x) = true ∧ fle cMinusTen (numLog10 x) = true := by
  obtain ⟨-, notNaN, le⟩ := (fle_iff _ _).mp h
  have pos : flt pZero x = true := flt_of_lt_of_le (b := cMagFloor) (by decide) h
  by_cases floor : x = cMagFloor
  · rw [floor, numLog10_floor]
    decide
  · have positive : isPositive x = true := by simp [isPositive, isFinite_of_pos pos finite, pos]
    have last : log10Ok x pZero = true := by
      simp [log10Ok, lnOk, show isFinite pZero = true by decide, show fle pZero pZero = true by decide,
        show fle cMinusTen pZero = true by decide]
    have ok : log10Ok x (numLog10 x) = true := by
      rw [numLog10, if_neg (Bool.eq_false_iff.mp notNaN), if_neg floor, if_neg finite, if_pos positive]
      exact numBounded_ok last
    have notBelow : flt x cMagFloor = false :=
      Bool.eq_false_iff.mpr fun below => ((flt_iff _ _).mp below).2.2.not_ge le
    simp only [log10Ok, lnOk, notBelow, Bool.or_false, Bool.and_eq_true] at ok
    obtain ⟨⟨isFin, -⟩, ge⟩ := ok
    exact ⟨isFin, ge⟩

/-- The value of a pattern from its sign, mantissa and exponent. -/
theorem fval_of_parts {x : F64} {n : Bool} {m : Nat} {e : Int} (sign : signBit x = n)
    (mant : magMant (magBits x) = m) (exp : magExp (magBits x) = e) : fval x = sval n m e := by
  rw [fval, magValue, sign, mant, exp, sval]

theorem fval_cTwenty : fval cTwenty = 20 :=
  (fval_of_parts (n := false) (m := 5 * 2 ^ 50) (e := -48) (by decide) (by decide) (by decide)).trans
    (by norm_num [sval])

theorem fval_cMinusTen : fval cMinusTen = -10 :=
  (fval_of_parts (n := true) (m := 5 * 2 ^ 50) (e := -49) (by decide) (by decide) (by decide)).trans
    (by norm_num [sval])

theorem fval_neg_c200 : fval (fneg c200) = -200 :=
  (fval_of_parts (n := true) (m := 25 * 2 ^ 48) (e := -45) (by decide) (by decide) (by decide)).trans
    (by norm_num [sval])

namespace Machine

/-! ## One bin (R324) -/

/-- The scaled magnitude of a bin, before the floor. -/
def scaledMagnitude (n : Nat) (re im : F64) : F64 :=
  fdiv (fsqrt (fadd (fmul re re) (fmul im im))) (natToF64 n)

theorem binMagnitude_eq (n : Nat) (re im : F64) :
    binMagnitude n re im = fmul cTwenty (numLog10 (fmax (scaledMagnitude n re im) cMagFloor)) := rfl

/-- The decibels of a number not below the floor. -/
theorem decibels_ge {v : F64} (h : fle cMagFloor v = true) :
    fle (fneg c200) (fmul cTwenty (numLog10 v)) = true := by
  by_cases infinite : v = pInf
  · rw [infinite, numLog10_pInf]
    decide
  · obtain ⟨finite, ge⟩ := numLog10_ge h infinite
    obtain ⟨-, -, ge⟩ := (fle_iff _ _).mp ge
    obtain ⟨n, m, e, product, value⟩ := fmul_finite (a := cTwenty) (by decide) finite
    rw [product]
    refine le_pack (by decide) ?_
    rw [fval_cMinusTen] at ge
    rw [value, fval_cTwenty, fval_neg_c200]
    linarith

theorem binMagnitude_ge (n : Nat) (re im : F64) :
    isNaN (binMagnitude n re im) = true ∨ fle (fneg c200) (binMagnitude n re im) = true := by
  rw [binMagnitude_eq]
  cases nan : isNaN (scaledMagnitude n re im) with
  | true =>
    have kept : fmax (scaledMagnitude n re im) cMagFloor = scaledMagnitude n re im :=
      if_neg (by simp [flt, nan])
    rw [kept]
    exact .inl (fmul_nan_right _ (numLog10_nan nan))
  | false => exact .inr (decibels_ge (fmax_ge nan (by decide)))

theorem binMagnitude_of_below {n : Nat} {re im : F64}
    (h : flt (scaledMagnitude n re im) cMagFloor = true) : binMagnitude n re im = fneg c200 := by
  rw [binMagnitude_eq, fmax, if_pos h, numLog10_floor]
  decide

/-- A bin of zeros reads the floor. -/
theorem binMagnitude_of_zeros {n : Nat} {re im : F64} (hn : 1 ≤ n) (small : n ≤ 2 ^ 10)
    (hre : magBits re = 0) (him : magBits im = 0) : binMagnitude n re im = fneg c200 := by
  have finite : isFinite (natToF64 n) = true := (within_natToF64 (by decide) small).isFinite
  have nonzero : magBits (natToF64 n) ≠ 0 := by
    intro zero
    have one := one_le_natToF64 hn
    rw [zero, magValue_zero] at one
    norm_num at one
  have squares : magBits (fadd (fmul re re) (fmul im im)) = 0 :=
    fadd_zeros (fmul_zero_left hre (isFinite_of_zero hre)) (fmul_zero_left him (isFinite_of_zero him))
  have zero : magBits (scaledMagnitude n re im) = 0 :=
    fdiv_zero_left (fsqrt_of_zero squares) finite nonzero
  refine binMagnitude_of_below ((flt_iff _ _).mpr ⟨not_nan_of_finite (isFinite_of_zero zero), by decide, ?_⟩)
  rw [fval_of_zero zero, ← fval_pZero]
  exact ((flt_iff _ _).mp (show flt pZero cMagFloor = true by decide)).2.2

/-! ## The factors of the transform are finite (R321, R323) -/

/-- An angle `(c·k)/m` of the window or of a twiddle factor, the integers at most 1024, is finite. -/
theorem angle_isFinite {c : F64} {k m : Nat} (hc : Within 3 c) (hk : k ≤ 2 ^ 10) (hm : 1 ≤ m)
    (small : m ≤ 2 ^ 10) : isFinite (fdiv (fmul c (natToF64 k)) (natToF64 m)) = true := by
  have product := hc.fmul (within_natToF64 (by decide) hk) (by decide)
  exact (product.fdiv (within_natToF64 (by decide) small).isFinite (one_le_natToF64 hm)
    (by decide)).isFinite

theorem hann_isFinite {n k : Nat} (hn : 2 ≤ n) (small : n ≤ 2 ^ 10) (hk : k < n) :
    isFinite (hann n k) = true := by
  have cosine := numCos_bound (angle_isFinite (c := cTwoPi) (by decide) (by omega : k ≤ 2 ^ 10)
    (by omega : 1 ≤ n - 1) (by omega))
  have difference := Within.fsub (a := cOne) (by decide) (Within.of_sineOk cosine) (by decide)
  exact (Within.fmul (a := cHalf) (j := 0) (by decide) difference (by decide)).isFinite

/-! ## Zeros stay zeros (R325) -/

/-- Every entry is a zero of either sign. -/
def AllZero (l : List F64) : Prop := ∀ y ∈ l, magBits y = 0

/-- Both work arrays hold zeros only. -/
def Work.Zero (w : Work) : Prop := AllZero w.re ∧ AllZero w.im

theorem AllZero.getD {l : List F64} (h : AllZero l) (i : Nat) : magBits (l.getD i pZero) = 0 := by
  rw [List.getD_eq_getElem?_getD]
  cases found : l[i]? with
  | none => decide
  | some y => exact h y (List.mem_of_getElem? found)

theorem AllZero.set {l : List F64} (h : AllZero l) {y : F64} (hy : magBits y = 0) (i : Nat) :
    AllZero (l.set i y) := by
  intro z hz
  rcases List.mem_or_eq_of_mem_set hz with old | rfl
  · exact h z old
  · exact hy

theorem AllZero.swapAt {l : List F64} (h : AllZero l) (i j : Nat) : AllZero (swapAt l i j) :=
  (h.set (h.getD j) i).set (h.getD i) j

theorem loadWork_zero {n : Nat} {x : List F64} (hn : 2 ≤ n) (small : n ≤ 2 ^ 10) (hx : AllZero x) :
    (loadWork n x).Zero := by
  refine ⟨fun y hy => ?_, fun y hy => ?_⟩
  · obtain ⟨k, v, hk, hv, rfl⟩ : ∃ k v, k ∈ List.range n ∧ v ∈ x.drop (x.length - n) ∧
        fmul v (hann n k) = y := by
      obtain ⟨i, hi, rfl⟩ := List.mem_iff_getElem.mp hy
      simp only [loadWork, List.getElem_zipWith]
      exact ⟨_, _, List.getElem_mem _, List.getElem_mem _, rfl⟩
    exact fmul_zero_left (hx v (List.mem_of_mem_drop hv))
      (hann_isFinite hn small (List.mem_range.mp hk))
  · rw [List.eq_of_mem_replicate hy]
    decide

theorem bitReverse_zero {w : Work} (h : w.Zero) (b : Nat) : (bitReverse b w).Zero := by
  refine List.foldlRecOn _ _ h fun w hw i _ => ?_
  obtain ⟨re, im⟩ := hw
  split
  · exact ⟨re.swapAt _ _, im.swapAt _ _⟩
  · exact ⟨re, im⟩

theorem butterfly_zero {w : Work} (h : w.Zero) {size k : Nat} (hk : k ≤ 2 ^ 10) (hs : 1 ≤ size)
    (small : size ≤ 2 ^ 10) (start : Nat) : (butterfly size start w k).Zero := by
  have angle := angle_isFinite (c := fneg cTwoPi) (by decide) hk hs small
  have cosine := finite_of_sineOk (numCos_bound angle)
  have sine := finite_of_sineOk (numSin_bound angle)
  obtain ⟨re, im⟩ := h
  have tr := fsub_zeros (fmul_zero_left (re.getD (start + k + size / 2)) cosine)
    (fmul_zero_left (im.getD (start + k + size / 2)) sine)
  have ti := fadd_zeros (fmul_zero_left (re.getD (start + k + size / 2)) sine)
    (fmul_zero_left (im.getD (start + k + size / 2)) cosine)
  exact ⟨(re.set (fsub_zeros (re.getD _) tr) _).set (fadd_zeros (re.getD _) tr) _,
    (im.set (fsub_zeros (im.getD _) ti) _).set (fadd_zeros (im.getD _) ti) _⟩

theorem fftLoop_zero {w : Work} (h : w.Zero) {b : Nat} (hb : b ≤ 10) : (fftLoop b w).Zero := by
  refine List.foldlRecOn _ _ h fun w hw j hj => ?_
  have size : 2 ^ (j + 1) ≤ 2 ^ 10 :=
    Nat.pow_le_pow_right (by decide) (by have := List.mem_range.mp hj; omega)
  refine List.foldlRecOn _ _ hw fun w hw g _ => ?_
  refine List.foldlRecOn _ _ hw fun w hw k hk => ?_
  have := List.mem_range.mp hk
  exact butterfly_zero hw (by omega) Nat.one_le_two_pow size _

theorem transform_zero {b : Nat} {x : List F64} (hx : AllZero x) (hb : fftBits x.length = some b) :
    (transform b x).Zero := by
  obtain ⟨high, -⟩ := fftBits_le hb
  have low : 1 ≤ b := by
    by_contra none
    obtain rfl : b = 0 := by omega
    by_cases short : x.length < 64
    · rw [fftBits_of_short short] at hb
      cases hb
    · obtain ⟨b', hb', -, above⟩ := exists_fftBits (not_lt.mp short)
      obtain rfl : b' = 0 := Option.some.inj (hb'.symm.trans hb)
      omega
  have two : 2 ^ 1 ≤ 2 ^ b := Nat.pow_le_pow_right (by decide) low
  have small : 2 ^ b ≤ 2 ^ 10 := Nat.pow_le_pow_right (by decide) high
  exact fftLoop_zero (bitReverse_zero (loadWork_zero two small hx) b) high

/-- Settles O51: the logarithm from the floor on, the floor itself, and the transform of zeros. -/
theorem magnitudeFloor : Obligations.MagnitudeFloor := by
  refine ⟨binMagnitude_ge, fun _ _ _ => binMagnitude_of_below, fun x b hx hb k _ => ?_⟩
  obtain ⟨high, -⟩ := fftBits_le hb
  obtain ⟨re, im⟩ := transform_zero hx hb
  exact binMagnitude_of_zeros Nat.one_le_two_pow (Nat.pow_le_pow_right (by decide) high) (re.getD k)
    (im.getD k)

end Machine

end Sys2Proof
end

section
/-!
PROOFS. The filter bank (43_biquad.md R190 to R196): the three operations as one update of the selected cascade, what
a replaced cascade holds, and the invariant that a cascade fed with zeros keeps.
-/

namespace Sys2Proof

-- One declaration at a time, as in Tests: proofs elaborated in parallel each reserve a thread's stack.
set_option Elab.async false

theorem fmul_zero_right {a b : F64} (ha : isFinite a = true) (hb : magBits b = 0) :
    magBits (fmul a b) = 0 := by
  obtain ⟨n, m, e, product, value⟩ := fmul_finite ha (isFinite_of_zero hb)
  rw [product]
  refine magBits_pack_of_zero ?_
  rw [← abs_sval n, value, fval_of_zero hb]
  simp

/-- All five coefficients are finite. -/
structure Coeffs.Finite (c : Coeffs) : Prop where
  b0 : isFinite c.b0 = true
  b1 : isFinite c.b1 = true
  b2 : isFinite c.b2 = true
  a1 : isFinite c.a1 = true
  a2 : isFinite c.a2 = true

namespace Machine

/-! ## What the operations do once initialised (R192 to R194) -/

section Operations

variable {s : State} (h : s.ctl.initialised = true) (b : BqSel)

include h

theorem exec_bqProc (x : F64) :
    exec (.bqProc b x) s =
      .next ((s.cascadeProcessed b x).respond .bqProc b.code [cascadeOutput (s.cascade b) x]) :=
  State.withInit_true h _ _

theorem exec_bqReset : exec (.bqReset b) s = .next (s.setCascade b (cascadeReset (s.cascade b))) :=
  State.withInit_true h _ _

theorem exec_bqRepl {cs : List Coeffs} (hl : cs.length ≤ s.build.maxSections) :
    exec (.bqRepl b cs) s = .next (s.setCascade b (cascadeReplace (s.cascade b) cs)) :=
  (State.checkOperands_true (decide_eq_true hl) _ _).trans (State.withInit_true h _ _)

end Operations

/-- Settles O34: one write of the selected cascade and the response; the recurrence is the definition's own. -/
theorem bqProcFilters : Obligations.BqProcFilters := by
  intro s b x h
  refine ⟨⟨cascadeOutput (s.cascade b) x, cascadeNext (s.cascade b) x, cascadeNext_coeffs _ x, rfl, rfl, ?_⟩,
    rfl, fun _ _ => ⟨rfl, rfl⟩⟩
  rw [exec_bqProc h]
  cases b <;> rfl

/-! ## BQ.REPL where the section count changes (R194) -/

theorem cascadeReplace_rebuilds {old : List Section} {cs : List Coeffs} (h : cs.length ≠ old.length) :
    cascadeReplace old cs = cs.map zeroSection :=
  if_neg h

/-- Settles O35: both operations write the selected cascade, BQ.REPL with the state kept or rebuilt. -/
theorem bqWrites : Obligations.BqWrites := by
  intro s b cs h put
  refine ⟨?reset, fun hl => ⟨cascadeReplace (s.cascade b) cs, ?replaced, cascadeReplace_coeffs _ cs,
    cascadeReplace_keeps, fun differ z hz => ?rebuilt⟩⟩
  case reset =>
    rw [exec_bqReset h]
    cases b <;> rfl
  case replaced =>
    rw [exec_bqRepl h b hl]
    cases b <;> rfl
  case rebuilt =>
    rw [cascadeReplace_rebuilds differ] at hz
    obtain ⟨c, -, rfl⟩ := List.mem_map.mp hz
    exact ⟨rfl, rfl, rfl, rfl⟩

/-! ## Zeros in, zeros out (R196) -/

/-- A section with finite coefficients whose state is zeros of either sign. -/
structure Section.Silent (z : Section) : Prop where
  coeffs : z.c.Finite
  x1 : magBits z.x1 = 0
  x2 : magBits z.x2 = 0
  y1 : magBits z.y1 = 0
  y2 : magBits z.y2 = 0

theorem sectionOutput_zero {z : Section} (h : z.Silent) {x : F64} (hx : magBits x = 0) :
    magBits (sectionOutput z x) = 0 := by
  have feedforward := fadd_zeros
    (fadd_zeros (fmul_zero_right h.coeffs.b0 hx) (fmul_zero_right h.coeffs.b1 h.x1))
    (fmul_zero_right h.coeffs.b2 h.x2)
  exact fsub_zeros (fsub_zeros feedforward (fmul_zero_right h.coeffs.a1 h.y1))
    (fmul_zero_right h.coeffs.a2 h.y2)

theorem sectionNext_silent {z : Section} (h : z.Silent) {x : F64} (hx : magBits x = 0) :
    (sectionNext z x).Silent :=
  ⟨h.coeffs, hx, h.x1, sectionOutput_zero h hx, h.y1⟩

/-- Every section of a cascade is silent. -/
def Silent (l : List Section) : Prop := ∀ z ∈ l, z.Silent

theorem silent_cons {z : Section} {l : List Section} : Silent (z :: l) ↔ z.Silent ∧ Silent l :=
  List.forall_mem_cons

theorem cascadeOutput_zero {l : List Section} (h : Silent l) {x : F64} (hx : magBits x = 0) :
    magBits (cascadeOutput l x) = 0 := by
  induction l generalizing x with
  | nil => exact hx
  | cons z l ih =>
    obtain ⟨head, tail⟩ := silent_cons.mp h
    exact ih tail (sectionOutput_zero head hx)

theorem cascadeNext_silent {l : List Section} (h : Silent l) {x : F64} (hx : magBits x = 0) :
    Silent (cascadeNext l x) := by
  induction l generalizing x with
  | nil => exact h
  | cons z l ih =>
    obtain ⟨head, tail⟩ := silent_cons.mp h
    exact silent_cons.mpr ⟨sectionNext_silent head hx, ih tail (sectionOutput_zero head hx)⟩

/-- Settles O36: silence is kept by every input of the list, and a silent cascade answers zero with zero. -/
theorem bqZeroStaysZero : Obligations.BqZeroStaysZero := by
  intro l xs x start inputs hx
  have silent : Silent l := fun z hz => by
    obtain ⟨x1, x2, y1, y2, b0, b1, b2, a1, a2⟩ := start z hz
    exact ⟨⟨b0, b1, b2, a1, a2⟩, x1, x2, y1, y2⟩
  have after : Silent (xs.foldl cascadeNext l) :=
    List.foldlRecOn _ _ silent fun _ kept y hy => cascadeNext_silent kept (inputs y hy)
  exact cascadeOutput_zero after hx

end Machine

end Sys2Proof
end
